-- ==== Sys2Proof/Word.lean ====
section
/-!
DEFINITION. The words of the WB624 and their plainest arithmetic.
-/

namespace Sys2Proof

/-- A byte of a frame, of a tag record or of the program memory (10). -/
abbrev Byte := BitVec 8

/-- A 16-bit word: the round count, the line constants digest, an option set, the status word. -/
abbrev Word16 := BitVec 16

/-- A body's serial as its three bytes carry it (10.1, 10.2). -/
abbrev Word24 := BitVec 24

/-- A conveyor position or the library tag (R1, R22). -/
abbrev Word32 := BitVec 32

/-- Two bytes, the most significant first (Conventions, Byte layouts). -/
def be16 (hi lo : Byte) : Word16 := hi ++ lo

/-- Three bytes, the most significant first. -/
def be24 (b2 b1 b0 : Byte) : Word24 := b2 ++ b1 ++ b0

/-- Four bytes, the most significant first. -/
def be32 (b3 b2 b1 b0 : Byte) : Word32 := b3 ++ b2 ++ b1 ++ b0

/-- Byte `n` of a word, counted from the least significant. -/
def byteOf {w : Nat} (n : Nat) (x : BitVec w) : Byte := x.extractLsb' (8 * n) 8

/-- The two bytes of a word as they are sent. -/
def bytes16 (x : Word16) : List Byte := [byteOf 1 x, byteOf 0 x]

/-- The three bytes of a serial as they are sent. -/
def bytes24 (x : Word24) : List Byte := [byteOf 2 x, byteOf 1 x, byteOf 0 x]

/-- The four bytes of a library tag as they are sent. -/
def bytes32 (x : Word32) : List Byte := [byteOf 3 x, byteOf 2 x, byteOf 1 x, byteOf 0 x]

end Sys2Proof
end

