-- ==== Sys2Proof/Syntax.lean ====
section
/-!
DEFINITION. The commands of the WB624: one constructor of `Instr` for each row of spec/opcode_table.json, with what
the event brings into the part as its operands.
-/

namespace Sys2Proof

/-- A channel: one robot and its weld timer, served by one point engine (Table 2). -/
inductive Chan where
  | a
  | b
  deriving DecidableEq, Repr

/-- The two encoder lines (Table 5). -/
inductive EncLine where
  | encA
  | encB
  deriving DecidableEq, Repr

/-- The two filtered body sensors (R49). -/
inductive SensorLine where
  | bodyIn
  | zoneOut
  deriving DecidableEq, Repr

/-- The pin levels the part samples at the end of LOADING (R129, R179): the encoder pair, the two sensors, the eight
auxiliary inputs, bit i being AUX_IN i, true being a high pin; and whether LINE_RX is idle. -/
structure PinSample where
  encA : Bool
  encB : Bool
  bodyIn : Bool
  zoneOut : Bool
  aux : BitVec 8
  lineIdle : Bool
  deriving DecidableEq, Repr

/-- The steps of the part, in the order of spec/opcode_table.json. -/
inductive Instr where
  /-- RESET (R176): power-on or RESET_N takes hold. -/
  | reset
  /-- STRAP_READING (R177): reset is released with these levels on ADDR0..4, ADDR0 the least significant. -/
  | strapReading (straps : BitVec 5)
  /-- HEADER_PASS (R9): these bytes have been read from program memory address 0 on. -/
  | headerPass (image : List Byte)
  /-- STYLE_PASS (R10): these bytes have been read as the style table. -/
  | stylePass (image : List Byte)
  /-- DIRECTORY_PASS (R12): these bytes have been read as the program directory. `pins` are the input levels, sampled
  if LOADING ends with this pass (R18). -/
  | directoryPass (image : List Byte) (pins : PinSample)
  /-- PROGRAM_PASS (R13): these bytes have been read as the point records of the next unmarked program. `pins` are the
  input levels, sampled if LOADING ends with this pass (R18). -/
  | programPass (image : List Byte) (pins : PinSample)
  /-- COUNT_CHANGE (R23): one encoder line has changed. -/
  | countChange (line : EncLine)
  /-- ILLEGAL_TRANSITION (R24): both encoder lines have changed. -/
  | illegalTransition
  /-- HALT_TIMER_EXPIRY (R27): the halt timer has run for the halt time. -/
  | haltTimerExpiry
  /-- HELD_READ_EXPIRY (R57): the discharge of the held read watch is taken. -/
  | heldReadExpiry
  /-- PAIRING_WAIT_EXPIRY (R58): the discharge of the pairing watch is taken. -/
  | pairingWaitExpiry
  /-- ZONE_LENGTH_EVENT (R33): the discharge of the zone length watch is taken. -/
  | zoneLengthEvent
  /-- ARRIVAL (R50): the raw level of BODY_IN has held active for the filter time. -/
  | arrival
  /-- ZONE_EXIT (R59): the raw level of ZONE_OUT has held active for the filter time. -/
  | zoneExit
  /-- TAG_BYTE (R54): a byte has been received on TAG_RX, with its stop bit high or low. -/
  | tagByte (byte : Byte) (stopHigh : Bool)
  /-- TAG_BYTE_TIMEOUT (R54): 2 ms since the last byte of a record being assembled, with no new byte begun. -/
  | tagByteTimeout
  /-- PSTB_PULSE_END (R69): the running PSTB pulse has lasted its 10 µs. -/
  | pstbPulseEnd (c : Chan)
  /-- AT_PT_RISE (R72): a rising edge of AT_PT. -/
  | atPtRise (c : Chan)
  /-- REACH_EXPIRY (R74): the reach timer has run for the reach limit. -/
  | reachExpiry (c : Chan)
  /-- WINDOW_OPEN (R75): the engine takes the window open event. -/
  | windowOpen (c : Chan)
  /-- WINDOW_CLOSE (R73): the engine takes the window close event. -/
  | windowClose (c : Chan)
  /-- AUX_RAW_CHANGE (R156): the pin of an auxiliary input has changed to this level. -/
  | auxRawChange (line : Fin 8) (pinHigh : Bool)
  /-- AUX_FILTER_EXPIRY (R156): an input's filter timer has reached the filter time. -/
  | auxFilterExpiry (line : Fin 8)
  /-- WDONE_RISE (R81): a rising edge of WDONE, with the level of WFAULT at that moment. -/
  | wdoneRise (c : Chan) (wfaultActive : Bool)
  /-- WFAULT_RISE (R81): a rising edge of WFAULT. -/
  | wfaultRise (c : Chan)
  /-- CARRIER_START (R129): a start bit on an idle line. -/
  | carrierStart
  /-- CARRIER_TIMEOUT (R129): the carrier has not ended 1.40 ms after its first start bit. -/
  | carrierTimeout
  /-- CARRIER_END (R135): the line has stayed idle for 3 µs after a stop bit; these bytes were received, and a stop bit
  among them was low or not. A line held busy by a carrier not taken becomes idle by it too (R129, log 25). -/
  | carrierEnd (bytes : List Byte) (framingError : Bool)
  /-- NO_ECHO_TIMEOUT (R131): 3 µs after the own frame's last stop bit no carrier has begun. -/
  | noEchoTimeout
  /-- JABBER_CUT (R142): the transmitter has been on for 1.40 ms. -/
  | jabberCut
  /-- OWN_TURN_START (R140): 8 µs after the reference point of the own turn. -/
  | ownTurnStart
  /-- JOIN_FRAME_START (R150): 5 µs after the start of the own vacancy window. -/
  | joinFrameStart
  /-- LAPSE (R144): the lapse point of a turn, with no carrier begun. -/
  | lapse
  /-- VACANCY_WINDOW_END (R134): the end of a vacancy window, with no carrier begun. -/
  | vacancyWindowEnd
  /-- CLAIM_EXPIRY (R104): the feeder table expires what the round count has reached. -/
  | claimExpiry
  /-- JOIN_HOLD_END (R149): the join hold count has reached the hold ceiling + 2. -/
  | joinHoldEnd
  /-- FOUNDING (R148): the founding silence timer has run out. -/
  | founding
  /-- SENSOR_RAW_LEVEL_CHANGE (R49): the raw level of a sensor has changed to this level. -/
  | sensorRawLevelChange (line : SensorLine) (level : Bool)
  /-- SENSOR_FALLING_EDGE (R49): the raw level of a sensor has held inactive for the filter time. -/
  | sensorFallingEdge (line : SensorLine)
  /-- TRANSMISSION_END (R131): the last stop bit of the own frame has ended. -/
  | transmissionEnd
  deriving DecidableEq, Repr

end Sys2Proof
end

