-- ==== Sys2Proof/Decode.lean ====
section
/-!
DEFINITION. Reading a command from a word by the bits of spec/opcode_table.json. No row of the table gives bits
(every row's list of fields is empty), so no word spells a command (log 22).
-/

namespace Sys2Proof

/-- The command that the `nbits` low bits of `w` spell by the table's bits: none, whatever the word. -/
def decodeTableWord (_nbits _w : Nat) : Option Instr := none

end Sys2Proof
end

