-- ==== Sys2Proof/Config.lean ====
section
/-!
DEFINITION. The numbers the manual fixes for every WB624: capacities, and the lengths of its timers in µs.
The manual leaves no result open, so there is no free value here (INVENTORY.md, What the manual leaves open).
-/

namespace Sys2Proof.Config

/-- Entries of the body register (R37). -/
def registerCapacity : Nat := 24

/-- Entries of the orphan list (R99). -/
def orphanCapacity : Nat := 8

/-- Items of the outbox (R137). -/
def outboxCapacity : Nat := 16

/-- Items of one frame (R138). -/
def frameItems : Nat := 32

/-- Bytes the items of one frame may take (R130, R138). -/
def frameItemBytes : Nat := 229

/-- Entries of a RESULT's defect list (R169). -/
def defectEntries : Nat := 16

/-- Ages of a round from here on lie ahead of the count (R97, R104). -/
def roundsAhead : Nat := 32768

/-- The highest station address (R127). -/
def lastAddress : Nat := 30

/-- Consecutive jabber cuts that take the station OFF LINE (R142). -/
def jabberLimit : Nat := 3

/-- Boundaries a joining station waits beyond the hold ceiling (R149). -/
def joinMargin : Nat := 2

/-- The filter of BODY_IN and ZONE_OUT (R49), in µs. -/
def sensorFilter : Nat := 2000

/-- The longest wait for the next byte of a tag record (R54), in µs. -/
def tagByteWait : Nat := 2000

/-- One PSTB pulse (R69), in µs. -/
def strobePulse : Nat := 10

/-- One step of the halt time (R3), in µs. -/
def haltStep : Nat := 10000

/-- One step of the reach limit (R3), in µs. -/
def reachStep : Nat := 100000

/-- One step of an auxiliary input's filter time (R155), in µs. -/
def filterStep : Nat := 1000

/-- The founding silence of address `a` (R148), in µs. -/
def foundingSilence (a : Nat) : Nat := 2000 + a * 100

end Sys2Proof.Config
end

