-- ==== Sys2Proof/Machine/State.lean ====
section
/-!
DEFINITION. The state of a WB624 as plain data, block by block, and its value after reset. INVENTORY.md lists each
field with the rule that names it. Where the spec gives no reset value, log 6 names the one taken.
-/

namespace Sys2Proof.Machine

/-- Why a command stops the part: no reason. No rule of the spec stops the part on a command, so there is nothing to
raise; what the manual calls faults are states of the part (INVENTORY.md, Faults). Safe: nothing can stop here. -/
inductive Fault where
  deriving DecidableEq, Repr

/-- Why the model gives a command no meaning. -/
inductive Refusal where
  /-- Raised by `exec` alone, for a row without a meaning; no row is left without one. Safe: the model stops. -/
  | notModelled (mnemonic : String)
  deriving DecidableEq, Repr

/-- A timer of the part: stopped, or running towards a limit in µs. Its expiry is a command (log 2). -/
inductive Timer where
  | stopped
  | running (limit : Nat)
  deriving DecidableEq, Repr

/-! ## Program store (01) -/

/-- Admission policy (R119, R120). -/
inductive Policy where
  | strict
  | fill
  deriving DecidableEq, Repr

/-- Precedence order (R115). -/
inductive Order where
  | fixed
  | rotating
  deriving DecidableEq, Repr

/-- The line constants (R2, Table 7) and the digest computed from them. -/
structure LineConsts where
  budget : Nat
  policy : Policy
  order : Order
  fillGuard : Nat
  holdCeiling : Nat
  digest : Word16
  deriving DecidableEq, Repr

/-- The event edge of an auxiliary input (Table 34). -/
inductive EventEdge where
  | never
  | onActive
  | onInactive
  | both
  deriving DecidableEq, Repr

/-- The configuration of one auxiliary input (Table 34); `filter` in ms. -/
structure AuxInCfg where
  used : Bool
  activeLow : Bool
  edge : EventEdge
  filter : Nat
  deriving DecidableEq, Repr

/-- The drive of an auxiliary output (Table 35). -/
inductive Drive where
  | pushPull
  | openDrainLow
  | openDrainHigh
  deriving DecidableEq, Repr

/-- The configuration of one auxiliary output (Table 35). -/
structure AuxOutCfg where
  used : Bool
  drive : Drive
  activeLow : Bool
  initialActive : Bool
  deriving DecidableEq, Repr

/-- The station constants (R3, Table 8). `haltTime` in steps of 10 ms, `reachLimit` in steps of 100 ms. -/
structure StationConsts where
  enableA : Bool
  enableB : Bool
  reader : Bool
  exit : Bool
  zoneLength : Nat
  hysteresis : Nat
  haltTime : Nat
  reachLimit : Nat
  tagWait : Nat
  auxIn : Vector AuxInCfg 8
  auxOut : Vector AuxOutCfg 8
  deriving DecidableEq, Repr

/-- A style table entry (R4); `none` is no program. -/
structure StyleEntry where
  style : Nat
  progA : Option Nat
  progB : Option Nat
  deriving DecidableEq, Repr

/-- A program directory entry (R5). -/
structure DirEntry where
  first : Nat
  count : Nat
  check : Word16
  deriving DecidableEq, Repr

/-- An option condition (R7): flag `index` must be present when `required`, absent otherwise. -/
structure OptionCond where
  index : Nat
  required : Bool
  deriving DecidableEq, Repr

/-- Gate kinds (R8). -/
inductive GateKind where
  | level
  | event
  deriving DecidableEq, Repr

/-- A gate (R6): an auxiliary input line and the kind. -/
structure Gate where
  line : Fin 8
  kind : GateKind
  deriving DecidableEq, Repr

/-- An action (R6): an output line, the outcomes it applies to, and the level. -/
structure Action where
  line : Fin 8
  always : Bool
  level : Bool
  deriving DecidableEq, Repr

/-- A point record (R6, Table 56). -/
structure PointRec where
  schedule : Nat
  load : Nat
  hold : Nat
  windowOpen : Nat
  windowClose : Nat
  cond : Option OptionCond
  gate : Option Gate
  action : Option Action
  deriving DecidableEq, Repr

/-- Fault kinds (Table 12). -/
inductive FaultKind where
  | noFault
  | marker
  | version
  | headerCheck
  | digest
  | headerRange
  | styleEntry
  | undefinedProgram
  | directoryRange
  | programCheck
  | schedule
  | loadRange
  | loadOverBudget
  | holdRange
  | holdOverCeiling
  | windowOrder
  | windowBeyondZone
  | optionIndex
  | gateLine
  | actionLine
  deriving DecidableEq, Repr

/-- The first-fault record (R16). -/
structure FirstFault where
  kind : FaultKind
  program : Nat
  point : Nat
  deriving DecidableEq, Repr

/-- What LOADING takes next: R177, then the four passes of 1.3. -/
inductive LoadPhase where
  | straps
  | header
  | styles
  | directory
  | points (program : Nat)
  | ended
  deriving DecidableEq, Repr

/-- The program store (R1, Table 6). `points` holds the records read so far, keyed by position in the point array. -/
structure Store where
  line : Option LineConsts
  station : Option StationConsts
  tag : Word32
  styleCount : Nat
  programCount : Nat
  totalPoints : Nat
  styles : List StyleEntry
  directory : List DirEntry
  points : List (Nat × PointRec)
  marks : Vector Bool 128
  firstFault : FirstFault
  phase : LoadPhase
  deriving DecidableEq, Repr

/-! ## Conveyor counter (02) -/

/-- The motion state (R27). -/
inductive Motion where
  | moving
  | halted
  deriving DecidableEq, Repr

/-- A distance watch (R30). `due` is an armed watch whose discharge has come and is not yet taken (log 11). -/
inductive Watch where
  | disarmed
  | armed (r : Word32) (d : Nat)
  | due
  deriving DecidableEq, Repr

/-- The window states of a current point (2.7). -/
inductive WindowState where
  | notYet
  | opened
  | closed
  deriving DecidableEq, Repr

/-- A channel's window: its state, and the events the engine has not yet taken (R34 to R36). -/
structure Window where
  state : WindowState
  openDue : Bool
  closeDue : Bool
  deriving DecidableEq, Repr

/-- The conveyor counter (R21, Table 13). `quad` is the quadrature reference (ENC_A, ENC_B). -/
structure Counter where
  quad : Option (Bool × Bool)
  raw : Word32
  tracked : Word32
  motion : Motion
  haltTimer : Timer
  heldWatch : Watch
  pairWatch : Watch
  zoneWatch : Watch
  windowA : Option Window
  windowB : Option Window
  deriving DecidableEq, Repr

/-! ## Body tracker (03) -/

/-- Local marks (R38). -/
inductive Mark where
  | ahead
  | here
  | passed
  | notMine
  deriving DecidableEq, Repr

/-- A body register entry (Table 17) with its local mark. -/
structure Entry where
  serial : Word24
  style : Byte
  options : Word16
  announcer : Nat
  disputed : Bool
  mark : Mark
  deriving DecidableEq, Repr

/-- Outcomes of a point (Table 21). -/
inductive PointOutcome where
  | welded
  | skipped
  | missed
  | faulted
  | overrun
  | cut
  | stalled
  | withheld
  deriving DecidableEq, Repr

/-- A resolution answer (R19). `program` of `failed` is the marked program named. -/
inductive Answer where
  | absent
  | failed (program count : Nat)
  | good (program count : Nat)
  deriving DecidableEq, Repr

/-- The per-channel part of a BOUND record (R47): the answer, and one place for each point. -/
structure ChannelPart where
  answer : Answer
  places : List (Option PointOutcome)
  deriving DecidableEq, Repr

/-- The identity of a BOUND body (R46). -/
structure Body where
  serial : Word24
  style : Byte
  options : Word16
  disputed : Bool
  listed : Bool
  partA : ChannelPart
  partB : ChannelPart
  deriving DecidableEq, Repr

/-- The zone record (R46). -/
inductive Zone where
  | empty
  | pairing (datum : Word32)
  | bound (datum : Word32) (body : Body)
  | stray (datum : Word32)
  deriving DecidableEq, Repr

/-- A held read (R48). -/
structure HeldRead where
  serial : Word24
  style : Byte
  options : Word16
  position : Word32
  deriving DecidableEq, Repr

/-- A filtered sensor (R49). -/
structure Sensor where
  raw : Bool
  filtered : Bool
  wait : Timer
  deriving DecidableEq, Repr

/-- The body tracker with its sensors and tag receiver. `tagBytes` are the bytes taken, none of them when idle. -/
structure Tracker where
  register : List Entry
  zone : Zone
  held : Option HeldRead
  bodyIn : Sensor
  zoneOut : Sensor
  tagBytes : List Byte
  tagTimer : Timer
  deriving DecidableEq, Repr

/-! ## Point engines (04) -/

/-- Engine states (Table 19). -/
inductive EngineState where
  | idle
  | positioning
  | gated
  | requesting
  | firing
  | finished
  | held
  deriving DecidableEq, Repr

/-- The running program of an engine. -/
structure Running where
  program : Nat
  count : Nat
  deriving DecidableEq, Repr

/-- A standing request (R77). `round` is none while the station holds no round count. -/
structure Request where
  point : Nat
  load : Nat
  hold : Nat
  round : Option Word16
  number : Byte
  deriving DecidableEq, Repr

/-- A point engine (R65, Table 19) with the lines it drives (Table 20). The PSTB line is high while `pstb` runs. -/
structure Engine where
  state : EngineState
  cursor : Option Nat
  running : Option Running
  options : Word16
  reach : Timer
  pendingStrobe : Option Nat
  faults : Nat
  request : Option Request
  requestNumber : Byte
  pt : BitVec 8
  pstb : Timer
  sch : BitVec 6
  fire : Bool
  deriving DecidableEq, Repr

/-! ## Feeder view (05) -/

/-- A published slot (R96). -/
inductive Slot where
  | empty
  | waiting (load : Nat) (round : Word16)
  | active (load : Nat) (admitted : Word16) (hold : Nat)
  deriving DecidableEq, Repr

/-- What the view keeps for one address (Table 25): two slots, their retained marks, the digest mark. -/
structure AddrRow where
  slotA : Slot
  slotB : Slot
  retainedA : Bool
  retainedB : Bool
  digestMark : Bool
  deriving DecidableEq, Repr

/-- An orphan (R99). -/
structure Orphan where
  address : Nat
  channel : Chan
  load : Nat
  expire : Word16
  deriving DecidableEq, Repr

/-- A turn offer (R121), with the request round that a failed echo needs (R124, log 7). -/
structure Offer where
  number : Byte
  round : Word16
  deriving DecidableEq, Repr

/-- The feeder view (R95, Table 25). Row i holds address i + 1. -/
structure View where
  rows : Vector AddrRow 30
  orphans : List Orphan
  pointer : Nat
  adoptPending : Bool
  miss : Bool
  fresh : Bool
  missThisRound : Bool
  offerA : Option Offer
  offerB : Option Offer
  deriving DecidableEq, Repr

/-! ## Line controller (06) -/

/-- Line states (R127). -/
inductive LineState where
  | loading
  | listening
  | joining
  | onLine
  | offLine
  deriving DecidableEq, Repr

/-- Position kinds (R127). -/
inductive PosKind where
  | turn
  | window
  deriving DecidableEq, Repr

/-- The moment a position is timed from: what moved the rotation there (R131, R132). -/
inductive RefPoint where
  | frameEnd
  | lapsePoint
  | windowEnd
  | echoWaitEnd
  deriving DecidableEq, Repr

/-- A position of the rotation (R132). -/
structure Position where
  address : Nat
  kind : PosKind
  ref : RefPoint
  deriving DecidableEq, Repr

/-- Boundaries since a frame (R127). -/
inductive Since where
  | zero
  | one
  | more
  deriving DecidableEq, Repr

/-- The last valid frame record (R127, R147). -/
structure LastValid where
  sender : Nat
  round : Word16
  disagreed : Bool
  since : Since
  deriving DecidableEq, Repr

/-- The round record (R127, R146). `goodEcho`: an own turn with a good echo has been in the round. -/
structure RoundRecord where
  complete : Bool
  clean : Bool
  openedOnLine : Bool
  goodEcho : Bool
  deriving DecidableEq, Repr

/-- A defect entry as a RESULT carries it (10.1): a point number byte and an outcome kind byte. -/
structure Defect where
  point : Byte
  kind : Byte
  deriving DecidableEq, Repr

/-- The fields of a RESULT item (Table 39). -/
structure Result where
  serial : Word24
  channel : Chan
  rpt : Bool
  more : Bool
  unlisted : Bool
  welded : Byte
  skipped : Byte
  missed : Byte
  defective : Byte
  withheld : Byte
  defects : List Defect
  deriving DecidableEq, Repr

/-- Items (Table 51). -/
inductive Item where
  | announce (serial : Word24) (style : Byte) (options : Word16)
  | dispute (serial : Word24) (style : Byte) (options : Word16)
  | resync (serial : Word24)
  | depart (serial : Word24)
  | result (r : Result)
  deriving DecidableEq, Repr

/-- The frame in flight (R131, R138): the copy of its bytes and the number of outbox items it carries. -/
structure InFlight where
  bytes : List Byte
  carried : Nat
  deriving DecidableEq, Repr

/-- A carrier being taken (R129): whether LINE_DE was high at its start, and the position in which it began (R135). -/
structure Carrier where
  deHigh : Bool
  began : Option Position
  deriving DecidableEq, Repr

/-- What keeps LINE_RX from idle beside a carrier being taken (R129, R140, log 25): nothing; a carrier not taken, which was
ended at 1.40 ms or was on the line when LOADING ended; or such a carrier that the own turn was forgone for. -/
inductive Untaken where
  | absent
  | present
  | forgone
  deriving DecidableEq, Repr

/-- The line controller (R127, Table 31). `straps` is the strap value, the own address when it is 1..30 (R177). -/
structure LineCtl where
  state : LineState
  straps : BitVec 5
  roster : Vector (Option (Fin 3)) 30
  count : Option Word16
  position : Option Position
  lastValid : Option LastValid
  record : RoundRecord
  joinHold : Nat
  foundingTimer : Timer
  jabber : Nat
  outbox : List Item
  inFlight : Option InFlight
  de : Bool
  carrier : Option Carrier
  untaken : Untaken
  deriving DecidableEq, Repr

/-! ## Auxiliary line unit (07) -/

/-- The state of one auxiliary input (Table 34). `raw` is none while not sampled; true is active. -/
structure AuxIn where
  raw : Option Bool
  filtered : Bool
  timer : Timer
  latchA : Bool
  latchB : Bool
  deriving DecidableEq, Repr

/-- The level state of one auxiliary output (Table 35). -/
inductive OutLevel where
  | released
  | inactive
  | active
  deriving DecidableEq, Repr

/-- The auxiliary line unit (R155, R161). -/
structure AuxUnit where
  inputs : Vector AuxIn 8
  outputs : Vector OutLevel 8
  deriving DecidableEq, Repr

/-- The sticky status bits (Table 42). -/
structure Sticky where
  outboxOverflow : Bool
  encoderError : Bool
  strayBody : Bool
  tagMissing : Bool
  tagRecordError : Bool
  registerEviction : Bool
  reverseTravel : Bool
  deriving DecidableEq, Repr

/-- The state of the part, and the queue of commands that wait for it (log 1). -/
structure State where
  store : Store
  counter : Counter
  tracker : Tracker
  engA : Engine
  engB : Engine
  view : View
  line : LineCtl
  aux : AuxUnit
  sticky : Sticky
  pending : List Instr
  deriving DecidableEq, Repr

/-! ## After reset -/

/-- R1: nothing loaded. The phase is log 6's. -/
def Store.afterReset : Store where
  line := none
  station := none
  tag := 0
  styleCount := 0
  programCount := 0
  totalPoints := 0
  styles := []
  directory := []
  points := []
  marks := Vector.replicate 128 false
  firstFault := { kind := .noFault, program := 0, point := 0 }
  phase := .straps

/-- R21. -/
def Counter.afterReset : Counter where
  quad := none
  raw := 0
  tracked := 0
  motion := .halted
  haltTimer := .stopped
  heldWatch := .disarmed
  pairWatch := .disarmed
  zoneWatch := .disarmed
  windowA := none
  windowB := none

/-- A sensor not yet sampled: log 6. -/
def Sensor.afterReset : Sensor where
  raw := false
  filtered := false
  wait := .stopped

/-- R37, R46, R48, R54. -/
def Tracker.afterReset : Tracker where
  register := []
  zone := .empty
  held := none
  bodyIn := Sensor.afterReset
  zoneOut := Sensor.afterReset
  tagBytes := []
  tagTimer := .stopped

/-- R65, and the lines of R176. -/
def Engine.afterReset : Engine where
  state := .idle
  cursor := none
  running := none
  options := 0
  reach := .stopped
  pendingStrobe := none
  faults := 0
  request := none
  requestNumber := 0
  pt := 0
  pstb := .stopped
  sch := 0
  fire := false

/-- What the view holds for an address of which nothing has been heard (R95). -/
def AddrRow.blank : AddrRow where
  slotA := .empty
  slotB := .empty
  retainedA := false
  retainedB := false
  digestMark := false

/-- R95. -/
def View.afterReset : View where
  rows := Vector.replicate 30 AddrRow.blank
  orphans := []
  pointer := 0
  adoptPending := true
  miss := false
  fresh := true
  missThisRound := false
  offerA := none
  offerB := none

/-- R127. The flags of a round record that is not complete are log 6's. -/
def LineCtl.afterReset : LineCtl where
  state := .loading
  straps := 0
  roster := Vector.replicate 30 none
  count := none
  position := none
  lastValid := none
  record := { complete := false, clean := false, openedOnLine := false, goodEcho := false }
  joinHold := 0
  foundingTimer := .stopped
  jabber := 0
  outbox := []
  inFlight := none
  de := false
  carrier := none
  untaken := .absent

/-- R155. -/
def AuxIn.afterReset : AuxIn where
  raw := none
  filtered := false
  timer := .stopped
  latchA := false
  latchB := false

/-- R155, R161. -/
def AuxUnit.afterReset : AuxUnit where
  inputs := Vector.replicate 8 AuxIn.afterReset
  outputs := Vector.replicate 8 .released

/-- R173: every sticky bit is clear. -/
def Sticky.afterReset : Sticky where
  outboxOverflow := false
  encoderError := false
  strayBody := false
  tagMissing := false
  tagRecordError := false
  registerEviction := false
  reverseTravel := false

/-- The part right after reset (R176, Table 44), with no command waiting. -/
def State.reset : State where
  store := Store.afterReset
  counter := Counter.afterReset
  tracker := Tracker.afterReset
  engA := Engine.afterReset
  engB := Engine.afterReset
  view := View.afterReset
  line := LineCtl.afterReset
  aux := AuxUnit.afterReset
  sticky := Sticky.afterReset
  pending := []

end Sys2Proof.Machine
end

