-- ==== Sys2Proof/Machine/Operands.lean ====
section
/-!
DEFINITION. What a step reads: the constants and programs of the store, round and position arithmetic, the levels of
the lines, the slots and roster of the views. Nothing here changes the state.
-/

namespace Sys2Proof.Machine

/-! ## The store -/

/-- The line constants before a good header: zeros, STRICT, FIXED (log 17). -/
def LineConsts.unloaded : LineConsts where
  budget := 0
  policy := .strict
  order := .fixed
  fillGuard := 0
  holdCeiling := 0
  digest := 0

/-- An auxiliary input of a station whose constants are not loaded: unused (log 17). -/
def AuxInCfg.unloaded : AuxInCfg where
  used := false
  activeLow := false
  edge := .never
  filter := 0

/-- An auxiliary output of a station whose constants are not loaded: unused (log 17). -/
def AuxOutCfg.unloaded : AuxOutCfg where
  used := false
  drive := .pushPull
  activeLow := false
  initialActive := false

/-- The station constants before a good header: nothing enabled, zeros, every line unused (log 17). -/
def StationConsts.unloaded : StationConsts where
  enableA := false
  enableB := false
  reader := false
  exit := false
  zoneLength := 0
  hysteresis := 0
  haltTime := 0
  reachLimit := 0
  tagWait := 0
  auxIn := Vector.replicate 8 AuxInCfg.unloaded
  auxOut := Vector.replicate 8 AuxOutCfg.unloaded

/-- The line constants in force (R2). -/
def State.lc (s : State) : LineConsts := s.store.line.getD LineConsts.unloaded

/-- The station constants in force (R3). -/
def State.sc (s : State) : StationConsts := s.store.station.getD StationConsts.unloaded

/-- The own address (R177). -/
def State.own (s : State) : Nat := s.line.straps.toNat

/-- Channel enables (R3). -/
def StationConsts.enabled (k : StationConsts) : Chan → Bool
  | .a => k.enableA
  | .b => k.enableB

/-- The program a style entry names for a channel (R4). -/
def StyleEntry.prog (e : StyleEntry) : Chan → Option Nat
  | .a => e.progA
  | .b => e.progB

/-- The directory entry of program `p`, numbered from 1 (R5). -/
def Store.dirEntry (st : Store) (p : Nat) : Option DirEntry :=
  if p = 0 then none else st.directory[p - 1]?

/-- The fault map's mark of program `p` (R15). -/
def Store.marked (st : Store) (p : Nat) : Bool :=
  if p = 0 then false else st.marks[p - 1]?.getD false

/-- Whether any mark is set (R15). -/
def Store.anyMark (st : Store) : Bool := st.marks.toList.any id

/-- A record position no program has read (log 17). -/
def PointRec.blank : PointRec where
  schedule := 0
  load := 0
  hold := 0
  windowOpen := 0
  windowClose := 0
  cond := none
  gate := none
  action := none

/-- The point array at a position. -/
def Store.pointAt (st : Store) (i : Nat) : Option PointRec :=
  (st.points.find? (fun e => e.1 == i)).map Prod.snd

/-- Point `k` of program `p`: the record at first point index + k - 1 (R5, R20). -/
def Store.pointRec (st : Store) (p k : Nat) : PointRec :=
  match st.dirEntry p with
  | some d => (st.pointAt (d.first + k - 1)).getD PointRec.blank
  | none => PointRec.blank

/-- Resolution of a style on a channel, the first row that applies (R19). -/
def resolve (k : StationConsts) (st : Store) (c : Chan) (style : Byte) : Answer :=
  if k.enabled c then
    match st.styles.find? (fun e => e.style == style.toNat) with
    | none => .absent
    | some e =>
      match e.prog c with
      | none => .absent
      | some p =>
        let n := ((st.dirEntry p).map DirEntry.count).getD 0
        if st.marked p then .failed p n else .good p n
  else .absent

/-- Whether an option set meets a condition; a point without one is met by every body (R7). -/
def PointRec.meets (r : PointRec) (options : Word16) : Bool :=
  match r.cond with
  | none => true
  | some c => options.getLsbD c.index == c.required

/-- Whether an action applies to an outcome (R8, Table 21). -/
def Action.applies (a : Action) (o : PointOutcome) : Bool :=
  if a.always then o != .withheld else o == .welded

/-! ## Channels -/

/-- The engine of a channel. -/
def State.eng (s : State) : Chan → Engine
  | .a => s.engA
  | .b => s.engB

/-- The window record of a channel. -/
def Counter.window (k : Counter) : Chan → Option Window
  | .a => k.windowA
  | .b => k.windowB

/-- The channel's part of a body. -/
def Body.part (b : Body) : Chan → ChannelPart
  | .a => b.partA
  | .b => b.partB

/-- The current point's record: the cursor's point of the running program, where both exist (R65). -/
def State.pointRec (s : State) (c : Chan) (k : Nat) : PointRec :=
  match (s.eng c).running with
  | some r => s.store.pointRec r.program k
  | none => PointRec.blank

/-- The record of the current point of a channel. -/
def State.current (s : State) (c : Chan) : PointRec := s.pointRec c ((s.eng c).cursor.getD 0)

/-- The engine states with a current point (R65). -/
def EngineState.hasPoint : EngineState → Bool
  | .positioning | .gated | .requesting | .firing => true
  | .idle | .finished | .held => false

/-! ## Line states -/

/-- The states in which the part takes the events of its lines: LISTENING, JOINING, ON LINE (R49, R93, R128, R155). -/
def LineState.running : LineState → Bool
  | .listening | .joining | .onLine => true
  | .loading | .offLine => false

/-- The part in a running line state. -/
def State.isRunning (s : State) : Bool := s.line.state.running

/-! ## Positions (R22) -/

/-- The signed difference of two positions. -/
def posDiff (x y : Word32) : Int := (x - y).toInt

/-- The datum of a zone record, where it has one (R46). -/
def Zone.datum : Zone → Option Word32
  | .empty => none
  | .pairing d | .bound d _ | .stray d => some d

/-- A distance brought into 0..65535 (R29). -/
def clampPos (x : Int) : Nat := if x < 0 then 0 else min x.toNat 65535

/-- The relative position P of the zone's body, none while the zone is EMPTY (R29). -/
def State.relPos (s : State) : Option Nat := s.tracker.zone.datum.map fun d => clampPos (posDiff s.counter.tracked d)

/-- The window state a relative position gives a record (R34). -/
def PointRec.windowAt (r : PointRec) (p : Nat) : WindowState :=
  if p < r.windowOpen then .notYet else if p ≤ r.windowClose then .opened else .closed

/-- The level pair after one line has changed. -/
def toggle (q : Bool × Bool) : EncLine → Bool × Bool
  | .encA => (!q.1, q.2)
  | .encB => (q.1, !q.2)

/-- Table 14: whether the change of one line from a reference pair counts up. -/
def countsUp (q : Bool × Bool) : EncLine → Bool
  | .encA => q.1 == q.2
  | .encB => q.1 != q.2

/-! ## Auxiliary levels -/

/-- A pin level read through a polarity (R156). -/
def readLevel (activeLow pinHigh : Bool) : Bool := pinHigh != activeLow

/-- Whether a filtered level becoming `active` is an event of the line (R158). -/
def EventEdge.hit : EventEdge → Bool → Bool
  | .never, _ => false
  | .onActive, active => active
  | .onInactive, active => !active
  | .both, _ => true

/-- A channel's event latch of an input. -/
def AuxIn.latch (i : AuxIn) : Chan → Bool
  | .a => i.latchA
  | .b => i.latchB

/-- Whether the gate of a point is satisfied for a channel (R76). -/
def State.gateSatisfied (s : State) (c : Chan) (r : PointRec) : Bool :=
  match r.gate with
  | none => true
  | some g =>
    match g.kind with
    | .level => s.aux.inputs[g.line].filtered
    | .event => s.aux.inputs[g.line].latch c

/-! ## Rounds and slots -/

/-- The age of a round seen from a count (Conventions, Round arithmetic). -/
def roundAge (count r : Word16) : Nat := (count - r).toNat

/-- Whether an ACTIVE slot's admit round and hold are live at a count (R97). -/
def liveAt (count admitted : Word16) (hold : Nat) : Bool :=
  roundAge count admitted < hold || Config.roundsAhead ≤ roundAge count admitted

/-- Whether a slot is ACTIVE and live. -/
def Slot.live (count : Word16) : Slot → Bool
  | .active _ r h => liveAt count r h
  | _ => false

/-- Whether a slot is ACTIVE and expired. -/
def Slot.expired (count : Word16) : Slot → Bool
  | .active _ r h => !liveAt count r h
  | _ => false

/-- The load a slot counts at a round count (R98). -/
def Slot.counted (count : Word16) : Slot → Nat
  | .active l r h => if liveAt count r h then l else 0
  | _ => 0

/-- Whether a slot is ACTIVE with this admit round (R103). -/
def Slot.activeSince (r : Word16) : Slot → Bool
  | .active _ r' _ => r' == r
  | _ => false

/-- A channel's slot of a row. -/
def AddrRow.slot (w : AddrRow) : Chan → Slot
  | .a => w.slotA
  | .b => w.slotB

/-- A channel's retained mark of a row. -/
def AddrRow.retained (w : AddrRow) : Chan → Bool
  | .a => w.retainedA
  | .b => w.retainedB

/-- The row of an address 1..30. -/
def View.row (v : View) (a : Nat) : AddrRow := if a = 0 then AddrRow.blank else v.rows[a - 1]?.getD AddrRow.blank

/-- A channel's turn offer. -/
def View.offer (v : View) : Chan → Option Offer
  | .a => v.offerA
  | .b => v.offerB

/-- The committed load (R98): the live ACTIVE slots of every address, and every orphan. -/
def View.committed (v : View) (count : Word16) : Nat :=
  (v.rows.toList.map fun w => w.slotA.counted count + w.slotB.counted count).sum + (v.orphans.map Orphan.load).sum

/-- Whether any published slot has its retained mark set (R107). -/
def View.anyRetained (v : View) : Bool := v.rows.toList.any fun w => w.retainedA || w.retainedB

/-- The orphans full cause (R112). -/
def View.orphansFull (v : View) : Bool := Config.orphanCapacity ≤ v.orphans.length || v.anyRetained

/-- The lapse count of an address, none when it is not on the roster (R143). -/
def LineCtl.lapses (l : LineCtl) (a : Nat) : Option (Fin 3) := if a = 0 then none else (l.roster[a - 1]?).getD none

/-- Whether an address is on the roster. -/
def LineCtl.onRoster (l : LineCtl) (a : Nat) : Bool := (l.lapses a).isSome

/-- The constants cause (R113): some roster address has its digest mark set. -/
def State.constantsDisagree (s : State) : Bool :=
  (List.range Config.lastAddress).any fun i => s.line.onRoster (i + 1) && (s.view.row (i + 1)).digestMark

/-- Whether sight is BLIND (R109). -/
def State.blind (s : State) : Bool :=
  s.view.miss || s.view.fresh || s.view.orphansFull || s.constantsDisagree

/-- A WAITING slot of the view with its place (R115). -/
structure Claim where
  address : Nat
  channel : Chan
  round : Word16
  deriving DecidableEq, Repr

/-- The WAITING claim of a slot, if it is one. -/
def Slot.claim (a : Nat) (c : Chan) : Slot → List Claim
  | .waiting _ r => [{ address := a, channel := c, round := r }]
  | _ => []

/-- Every WAITING slot of the view. -/
def View.claims (v : View) : List Claim :=
  v.rows.toList.zipIdx.flatMap fun w => w.1.slotA.claim (w.2 + 1) .a ++ w.1.slotB.claim (w.2 + 1) .b

/-- Where an address stands in the walk of an order: FIXED walks from 1, ROTATING from pointer + 1 (R115). -/
def addressRank (order : Order) (pointer a : Nat) : Nat :=
  match order with
  | .fixed => a
  | .rotating => (a + 29 - pointer) % 30

/-- Whether claim `w` precedes claim `x` (R115): by request age, then address, then channel. -/
def precedes (order : Order) (pointer : Nat) (count : Word16) (w x : Claim) : Bool :=
  let aw := roundAge count w.round
  let ax := roundAge count x.round
  if aw ≠ ax then ax < aw
  else if w.address ≠ x.address then addressRank order pointer w.address < addressRank order pointer x.address
  else w.channel == .a && x.channel == .b

/-- Whether the admission policy refuses claim `x` (R119, R120). -/
def policyRefuses (k : LineConsts) (v : View) (count : Word16) (x : Claim) : Bool :=
  v.claims.any fun w =>
    precedes k.order v.pointer count w x &&
      match k.policy with
      | .strict => true
      | .fill => k.fillGuard ≤ roundAge count w.round

end Sys2Proof.Machine
end

