-- ==== Sys2Proof/Machine/Ops.lean ====
section
/-!
DEFINITION. The named updates of single pieces of state that the families share.
-/

namespace Sys2Proof.Machine

/-- Put an engine back on its channel. -/
def State.setEng (s : State) (c : Chan) (e : Engine) : State :=
  match c with
  | .a => { s with engA := e }
  | .b => { s with engB := e }

/-- Change the engine of a channel. -/
def State.modEng (s : State) (c : Chan) (f : Engine → Engine) : State := s.setEng c (f (s.eng c))

/-- Set the window record of a channel. -/
def State.setWindow (s : State) (c : Chan) (w : Option Window) : State :=
  match c with
  | .a => { s with counter := { s.counter with windowA := w } }
  | .b => { s with counter := { s.counter with windowB := w } }

/-- Set a channel's part of a body. -/
def Body.setPart (b : Body) (c : Chan) (p : ChannelPart) : Body :=
  match c with
  | .a => { b with partA := p }
  | .b => { b with partB := p }

/-- Write the outcome place of point `k`, which is written once (R47, R71). -/
def ChannelPart.write (p : ChannelPart) (k : Nat) (o : PointOutcome) : ChannelPart :=
  { p with places := p.places.modify (k - 1) fun x => x.or (some o) }

/-- Write an outcome place of the zone record (R71). -/
def State.writePlace (s : State) (c : Chan) (k : Nat) (o : PointOutcome) : State :=
  match s.tracker.zone with
  | .bound d b => { s with tracker := { s.tracker with zone := .bound d (b.setPart c ((b.part c).write k o)) } }
  | _ => s

/-- An action sets an output line; a released line takes none (R161, R163). -/
def State.setOutput (s : State) (line : Fin 8) (level : Bool) : State :=
  if s.aux.outputs[line] = .released then s
  else { s with aux := { s.aux with outputs := s.aux.outputs.set line (if level then .active else .inactive) } }

/-- Set a channel's event latch of an input (R158, R159). -/
def AuxIn.setLatch (i : AuxIn) (c : Chan) (v : Bool) : AuxIn :=
  match c with
  | .a => { i with latchA := v }
  | .b => { i with latchB := v }

/-- Change one auxiliary input. -/
def State.modInput (s : State) (line : Fin 8) (f : AuxIn → AuxIn) : State :=
  { s with aux := { s.aux with inputs := s.aux.inputs.set line (f s.aux.inputs[line]) } }

/-- Hand an item to the outbox: appended after the newest, or discarded with outbox overflow set (R137). -/
def State.pushItem (s : State) (i : Item) : State :=
  if s.line.outbox.length < Config.outboxCapacity then
    { s with line := { s.line with outbox := s.line.outbox ++ [i] } }
  else { s with sticky := { s.sticky with outboxOverflow := true } }

/-- Set the zone record. -/
def State.setZone (s : State) (z : Zone) : State := { s with tracker := { s.tracker with zone := z } }

/-- Set a channel's slot of a row. -/
def AddrRow.setSlot (w : AddrRow) (c : Chan) (x : Slot) : AddrRow :=
  match c with
  | .a => { w with slotA := x }
  | .b => { w with slotB := x }

/-- Set a channel's retained mark of a row. -/
def AddrRow.setRetained (w : AddrRow) (c : Chan) (x : Bool) : AddrRow :=
  match c with
  | .a => { w with retainedA := x }
  | .b => { w with retainedB := x }

/-- Replace the row of an address 1..30. -/
def View.setRow (v : View) (a : Nat) (w : AddrRow) : View :=
  if a = 0 then v else { v with rows := v.rows.setIfInBounds (a - 1) w }

/-- Set one published slot. -/
def View.setSlot (v : View) (a : Nat) (c : Chan) (x : Slot) : View := v.setRow a ((v.row a).setSlot c x)

/-- Set a channel's turn offer. -/
def View.setOffer (v : View) (c : Chan) (o : Option Offer) : View :=
  match c with
  | .a => { v with offerA := o }
  | .b => { v with offerB := o }

/-- Set the miss cause, and the record that it was set this round (R110). -/
def View.setMiss (v : View) : View := { v with miss := true, missThisRound := true }

/-- Set the miss cause of the part (R110). -/
def State.setMiss (s : State) : State := { s with view := s.view.setMiss }

/-- Put an address on the roster with a lapse count, or take it off (R143). -/
def LineCtl.setRoster (l : LineCtl) (a : Nat) (n : Option (Fin 3)) : LineCtl :=
  if a = 0 then l else { l with roster := l.roster.setIfInBounds (a - 1) n }

/-- Clear the round record's clean flag (R146). -/
def State.unclean (s : State) : State :=
  { s with line := { s.line with record := { s.line.record with clean := false } } }

/-- Arm a watch (R30). -/
def Watch.arm (r : Word32) (d : Nat) : Watch := .armed r d

/-- A watch after a change of the tracked position: its discharge comes when the distance from its reference exceeds
its distance (R30). -/
def Watch.after (w : Watch) (tracked : Word32) : Watch :=
  match w with
  | .armed r d => if (d : Int) < posDiff tracked r then .due else w
  | _ => w

/-- The timer stops. -/
def Sensor.stopWait (x : Sensor) : Sensor := { x with wait := .stopped }

/-- A sensor by its line. -/
def Tracker.sensor (t : Tracker) : SensorLine → Sensor
  | .bodyIn => t.bodyIn
  | .zoneOut => t.zoneOut

/-- Set a sensor. -/
def State.setSensor (s : State) (l : SensorLine) (x : Sensor) : State :=
  match l with
  | .bodyIn => { s with tracker := { s.tracker with bodyIn := x } }
  | .zoneOut => { s with tracker := { s.tracker with zoneOut := x } }

/-- The local mark of every entry with a serial becomes `m` (R38). -/
def markSerial (reg : List Entry) (serial : Word24) (m : Mark) : List Entry :=
  reg.map fun e => if e.serial = serial then { e with mark := m } else e

end Sys2Proof.Machine
end

