-- ==== Sys2Proof/Machine/Flags.lean ====
section
/-!
DEFINITION. What the part shows: the status word, the header flags, FAULT_N, and the pins of the channel lines and
auxiliary outputs, computed from the state (log 8).
-/

namespace Sys2Proof.Machine

/-- The codes of Table 12. -/
def FaultKind.code : FaultKind → Nat
  | .noFault => 0
  | .marker => 1
  | .version => 2
  | .headerCheck => 3
  | .digest => 4
  | .headerRange => 5
  | .styleEntry => 6
  | .undefinedProgram => 16
  | .directoryRange => 17
  | .programCheck => 18
  | .schedule => 19
  | .loadRange => 20
  | .loadOverBudget => 21
  | .holdRange => 22
  | .holdOverCeiling => 23
  | .windowOrder => 24
  | .windowBeyondZone => 25
  | .optionIndex => 26
  | .gateLine => 27
  | .actionLine => 28

/-- Whether a fault is fatal (Table 12). -/
def FaultKind.fatal (k : FaultKind) : Bool := 1 ≤ k.code && k.code ≤ 6

/-- The codes of Table 52. -/
def PointOutcome.code : PointOutcome → Nat
  | .welded => 1
  | .skipped => 2
  | .missed => 3
  | .faulted => 4
  | .overrun => 5
  | .cut => 6
  | .stalled => 7
  | .withheld => 8

/-- One bit of a word at a place. -/
def bitAt {w : Nat} (b : Bool) (i : Nat) : BitVec w := if b then BitVec.twoPow w i else 0

/-- The live bit "channel c HELD" (Table 41). -/
def State.heldBit (s : State) (c : Chan) : Bool := (s.eng c).state == .held

/-- The status word (R173, Table 49). -/
def State.statusWord (s : State) : Word16 :=
  bitAt (s.heldBit .a) 0 ||| bitAt (s.heldBit .b) 1 ||| bitAt s.store.anyMark 2 ||| bitAt s.constantsDisagree 3
    ||| bitAt s.view.orphansFull 4 ||| bitAt s.sticky.outboxOverflow 8 ||| bitAt s.sticky.encoderError 9
    ||| bitAt s.sticky.strayBody 10 ||| bitAt s.sticky.tagMissing 11 ||| bitAt s.sticky.tagRecordError 12
    ||| bitAt s.sticky.registerEviction 13 ||| bitAt s.sticky.reverseTravel 14

/-- FAULT_N is active (R165, Table 36). -/
def State.faultActive (s : State) : Bool :=
  s.line.state == .offLine || s.heldBit .a || s.heldBit .b || s.constantsDisagree || s.store.anyMark

/-- The first-fault record is presented on a channel's lines (R17). -/
def State.presents (s : State) (c : Chan) : Bool :=
  match s.line.state with
  | .offLine => s.store.firstFault.kind.fatal
  | .listening => s.store.firstFault.kind != .noFault && (s.eng c).state == .idle
  | _ => false

/-- PT0..7 of a channel (R17, R66). -/
def State.ptPins (s : State) (c : Chan) : BitVec 8 :=
  if s.presents c then
    match c with
    | .a => BitVec.ofNat 8 s.store.firstFault.kind.code
    | .b => BitVec.ofNat 8 s.store.firstFault.program
  else (s.eng c).pt

/-- SCH0..5 of a channel (R17, R66). -/
def State.schPins (s : State) (c : Chan) : BitVec 6 :=
  if s.presents c then
    match c with
    | .a => BitVec.ofNat 6 s.store.firstFault.point
    | .b => BitVec.ofNat 6 (s.store.firstFault.point / 64 % 4)
  else (s.eng c).sch

/-- PSTB of a channel: high while a pulse runs, not pulsed during a presentation (R17, R66). -/
def State.pstbPin (s : State) (c : Chan) : Bool := !s.presents c && (s.eng c).pstb != .stopped

/-- FIRE of a channel, low during a presentation (R17, R66). -/
def State.firePin (s : State) (c : Chan) : Bool := !s.presents c && (s.eng c).fire

/-- PM_CS is active while LOADING reads program memory (R9, R176, R178). -/
def State.pmSelected (s : State) : Bool :=
  s.line.state == .loading && s.store.phase != .straps && s.store.phase != .ended

/-- What an auxiliary output pin does. -/
inductive PinDrive where
  | high
  | low
  | undriven
  deriving DecidableEq, Repr

/-- The pin of a level state through polarity and drive (R161, Table 35). -/
def AuxOutCfg.pin (k : AuxOutCfg) (l : OutLevel) : PinDrive :=
  match l with
  | .released => .undriven
  | _ =>
    let high := (l == .active) != k.activeLow
    match k.drive, high with
    | .pushPull, true => .high
    | .pushPull, false => .low
    | .openDrainLow, true => .undriven
    | .openDrainLow, false => .low
    | .openDrainHigh, true => .high
    | .openDrainHigh, false => .undriven

/-- The pin of an auxiliary output (R161). -/
def State.auxPin (s : State) (i : Fin 8) : PinDrive := s.sc.auxOut[i].pin s.aux.outputs[i]

end Sys2Proof.Machine
end

