-- ==== Sys2Proof/Machine/Codec.lean ====
section
/-!
DEFINITION. The byte formats of chapter 10: the 16-bit check, the turn frame both ways, and the program memory image.
-/

namespace Sys2Proof.Machine

/-! ## The 16-bit check (R184) -/

/-- One shift of the check register: generator x^16 + x^12 + x^5 + 1. -/
def crcShift (r : Word16) : Word16 := if r.msb then (r <<< 1) ^^^ 0x1021 else r <<< 1

/-- A byte enters the register, most significant bit first. -/
def crcByte (r : Word16) (b : Byte) : Word16 := (crcShift)^[8] (r ^^^ (b ++ (0 : Byte)))

/-- The check over bytes: the register starts at 0xFFFF and is not inverted at the end. -/
def crc16 (bytes : List Byte) : Word16 := bytes.foldl crcByte 0xFFFF

/-! ## The turn frame -/

/-- A claim slot as carried (Table 50); the undefined bits of its first byte are not kept (R184). -/
structure RawSlot where
  kind : BitVec 2
  hold : BitVec 10
  load : Byte
  round : Word16
  deriving DecidableEq, Repr

/-- A turn frame (Tables 47 to 51) without the bits R184 ignores, its sync byte and its check. -/
structure Frame where
  sender : Byte
  fresh : Bool
  blind : Bool
  reader : Bool
  exit : Bool
  halted : Bool
  occupied : Bool
  round : Word16
  pointer : Byte
  digest : Word16
  tag : Word32
  status : Word16
  slotA : RawSlot
  slotB : RawSlot
  items : List Item
  deriving DecidableEq, Repr

/-- The size of an item on the line (Table 51). -/
def Item.size : Item → Nat
  | .announce _ _ _ | .dispute _ _ _ => 7
  | .resync _ | .depart _ => 4
  | .result r => 11 + 2 * r.defects.length

/-- The sizes of a list of items. -/
def itemsSize (items : List Item) : Nat := (items.map Item.size).sum

/-- The RESULT flags byte (10.1). -/
def Result.flags (r : Result) : Byte :=
  bitAt (r.channel == .b) 0 ||| bitAt r.rpt 1 ||| bitAt r.more 2 ||| bitAt r.unlisted 3

/-- An item's bytes (Table 51). -/
def Item.encode : Item → List Byte
  | .announce s y o => 0x01 :: bytes24 s ++ [y] ++ bytes16 o
  | .dispute s y o => 0x02 :: bytes24 s ++ [y] ++ bytes16 o
  | .resync s => 0x03 :: bytes24 s
  | .depart s => 0x04 :: bytes24 s
  | .result r =>
    0x05 :: bytes24 r.serial
      ++ [r.flags, r.welded, r.skipped, r.missed, r.defective, r.withheld, BitVec.ofNat 8 r.defects.length]
      ++ r.defects.flatMap fun d => [d.point, d.kind]

/-- A claim slot's five bytes (Table 50), the bits the table does not define being 0 (R184). -/
def RawSlot.encode (x : RawSlot) : List Byte :=
  [x.kind ++ (0 : BitVec 4) ++ x.hold.extractLsb' 8 2, x.hold.extractLsb' 0 8, x.load] ++ bytes16 x.round

/-- A published slot as the station sends it (R184): an EMPTY slot as zeros, a WAITING slot with its hold bits 0. -/
def Slot.raw : Slot → RawSlot
  | .empty => { kind := 0, hold := 0, load := 0, round := 0 }
  | .waiting l r => { kind := 1, hold := 0, load := BitVec.ofNat 8 l, round := r }
  | .active l r h => { kind := 2, hold := BitVec.ofNat 10 h, load := BitVec.ofNat 8 l, round := r }

/-- The flags byte (Table 48). -/
def Frame.flags (f : Frame) : Byte :=
  bitAt f.fresh 0 ||| bitAt f.blind 1 ||| bitAt f.reader 2 ||| bitAt f.exit 3 ||| bitAt f.halted 4
    ||| bitAt f.occupied 5

/-- The header's 14 bytes (Table 48). -/
def Frame.header (f : Frame) : List Byte :=
  [f.sender, f.flags] ++ bytes16 f.round ++ [f.pointer] ++ bytes16 f.digest ++ bytes32 f.tag ++ bytes16 f.status
    ++ [BitVec.ofNat 8 f.items.length]

/-- The bytes the frame check covers: header, claim slots and items (Table 47). -/
def Frame.checked (f : Frame) : List Byte :=
  f.header ++ f.slotA.encode ++ f.slotB.encode ++ f.items.flatMap Item.encode

/-- The frame as it is sent (Table 47, R184). -/
def Frame.encode (f : Frame) : List Byte := 0xA6 :: f.checked ++ bytes16 (crc16 f.checked)

/-- The defect entries of `n` pairs of bytes. -/
def parseDefects : Nat → List Byte → Option (List Defect × List Byte)
  | 0, rest => some ([], rest)
  | n + 1, p :: k :: rest =>
    (parseDefects n rest).map fun x => ({ point := p, kind := k } :: x.1, x.2)
  | _ + 1, _ => none

/-- One item from the front of the bytes (R130, R184): none for an unknown type, a list length above 16, or bytes that
end too soon. -/
def parseItem (bytes : List Byte) : Option (Item × List Byte) :=
  match bytes with
  | t :: s2 :: s1 :: s0 :: rest =>
    let serial := be24 s2 s1 s0
    if t = 0x01 then
      match rest with
      | y :: o1 :: o0 :: rest => some (.announce serial y (be16 o1 o0), rest)
      | _ => none
    else if t = 0x02 then
      match rest with
      | y :: o1 :: o0 :: rest => some (.dispute serial y (be16 o1 o0), rest)
      | _ => none
    else if t = 0x03 then some (.resync serial, rest)
    else if t = 0x04 then some (.depart serial, rest)
    else if t = 0x05 then
      match rest with
      | fl :: w :: k :: m :: d :: h :: n :: rest =>
        if n.toNat ≤ Config.defectEntries then
          (parseDefects n.toNat rest).map fun x =>
            (.result
              { serial := serial, channel := if fl.getLsbD 0 then .b else .a, rpt := fl.getLsbD 1,
                more := fl.getLsbD 2, unlisted := fl.getLsbD 3, welded := w, skipped := k, missed := m,
                defective := d, withheld := h, defects := x.1 }, x.2)
        else none
      | _ => none
    else none
  | _ => none

/-- `n` items, back to back. -/
def parseItems : Nat → List Byte → Option (List Item × List Byte)
  | 0, rest => some ([], rest)
  | n + 1, bytes =>
    match parseItem bytes with
    | none => none
    | some (i, rest) => (parseItems n rest).map fun x => (i :: x.1, x.2)

/-- A claim slot from its five bytes (Table 50). -/
def parseSlot (b0 b1 b2 b3 b4 : Byte) : RawSlot where
  kind := b0.extractLsb' 6 2
  hold := b0.extractLsb' 0 2 ++ b1
  load := b2
  round := be16 b3 b4

/-- A valid frame from the bytes of a carrier, none when the bytes fail any test of R130 other than the stop bits. -/
def Frame.parse (bytes : List Byte) : Option Frame :=
  match bytes with
  | 0xA6 :: rest =>
    let b := fun i => rest.getD i 0
    let body := rest.take (rest.length - 2)
    if 26 ≤ rest.length ∧ 1 ≤ (b 0).toNat ∧ (b 0).toNat ≤ Config.lastAddress
        ∧ (b 4).toNat ≤ Config.lastAddress ∧ (b 13).toNat ≤ Config.frameItems
        ∧ rest.length - 26 ≤ Config.frameItemBytes
        ∧ bytes16 (crc16 body) = rest.drop (rest.length - 2) then
      match parseItems (b 13).toNat (body.drop 24) with
      | some (items, []) =>
        some
          { sender := b 0, fresh := (b 1).getLsbD 0, blind := (b 1).getLsbD 1, reader := (b 1).getLsbD 2,
            exit := (b 1).getLsbD 3, halted := (b 1).getLsbD 4, occupied := (b 1).getLsbD 5,
            round := be16 (b 2) (b 3), pointer := b 4, digest := be16 (b 5) (b 6),
            tag := be32 (b 7) (b 8) (b 9) (b 10), status := be16 (b 11) (b 12),
            slotA := parseSlot (b 14) (b 15) (b 16) (b 17) (b 18),
            slotB := parseSlot (b 19) (b 20) (b 21) (b 22) (b 23), items := items }
      | _ => none
    else none
  | _ => none

/-- Whether a frame slot is malformed at a station with this hold ceiling (R102). -/
def RawSlot.malformed (ceiling : Nat) (x : RawSlot) : Bool :=
  if x.kind = 0 then x.hold != 0 || x.load != 0 || x.round != 0
  else if x.kind = 1 then x.load == 0 || 250 < x.load.toNat
  else if x.kind = 2 then x.load == 0 || 250 < x.load.toNat || x.hold == 0 || ceiling < x.hold.toNat
  else true

/-- The published slot a well-formed frame slot stands for at a round count: an expired ACTIVE slot is stored as EMPTY
(R101). -/
def RawSlot.published (count : Word16) (x : RawSlot) : Slot :=
  if x.kind = 1 then .waiting x.load.toNat x.round
  else if x.kind = 2 then
    if liveAt count x.round x.hold.toNat then .active x.load.toNat x.round x.hold.toNat else .empty
  else .empty

/-! ## The program memory image (10.3) -/

/-- Byte `i` of what a pass has read; a memory that does not answer reads as all ones (R9, log 4). -/
def imageByte (image : List Byte) (i : Nat) : Byte := image.getD i 0xFF

/-- Two bytes of the image as a number. -/
def image16 (image : List Byte) (i : Nat) : Word16 := be16 (imageByte image i) (imageByte image (i + 1))

/-- The bytes `i`, ..., `i + n - 1` of the image. -/
def imageRange (image : List Byte) (i n : Nat) : List Byte := (List.range n).map fun j => imageByte image (i + j)

/-- An auxiliary input configuration byte (Table 57). -/
def decodeAuxIn (b : Byte) : AuxInCfg where
  used := b.getLsbD 6
  activeLow := b.getLsbD 7
  edge :=
    match b.getLsbD 5, b.getLsbD 4 with
    | false, false => .never
    | false, true => .onActive
    | true, false => .onInactive
    | true, true => .both
  filter := (b.extractLsb' 0 4).toNat

/-- An auxiliary output configuration byte (Table 58). Drive code 11 is a HEADER RANGE fault (R185), so what it
decodes to is never taken in. -/
def decodeAuxOut (b : Byte) : AuxOutCfg where
  used := b.getLsbD 7
  drive :=
    match b.getLsbD 5, b.getLsbD 4 with
    | false, false => .pushPull
    | false, true => .openDrainLow
    | true, _ => .openDrainHigh
  activeLow := b.getLsbD 1
  initialActive := b.getLsbD 0

/-- The line constants of a header, with the digest computed over header bytes 8..14 (R2, Table 54). -/
def decodeLineConsts (image : List Byte) : LineConsts where
  budget := (image16 image 8).toNat
  policy := if imageByte image 10 = 0 then .strict else .fill
  order := if imageByte image 11 = 0 then .fixed else .rotating
  fillGuard := (imageByte image 12).toNat
  holdCeiling := (image16 image 13).toNat
  digest := crc16 (imageRange image 8 7)

/-- The station constants of a header (R3, Table 54). -/
def decodeStationConsts (image : List Byte) : StationConsts where
  enableA := (imageByte image 3).getLsbD 0
  enableB := (imageByte image 3).getLsbD 1
  reader := (imageByte image 3).getLsbD 2
  exit := (imageByte image 3).getLsbD 3
  zoneLength := (image16 image 17).toNat
  hysteresis := (imageByte image 19).toNat
  haltTime := (imageByte image 20).toNat
  reachLimit := (imageByte image 21).toNat
  tagWait := (image16 image 22).toNat
  auxIn :=
    #v[decodeAuxIn (imageByte image 24), decodeAuxIn (imageByte image 25), decodeAuxIn (imageByte image 26),
      decodeAuxIn (imageByte image 27), decodeAuxIn (imageByte image 28), decodeAuxIn (imageByte image 29),
      decodeAuxIn (imageByte image 30), decodeAuxIn (imageByte image 31)]
  auxOut :=
    #v[decodeAuxOut (imageByte image 32), decodeAuxOut (imageByte image 33), decodeAuxOut (imageByte image 34),
      decodeAuxOut (imageByte image 35), decodeAuxOut (imageByte image 36), decodeAuxOut (imageByte image 37),
      decodeAuxOut (imageByte image 38), decodeAuxOut (imageByte image 39)]

/-- Check 5 of R9 with the codes of R185: every constant and count lies in its range. -/
def headerInRange (image : List Byte) : Bool :=
  let k := decodeLineConsts image
  let c := decodeStationConsts image
  1 ≤ k.budget && k.budget ≤ 1000 && (imageByte image 10).toNat ≤ 1 && (imageByte image 11).toNat ≤ 1
    && 1 ≤ k.fillGuard && 16 ≤ k.holdCeiling && k.holdCeiling ≤ 1023
    && 1 ≤ c.zoneLength && 1 ≤ c.haltTime && 1 ≤ c.reachLimit && 1 ≤ c.tagWait
    && ((imageRange image 32 8).all fun b => b.extractLsb' 4 2 != 3)
    && (imageByte image 40).toNat ≤ 64 && (imageByte image 41).toNat ≤ 128 && (image16 image 42).toNat ≤ 4096

/-- The first check of R9 that a header fails, none when the header is good. -/
def headerFault (image : List Byte) : Option FaultKind :=
  if ¬(imageByte image 0 = 0x57 ∧ imageByte image 1 = 0x42) then some .marker
  else if imageByte image 2 ≠ 1 then some .version
  else if crc16 (imageRange image 0 44) ≠ image16 image 44 then some .headerCheck
  else if (decodeLineConsts image).digest ≠ image16 image 15 then some .digest
  else if headerInRange image = false then some .headerRange
  else none

/-- A program field of a style entry as stored: 0 is none (Table 55). -/
def decodeProgField (b : Byte) : Option Nat := if b = 0 then none else some b.toNat

/-- Entry `i` of the style table, counted from 0 (Table 55). -/
def decodeStyle (image : List Byte) (i : Nat) : StyleEntry where
  style := (imageByte image (3 * i)).toNat
  progA := decodeProgField (imageByte image (3 * i + 1))
  progB := decodeProgField (imageByte image (3 * i + 2))

/-- Entry `i` of the program directory, counted from 0 (Table 55). -/
def decodeDir (image : List Byte) (i : Nat) : DirEntry where
  first := (image16 image (5 * i)).toNat
  count := (imageByte image (5 * i + 2)).toNat
  check := image16 image (5 * i + 3)

/-- An option condition byte: absent with bit 7 clear; with bits 5 and 4 the index reads above 15 (R14, R185). -/
def decodeCond (b : Byte) : Option OptionCond :=
  if b.getLsbD 7 then some { index := (b.extractLsb' 0 6).toNat, required := b.getLsbD 6 } else none

/-- A gate byte (Table 56). -/
def decodeGate (b : Byte) : Option Gate :=
  if b.getLsbD 7 then
    some { line := Fin.ofNat 8 (b.extractLsb' 0 3).toNat, kind := if b.getLsbD 6 then .event else .level }
  else none

/-- An action byte (Table 56). -/
def decodeAction (b : Byte) : Option Action :=
  if b.getLsbD 7 then
    some { line := Fin.ofNat 8 (b.extractLsb' 0 3).toNat, always := b.getLsbD 6, level := b.getLsbD 5 }
  else none

/-- Record `i` of the point records read, counted from 0 (Table 56). -/
def decodePoint (image : List Byte) (i : Nat) : PointRec where
  schedule := (imageByte image (11 * i)).toNat
  load := (imageByte image (11 * i + 1)).toNat
  hold := (image16 image (11 * i + 2)).toNat
  windowOpen := (image16 image (11 * i + 4)).toNat
  windowClose := (image16 image (11 * i + 6)).toNat
  cond := decodeCond (imageByte image (11 * i + 8))
  gate := decodeGate (imageByte image (11 * i + 9))
  action := decodeAction (imageByte image (11 * i + 10))

end Sys2Proof.Machine
end

