-- ==== Sys2Proof/Machine/Conveyor.lean ====
section
/-!
DEFINITION. The conveyor counter (02): counts, the tracked position, the watches and windows it moves, the halt.
-/

namespace Sys2Proof.Machine

/-- A window after a change of P: it moves forward only, and each move issues its event (R35). -/
def Window.after (w : Window) (r : PointRec) (p : Nat) : Window :=
  match w.state with
  | .notYet =>
    match r.windowAt p with
    | .notYet => w
    | .opened => { w with state := .opened, openDue := true }
    | .closed => { w with state := .closed, closeDue := true }
  | .opened => if r.windowClose < p then { w with state := .closed, closeDue := true } else w
  | .closed => w

/-- A channel's window brought up to date from the present P (R35). While the zone is EMPTY there is no P (R29). -/
def State.windowAfter (s : State) (c : Chan) : Option Window :=
  match s.counter.window c, s.relPos with
  | some w, some p => some (w.after (s.current c) p)
  | w, _ => w

/-- Both channels' windows brought up to date from the present P (R35). -/
def State.updateWindows (s : State) : State :=
  { s with counter := { s.counter with windowA := s.windowAfter .a, windowB := s.windowAfter .b } }

/-- The watches brought up to date from a tracked position (R30). -/
def Counter.updateWatches (k : Counter) : Counter :=
  { k with
    heldWatch := k.heldWatch.after k.tracked
    pairWatch := k.pairWatch.after k.tracked
    zoneWatch := k.zoneWatch.after k.tracked }

/-- The tracked position takes a value; at a change the watches and windows follow (R23, R29, R30, R35). -/
def State.setTracked (s : State) (t : Word32) : State :=
  if t = s.counter.tracked then s
  else
    { s with counter := ({ s.counter with tracked := t } : Counter).updateWatches }.updateWindows

/-- The tracked position at a count change, with hysteresis `h` (R25). -/
def nextTracked (raw tracked : Word32) (h : Nat) : Word32 :=
  if 0 < posDiff raw tracked then raw
  else if posDiff raw tracked < -(h : Int) then raw + BitVec.ofNat 32 h
  else tracked

/-- Whether a count change drags the tracked position back (R25). -/
def dragsBack (raw tracked : Word32) (h : Nat) : Bool := posDiff raw tracked < -(h : Int)

/-- The raw count after the change of one line (Table 14). -/
def nextRaw (raw : Word32) (q : Bool × Bool) (line : EncLine) : Word32 :=
  if countsUp q line then raw + 1 else raw - 1

/-- Set the reverse travel bit; a station OFF LINE keeps its bits (R25, R174, log 13). -/
def State.setReverse (s : State) : State :=
  if s.line.state = .offLine then s else { s with sticky := { s.sticky with reverseTravel := true } }

/-- COUNT_CHANGE (R23): the raw count, then T (R25), the halt timer and motion (R26, R27), the watches and windows. -/
def execCountChange (line : EncLine) (s : State) : Host.Outcome State Fault Refusal :=
  match s.counter.quad with
  | none => .next s
  | some q =>
    let h := s.sc.hysteresis
    let c := nextRaw s.counter.raw q line
    let s1 := if dragsBack c s.counter.tracked h then s.setReverse else s
    let s2 : State :=
      { s1 with
        counter :=
          { s1.counter with
            quad := some (toggle q line)
            raw := c
            motion := .moving
            haltTimer := .running (s.sc.haltTime * Config.haltStep) } }
    .next (s2.setTracked (nextTracked c s.counter.tracked h))

/-- ILLEGAL_TRANSITION (R24): the new pair becomes the reference and encoder error is set; nothing is counted. A
station OFF LINE keeps its bits (R174, log 13). -/
def execIllegalTransition (s : State) : Host.Outcome State Fault Refusal :=
  match s.counter.quad with
  | none => .next s
  | some q =>
    let s1 : State := { s with counter := { s.counter with quad := some (!q.1, !q.2) } }
    .next
      (if s.line.state = .offLine then s1 else { s1 with sticky := { s1.sticky with encoderError := true } })

/-- HALT_TIMER_EXPIRY (R26, R27, R28): HALTED, the timer stops, and T is re-anchored to the raw count. -/
def execHaltTimerExpiry (s : State) : Host.Outcome State Fault Refusal :=
  match s.counter.haltTimer with
  | .stopped => .next s
  | .running _ =>
    let s1 : State := { s with counter := { s.counter with motion := .halted, haltTimer := .stopped } }
    .next (s1.setTracked s.counter.raw)

end Sys2Proof.Machine
end

