-- ==== Sys2Proof/Machine/Points.lean ====
section
/-!
DEFINITION. The point engines (04): sending, reaching, requesting, firing and ending points, and the events of their
lines.
-/

namespace Sys2Proof.Machine

/-! ## Outcomes -/

/-- Take an outcome for point `k`: the place is written, then the action that applies is handed over (R86). -/
def takeOutcome (c : Chan) (o : PointOutcome) (k : Nat) (s : State) : State :=
  let s1 := s.writePlace c k o
  match (s.pointRec c k).action with
  | some a => if a.applies o then s1.setOutput a.line a.level else s1
  | none => s1

/-- Take one outcome for the points `k`, ..., `k + n - 1`, in point order (R71). -/
def takeOutcomes (c : Chan) (o : PointOutcome) : (n k : Nat) → State → State
  | 0, _, s => s
  | n + 1, k, s => takeOutcomes c o n (k + 1) (takeOutcome c o k s)

/-- The engine's cursor, 0 when it is none. -/
def Engine.at (e : Engine) : Nat := e.cursor.getD 0

/-- The point count of the running program, 0 when there is none. -/
def Engine.points (e : Engine) : Nat := (e.running.map Running.count).getD 0

/-! ## Entries to states -/

/-- The lines of a state with PT at 0 (Table 20); a pulse or a waiting strobe ends with the state that gave it
(log 9). -/
def Engine.homeLines (e : Engine) : Engine :=
  { e with pt := 0, pstb := .stopped, pendingStrobe := none, sch := 0, fire := false }

/-- FINISHED (R89, R90): the cursor keeps its value. -/
def enterFinished (c : Chan) (s : State) : State :=
  (s.modEng c fun e => { e.homeLines with state := .finished, reach := .stopped, request := none }).setWindow c none

/-- HELD (R87): the request is withdrawn, the points after the cursor are WITHHELD, PT goes home, the window ends. -/
def enterHeld (c : Chan) (s : State) : State :=
  let k := (s.eng c).at
  let s1 := takeOutcomes c .withheld ((s.eng c).points - k) (k + 1) s
  (s1.modEng c fun e => { e.homeLines with state := .held, reach := .stopped, request := none }).setWindow c none

/-- IDLE (R91): cursor, program, option set copy, count and request are gone; the request number stays. -/
def enterIdle (c : Chan) (s : State) : State :=
  (s.modEng c fun e =>
    { e.homeLines with
      state := .idle, cursor := none, running := none, options := 0, reach := .stopped, faults := 0,
      request := none }).setWindow c none

/-- FIRING (R67, R80): SCH takes the schedule code, then FIRE rises; the request has become the weld. -/
def enterFiring (c : Chan) (s : State) : State :=
  let code := BitVec.ofNat 6 (s.current c).schedule
  s.modEng c fun e =>
    { e with state := .firing, sch := code, fire := true, request := none, reach := .stopped, pstb := .stopped,
             pendingStrobe := none }

/-- FIRE falls, then SCH returns to 0 (R67). -/
def dropFire (c : Chan) (s : State) : State := s.modEng c fun e => { e with fire := false, sch := 0 }

/-- REQUESTING (R77): the request number rises by one and a standing request is formed with the present count. -/
def enterRequesting (c : Chan) (s : State) : State :=
  let r := s.current c
  s.modEng c fun e =>
    { e with
      state := .requesting
      requestNumber := e.requestNumber + 1
      request :=
        some { point := e.at, load := r.load, hold := r.hold, round := s.line.count, number := e.requestNumber + 1 } }

/-- The engine withdraws its request (R78). -/
def withdraw (c : Chan) (s : State) : State := s.modEng c fun e => { e with request := none }

/-- The test of R75: GATED, the window OPEN and the gate satisfied lead to REQUESTING. -/
def tryRequest (c : Chan) (s : State) : State :=
  if (s.eng c).state = .gated ∧ (s.counter.window c).map Window.state = some .opened
      ∧ s.gateSatisfied c (s.current c) = true then enterRequesting c s
  else s

/-! ## Sending points -/

/-- The strobe of point `k` is given: PT takes k, PSTB pulses, the EVENT latch is cleared, the reach timer starts
(R69, R159). -/
def giveStrobe (c : Chan) (k : Nat) (s : State) : State :=
  let s1 :=
    s.modEng c fun e =>
      { e with
        pt := BitVec.ofNat 8 k, pstb := .running Config.strobePulse, pendingStrobe := none
        reach := .running (s.sc.reachLimit * Config.reachStep) }
  match (s.pointRec c k).gate with
  | some { line := i, kind := .event } => s1.modInput i fun x => x.setLatch c false
  | _ => s1

/-- Step 3 of R69: the strobe, or a pending strobe behind a running pulse; POSITIONING either way. -/
def strobe (c : Chan) (k : Nat) (s : State) : State :=
  let s1 := s.modEng c fun e => { e with state := .positioning, reach := .stopped }
  match (s.eng c).pstb with
  | .running _ => s1.modEng c fun e => { e with pendingStrobe := some k }
  | .stopped => giveStrobe c k s1

/-- The window at sending (R34): its state from the present P, the open event issued when it is OPEN. The close event
of a CLOSED window is taken within the sending (R69). -/
def sendWindow (c : Chan) (k : Nat) (s : State) : State :=
  let w := (s.pointRec c k).windowAt (s.relPos.getD 0)
  s.setWindow c (some { state := w, openDue := w == .opened, closeDue := false })

/-- Send point `k`, with `n` points from `k` to the end of the program (R69); past the last point the engine is
FINISHED (R70, R90). A point decided at sending leads straight on to the next. -/
def sendPoints (c : Chan) : (n k : Nat) → State → State
  | 0, _, s => enterFinished c s
  | n + 1, k, s =>
    let s1 := s.modEng c fun e => { e with cursor := some k }
    let r := s.pointRec c k
    if r.meets (s.eng c).options then
      let s2 := sendWindow c k s1
      if (s2.counter.window c).map Window.state = some .closed then
        sendPoints c n (k + 1) (takeOutcome c .missed k s2)
      else strobe c k s2
    else sendPoints c n (k + 1) (takeOutcome c .skipped k s1)

/-- Advance from the cursor (R70). -/
def advance (c : Chan) (s : State) : State :=
  let e := s.eng c
  sendPoints c (e.points - e.at) (e.at + 1) s

/-- The current point takes an outcome and the engine advances (R70, R86). -/
def endPoint (c : Chan) (o : PointOutcome) (s : State) : State :=
  advance c (takeOutcome c o (s.eng c).at s)

/-- The current point takes an outcome and the engine enters HELD (R86, R87). -/
def holdPoint (c : Chan) (o : PointOutcome) (s : State) : State :=
  enterHeld c (takeOutcome c o (s.eng c).at s)

/-- The engine takes a bound body (R68). -/
def startEngine (c : Chan) (b : Body) (s : State) : State :=
  match (b.part c).answer with
  | .absent => s
  | .failed _ n => takeOutcomes c .withheld n 1 s
  | .good p n =>
    if b.disputed then takeOutcomes c .withheld n 1 s
    else
      let s1 :=
        s.modEng c fun e =>
          { e with running := some { program := p, count := n }, options := b.options, faults := 0, cursor := some 1 }
      sendPoints c n 1 s1

/-- Close-out at zone end (R91, Table 22): the current point MISSED or CUT, every later point MISSED, then IDLE. -/
def closeOut (c : Chan) (s : State) : State :=
  let e := s.eng c
  let k := e.at
  let rest := e.points - k
  match e.state with
  | .idle | .finished | .held => enterIdle c s
  | .positioning | .gated | .requesting =>
    enterIdle c (takeOutcomes c .missed rest (k + 1) (takeOutcome c .missed k s))
  | .firing =>
    enterIdle c (takeOutcomes c .missed rest (k + 1) (takeOutcome c .cut k (dropFire c s)))

/-- The expiry of the own slot is reported to an engine (R84): OVERRUN and HELD in FIRING, nothing otherwise. -/
def reportExpiry (c : Chan) (s : State) : State :=
  if (s.eng c).state = .firing then holdPoint c .overrun (dropFire c s) else s

/-- An admission is reported with the offered request number (R79): FIRING when that request still stands. -/
def reportAdmission (c : Chan) (number : Byte) (s : State) : State :=
  if (s.eng c).state = .requesting ∧ (s.eng c).request.map Request.number = some number then enterFiring c s else s

/-- The filtered level of an input is reported to an engine (R76, R78, R157). -/
def reportLevel (line : Fin 8) (active : Bool) (c : Chan) (s : State) : State :=
  if (s.eng c).state.hasPoint ∧ (s.current c).gate = some { line := line, kind := .level } then
    if active then tryRequest c s
    else if (s.eng c).state = .requesting then
      (withdraw c s).modEng c fun e => { e with state := .gated }
    else s
  else s

/-- A latch becoming set is reported to its engine (R76, R158). -/
def reportLatch (line : Fin 8) (c : Chan) (s : State) : State :=
  if (s.eng c).state.hasPoint ∧ (s.current c).gate = some { line := line, kind := .event } then tryRequest c s else s

/-- The weld timer's answer (R81, R82): FIRE falls, the outcome is taken, the count follows, then HELD or advance. -/
def weldAnswer (c : Chan) (o : PointOutcome) (s : State) : State :=
  let s1 := dropFire c s
  let s2 := takeOutcome c o (s.eng c).at s1
  let n := if o = .welded then 0 else (s.eng c).faults + 1
  let s3 := s2.modEng c fun e => { e with faults := n }
  if 2 ≤ n then enterHeld c s3 else advance c s3

/-! ## Events of the channel lines -/

/-- PSTB_PULSE_END (R69): the pulse ends, and a pending strobe is given. -/
def execPstbPulseEnd (c : Chan) (s : State) : Host.Outcome State Fault Refusal :=
  match (s.eng c).pstb with
  | .stopped => .next s
  | .running _ =>
    match (s.eng c).pendingStrobe with
    | some k => .next (giveStrobe c k s)
    | none => .next (s.modEng c fun e => { e with pstb := .stopped })

/-- AT_PT_RISE (R72): in POSITIONING, once the strobe has been given, the timer stops and the engine is GATED. -/
def execAtPtRise (c : Chan) (s : State) : Host.Outcome State Fault Refusal :=
  if (s.eng c).state = .positioning ∧ (s.eng c).pendingStrobe = none then
    .next (tryRequest c (s.modEng c fun e => { e with state := .gated, reach := .stopped }))
  else .next s

/-- REACH_EXPIRY (R74): in POSITIONING with the timer running, the point is STALLED and the engine HELD. -/
def execReachExpiry (c : Chan) (s : State) : Host.Outcome State Fault Refusal :=
  if (s.eng c).state = .positioning ∧ (s.eng c).reach ≠ .stopped then
    .next (holdPoint c .stalled (s.modEng c fun e => { e with reach := .stopped }))
  else .next s

/-- WINDOW_OPEN (R73, R75): the event is taken; in GATED the test of R75 is made. -/
def execWindowOpen (c : Chan) (s : State) : Host.Outcome State Fault Refusal :=
  match s.counter.window c with
  | some { state := w, openDue := true, closeDue := d } =>
    .next (tryRequest c (s.setWindow c (some { state := w, openDue := false, closeDue := d })))
  | _ => .next s

/-- WINDOW_CLOSE (R73, R75, R78, R83): the event is taken; MISSED in POSITIONING, GATED and REQUESTING. -/
def execWindowClose (c : Chan) (s : State) : Host.Outcome State Fault Refusal :=
  match s.counter.window c with
  | some { state := w, openDue := d, closeDue := true } =>
    let s1 := s.setWindow c (some { state := w, openDue := d, closeDue := false })
    match (s.eng c).state with
    | .positioning | .gated => .next (endPoint c .missed (s1.modEng c fun e => { e with reach := .stopped }))
    | .requesting => .next (endPoint c .missed (withdraw c s1))
    | .idle | .firing | .finished | .held => .next s1
  | _ => .next s

/-- WDONE_RISE (R81, R85): in FIRING, WELDED, or FAULTED while WFAULT is active; stray in any other state. -/
def execWdoneRise (c : Chan) (wfaultActive : Bool) (s : State) : Host.Outcome State Fault Refusal :=
  if (s.eng c).state = .firing then .next (weldAnswer c (if wfaultActive then .faulted else .welded) s) else .next s

/-- WFAULT_RISE (R81, R85): in FIRING, FAULTED; stray in any other state. -/
def execWfaultRise (c : Chan) (s : State) : Host.Outcome State Fault Refusal :=
  if (s.eng c).state = .firing then .next (weldAnswer c .faulted s) else .next s

end Sys2Proof.Machine
end

