-- ==== Sys2Proof/Machine/Auxiliary.lean ====
section
/-!
DEFINITION. The auxiliary line unit (07): conditioning the inputs and setting the event latches.
-/

namespace Sys2Proof.Machine

/-- A channel's latch of an input is set, and reported when it was clear (R158). -/
def setLatch (line : Fin 8) (c : Chan) (s : State) : State :=
  if s.aux.inputs[line].latch c then s else reportLatch line c (s.modInput line fun x => x.setLatch c true)

/-- A filtered change of an input (R157, R158): the report of the level to both engines, then the latches. -/
def filteredChange (line : Fin 8) (active : Bool) (s : State) : State :=
  let s1 := s.modInput line fun x => { x with filtered := active, timer := .stopped }
  let s2 := reportLevel line active .b (reportLevel line active .a s1)
  if (s.sc.auxIn[line].edge).hit active then setLatch line .b (setLatch line .a s2) else s2

/-- AUX_RAW_CHANGE (R156): the raw level of a used input changes; the filter timer starts or stops, and with a filter
time of 0 the change is a filtered change at once. -/
def execAuxRawChange (line : Fin 8) (pinHigh : Bool) (s : State) : Host.Outcome State Fault Refusal :=
  let k := s.sc.auxIn[line]
  let level := readLevel k.activeLow pinHigh
  if s.isRunning = true ∧ k.used = true ∧ s.aux.inputs[line].raw ≠ some level then
    let s1 := s.modInput line fun x => { x with raw := some level }
    if level = s.aux.inputs[line].filtered then .next (s1.modInput line fun x => { x with timer := .stopped })
    else if k.filter = 0 then .next (filteredChange line level s1)
    else .next (s1.modInput line fun x => { x with timer := .running (k.filter * Config.filterStep) })
  else .next s

/-- AUX_FILTER_EXPIRY (R156): the timer stops, the filtered level takes the raw level, a filtered change. -/
def execAuxFilterExpiry (line : Fin 8) (s : State) : Host.Outcome State Fault Refusal :=
  match s.aux.inputs[line].timer, s.aux.inputs[line].raw with
  | .running _, some level => .next (filteredChange line level s)
  | _, _ => .next s

/-- Conditioning begins at the end of LOADING (R155): a used line's raw level is its filtered level. -/
def AuxIn.sampled (x : AuxIn) (k : AuxInCfg) (pinHigh : Bool) : AuxIn :=
  if k.used then { x with raw := some (readLevel k.activeLow pinHigh), filtered := readLevel k.activeLow pinHigh }
  else x

/-- Every input sampled from the pins (R155). -/
def sampleInputs (k : Vector AuxInCfg 8) (v : Vector AuxIn 8) (pins : BitVec 8) : Vector AuxIn 8 :=
  #v[v[0].sampled k[0] (pins.getLsbD 0), v[1].sampled k[1] (pins.getLsbD 1), v[2].sampled k[2] (pins.getLsbD 2),
    v[3].sampled k[3] (pins.getLsbD 3), v[4].sampled k[4] (pins.getLsbD 4), v[5].sampled k[5] (pins.getLsbD 5),
    v[6].sampled k[6] (pins.getLsbD 6), v[7].sampled k[7] (pins.getLsbD 7)]

/-- The unit stops conditioning (R160): the filter timers stop, levels and latches stay. -/
def stopConditioning (v : Vector AuxIn 8) : Vector AuxIn 8 :=
  #v[{ v[0] with timer := .stopped }, { v[1] with timer := .stopped }, { v[2] with timer := .stopped },
    { v[3] with timer := .stopped }, { v[4] with timer := .stopped }, { v[5] with timer := .stopped },
    { v[6] with timer := .stopped }, { v[7] with timer := .stopped }]

/-- The level state an output takes at the good header (R162). -/
def AuxOutCfg.initial (k : AuxOutCfg) : OutLevel :=
  if k.used then if k.initialActive then .active else .inactive else .released

/-- Every output at its initial level (R162). -/
def initialOutputs (k : Vector AuxOutCfg 8) : Vector OutLevel 8 :=
  #v[k[0].initial, k[1].initial, k[2].initial, k[3].initial, k[4].initial, k[5].initial, k[6].initial, k[7].initial]

end Sys2Proof.Machine
end

