-- ==== Sys2Proof/Machine/Bodies.lean ====
section
/-!
DEFINITION. The body tracker (03) and the result builder (08): binding, zone end, RESULT items, the tag port, the
sensors, and what the register takes from items.
-/

namespace Sys2Proof.Machine

/-! ## RESULT items (R167 to R169) -/

/-- Whether an outcome is named in the defect list: MISSED, FAULTED, OVERRUN, CUT, STALLED (R169). -/
def PointOutcome.listed : PointOutcome → Bool
  | .missed | .faulted | .overrun | .cut | .stalled => true
  | .welded | .skipped | .withheld => false

/-- Whether an outcome counts as defective: FAULTED, OVERRUN, CUT, STALLED (R168). -/
def PointOutcome.defective : PointOutcome → Bool
  | .faulted | .overrun | .cut | .stalled => true
  | .welded | .skipped | .missed | .withheld => false

/-- The number of places holding an outcome of a kind. -/
def countPlaces (p : PointOutcome → Bool) (places : List (Option PointOutcome)) : Nat :=
  places.countP fun x => x.any p

/-- Every MISSED or defective place, in point order (R169). -/
def allDefects (places : List (Option PointOutcome)) : List Defect :=
  places.zipIdx.filterMap fun x =>
    match x.1 with
    | some o => if o.listed then some { point := BitVec.ofNat 8 (x.2 + 1), kind := BitVec.ofNat 8 o.code } else none
    | none => none

/-- The RESULT of one channel at forming (R168, R169). -/
def formResult (c : Chan) (b : Body) : Result :=
  let places := (b.part c).places
  { serial := b.serial
    channel := c
    rpt := false
    more := Config.defectEntries < (allDefects places).length
    unlisted := !b.listed
    welded := BitVec.ofNat 8 (countPlaces (· == .welded) places)
    skipped := BitVec.ofNat 8 (countPlaces (· == .skipped) places)
    missed := BitVec.ofNat 8 (countPlaces (· == .missed) places)
    defective := BitVec.ofNat 8 (countPlaces PointOutcome.defective places)
    withheld := BitVec.ofNat 8 (countPlaces (· == .withheld) places)
    defects := (allDefects places).take Config.defectEntries }

/-- The RESULT of a channel is handed to the outbox, unless its answer is none (R167). -/
def pushResult (c : Chan) (b : Body) (s : State) : State :=
  match (b.part c).answer with
  | .absent => s
  | .failed _ _ | .good _ _ => s.pushItem (.result (formResult c b))

/-! ## Binding (R52, R53, R55) -/

/-- The point count of an answer (R19, R47). -/
def Answer.count : Answer → Nat
  | .absent => 0
  | .failed _ n | .good _ n => n

/-- The per-channel part at binding: the answer, every place unset (R47). -/
def newPart (a : Answer) : ChannelPart where
  answer := a
  places := List.replicate a.count none

/-- The zone becomes BOUND with an identity; resolution is made and both engines take the body (R53, R68). Engine A takes
it before B, so that of two actions at sending B's governs a shared output: DESIGN CHOICE (log 26). -/
def bindZone (datum : Word32) (serial : Word24) (style : Byte) (options : Word16) (disputed listed : Bool)
    (s : State) : State :=
  let b : Body :=
    { serial := serial, style := style, options := options, disputed := disputed, listed := listed
      partA := newPart (resolve s.sc s.store .a style)
      partB := newPart (resolve s.sc s.store .b style) }
  startEngine .b b (startEngine .a b (s.setZone (.bound datum b)))

/-- Set the marks of the entries with a serial. -/
def State.markEntry (s : State) (serial : Word24) (m : Mark) : State :=
  { s with tracker := { s.tracker with register := markSerial s.tracker.register serial m } }

/-- Order binding (R52). -/
def orderBind (datum : Word32) (s : State) : State :=
  match s.tracker.register.find? (fun e => e.mark == .ahead) with
  | some e =>
    bindZone datum e.serial e.style e.options e.disputed true (s.markEntry e.serial .here)
  | none =>
    { (s.setZone (.stray datum)) with sticky := { s.sticky with strayBody := true } }

/-- The entries older than the one with a serial (R43, R55). -/
def olderThan (reg : List Entry) (serial : Word24) : List Entry := reg.takeWhile fun e => e.serial != serial

/-- Binding from a tag record (R55). -/
def tagBind (datum : Word32) (serial : Word24) (style : Byte) (options : Word16) (s : State) : State :=
  let s0 : State := { s with counter := { s.counter with pairWatch := .disarmed } }
  match s.tracker.register.find? (fun e => e.serial == serial) with
  | none => bindZone datum serial style options false false (s0.pushItem (.announce serial style options))
  | some e =>
    let s1 := s0.markEntry serial .here
    if e.style = style ∧ e.options = options then
      let older := olderThan s.tracker.register serial
      let s2 := if older.any fun o => o.mark == .ahead && o.announcer ≤ s.own then s1.pushItem (.resync serial) else s1
      bindZone datum serial e.style e.options e.disputed true s2
    else
      bindZone datum serial e.style e.options true true (s1.pushItem (.dispute serial style options))

/-! ## Zone end (R59 to R62) -/

/-- The zone length and pairing watches are disarmed and the windows become none (R32, R33, R36). -/
def State.endWatches (s : State) : State :=
  { s with
    counter :=
      { s.counter with pairWatch := .disarmed, zoneWatch := .disarmed, windowA := none, windowB := none } }

/-- Zone end of a BOUND body, after the engines have closed out (R60, steps 2 to 6). -/
def finishZone (s : State) : State :=
  match s.tracker.zone with
  | .bound _ b =>
    let s1 := pushResult .b b (pushResult .a b s)
    let s2 := if s.sc.exit then s1.pushItem (.depart b.serial) else s1
    (((s2.markEntry b.serial .passed).endWatches).setZone .empty)
  | _ => s

/-- Zone end, whatever the state of the zone record; nothing in EMPTY (R59 to R61). -/
def zoneEnd (s : State) : State :=
  match s.tracker.zone with
  | .empty => s
  | .bound _ _ => finishZone (closeOut .b (closeOut .a s))
  | .stray _ => s.endWatches.setZone .empty
  | .pairing _ => { (s.endWatches.setZone .empty) with sticky := { s.sticky with tagMissing := true } }

/-- An arrival, once its rising edge is taken (R50): forced zone end, datum and watch, then the binding. -/
def takeArrival (s : State) : State :=
  let s1 := zoneEnd s
  let datum := s1.counter.tracked
  let s2 : State :=
    { s1 with counter := { s1.counter with zoneWatch := Watch.arm datum (s1.sc.zoneLength - 1) } }
  if s.sc.reader then
    match s2.tracker.held with
    | some r =>
      tagBind datum r.serial r.style r.options
        { s2 with counter := { s2.counter with heldWatch := .disarmed }, tracker := { s2.tracker with held := none } }
    | none =>
      { (s2.setZone (.pairing datum)) with
        counter := { s2.counter with pairWatch := Watch.arm datum s.sc.tagWait } }
  else orderBind datum s2

/-! ## Tag records (R54 to R56) -/

/-- Set the tag record error bit, the receiver idle (R54). -/
def tagError (s : State) : State :=
  { s with
    tracker := { s.tracker with tagBytes := [], tagTimer := .stopped }
    sticky := { s.sticky with tagRecordError := true } }

/-- A good tag record is taken by the tracker (R55, R56). -/
def takeTagRecord (serial : Word24) (style : Byte) (options : Word16) (s : State) : State :=
  let hold : State :=
    { s with
      tracker :=
        { s.tracker with
          held := some { serial := serial, style := style, options := options, position := s.counter.tracked } }
      counter := { s.counter with heldWatch := Watch.arm s.counter.tracked s.sc.tagWait } }
  match s.tracker.zone with
  | .pairing d => tagBind d serial style options s
  | .bound _ b => if b.serial = serial then s else hold
  | .empty | .stray _ => hold

/-- A complete record is checked (R54): the check byte is the XOR of the six data bytes, the serial not 0. -/
def tagComplete (bytes : List Byte) (s : State) : State :=
  match bytes with
  | [_, b1, b2, b3, b4, b5, b6, b7] =>
    if b7 = b1 ^^^ b2 ^^^ b3 ^^^ b4 ^^^ b5 ^^^ b6 ∧ be24 b1 b2 b3 ≠ 0 then
      takeTagRecord (be24 b1 b2 b3) b4 (be16 b5 b6)
        { s with tracker := { s.tracker with tagBytes := [], tagTimer := .stopped } }
    else tagError s
  | _ => s

/-- A byte with its stop bit high is taken into the record (R54). -/
def takeTagByte (byte : Byte) (s : State) : State :=
  let bytes := s.tracker.tagBytes ++ [byte]
  if s.tracker.tagBytes = [] ∧ byte ≠ 0x5B then tagError s
  else if bytes.length = 8 then tagComplete bytes s
  else { s with tracker := { s.tracker with tagBytes := bytes, tagTimer := .running Config.tagByteWait } }

/-! ## Items applied to the register (R39 to R45) -/

/-- The oldest entry is removed when the register is full, and the eviction bit set (R40, step 2). -/
def evictIfFull (s : State) : State :=
  if s.tracker.register.length < Config.registerCapacity then s
  else
    { s with
      tracker := { s.tracker with register := s.tracker.register.drop 1 }
      sticky := { s.sticky with registerEviction := true } }

/-- The zone record is BOUND, unlisted, with a serial (R40, R41). -/
def Zone.unlistedWith (z : Zone) (serial : Word24) : Bool :=
  match z with
  | .bound _ b => !b.listed && b.serial == serial
  | _ => false

/-- The zone record becomes listed (R41). -/
def Zone.makeListed : Zone → Zone
  | .bound d b => .bound d { b with listed := true }
  | z => z

/-- The mark of a new entry announced by `sender` (R40, step 4, rows 2 to 4). -/
def announceMark (own sender : Nat) : Mark :=
  if sender = own then .passed else if sender < own then .ahead else .notMine

/-- ANNOUNCE (R40, R41). -/
def applyAnnounce (sender : Nat) (serial : Word24) (style : Byte) (options : Word16) (s : State) : State :=
  if s.tracker.register.any fun e => e.serial == serial then s
  else
    let s1 := evictIfFull s
    let unlisted := s.tracker.zone.unlistedWith serial
    let e : Entry :=
      { serial := serial, style := style, options := options, announcer := sender, disputed := false
        mark := if unlisted then .here else announceMark s.own sender }
    { s1 with
      tracker :=
        { s1.tracker with
          register := s1.tracker.register ++ [e]
          zone := if unlisted then s1.tracker.zone.makeListed else s1.tracker.zone } }

/-- DISPUTE (R42). -/
def applyDispute (serial : Word24) (s : State) : State :=
  { s with
    tracker :=
      { s.tracker with
        register := s.tracker.register.map fun e => if e.serial = serial then { e with disputed := true } else e } }

/-- The register after a RESYNC (R43). -/
def resyncRegister (sender : Nat) (serial : Word24) (reg : List Entry) : List Entry :=
  if reg.any fun e => e.serial == serial then
    ((olderThan reg serial).filter fun e => sender < e.announcer) ++ reg.dropWhile fun e => e.serial != serial
  else reg

/-- RESYNC (R43). -/
def applyResync (sender : Nat) (serial : Word24) (s : State) : State :=
  { s with tracker := { s.tracker with register := resyncRegister sender serial s.tracker.register } }

/-- DEPART (R44): from a frame with the EXIT flag only. -/
def applyDepart (exitFlag : Bool) (serial : Word24) (s : State) : State :=
  if exitFlag then
    { s with tracker := { s.tracker with register := s.tracker.register.filter fun e => e.serial != serial } }
  else s

/-- One item of a frame (R39); a RESULT, and an item whose serial is 0, are passed over. -/
def applyItem (sender : Nat) (exitFlag : Bool) (s : State) (i : Item) : State :=
  match i with
  | .announce n y o => if n = 0 then s else applyAnnounce sender n y o s
  | .dispute n _ _ => if n = 0 then s else applyDispute n s
  | .resync n => if n = 0 then s else applyResync sender n s
  | .depart n => if n = 0 then s else applyDepart exitFlag n s
  | .result _ => s

/-- The items of a frame, in frame order (R39). -/
def applyItems (sender : Nat) (exitFlag : Bool) (items : List Item) (s : State) : State :=
  items.foldl (applyItem sender exitFlag) s

/-! ## Events -/

/-- HELD_READ_EXPIRY (R30, R57): the held read watch discharges and the held read is discarded. -/
def execHeldReadExpiry (s : State) : Host.Outcome State Fault Refusal :=
  if s.counter.heldWatch = .due then
    .next
      { s with
        counter := { s.counter with heldWatch := .disarmed }
        tracker := { s.tracker with held := none } }
  else .next s

/-- PAIRING_WAIT_EXPIRY (R30, R58): the pairing watch discharges; in PAIRING tag missing is set and the zone is bound
by order. -/
def execPairingWaitExpiry (s : State) : Host.Outcome State Fault Refusal :=
  if s.counter.pairWatch = .due then
    let s1 : State := { s with counter := { s.counter with pairWatch := .disarmed } }
    match s.tracker.zone with
    | .pairing d => .next (orderBind d { s1 with sticky := { s1.sticky with tagMissing := true } })
    | .empty | .bound _ _ | .stray _ => .next s1
  else .next s

/-- ZONE_LENGTH_EVENT (R30, R33, R59): the zone length watch discharges and ends the zone. -/
def execZoneLengthEvent (s : State) : Host.Outcome State Fault Refusal :=
  if s.counter.zoneWatch = .due then
    .next (zoneEnd { s with counter := { s.counter with zoneWatch := .disarmed } })
  else .next s

/-- The rising edge of a sensor comes: its wait has run with the raw level active (R49). -/
def Sensor.rises (x : Sensor) : Bool := x.raw && !x.filtered && x.wait != .stopped

/-- The filtered level of a sensor takes the raw level (R49). -/
def Sensor.settle (x : Sensor) : Sensor := { x with filtered := x.raw, wait := .stopped }

/-- ARRIVAL (R49, R50): the filtered level of BODY_IN rises and the arrival is taken. -/
def execArrival (s : State) : Host.Outcome State Fault Refusal :=
  if s.isRunning = true ∧ s.tracker.bodyIn.rises = true then
    .next (takeArrival (s.setSensor .bodyIn s.tracker.bodyIn.settle))
  else .next s

/-- ZONE_EXIT (R49, R59): the filtered level of ZONE_OUT rises and ends the zone if it is not EMPTY. -/
def execZoneExit (s : State) : Host.Outcome State Fault Refusal :=
  if s.isRunning = true ∧ s.tracker.zoneOut.rises = true then
    .next (zoneEnd (s.setSensor .zoneOut s.tracker.zoneOut.settle))
  else .next s

/-- TAG_BYTE (R54): on a reader station in a running line state. -/
def execTagByte (byte : Byte) (stopHigh : Bool) (s : State) : Host.Outcome State Fault Refusal :=
  if s.isRunning = true ∧ s.sc.reader = true then
    .next (if stopHigh then takeTagByte byte s else tagError s)
  else .next s

/-- TAG_BYTE_TIMEOUT (R54): while assembling, the partial record is discarded. -/
def execTagByteTimeout (s : State) : Host.Outcome State Fault Refusal :=
  if s.isRunning = true ∧ s.tracker.tagBytes ≠ [] then .next (tagError s) else .next s

/-- SENSOR_RAW_LEVEL_CHANGE (R49): the wait starts when the raw level differs from the filtered level, and is
abandoned when it returns to it. -/
def execSensorRawLevelChange (l : SensorLine) (level : Bool) (s : State) : Host.Outcome State Fault Refusal :=
  let x := s.tracker.sensor l
  if s.isRunning = true ∧ x.raw ≠ level then
    .next
      (s.setSensor l
        { x with raw := level, wait := if level = x.filtered then .stopped else .running Config.sensorFilter })
  else .next s

/-- SENSOR_FALLING_EDGE (R49): the wait has run with the raw level inactive; the filtered level falls, with no other
effect. -/
def execSensorFallingEdge (l : SensorLine) (s : State) : Host.Outcome State Fault Refusal :=
  let x := s.tracker.sensor l
  if s.isRunning = true ∧ x.raw = false ∧ x.filtered = true ∧ x.wait ≠ .stopped then .next (s.setSensor l x.settle)
  else .next s

end Sys2Proof.Machine
end

