-- ==== Sys2Proof/Machine/Feeder.lean ====
section
/-!
DEFINITION. The feeder table (05): applying claim lists, expiry, drops, sight, own slots and admission, own turn end.
-/

namespace Sys2Proof.Machine

/-! ## Expiry (R104, R105) -/

/-- A row at a new round count: expired ACTIVE slots become EMPTY and lose their retained mark. -/
def AddrRow.expire (count : Word16) (w : AddrRow) : AddrRow where
  slotA := if w.slotA.expired count then .empty else w.slotA
  slotB := if w.slotB.expired count then .empty else w.slotB
  retainedA := w.retainedA && !w.slotA.expired count
  retainedB := w.retainedB && !w.slotB.expired count
  digestMark := w.digestMark

/-- Whether a count has reached an orphan's expire round (R104). -/
def Orphan.reached (count : Word16) (o : Orphan) : Bool := roundAge count o.expire < Config.roundsAhead

/-- The rows of a view, each changed. -/
def mapRows (f : AddrRow → AddrRow) (v : Vector AddrRow 30) : Vector AddrRow 30 :=
  ⟨⟨v.toList.map f⟩, by simp⟩

/-- The view at a new round count (R104). -/
def View.expire (count : Word16) (v : View) : View :=
  { v with rows := mapRows (AddrRow.expire count) v.rows, orphans := v.orphans.filter fun o => !o.reached count }

/-- The feeder table takes the round count as it stands (R104), and reports the own slots it empties (R84, R105). With
both emptied A is reported before B, so that B's OVERRUN action governs a shared output: DESIGN CHOICE (log 26). -/
def expireClaims (s : State) : State :=
  match s.line.count with
  | none => s
  | some n =>
    let own := s.view.row s.own
    let s1 : State := { s with view := s.view.expire n }
    let s2 := if own.slotA.expired n then reportExpiry .a s1 else s1
    if own.slotB.expired n then reportExpiry .b s2 else s2

/-! ## Applying a claim list (R101 to R103) -/

/-- One frame slot against a row (R101, R102). -/
def AddrRow.applySlot (count : Word16) (ceiling : Nat) (c : Chan) (x : RawSlot) (w : AddrRow) : AddrRow :=
  if x.malformed ceiling then w else (w.setSlot c (x.published count)).setRetained c false

/-- Whether a channel's slot is a new admission against the row before the claim list (R103, log 27). -/
def newlyActive (old new : AddrRow) (c : Chan) : Bool :=
  match new.slot c with
  | .active _ r _ => !(old.slot c).activeSince r
  | _ => false

/-- The claim list of a frame from `sender` is applied at a round count, and the new admission test is made (R101 to
R103). The row it is made against is the one that the realignment and the header of the frame have left: DEDUCED
(log 27). -/
def View.applyClaims (count : Word16) (ceiling : Nat) (sender : Nat) (a b : RawSlot) (v : View) : View :=
  let old := v.row sender
  let new := (old.applySlot count ceiling .a a).applySlot count ceiling .b b
  let v1 := v.setRow sender new
  let v2 := if a.malformed ceiling || b.malformed ceiling then v1.setMiss else v1
  if newlyActive old new .a || newlyActive old new .b then { v2 with pointer := sender } else v2

/-! ## Losing a station (R106) -/

/-- One slot of a dropped station. A slot that becomes EMPTY has no retained mark (R107, log 23); an ACTIVE slot no longer
live becomes EMPTY (log 17). -/
def View.dropSlot (count : Word16) (s : Nat) (c : Chan) (v : View) : View :=
  match (v.row s).slot c with
  | .empty => v
  | .waiting _ _ => v.setSlot s c .empty
  | .active l r h =>
    if liveAt count r h = false then v.setRow s (((v.row s).setSlot c .empty).setRetained c false)
    else if v.orphans.length < Config.orphanCapacity then
      let o : Orphan := { address := s, channel := c, load := l, expire := r + BitVec.ofNat 16 h }
      { v with orphans := v.orphans ++ [o] }.setRow s (((v.row s).setSlot c .empty).setRetained c false)
    else v.setRow s ((v.row s).setRetained c true)

/-- The feeder table takes the drop of a station: channel A, then channel B, then the digest mark (R106, R113). -/
def View.drop (count : Word16) (s : Nat) (v : View) : View :=
  let v1 := (v.dropSlot count s .a).dropSlot count s .b
  v1.setRow s { v1.row s with digestMark := false }

/-! ## Sight (R110, R111) -/

/-- A round record is clean at the boundary that closes it (R146). -/
def RoundRecord.cleanAtEnd (r : RoundRecord) : Bool := r.complete && r.clean && (!r.openedOnLine || r.goodEcho)

/-- The report of a closing round (R110, R111): what it clears, and the flag for the round that opens. -/
def View.closeRound (r : RoundRecord) (v : View) : View :=
  { v with
    miss := v.miss && !(r.cleanAtEnd && !v.missThisRound)
    fresh := v.fresh && !(r.cleanAtEnd && r.openedOnLine)
    missThisRound := false }

/-! ## Own turn start (R116 to R122) -/

/-- An own slot from what its engine presents (R116, R117). -/
def ownSlot (count : Word16) (e : Engine) (x : Slot) : Slot :=
  match e.state with
  | .requesting =>
    match e.request with
    | some q => .waiting q.load (q.round.getD count)
    | none => .empty
  | .firing => x
  | .idle | .positioning | .gated | .finished | .held => .empty

/-- Both own slots are set, channel A and then channel B (R117). -/
def setOwnSlots (count : Word16) (s : State) : State :=
  let v1 := s.view.setSlot s.own .a (ownSlot count s.engA ((s.view.row s.own).slot .a))
  { s with view := v1.setSlot s.own .b (ownSlot count s.engB ((v1.row s.own).slot .b)) }

/-- Judging one own slot (R118), and admitting it (R121). -/
def judgeSlot (count : Word16) (c : Chan) (s : State) : State :=
  match (s.view.row s.own).slot c, (s.eng c).request with
  | .waiting l r, some q =>
    if s.blind = true ∨ s.lc.budget < s.view.committed count + l
        ∨ policyRefuses s.lc s.view count { address := s.own, channel := c, round := r } = true then s
    else
      { s with
        view := (s.view.setSlot s.own c (.active l count q.hold)).setOffer c (some { number := q.number, round := r }) }
  | _, _ => s

/-- Whether channel B's own slot is judged before channel A's: both wait and B's request is older (R115, R118). -/
def judgesBFirst (count : Word16) (w : AddrRow) : Bool :=
  match w.slotA, w.slotB with
  | .waiting _ ra, .waiting _ rb => roundAge count ra < roundAge count rb
  | _, _ => false

/-- The own WAITING slots are judged in the order of precedence between them (R118). -/
def judgeOwnSlots (count : Word16) (s : State) : State :=
  if judgesBFirst count (s.view.row s.own) then judgeSlot count .a (judgeSlot count .b s)
  else judgeSlot count .b (judgeSlot count .a s)

/-! ## Own turn end (R123, R124) -/

/-- Good echo (R123): the own slots already hold the frame's values (log 18); the pointer, the reports, the offers. -/
def feederGoodEcho (s : State) : State :=
  let offA := s.view.offerA
  let offB := s.view.offerB
  let s1 : State :=
    if offA.isSome || offB.isSome then { s with view := { s.view with pointer := s.own } } else s
  let s2 := match offA with
    | some o => reportAdmission .a o.number s1
    | none => s1
  let s3 := match offB with
    | some o => reportAdmission .b o.number s2
    | none => s2
  { s3 with view := { s3.view with offerA := none, offerB := none } }

/-- An offered own slot returns to WAITING (R124). -/
def revertSlot (x : Slot) (o : Option Offer) : Slot :=
  match x, o with
  | .active l _ _, some q => .waiting l q.round
  | x, _ => x

/-- Failed echo (R124): offered own slots return to WAITING, the offers end, the miss cause is set. -/
def feederFailedEcho (s : State) : State :=
  let v := s.view
  let w := v.row s.own
  let v1 := v.setRow s.own { w with slotA := revertSlot w.slotA v.offerA, slotB := revertSlot w.slotB v.offerB }
  { s with view := { v1 with offerA := none, offerB := none }.setMiss }

/-- CLAIM_EXPIRY (R104, R105): the feeder table expires what the round count has reached, in the running line
states (R126). -/
def execClaimExpiry (s : State) : Host.Outcome State Fault Refusal :=
  .next (if s.isRunning then expireClaims s else s)

end Sys2Proof.Machine
end

