-- ==== Sys2Proof/Machine/StationLine.lean ====
section
/-!
DEFINITION. The line controller (06): the rotation, rounds, the own frame, the frames heard, and OFF LINE.
-/

namespace Sys2Proof.Machine

/-! ## Rounds (R145, R146) -/

/-- One more boundary since a frame (R127). -/
def Since.next : Since → Since
  | .zero => .one
  | .one | .more => .more

/-- A standing request made while no count was held takes the first count (R77). -/
def fillRequest (count : Word16) (e : Engine) : Engine :=
  { e with request := e.request.map fun q => { q with round := some (q.round.getD count) } }

/-- The entry to JOINING, when the join hold count has reached the hold ceiling + 2 (R149). -/
def joinHoldEnd (s : State) : State :=
  if s.line.state = .listening ∧ s.line.count.isSome = true ∧ s.lc.holdCeiling + Config.joinMargin ≤ s.line.joinHold then
    { s with line := { s.line with state := .joining } }
  else s

/-- In LISTENING the join hold count is raised at a boundary (R145, R149). -/
def raiseJoinHold (s : State) : State :=
  if s.line.state = .listening then
    joinHoldEnd { s with line := { s.line with joinHold := s.line.joinHold + 1 } }
  else s

/-- The round record a boundary opens (R145). -/
def RoundRecord.opened (st : LineState) : RoundRecord where
  complete := true
  clean := true
  openedOnLine := st == .onLine
  goodEcho := false

/-- The round boundary (R145): the count, the feeder table's expiry, the report of the closing round, the last valid
frame, the join hold, and the new record. -/
def boundary (s : State) : State :=
  match s.line.count with
  | none => s
  | some n =>
    let s1 := expireClaims { s with line := { s.line with count := some (n + 1) } }
    let s2 : State :=
      { s1 with
        view := s1.view.closeRound s1.line.record
        line := { s1.line with lastValid := s1.line.lastValid.map fun f => { f with since := f.since.next } } }
    let s3 := raiseJoinHold s2
    { s3 with line := { s3.line with record := RoundRecord.opened s3.line.state } }

/-! ## The rotation (R132) -/

/-- The address after `a` in rising order, wrapping from 30 to 1. -/
def nextAddress (a : Nat) : Nat := if a = Config.lastAddress then 1 else a + 1

/-- The rotation moves on from `a` (R132): the boundary is taken at the wrap, before the new position begins. -/
def moveOn (a : Nat) (ref : RefPoint) (s : State) : State :=
  let s1 := if a = Config.lastAddress then boundary s else s
  let n := nextAddress a
  let kind := if s1.line.onRoster n then PosKind.turn else PosKind.window
  { s1 with line := { s1.line with position := some { address := n, kind := kind, ref := ref } } }

/-! ## OFF LINE (R152, with R64, R93, R126, R160) -/

/-- The entry to OFF LINE from a running line state: the engines close out, A before B, and every block stops. -/
def enterOffLine (s : State) : State :=
  let s1 := closeOut .b (closeOut .a s)
  let l := s1.line.setRoster s1.own none
  { s1 with
    counter :=
      { s1.counter with
        heldWatch := .disarmed, pairWatch := .disarmed, zoneWatch := .disarmed, windowA := none, windowB := none }
    tracker :=
      { s1.tracker with
        held := none, bodyIn := s1.tracker.bodyIn.stopWait, zoneOut := s1.tracker.zoneOut.stopWait
        tagBytes := [], tagTimer := .stopped }
    view := { s1.view with offerA := none, offerB := none }
    aux := { s1.aux with inputs := stopConditioning s1.aux.inputs }
    line :=
      { l with
        state := .offLine, position := none, foundingTimer := .stopped, inFlight := none, de := false
        carrier := none, untaken := .absent } }

/-! ## The own frame (R138, R139) -/

/-- The outbox items a frame takes, oldest first, while the next one fits (R138). -/
def takeItems : (size n : Nat) → List Item → List Item
  | _, _, [] => []
  | size, n, i :: rest =>
    if size + i.size ≤ Config.frameItemBytes ∧ n < Config.frameItems then i :: takeItems (size + i.size) (n + 1) rest
    else []

/-- The frame as the state stands at own turn start (R122, R138, R172). -/
def buildFrame (s : State) : Frame where
  sender := BitVec.ofNat 8 s.own
  fresh := s.view.fresh
  blind := s.blind
  reader := s.sc.reader
  exit := s.sc.exit
  halted := s.counter.motion == .halted
  occupied := s.tracker.zone != .empty
  round := s.line.count.getD 0
  pointer := BitVec.ofNat 8 s.view.pointer
  digest := s.lc.digest
  tag := s.store.tag
  status := s.statusWord
  slotA := ((s.view.row s.own).slot .a).raw
  slotB := ((s.view.row s.own).slot .b).raw
  items := takeItems 0 0 s.line.outbox

/-- Own turn start (R117 to R122, R131, R138): the own slots are set and judged, the frame is built and sent. -/
def ownTurnStart (count : Word16) (s : State) : State :=
  let s1 := judgeOwnSlots count (setOwnSlots count s)
  let f := buildFrame s1
  { s1 with
    line := { s1.line with de := true, inFlight := some { bytes := f.encode, carried := f.items.length } } }

/-- A RESULT item with its repeat flag set (R139). -/
def Item.repeated : Item → Item
  | .result r => .result { r with rpt := true }
  | i => i

/-- The outbox after a failed echo: the RESULT items among the oldest `k` are repeats from now on (R139). -/
def markRepeats (k : Nat) (items : List Item) : List Item :=
  (items.take k).map Item.repeated ++ items.drop k

/-! ## Applying a frame (R153) -/

/-- The round count is adopted, and the feeder table takes the change (R145, R147, R149). -/
def adoptCount (round : Word16) (s : State) : State :=
  expireClaims { s with line := { s.line with count := some round } }

/-- Whether a disagreeing frame leads to an adoption (R147). -/
def adopts (last : Option LastValid) (sender : Nat) (round : Word16) : Bool :=
  match last with
  | some f =>
    f.disagreed && f.sender != sender &&
      match f.since with
      | .zero => round == f.round
      | .one => round == f.round + 1
      | .more => false
  | none => false

/-- The round step of the header: the first frame gives the count (R149), a later one is compared (R147). -/
def takeRound (sender : Nat) (round : Word16) (s : State) : State :=
  match s.line.count with
  | none =>
    let s1 := adoptCount round s
    { s1 with
      engA := fillRequest round s1.engA
      engB := fillRequest round s1.engB
      line := { s1.line with joinHold := 0 } }
  | some n =>
    if n = round then s
    else
      let s1 := s.setMiss
      if adopts s.line.lastValid sender round then adoptCount round s1 else s1

/-- The header of a valid frame (R153, part 1). -/
def applyHeader (f : Frame) (s : State) : State :=
  let u := f.sender.toNat
  let s1 := if s.line.onRoster u then s else s.setMiss
  let disagreed := match s.line.count with
    | some n => n != f.round
    | none => false
  let s2 := takeRound u f.round { s1 with line := s1.line.setRoster u (some 0) }
  let w := s2.view.row u
  let v := s2.view.setRow u { w with digestMark := f.digest != s.lc.digest }
  let v2 := if v.adoptPending = true ∧ u ≠ s.own then { v with pointer := f.pointer.toNat, adoptPending := false } else v
  { s2 with
    view := v2
    line :=
      { s2.line with
        lastValid := some { sender := u, round := f.round, disagreed := disagreed, since := .zero } } }

/-- The claim list of a heard frame (R153, part 2). -/
def applyClaimList (f : Frame) (s : State) : State :=
  match s.line.count with
  | some n =>
    { s with view := s.view.applyClaims n s.lc.holdCeiling f.sender.toNat f.slotA f.slotB }
  | none => s

/-- A valid frame of another station (R153). -/
def applyFrame (f : Frame) (s : State) : State :=
  applyItems f.sender.toNat f.exit f.items (applyClaimList f (applyHeader f s))

/-- The own frame at a good echo (R141, R153): header, then R123, then items. -/
def applyOwnFrame (f : Frame) (s : State) : State :=
  applyItems f.sender.toNat f.exit f.items (feederGoodEcho (applyHeader f s))

/-! ## Own turn end (R141, R150) -/

/-- A joining station is ON LINE at a good echo, its address on its roster (R143, R150). -/
def enterOnLine (s : State) : State :=
  if s.line.state = .joining then
    { s with line := { (s.line.setRoster s.own (some 0)) with state := .onLine } }
  else s

/-- Own turn end with a good echo (R141, R150). -/
def ownTurnGood (f : Frame) (k : Nat) (s : State) : State :=
  let s1 := enterOnLine { s with line := { s.line with jabber := 0, inFlight := none } }
  let s2 := applyOwnFrame f s1
  let s3 : State :=
    { s2 with
      line :=
        { s2.line with outbox := s2.line.outbox.drop k, record := { s2.line.record with goodEcho := true } } }
  moveOn s3.own .frameEnd s3

/-- Own turn end with a failed echo (R141); `jabber` is the jabber count afterwards (R142). -/
def ownTurnFailed (k jabber : Nat) (ref : RefPoint) (s : State) : State :=
  let s1 := feederFailedEcho { s with line := { s.line with jabber := jabber, inFlight := none } }
  let s2 : State := { s1 with line := { s1.line with outbox := markRepeats k s1.line.outbox } }
  moveOn s2.own ref s2.unclean

/-! ## Carriers (R129, R135, R136) -/

/-- The founding silence timer restarts at the end of a carrier while LISTENING without a count (R148). -/
def restartFounding (s : State) : State :=
  if s.line.state = .listening ∧ s.line.count = none then
    { s with line := { s.line with foundingTimer := .running (Config.foundingSilence s.own) } }
  else s

/-- A realignment from the position held to sender `u` (R136): a boundary when u is lower; the rounds on both sides are
not clean (R146, log 10). -/
def realign (u : Nat) (s : State) : State :=
  match s.line.position with
  | some p => if u < p.address then (boundary s.unclean).unclean else s.unclean
  | none => s.unclean

/-- A valid frame of another station, by the position in which its carrier began (R135). One begun with no position held,
in a founder's echo wait, is taken without a realignment though the wait's end has given a position since, and its round
is compared with the count held: DEDUCED (log 14). -/
def hearFrame (f : Frame) (began : Option Position) (s : State) : State :=
  let u := f.sender.toNat
  match began with
  | none => moveOn u .frameEnd (applyFrame f s)
  | some p =>
    if u = p.address then moveOn u .frameEnd (applyFrame f s)
    else moveOn u .frameEnd (applyFrame f (realign u s).setMiss)

/-- The rotation moves on from position `p` at a frame end (R132). When an own turn end within the carrier has moved it on
from `p` already, it stands at the next address and only takes the frame end as its reference (log 14). -/
def moveOnFrom (p : Position) (s : State) : State :=
  if s.line.position = some p then moveOn p.address .frameEnd s
  else { s with line := { s.line with position := s.line.position.map fun q => { q with ref := .frameEnd } } }

/-- A garbled carrier, by the position in which it began (R135): in a turn the round is not clean; the rotation moves on
from that position. -/
def hearGarbled (began : Option Position) (s : State) : State :=
  match began with
  | none => s.setMiss
  | some p =>
    match p.kind with
    | .turn => moveOnFrom p s.setMiss.unclean
    | .window => moveOnFrom p s.setMiss

/-- A carrier that is not the echo ends (R135): an address conflict, a frame heard, or a garbled carrier. With LINE_DE
high at its start, a frame bearing the own address is no conflict (R151, log 14). -/
def endHeard (valid : Option Frame) (k : Carrier) (s : State) : State :=
  match valid with
  | some f =>
    if f.sender.toNat = s.own then
      if k.deHigh then restartFounding (hearGarbled k.began s) else enterOffLine s
    else hearFrame f k.began s
  | none => restartFounding (hearGarbled k.began s)

/-- LINE_RX is idle: no carrier is on the line, taken or not (R129). -/
def LineCtl.rxIdle (l : LineCtl) : Bool := l.carrier.isNone && l.untaken == .absent

/-- A carrier not taken ends (R129): LINE_RX is idle from then on, and the founding silence timer that it held stopped
starts (R148, log 24). When the own turn was forgone for it, it counts as the
own turn, its content lost (R135, R140, log 25). -/
def endUntaken (s : State) : State :=
  let s1 : State := { s with line := { s.line with untaken := .absent } }
  match s.line.untaken with
  | .absent => s
  | .present => restartFounding s1
  | .forgone => hearGarbled s.line.position s1

/-- CARRIER_START (R129, R135, R148): on an idle line a carrier begins, in the position held, and the founding silence
timer stops. -/
def execCarrierStart (s : State) : Host.Outcome State Fault Refusal :=
  if s.isRunning = true ∧ s.line.rxIdle = true then
    .next
      { s with
        line :=
          { s.line with carrier := some { deHigh := s.line.de, began := s.line.position }, foundingTimer := .stopped } }
  else .next s

/-- CARRIER_END (R131, R135): the echo ends the own turn; any other carrier is classified. A carrier beside a frame in
flight cannot end before the echo wait does, so then nothing is taken (R131, log 14). With no carrier being taken it is
the end of one not taken. -/
def execCarrierEnd (bytes : List Byte) (framingError : Bool) (s : State) : Host.Outcome State Fault Refusal :=
  match s.line.carrier with
  | none => .next (endUntaken s)
  | some k =>
    let valid := if framingError then none else Frame.parse bytes
    let s1 : State := { s with line := { s.line with carrier := none } }
    match s.line.inFlight with
    | none => .next (endHeard valid k s1)
    | some own =>
      if k.deHigh then
        match valid with
        | some f =>
          if bytes = own.bytes then .next (ownTurnGood f own.carried s1)
          else .next (ownTurnFailed own.carried 0 .frameEnd s1)
        | none => .next (ownTurnFailed own.carried 0 .frameEnd s1)
      else .next s

/-- CARRIER_TIMEOUT (R129): the carrier is ended as a garbled frame, and LINE_RX stays busy with what follows. When it is
the echo and the transmitter is still on, the jabber count is left to the cut of the same moment (R142, log 15). -/
def execCarrierTimeout (s : State) : Host.Outcome State Fault Refusal :=
  match s.line.carrier with
  | none => .next s
  | some k =>
    let s1 : State := { s with line := { s.line with carrier := none, untaken := .present } }
    match s.line.inFlight with
    | none => .next (endHeard none k s1)
    | some own =>
      if k.deHigh then
        .next (ownTurnFailed own.carried (if s.line.de then s.line.jabber else 0) .frameEnd s1)
      else .next s

/-- TRANSMISSION_END (R131): LINE_DE goes low at the end of the last stop bit. -/
def execTransmissionEnd (s : State) : Host.Outcome State Fault Refusal :=
  .next { s with line := { s.line with de := false } }

/-- Whether the echo of the frame in flight is being received: a carrier begun while LINE_DE was high (R135). -/
def LineCtl.echoing (l : LineCtl) : Bool := l.carrier.any Carrier.deHigh

/-- NO_ECHO_TIMEOUT (R131): no echo carrier has begun; own turn end with a failed echo. A carrier begun within the echo
wait goes on, and keeps the position in which it began (R135). -/
def execNoEchoTimeout (s : State) : Host.Outcome State Fault Refusal :=
  match s.line.inFlight with
  | none => .next s
  | some own =>
    if s.line.de = false ∧ s.line.echoing = false then .next (ownTurnFailed own.carried 0 .echoWaitEnd s) else .next s

/-- OFF LINE at the third consecutive jabber cut (R142). -/
def offLineAtLimit (s : State) : State := if Config.jabberLimit ≤ s.line.jabber then enterOffLine s else s

/-- JABBER_CUT (R142): the transmitter is forced off, which ends the own turn with a failed echo and counts. When the own
turn has ended already, by the carrier timeout of the same moment or by the end of an echo that the transmitter outlasts,
the cut only counts; what that echo's end did to the count stands: DEDUCED (log 15). Its carrier ends with it, at the
1.40 ms of R129. -/
def execJabberCut (s : State) : Host.Outcome State Fault Refusal :=
  if s.line.de = false then .next s
  else
    let n := s.line.jabber + 1
    let s1 : State := { s with line := { s.line with de := false } }
    match s.line.inFlight with
    | some own =>
      let s2 : State :=
        { s1 with
          line :=
            { s1.line with
              carrier := none, untaken := if s.line.carrier.isSome then .present else s.line.untaken } }
      .next (offLineAtLimit (ownTurnFailed own.carried n .frameEnd s2))
    | none => .next (offLineAtLimit { s1 with line := { s1.line with jabber := n } })

/-! ## Turns -/

/-- Whether the position is one of an address and kind. -/
def LineCtl.atPosition (l : LineCtl) (a : Nat) (k : PosKind) : Bool :=
  match l.position with
  | some p => p.address == a && p.kind == k
  | none => false

/-- The own turn is forgone (R140): the round is not clean (R146), and a carrier not taken counts as the own turn when it
ends (log 25). -/
def forgoTurn (s : State) : State :=
  let l := s.unclean.line
  { s with line := { l with untaken := if l.untaken = .present then .forgone else l.untaken } }

/-- OWN_TURN_START (R140): in the own turn ON LINE, the frame is sent if LINE_RX is idle; with carrier present the turn is
forgone. On an idle LINE_RX with LINE_DE still high from an own frame that outlasted its echo the turn is neither started
nor forgone, and waits for LINE_DE: DEDUCED (log 28). -/
def execOwnTurnStart (s : State) : Host.Outcome State Fault Refusal :=
  match s.line.count with
  | none => .next s
  | some n =>
    if s.line.state = .onLine ∧ s.line.atPosition s.own .turn = true ∧ s.line.inFlight = none then
      if s.line.rxIdle = false then .next (forgoTurn s)
      else if s.line.de then .next s
      else .next (ownTurnStart n s)
    else .next s

/-- JOIN_FRAME_START (R150): in the own window in JOINING, the join frame is sent if LINE_RX is idle. With LINE_DE still
high from a join frame that outlasted its echo it is not sent, as with carrier present: DEDUCED (log 28). -/
def execJoinFrameStart (s : State) : Host.Outcome State Fault Refusal :=
  match s.line.count with
  | none => .next s
  | some n =>
    if s.line.state = .joining ∧ s.line.atPosition s.own .window = true ∧ s.line.inFlight = none ∧ s.line.de = false
        ∧ s.line.rxIdle = true then .next (ownTurnStart n s)
    else .next s

/-- One more lapse of a roster address: its count rises, and the third drops it (R144). -/
def countLapse (p : Nat) (s : State) : State :=
  match s.line.lapses p with
  | none => s
  | some n =>
    if n = 2 then
      let s1 : State := { s with line := s.line.setRoster p none }
      match s.line.count with
      | some c => { s1 with view := s1.view.drop c p }
      | none => s1
    else { s with line := s.line.setRoster p (some (n + 1)) }

/-- LAPSE (R133, R144): no carrier by the lapse point of another station's turn. The own address does not lapse. -/
def execLapse (s : State) : Host.Outcome State Fault Refusal :=
  match s.line.position with
  | none => .next s
  | some p =>
    if s.isRunning = true ∧ p.kind = .turn ∧ p.address ≠ s.own ∧ s.line.carrier = none ∧ s.line.inFlight = none then
      .next (moveOn p.address .lapsePoint (countLapse p.address s.setMiss.unclean))
    else .next s

/-- VACANCY_WINDOW_END (R134): no carrier by the window's end; the rotation moves on. -/
def execVacancyWindowEnd (s : State) : Host.Outcome State Fault Refusal :=
  match s.line.position with
  | none => .next s
  | some p =>
    if s.isRunning = true ∧ p.kind = .window ∧ s.line.carrier = none ∧ s.line.inFlight = none then
      .next (moveOn p.address .windowEnd s)
    else .next s

/-- JOIN_HOLD_END (R149): a LISTENING station whose join hold count has reached the hold ceiling + 2 is JOINING. -/
def execJoinHoldEnd (s : State) : Host.Outcome State Fault Refusal := .next (joinHoldEnd s)

/-- FOUNDING (R148): a LISTENING station without a count whose founding silence has run founds the line at round 0, and
sends at once, which takes an idle LINE_RX (R140); a silence that runs out behind a timed-out carrier waits for it:
DEDUCED (log 24). -/
def execFounding (s : State) : Host.Outcome State Fault Refusal :=
  if s.line.state = .listening ∧ s.line.count = none ∧ s.line.foundingTimer ≠ .stopped ∧ s.line.rxIdle = true then
    let s1 : State :=
      { s with
        engA := fillRequest 0 s.engA
        engB := fillRequest 0 s.engB
        line :=
          { (s.line.setRoster s.own (some 0)) with
            state := .onLine, count := some 0, foundingTimer := .stopped } }
    .next (ownTurnStart 0 s1)
  else .next s

end Sys2Proof.Machine
end

