-- ==== Sys2Proof/Machine/StartUp.lean ====
section
/-!
DEFINITION. Start-up (01 and 09): reset, strap reading, and the four passes of LOADING with their fault records.
-/

namespace Sys2Proof.Machine

/-! ## Faults of LOADING (R11, R15, R16) -/

/-- The first fault of a LOADING is written once (R16). -/
def Store.recordFault (st : Store) (k : FaultKind) (program point : Nat) : Store :=
  if st.firstFault.kind = .noFault then { st with firstFault := { kind := k, program := program, point := point } }
  else st

/-- A program is marked in the fault map, and the fault recorded (R15, R16). -/
def Store.mark (st : Store) (k : FaultKind) (program point : Nat) : Store :=
  let st1 := st.recordFault k program point
  if program = 0 then st1 else { st1 with marks := st1.marks.setIfInBounds (program - 1) true }

/-- A fatal fault ends LOADING: the record, then OFF LINE (R11). -/
def fatalFault (k : FaultKind) (point : Nat) (s : State) : State :=
  { s with
    store := { s.store.recordFault k 0 point with phase := .ended }
    line := { s.line with state := .offLine } }

/-! ## The end of LOADING (R18, R179) -/

/-- A sensor takes its present level without an edge (R49). -/
def Sensor.sampled (level : Bool) : Sensor where
  raw := level
  filtered := level
  wait := .stopped

/-- LOADING ends without a fatal fault: LISTENING, and the blocks it held back begin (R18, R21, R49, R128, R155). A
carrier then on the line is not taken (R129), and holds the founding silence timer stopped until it ends: DEDUCED from
R140 and R148 (log 24). -/
def loadingEnd (pins : PinSample) (s : State) : State :=
  { s with
    store := { s.store with phase := .ended }
    counter := { s.counter with quad := some (pins.encA, pins.encB) }
    tracker :=
      { s.tracker with bodyIn := Sensor.sampled pins.bodyIn, zoneOut := Sensor.sampled pins.zoneOut }
    aux := { s.aux with inputs := sampleInputs s.sc.auxIn s.aux.inputs pins.aux }
    line :=
      { s.line with
        state := .listening
        untaken := if pins.lineIdle then .absent else .present
        foundingTimer := if pins.lineIdle then .running (Config.foundingSilence s.own) else .stopped } }

/-- The first program from `p` on, among `n`, that the map does not mark. -/
def Store.nextUnmarked (st : Store) : (n p : Nat) → Option Nat
  | 0, _ => none
  | n + 1, p => if st.marked p then st.nextUnmarked n (p + 1) else some p

/-- The fourth pass goes on from program `p`, or LOADING ends (R13, R18). -/
def continuePoints (p : Nat) (pins : PinSample) (s : State) : State :=
  match s.store.nextUnmarked (s.store.programCount + 1 - p) p with
  | some q => { s with store := { s.store with phase := .points q } }
  | none => loadingEnd pins s

/-! ## The passes -/

/-- Whether a style entry fails its structure check, given the style codes of the entries before it (R10). -/
def StyleEntry.faulty (e : StyleEntry) (before : List Nat) : Bool :=
  63 < e.style || before.contains e.style || e.progA.any (128 < ·) || e.progB.any (128 < ·)

/-- The table position of the first entry to fail its structure check (R10, R16). -/
def firstStyleFault : (position : Nat) → (before : List Nat) → List StyleEntry → Option Nat
  | _, _, [] => none
  | i, before, e :: rest =>
    if e.faulty before then some i else firstStyleFault (i + 1) (before ++ [e.style]) rest

/-- The link check of one program field (R10). -/
def Store.linkField (st : Store) (position : Nat) (p : Option Nat) : Store :=
  match p with
  | some n => if st.programCount < n then st.mark .undefinedProgram n position else st
  | none => st

/-- The link check in table order, channel A before channel B (R10). -/
def linkCheck : (position : Nat) → List StyleEntry → Store → Store
  | _, [], st => st
  | i, e :: rest, st => linkCheck (i + 1) rest ((st.linkField i e.progA).linkField i e.progB)

/-- Whether a directory entry is faulty (R12). -/
def DirEntry.faulty (d : DirEntry) (totalPoints : Nat) : Bool := d.count == 0 || totalPoints < d.first + d.count

/-- The marks of the third pass, in program number order (R12). -/
def directoryCheck : (program : Nat) → List DirEntry → Store → Store
  | _, [], st => st
  | p, d :: rest, st =>
    directoryCheck (p + 1) rest (if d.faulty st.totalPoints then st.mark .directoryRange p 0 else st)

/-- Whether an input line is configured used (R14). -/
def StationConsts.inUsed (k : StationConsts) (i : Fin 8) : Bool := k.auxIn[i].used

/-- Whether an output line is configured used (R14). -/
def StationConsts.outUsed (k : StationConsts) (i : Fin 8) : Bool := k.auxOut[i].used

/-- The first check of R14 that a point fails, none when it passes. -/
def pointFault (k : LineConsts) (c : StationConsts) (r : PointRec) : Option FaultKind :=
  if r.schedule < 1 ∨ 63 < r.schedule then some .schedule
  else if r.load < 1 ∨ 250 < r.load then some .loadRange
  else if k.budget < r.load then some .loadOverBudget
  else if r.hold = 0 then some .holdRange
  else if k.holdCeiling < r.hold then some .holdOverCeiling
  else if r.windowClose ≤ r.windowOpen then some .windowOrder
  else if c.zoneLength < r.windowClose then some .windowBeyondZone
  else if r.cond.any (fun x => 15 < x.index) then some .optionIndex
  else if r.gate.any (fun x => !c.inUsed x.line) then some .gateLine
  else if r.action.any (fun x => !c.outUsed x.line) then some .actionLine
  else none

/-- The first failing point among records numbered from `k`, with its kind (R13). -/
def firstPointFault (l : LineConsts) (c : StationConsts) : (k : Nat) → List PointRec → Option (FaultKind × Nat)
  | _, [] => none
  | k, r :: rest =>
    match pointFault l c r with
    | some f => some (f, k)
    | none => firstPointFault l c (k + 1) rest

/-- A record enters the point array at its position, positions rising. With `anew` it replaces a record that stands
there; without, that record stays (log 19). -/
def insertPoint (anew : Bool) (i : Nat) (r : PointRec) : List (Nat × PointRec) → List (Nat × PointRec)
  | [] => [(i, r)]
  | e :: rest =>
    if i < e.1 then (i, r) :: e :: rest
    else if i = e.1 then (if anew then (i, r) :: rest else e :: rest)
    else e :: insertPoint anew i r rest

/-- Records enter the point array from a position on. -/
def insertPoints (anew : Bool) : (i : Nat) → List PointRec → List (Nat × PointRec) → List (Nat × PointRec)
  | _, [], array => array
  | i, r :: rest, array => insertPoints anew (i + 1) rest (insertPoint anew i r array)

/-- The point array is in its one form: positions strictly rising. -/
def PointArray.wf (array : List (Nat × PointRec)) : Bool := (array.map Prod.fst).Pairwise (· < ·)

/-! ## Events -/

/-- RESET (R176): every block returns to its reset values; the commands that wait are not the part's (log 1). -/
def execReset (s : State) : Host.Outcome State Fault Refusal := .next { State.reset with pending := s.pending }

/-- STRAP_READING (R177, R178): once, at the release of reset. -/
def execStrapReading (straps : BitVec 5) (s : State) : Host.Outcome State Fault Refusal :=
  if s.store.phase = .straps then
    if 1 ≤ straps.toNat ∧ straps.toNat ≤ Config.lastAddress then
      .next
        { s with
          store := { s.store with phase := .header }
          line := { s.line with straps := straps, state := .loading } }
    else
      .next
        { s with
          store := { s.store with phase := .ended }
          line := { s.line with straps := straps, state := .offLine } }
  else .next s

/-- HEADER_PASS (R9): the checks in order; a good header is taken in and the outputs take their initial levels
(R162). -/
def execHeaderPass (image : List Byte) (s : State) : Host.Outcome State Fault Refusal :=
  if s.store.phase = .header then
    match headerFault image with
    | some k => .next (fatalFault k 0 s)
    | none =>
      let c := decodeStationConsts image
      .next
        { s with
          store :=
            { s.store with
              line := some (decodeLineConsts image)
              station := some c
              tag := be32 (imageByte image 4) (imageByte image 5) (imageByte image 6) (imageByte image 7)
              styleCount := (imageByte image 40).toNat
              programCount := (imageByte image 41).toNat
              totalPoints := (image16 image 42).toNat
              phase := .styles }
          aux := { s.aux with outputs := initialOutputs c.auxOut } }
  else .next s

/-- STYLE_PASS (R10): the structure check of every entry, then the link check. -/
def execStylePass (image : List Byte) (s : State) : Host.Outcome State Fault Refusal :=
  if s.store.phase = .styles then
    let table := (List.range s.store.styleCount).map (decodeStyle image)
    match firstStyleFault 1 [] table with
    | some i => .next (fatalFault .styleEntry i s)
    | none =>
      .next { s with store := linkCheck 1 table { s.store with styles := table, phase := .directory } }
  else .next s

/-- DIRECTORY_PASS (R12): the entries, their marks, then the fourth pass or the end of LOADING (R18). -/
def execDirectoryPass (image : List Byte) (pins : PinSample) (s : State) : Host.Outcome State Fault Refusal :=
  if s.store.phase = .directory then
    let dir := (List.range s.store.programCount).map (decodeDir image)
    .next (continuePoints 1 pins { s with store := directoryCheck 1 dir { s.store with directory := dir } })
  else .next s

/-- The first fault of a program, with its point number: the program check, then the points in order (R13). -/
def programFault (l : LineConsts) (c : StationConsts) (d : DirEntry) (image : List Byte) (recs : List PointRec) :
    Option (FaultKind × Nat) :=
  if crc16 (imageRange image 0 (11 * d.count)) ≠ d.check then some (.programCheck, 0) else firstPointFault l c 1 recs

/-- PROGRAM_PASS (R13): the program's records are read, its check compared and its points examined; a good program's
records take their positions, a marked one's only the positions still free (log 19). -/
def execProgramPass (image : List Byte) (pins : PinSample) (s : State) : Host.Outcome State Fault Refusal :=
  match s.store.phase with
  | .points p =>
    match s.store.dirEntry p with
    | none => .next (continuePoints (p + 1) pins s)
    | some d =>
      let recs := (List.range d.count).map (decodePoint image)
      let st :=
        match programFault s.lc s.sc d image recs with
        | some (k, i) => { s.store with points := insertPoints false d.first recs s.store.points }.mark k p i
        | none => { s.store with points := insertPoints true d.first recs s.store.points }
      .next (continuePoints (p + 1) pins { s with store := st })
  | .straps | .header | .styles | .directory | .ended => .next s

end Sys2Proof.Machine
end

