-- ==== Sys2Proof/Machine/Dispatch.lean ====
section
/-!
DEFINITION. The dispatch: one arm for each row of spec/opcode_table.json, in the table's order.
-/

namespace Sys2Proof.Machine

def exec (i : Instr) (s : State) : Host.Outcome State Fault Refusal :=
  match i with
  | .reset => Sys2Proof.Machine.execReset s
  | .strapReading straps => Sys2Proof.Machine.execStrapReading straps s
  | .headerPass image => Sys2Proof.Machine.execHeaderPass image s
  | .stylePass image => Sys2Proof.Machine.execStylePass image s
  | .directoryPass image pins => Sys2Proof.Machine.execDirectoryPass image pins s
  | .programPass image pins => Sys2Proof.Machine.execProgramPass image pins s
  | .countChange line => Sys2Proof.Machine.execCountChange line s
  | .illegalTransition => Sys2Proof.Machine.execIllegalTransition s
  | .haltTimerExpiry => Sys2Proof.Machine.execHaltTimerExpiry s
  | .heldReadExpiry => Sys2Proof.Machine.execHeldReadExpiry s
  | .pairingWaitExpiry => Sys2Proof.Machine.execPairingWaitExpiry s
  | .zoneLengthEvent => Sys2Proof.Machine.execZoneLengthEvent s
  | .arrival => Sys2Proof.Machine.execArrival s
  | .zoneExit => Sys2Proof.Machine.execZoneExit s
  | .tagByte byte stopHigh => Sys2Proof.Machine.execTagByte byte stopHigh s
  | .tagByteTimeout => Sys2Proof.Machine.execTagByteTimeout s
  | .pstbPulseEnd c => Sys2Proof.Machine.execPstbPulseEnd c s
  | .atPtRise c => Sys2Proof.Machine.execAtPtRise c s
  | .reachExpiry c => Sys2Proof.Machine.execReachExpiry c s
  | .windowOpen c => Sys2Proof.Machine.execWindowOpen c s
  | .windowClose c => Sys2Proof.Machine.execWindowClose c s
  | .auxRawChange line pinHigh => Sys2Proof.Machine.execAuxRawChange line pinHigh s
  | .auxFilterExpiry line => Sys2Proof.Machine.execAuxFilterExpiry line s
  | .wdoneRise c wfaultActive => Sys2Proof.Machine.execWdoneRise c wfaultActive s
  | .wfaultRise c => Sys2Proof.Machine.execWfaultRise c s
  | .carrierStart => Sys2Proof.Machine.execCarrierStart s
  | .carrierTimeout => Sys2Proof.Machine.execCarrierTimeout s
  | .carrierEnd bytes framingError => Sys2Proof.Machine.execCarrierEnd bytes framingError s
  | .noEchoTimeout => Sys2Proof.Machine.execNoEchoTimeout s
  | .jabberCut => Sys2Proof.Machine.execJabberCut s
  | .ownTurnStart => Sys2Proof.Machine.execOwnTurnStart s
  | .joinFrameStart => Sys2Proof.Machine.execJoinFrameStart s
  | .lapse => Sys2Proof.Machine.execLapse s
  | .vacancyWindowEnd => Sys2Proof.Machine.execVacancyWindowEnd s
  | .claimExpiry => Sys2Proof.Machine.execClaimExpiry s
  | .joinHoldEnd => Sys2Proof.Machine.execJoinHoldEnd s
  | .founding => Sys2Proof.Machine.execFounding s
  | .sensorRawLevelChange line level => Sys2Proof.Machine.execSensorRawLevelChange line level s
  | .sensorFallingEdge line => Sys2Proof.Machine.execSensorFallingEdge line s
  | .transmissionEnd => Sys2Proof.Machine.execTransmissionEnd s

end Sys2Proof.Machine
end

