-- ==== Sys2Proof/Safety.lean ====
section
/-!
DEFINITION. What counts as a sound state of the part: the laws the manual states of the whole device, as predicates of
one state. The statements say that reset has them and that every step keeps them.
-/

namespace Sys2Proof.Machine

/-! ## Capacities (R37, R54, R99, R137, R169) -/

/-- The most defect entries of an item (R169). -/
def Item.defectsWithin : Item → Bool
  | .result r => r.defects.length ≤ Config.defectEntries
  | _ => true

/-- Nothing holds more than its capacity; no two entries of the register have one serial; every entry has a serial and
an announce station; the point array is in its one form. -/
structure State.Bounded (s : State) : Prop where
  register : s.tracker.register.length ≤ 24
  serials : (s.tracker.register.map Entry.serial).Nodup
  entries : ∀ e ∈ s.tracker.register, e.serial ≠ 0 ∧ 1 ≤ e.announcer ∧ e.announcer ≤ 30
  outbox : s.line.outbox.length ≤ 16
  defects : ∀ i ∈ s.line.outbox, i.defectsWithin = true
  orphans : s.view.orphans.length ≤ 8
  tagBytes : s.tracker.tagBytes.length ≤ 7
  pointArray : PointArray.wf s.store.points = true

/-! ## Start-up and OFF LINE (R9, R64, R93, R126, R128, R152, R160, R176, R178) -/

/-- The channel lines of IDLE, FINISHED and HELD (Table 20). -/
structure Engine.Home (e : Engine) : Prop where
  pt : e.pt = 0
  pstb : e.pstb = .stopped
  strobe : e.pendingStrobe = none
  sch : e.sch = 0
  fire : e.fire = false

/-- What OFF LINE leaves running: nothing. -/
structure State.AtRest (s : State) : Prop where
  engines : ∀ c, (s.eng c).state = .idle ∧ (s.eng c).Home ∧ s.counter.window c = none
  watches : s.counter.heldWatch = .disarmed ∧ s.counter.pairWatch = .disarmed ∧ s.counter.zoneWatch = .disarmed
  tags : s.tracker.held = none ∧ s.tracker.tagBytes = []
  offers : s.view.offerA = none ∧ s.view.offerB = none
  line : s.line.de = false ∧ s.line.inFlight = none ∧ s.line.carrier = none ∧ s.line.position = none
    ∧ s.line.foundingTimer = .stopped ∧ s.line.untaken = .absent
  filters : ∀ x ∈ s.aux.inputs.toList, x.timer = .stopped

/-- In LOADING every block but the store and the auxiliary outputs holds its reset values, the straps apart (R9,
Table 44). -/
structure State.HeldBack (s : State) : Prop where
  counter : s.counter = Counter.afterReset
  tracker : s.tracker = Tracker.afterReset
  engines : s.engA = Engine.afterReset ∧ s.engB = Engine.afterReset
  view : s.view = View.afterReset
  line : s.line = { LineCtl.afterReset with straps := s.line.straps }
  inputs : s.aux.inputs = AuxUnit.afterReset.inputs
  sticky : s.sticky = Sticky.afterReset

/-- The line states and what each of them leaves at rest. A frame in flight was sent on an idle line, and no carrier not
taken stands beside it (R140, R150; log 25). -/
structure State.StartUp (s : State) : Prop where
  loading : s.line.state = .loading ↔ s.store.phase ≠ .ended
  straps : s.store.phase = .straps → { s with pending := [] } = State.reset
  heldBack : s.line.state = .loading → s.HeldBack
  own : s.store.phase ≠ .straps → s.line.state ≠ .offLine → 1 ≤ s.own ∧ s.own ≤ 30
  offLine : s.line.state = .offLine → s.AtRest
  listening : s.line.state = .listening → s.line.de = false ∧ s.line.inFlight = none
  uncounted : s.line.count = none → s.line.position = none ∧ s.line.inFlight = none
  counted : s.line.state = .joining ∨ s.line.state = .onLine → s.line.count ≠ none
  flight : s.line.inFlight ≠ none → s.line.untaken = .absent
  offers : s.view.offerA ≠ none ∨ s.view.offerB ≠ none → s.line.inFlight ≠ none
  fresh : s.line.state = .listening ∨ s.line.state = .joining →
    s.view.fresh = true ∧ s.line.record.openedOnLine = false

/-! ## Conveyor (R25, R36) -/

/-- T is never behind C and never more than the hysteresis ahead of it (R25). -/
structure State.TrackedWithin (s : State) : Prop where
  hysteresis : s.sc.hysteresis ≤ 255
  notBehind : 0 ≤ posDiff s.counter.tracked s.counter.raw
  notAhead : posDiff s.counter.tracked s.counter.raw ≤ s.sc.hysteresis

/-- The zone record is BOUND (R46). -/
def Zone.isBound : Zone → Bool
  | .bound _ _ => true
  | .empty | .pairing _ | .stray _ => false

/-- A channel has a window state exactly while its engine has a current point, which it has only on a bound body (R36,
R65, R68). -/
structure State.WindowsFollow (s : State) : Prop where
  window : ∀ c, (s.eng c).state.hasPoint = true ↔ s.counter.window c ≠ none
  bound : ∀ c, (s.eng c).state.hasPoint = true → s.tracker.zone.isBound = true

/-! ## Library and programs (R14, R18, R20) -/

/-- The passes so far have examined program `p` or left it marked: the fourth pass takes programs in number order. -/
def LoadPhase.examined : LoadPhase → Nat → Prop
  | .points q, p => p < q
  | .ended, _ => True
  | .straps, _ | .header, _ | .styles, _ | .directory, _ => False

/-- R14's law: every point of a program examined and not marked passes every check of R14. The header's check 5 lets in at
most 128 programs (R9), and the point array is in its one form. -/
structure State.LibraryChecked (s : State) : Prop where
  noDirectory : s.store.phase = .straps ∨ s.store.phase = .header ∨ s.store.phase = .styles
      ∨ s.store.phase = .directory → s.store.directory = []
  programs : s.store.programCount ≤ 128
  pointArray : PointArray.wf s.store.points = true
  directory : s.store.directory = [] ∨ s.store.directory.length = s.store.programCount
  counts : ∀ d ∈ s.store.directory, d.count ≤ 255
  points : ∀ p d k, s.store.dirEntry p = some d → s.store.marked p = false → s.store.phase.examined p →
    1 ≤ k → k ≤ d.count → ∃ r, s.store.pointAt (d.first + k - 1) = some r ∧ pointFault s.lc s.sc r = none

/-- A load and a hold within R14's checks. -/
def LineConsts.admits (k : LineConsts) (load hold : Nat) : Prop :=
  1 ≤ load ∧ load ≤ 250 ∧ load ≤ k.budget ∧ 1 ≤ hold ∧ hold ≤ k.holdCeiling

/-- An engine with a current point runs a good program at one of its points (R20, R65), and a standing request's load
and hold are those of such a point (R77). -/
structure State.ProgramsGood (s : State) : Prop where
  running : ∀ c, (s.eng c).state.hasPoint = true → ∃ p n k d,
    (s.eng c).running = some { program := p, count := n } ∧ (s.eng c).cursor = some k ∧ 1 ≤ k ∧ k ≤ n
      ∧ s.store.dirEntry p = some d ∧ d.count = n ∧ s.store.marked p = false
  request : ∀ c q, (s.eng c).request = some q → s.lc.admits q.load q.hold

/-! ## Channel lines and outcomes (R66, R67, R71) -/

/-- The channel lines follow the engine state (Table 20). While a strobe is pending PT still holds the last one (R69). -/
structure State.LinesFollow (s : State) : Prop where
  home : ∀ c, (s.eng c).state.hasPoint = false → (s.eng c).Home
  low : ∀ c, (s.eng c).state ≠ .firing → (s.eng c).sch = 0 ∧ (s.eng c).fire = false
  firing : ∀ c, (s.eng c).state = .firing →
    (s.eng c).fire = true ∧ (s.eng c).sch = BitVec.ofNat 6 (s.current c).schedule ∧ (s.eng c).pstb = .stopped
  strobe : ∀ c k, (s.eng c).pendingStrobe = some k →
    (s.eng c).state = .positioning ∧ (s.eng c).cursor = some k ∧ (s.eng c).pstb ≠ .stopped
  point : ∀ c, (s.eng c).state.hasPoint = true → (s.eng c).pendingStrobe = none →
    (s.eng c).pt = BitVec.ofNat 8 ((s.eng c).cursor.getD 0)

/-- The outcome places of one channel of the bound body: one for each point, all written once the engine has no current
point; while it has one, those before the cursor written and those from the cursor on not (R47, R71). -/
def State.placesFollow (s : State) (c : Chan) (b : Body) : Prop :=
  let places := (b.part c).places
  places.length = (b.part c).answer.count ∧ places.length ≤ 255
    ∧ ((s.eng c).state.hasPoint = false → ∀ x ∈ places, x ≠ none)
    ∧ ((s.eng c).state.hasPoint = true →
        ∃ p k, (s.eng c).running = some { program := p, count := places.length } ∧ (s.eng c).cursor = some k ∧ 1 ≤ k
          ∧ k ≤ places.length ∧ (∀ x ∈ places.take (k - 1), x ≠ none) ∧ ∀ x ∈ places.drop (k - 1), x = none)

/-- R71's law for both channels of the zone's body. -/
def State.PlacesFollow (s : State) : Prop := ∀ d b c, s.tracker.zone = .bound d b → s.placesFollow c b

/-! ## The feeder (R67, R96, R99, R114) -/

/-- A channel's own published slot is ACTIVE and live in the own view at the round count (R67, R97). -/
def State.ownSlotLive (s : State) (c : Chan) : Bool := s.line.count.any fun n => ((s.view.row s.own).slot c).live n

/-- R67's law: a channel in FIRING has its own slot ACTIVE and live. An offered slot is ACTIVE and live, and its engine
is not firing; a frame in flight bears the own address and the round count. -/
structure State.FiringBacked (s : State) : Prop where
  firing : ∀ c, (s.eng c).state = .firing → s.ownSlotLive c = true
  offer : ∀ c, s.view.offer c ≠ none → s.ownSlotLive c = true ∧ (s.eng c).state ≠ .firing
  flight : ∀ k f, s.line.inFlight = some k → Frame.parse k.bytes = some f →
    f.sender.toNat = s.own ∧ s.line.count = some f.round

/-- The fields of a published slot lie in the ranges of Table 26. -/
def Slot.inRange (ceiling : Nat) : Slot → Prop
  | .empty => True
  | .waiting l _ => 1 ≤ l ∧ l ≤ 250
  | .active l _ h => 1 ≤ l ∧ l ≤ 250 ∧ 1 ≤ h ∧ h ≤ ceiling

/-- Every slot, orphan and pointer of the view lies in its range (Tables 25 to 27, R99), and a retained mark stands only on
an ACTIVE slot of another address (R107). -/
structure State.ViewInRange (s : State) : Prop where
  slots : ∀ w ∈ s.view.rows.toList, w.slotA.inRange s.lc.holdCeiling ∧ w.slotB.inRange s.lc.holdCeiling
  orphans : ∀ o ∈ s.view.orphans, 1 ≤ o.address ∧ o.address ≤ 30 ∧ 1 ≤ o.load ∧ o.load ≤ 250
  pointer : s.view.pointer ≤ 30
  retained : ∀ a c, (s.view.row a).retained c = true → a ≠ s.own ∧ ∃ l r h, (s.view.row a).slot c = .active l r h

/-! ## The station line (R127, R142, R143, R149) -/

/-- The line controller's counts lie in the ranges of Table 31, the own address is on the roster exactly ON LINE (R143), a
carrier is taken only on a line that no other holds busy (R129), and the founding silence runs only while no carrier is
taken (R148). -/
structure State.LineInRange (s : State) : Prop where
  position : ∀ p, s.line.position = some p → 1 ≤ p.address ∧ p.address ≤ 30
  jabber : s.line.jabber ≤ 3 ∧ (s.line.state ≠ .offLine → s.line.jabber ≤ 2)
  joinHold : s.line.joinHold ≤ s.lc.holdCeiling + 2
    ∧ (s.line.state = .listening → s.line.joinHold < s.lc.holdCeiling + 2)
  roster : s.line.onRoster s.own = true ↔ s.line.state = .onLine
  untaken : s.line.carrier ≠ none → s.line.untaken = .absent
  silence : s.line.foundingTimer ≠ .stopped → s.line.carrier = none

/-! ## The end of a pass (R13, R18, R21, R49, R128, R155, R179) -/

/-- What the end of LOADING begins: `s` the state before, `t` after, the store apart. A carrier then on the line keeps the
founding silence timer stopped (log 24). -/
def loadingEnded (pins : PinSample) (s t : State) : Prop :=
  t.line =
      { s.line with
        state := .listening
        untaken := if pins.lineIdle then .absent else .present
        foundingTimer := if pins.lineIdle then .running (2000 + s.own * 100) else .stopped }
    ∧ t.counter = { s.counter with quad := some (pins.encA, pins.encB) }
    ∧ t.tracker =
        { s.tracker with
          bodyIn := { raw := pins.bodyIn, filtered := pins.bodyIn, wait := .stopped }
          zoneOut := { raw := pins.zoneOut, filtered := pins.zoneOut, wait := .stopped } }
    ∧ t.aux.outputs = s.aux.outputs
    ∧ (∀ i : Fin 8, t.aux.inputs[i] =
        if s.sc.auxIn[i].used then
          { s.aux.inputs[i] with
            raw := some (pins.aux.getLsbD i != s.sc.auxIn[i].activeLow)
            filtered := pins.aux.getLsbD i != s.sc.auxIn[i].activeLow }
        else s.aux.inputs[i])
    ∧ t = { s with store := t.store, line := t.line, counter := t.counter, tracker := t.tracker, aux := t.aux }

/-- How the fourth pass goes on after program `p`: with the next program not marked, or to the end of LOADING (R13,
R18). -/
def passGoesOn (p : Nat) (pins : PinSample) (s t : State) : Prop :=
  (∀ q, p < q → q ≤ s.store.programCount → t.store.marked q = false →
      (∀ r, p < r → r < q → t.store.marked r = true) → t.store.phase = .points q ∧ t = { s with store := t.store })
    ∧ ((∀ q, p < q → q ≤ s.store.programCount → t.store.marked q = true) →
        t.store.phase = .ended ∧ loadingEnded pins s t)

/-! ## What one command changes: `s` the state before, `t` the state after -/

/-- The watches and windows follow a change of T, and nothing of them changes without one (R23, R30, R35). -/
def followsTracked (s t : State) : Prop :=
  (t.counter.tracked = s.counter.tracked →
      t.counter.heldWatch = s.counter.heldWatch ∧ t.counter.pairWatch = s.counter.pairWatch
        ∧ t.counter.zoneWatch = s.counter.zoneWatch ∧ ∀ c, t.counter.window c = s.counter.window c)
    ∧ (t.counter.tracked ≠ s.counter.tracked →
        t.counter.heldWatch = s.counter.heldWatch.after t.counter.tracked
          ∧ t.counter.pairWatch = s.counter.pairWatch.after t.counter.tracked
          ∧ t.counter.zoneWatch = s.counter.zoneWatch.after t.counter.tracked
          ∧ ∀ c, t.counter.window c =
              match s.counter.window c, t.relPos with
              | some w, some p => some (w.after (s.current c) p)
              | w, _ => w)

/-- The outbox takes these items in order while it has room, and a discarded one sets outbox overflow (R137). -/
def pushed (items : List Item) (s t : State) : Prop :=
  t.line.outbox = (s.line.outbox ++ items).take 16
    ∧ t.sticky.outboxOverflow = (s.sticky.outboxOverflow || decide (16 < (s.line.outbox ++ items).length))

/-! ## Frames (R130, R184) -/

/-- What the formats of 10.1 admit of a frame: the ranges a valid frame has (R130). -/
structure Frame.WellFormed (f : Frame) : Prop where
  sender : 1 ≤ f.sender.toNat ∧ f.sender.toNat ≤ 30
  pointer : f.pointer.toNat ≤ 30
  items : f.items.length ≤ 32
  size : itemsSize f.items ≤ 229
  defects : ∀ i ∈ f.items, i.defectsWithin = true

/-! ## Outcomes and actions in one closed form (R69 to R71, R86, R87, R91, R163) -/

/-- The output levels after an outcome is taken for a point: its action sets one line when it applies, and never a
released one (R86, R161, R163). -/
def PointRec.actOn (r : PointRec) (o : PointOutcome) (v : Vector OutLevel 8) : Vector OutLevel 8 :=
  match r.action with
  | none => v
  | some a =>
    if (o = .welded ∨ (a.always = true ∧ o ≠ .withheld)) ∧ v[a.line] ≠ .released then
      v.set a.line (if a.level then .active else .inactive)
    else v

/-- The output levels after the points `k`, ..., `stop - 1` of channel `c` take the outcomes `f` gives them. -/
def State.actedOver (s : State) (c : Chan) (k stop : Nat) (f : Nat → Option PointOutcome) : Vector OutLevel 8 :=
  (List.range' k (stop - k)).foldl (fun v j => (f j).elim v fun o => (s.pointRec c j).actOn o v) s.aux.outputs

/-- The zone record after the points of channel `c` take the outcomes `f` gives them: a place once written stays (R71). -/
def Zone.placed (z : Zone) (c : Chan) (f : Nat → Option PointOutcome) : Zone :=
  match z with
  | .bound d b =>
    .bound d
      (b.setPart c { b.part c with places := (b.part c).places.zipIdx.map fun x => x.1.or (f (x.2 + 1)) })
  | z => z

/-- The points `k`, ..., `stop - 1` of channel `c` have taken the outcomes `f` gives them. -/
def State.outcomesTaken (s : State) (c : Chan) (k stop : Nat) (f : Nat → Option PointOutcome) : State :=
  { s with
    tracker :=
      { s.tracker with zone := s.tracker.zone.placed c fun j => if k ≤ j ∧ j < stop then f j else none }
    aux := { s.aux with outputs := s.actedOver c k stop f } }

/-- An engine with no request, no timer, and the lines of IDLE, FINISHED and HELD (Table 20). -/
def Engine.homed (e : Engine) (st : EngineState) : Engine :=
  { e with
    state := st, reach := .stopped, pendingStrobe := none, request := none, pt := 0, pstb := .stopped, sch := 0
    fire := false }

/-- The current point of `c` has taken `o` and the engine is HELD: every later point WITHHELD (R87). -/
def State.heldAfter (s : State) (c : Chan) (o : PointOutcome) : State :=
  let e := s.eng c
  ((s.outcomesTaken c e.at (e.points + 1) fun j => some (if j = e.at then o else .withheld)).setEng c
    (e.homed .held)).setWindow c none

/-- What sending finds for point `j`: SKIPPED when the body's option set does not have the flag its condition names in the
required state (R7), MISSED when its window is past (R34), or none when the point is strobed (R69). -/
def State.decided (s : State) (c : Chan) (j : Nat) : Option PointOutcome :=
  let r := s.pointRec c j
  let p := s.relPos.getD 0
  if r.cond.any fun x => (s.eng c).options.getLsbD x.index != x.required then some .skipped
  else if r.windowOpen ≤ p ∧ r.windowClose < p then some .missed
  else none

/-- An engine whose strobe of point `j` has been given: PT, the PSTB pulse, the reach timer (R69). -/
def Engine.strobed (e : Engine) (j reachLimit : Nat) : Engine :=
  { e with
    pt := BitVec.ofNat 8 j, pstb := .running 10, pendingStrobe := none, reach := .running (reachLimit * 100000) }

/-- The inputs after the strobe of a point: the latch of its EVENT gate's line is clear for the channel (R69, R159). -/
def PointRec.clearLatch (r : PointRec) (c : Chan) (v : Vector AuxIn 8) : Vector AuxIn 8 :=
  match r.gate with
  | some { line := i, kind := .event } => v.set i (v[i].setLatch c false)
  | _ => v

/-- Point `j` has been sent: POSITIONING with the cursor at `j` and its window state, the strobe given or, behind a
running pulse, pending (R34, R69). -/
def State.sent (s : State) (c : Chan) (j : Nat) : State :=
  let e : Engine := { s.eng c with state := .positioning, cursor := some j, reach := .stopped }
  let w := (s.pointRec c j).windowAt (s.relPos.getD 0)
  let s1 := s.setWindow c (some { state := w, openDue := w == .opened, closeDue := false })
  match e.pstb with
  | .running _ => s1.setEng c { e with pendingStrobe := some j }
  | .stopped =>
    { (s1.setEng c (e.strobed j s.sc.reachLimit)) with
      aux := { s.aux with inputs := (s.pointRec c j).clearLatch c s.aux.inputs } }

/-- Point `k` has taken `o`, if one is given, and the engine has advanced from it: the points decided at sending have
their outcomes, and the engine is POSITIONING on the first other one, or FINISHED (R69, R70, R90). -/
def State.advancedAfter (s : State) (c : Chan) (k : Nat) (o : Option PointOutcome) : State :=
  let n := (s.eng c).points
  let outcome := fun j => if j = k then o else s.decided c j
  match (List.range' (k + 1) (n - k)).find? fun j => s.decided c j == none with
  | some j => (s.outcomesTaken c k j outcome).sent c j
  | none =>
    ((s.outcomesTaken c k (n + 1) outcome).setEng c
      { (s.eng c).homed .finished with cursor := if k < n then some n else (s.eng c).cursor }).setWindow c none

/-- The close-out of a channel (R91, Table 22): the current point MISSED or CUT, every later point MISSED, then IDLE. -/
def State.closedOut (s : State) (c : Chan) : State :=
  let e := s.eng c
  let s1 :=
    match e.state with
    | .idle | .finished | .held => s
    | .positioning | .gated | .requesting => s.outcomesTaken c e.at (e.points + 1) fun _ => some .missed
    | .firing => s.outcomesTaken c e.at (e.points + 1) fun j => some (if j = e.at then .cut else .missed)
  (s1.setEng c { e.homed .idle with cursor := none, running := none, options := 0, faults := 0 }).setWindow c none

/-- An engine has taken a bound body (R68): a good program on an undisputed body starts, and its points are sent in
order; a failed program, or a disputed body, has every place WITHHELD. -/
def State.took (s : State) (c : Chan) (b : Body) : State :=
  match (b.part c).answer with
  | .absent => s
  | .failed _ n => s.outcomesTaken c 1 (n + 1) fun _ => some .withheld
  | .good p n =>
    if b.disputed then s.outcomesTaken c 1 (n + 1) fun _ => some .withheld
    else
      (s.setEng c
        { s.eng c with
          running := some { program := p, count := n }, options := b.options, faults := 0
          cursor := some 1 }).advancedAfter c 0 none

/-- The zone is BOUND with an identity, both channels are resolved, and both engines have taken the body, A before B
(R19, R47, R53, R68; log 26). -/
def State.boundAs (s : State) (datum : Word32) (serial : Word24) (style : Byte) (options : Word16)
    (disputed listed : Bool) : State :=
  let part := fun c : Chan =>
    let a := resolve s.sc s.store c style
    ({ answer := a, places := List.replicate a.count none } : ChannelPart)
  let b : Body :=
    { serial := serial, style := style, options := options, disputed := disputed, listed := listed
      partA := part .a, partB := part .b }
  (({ s with tracker := { s.tracker with zone := .bound datum b } } : State).took .a b).took .b b

/-- The zone record and the engines, windows and auxiliary lines are those of a binding with this identity. -/
def boundTo (datum : Word32) (serial : Word24) (style : Byte) (options : Word16) (disputed listed : Bool)
    (s t : State) : Prop :=
  let u := s.boundAs datum serial style options disputed listed
  t.tracker.zone = u.tracker.zone ∧ t.aux = u.aux
    ∧ ∀ c, t.eng c = u.eng c ∧ t.counter.window c = u.counter.window c

/-- The entry with a serial has a mark, every other entry as it was (R38). -/
def marked (serial : Word24) (m : Mark) (s t : State) : Prop :=
  t.tracker.register = s.tracker.register.map fun e => if e.serial = serial then { e with mark := m } else e

/-- Order binding (R52): the oldest AHEAD entry, or STRAY. -/
def boundByOrder (datum : Word32) (s t : State) : Prop :=
  (∀ before e after, s.tracker.register = before ++ e :: after → e.mark = .ahead → (∀ x ∈ before, x.mark ≠ .ahead) →
      boundTo datum e.serial e.style e.options e.disputed true s t ∧ marked e.serial .here s t
        ∧ t.sticky.strayBody = s.sticky.strayBody)
    ∧ ((∀ e ∈ s.tracker.register, e.mark ≠ .ahead) →
        t.tracker.zone = .stray datum ∧ t.sticky.strayBody = true ∧ t.tracker.register = s.tracker.register
          ∧ t.aux = s.aux ∧ ∀ c, t.eng c = s.eng c ∧ t.counter.window c = s.counter.window c)
    ∧ t.line.outbox = s.line.outbox ∧ t.sticky.outboxOverflow = s.sticky.outboxOverflow

/-- Binding by a tag record: the three rows of R55 with the item each creates. -/
def boundByTag (datum : Word32) (serial : Word24) (style : Byte) (options : Word16) (s t : State) : Prop :=
  t.sticky.strayBody = s.sticky.strayBody ∧ t.sticky.tagMissing = s.sticky.tagMissing
    ∧ ((∀ e ∈ s.tracker.register, e.serial ≠ serial) →
      boundTo datum serial style options false false s t ∧ t.tracker.register = s.tracker.register
        ∧ pushed [.announce serial style options] s t)
    ∧ ∀ older e newer, s.tracker.register = older ++ e :: newer → e.serial = serial → (∀ x ∈ older, x.serial ≠ serial) →
        marked serial .here s t
          ∧ (e.style = style ∧ e.options = options →
              boundTo datum serial style options e.disputed true s t
                ∧ pushed (if ∃ x ∈ older, x.mark = .ahead ∧ x.announcer ≤ s.own then [.resync serial] else []) s t)
          ∧ (¬(e.style = style ∧ e.options = options) →
              boundTo datum serial e.style e.options true true s t ∧ pushed [.dispute serial style options] s t)

/-- What a binding can change: the zone record, register and held read, the watches and windows, the engines, the outbox,
the auxiliary lines that strobes and actions reach, and three sticky bits. The positions stay. -/
def bindingFrame (s t : State) : Prop :=
  t = { s with
        counter :=
          { s.counter with
            heldWatch := t.counter.heldWatch, pairWatch := t.counter.pairWatch, zoneWatch := t.counter.zoneWatch
            windowA := t.counter.windowA, windowB := t.counter.windowB }
        tracker := t.tracker
        engA := t.engA
        engB := t.engB
        line := { s.line with outbox := t.line.outbox }
        aux := t.aux
        sticky :=
          { s.sticky with
            outboxOverflow := t.sticky.outboxOverflow, strayBody := t.sticky.strayBody
            tagMissing := t.sticky.tagMissing } }

/-- The items of a zone end (R60, steps 2 and 3): the RESULT of A, the RESULT of B, and an exit station's DEPART. -/
def zoneEndItems (s : State) : List Item :=
  match ((s.closedOut .a).closedOut .b).tracker.zone with
  | .bound _ b =>
    (if b.partA.answer = .absent then [] else [.result (formResult .a b)])
      ++ (if b.partB.answer = .absent then [] else [.result (formResult .b b)])
      ++ (if s.sc.exit then [.depart b.serial] else [])
  | _ => []

/-- An engine that has entered REQUESTING on a point with a round count (R77). -/
def Engine.asking (e : Engine) (r : PointRec) (count : Option Word16) : Engine :=
  { e with
    state := .requesting
    requestNumber := e.requestNumber + 1
    request :=
      some { point := e.at, load := r.load, hold := r.hold, round := count, number := e.requestNumber + 1 } }

/-- An engine that has heard of its gate's line, where its window is OPEN or not: a LEVEL gate that ends withdraws a
request (R78), and a gate newly satisfied lets a GATED engine ask (R75, R76). -/
def Engine.gateReported (e : Engine) (r : PointRec) (line : Fin 8) (active latched opened : Bool) (n : Option Word16) :
    Engine :=
  if r.gate = some { line := line, kind := .level } then
    if active then if e.state = .gated ∧ opened = true then e.asking r n else e
    else if e.state = .requesting then { e with state := .gated, request := none }
    else e
  else if r.gate = some { line := line, kind := .event } then
    if latched = true ∧ e.state = .gated ∧ opened = true then e.asking r n else e
  else e

/-- A filtered change of an auxiliary input has been taken (R156 to R158). -/
def State.filteredTo (s : State) (line : Fin 8) (level : Bool) : State :=
  let x := s.aux.inputs[line]
  let hit :=
    match s.sc.auxIn[line].edge with
    | .never => false
    | .onActive => level
    | .onInactive => !level
    | .both => true
  let told := fun c : Chan =>
    (s.eng c).gateReported (s.current c) line level (hit && !x.latch c)
      ((s.counter.window c).map Window.state == some .opened) s.line.count
  { s with
    aux :=
      { s.aux with
        inputs :=
          s.aux.inputs.set line
            { raw := some level, filtered := level, timer := .stopped, latchA := x.latchA || hit,
              latchB := x.latchB || hit } }
    engA := told .a
    engB := told .b }

/-- The window of a channel is OPEN and its current point's gate satisfied: a LEVEL gate by the filtered level of its line,
an EVENT gate by the channel's latch of it, a point without a gate always (R75, R76). -/
def State.mayAsk (s : State) (c : Chan) : Prop :=
  (∃ w, s.counter.window c = some w ∧ w.state = .opened)
    ∧ match (s.current c).gate with
      | none => True
      | some { line := i, kind := .level } => s.aux.inputs[i].filtered = true
      | some { line := i, kind := .event } =>
        match c with
        | .a => s.aux.inputs[i].latchA = true
        | .b => s.aux.inputs[i].latchB = true

/-- An engine with a current point stands at one of its program's points (R65). -/
def State.Pointed (s : State) : Prop :=
  ∀ c, (s.eng c).state.hasPoint = true → 1 ≤ (s.eng c).at ∧ (s.eng c).at ≤ (s.eng c).points

/-! ## The rotation, rounds and frames in one closed form (R104, R132, R145, R149, R152, R153) -/

/-- `u`, with channel `c` OVERRUN and HELD when in `s` it fires on a slot that the round count `m` expires (R84, R105). -/
def State.overrunAt (s : State) (m : Word16) (c : Chan) (u : State) : State :=
  if ((s.view.row s.own).slot c).expired m = true ∧ (s.eng c).state = .firing then u.heldAfter c .overrun else u

/-- The feeder table has taken the round count `m`: expired slots EMPTY, reached orphans gone, and a channel in FIRING
whose own slot expired OVERRUN and HELD, A before B (R84, R104, R105; log 26). -/
def State.expiredAt (s : State) (m : Word16) : State :=
  { s.overrunAt m .b (s.overrunAt m .a s) with
    view :=
      { s.view with
        rows := s.view.rows.map (AddrRow.expire m)
        orphans := s.view.orphans.filter fun o => !o.reached m } }

/-- The round boundary out of round `n` (R145). -/
def State.roundClosed (s : State) (n : Word16) : State :=
  let u := s.expiredAt (n + 1)
  let r := s.line.record
  let clean := r.complete && r.clean && (!r.openedOnLine || r.goodEcho)
  let joins := s.line.state = .listening ∧ s.lc.holdCeiling + 2 ≤ s.line.joinHold + 1
  let st := if joins then .joining else s.line.state
  { u with
    view :=
      { u.view with
        miss := s.view.miss && !(clean && !s.view.missThisRound)
        fresh := s.view.fresh && !(clean && r.openedOnLine)
        missThisRound := false }
    line :=
      { s.line with
        count := some (n + 1)
        lastValid := s.line.lastValid.map fun f => { f with since := f.since.next }
        joinHold := if s.line.state = .listening then s.line.joinHold + 1 else s.line.joinHold
        state := st
        record := { complete := true, clean := true, openedOnLine := st == .onLine, goodEcho := false } } }

/-- The rotation has moved on from address `a`, through the boundary after 30 (R132, R145). -/
def State.movedOn (s : State) (a : Nat) (ref : RefPoint) : State :=
  let u := if a = 30 then s.line.count.elim s s.roundClosed else s
  let n := if a = 30 then 1 else a + 1
  { u with
    line :=
      { u.line with
        position := some { address := n, kind := if u.line.onRoster n then .turn else .window, ref := ref } } }

/-- A standing request made without a round count takes the first one (R77). -/
def Engine.counted (e : Engine) (m : Word16) : Engine :=
  { e with request := e.request.map fun q => { q with round := some (q.round.getD m) } }

/-- Whether a frame that disagrees is the second of two, from two senders, that agree on another count (R147). -/
def LastValid.agrees (g : LastValid) (sender : Nat) (round : Word16) : Bool :=
  g.disagreed && g.sender != sender
    && ((g.since == .zero && round == g.round) || (g.since == .one && round == g.round + 1))

/-- A frame's round has been compared with the count: the first frame gives it (R149), a disagreement sets the miss
cause, and the second of two that agree is adopted (R147). -/
def State.rounded (s : State) (sender : Nat) (m : Word16) : State :=
  match s.line.count with
  | none =>
    let u := s.expiredAt m
    { u with
      engA := u.engA.counted m, engB := u.engB.counted m, line := { s.line with count := some m, joinHold := 0 } }
  | some n =>
    if m = n then s
    else
      let u : State := { s with view := { s.view with miss := true, missThisRound := true } }
      if s.line.lastValid.any fun g => g.agrees sender m then
        { u.expiredAt m with line := { s.line with count := some m } }
      else u

/-- A valid frame's header has been applied, its round apart (R153, part 1). -/
def State.headed (s : State) (f : Frame) (disagreed : Bool) : State :=
  let u := f.sender.toNat
  let unknown := !s.line.onRoster u
  let adopts := s.view.adoptPending && u != s.own
  { s with
    line :=
      { (s.line.setRoster u (some 0)) with
        lastValid := some { sender := u, round := f.round, disagreed := disagreed, since := .zero } }
    view :=
      { (s.view.setRow u { s.view.row u with digestMark := f.digest != s.lc.digest }) with
        miss := s.view.miss || unknown
        missThisRound := s.view.missThisRound || unknown
        pointer := if adopts then f.pointer.toNat else s.view.pointer
        adoptPending := s.view.adoptPending && !adopts } }

/-- A frame's items have been applied (R39). -/
def State.itemsTaken (s : State) (f : Frame) : State :=
  let w := applyItems f.sender.toNat f.exit f.items s
  { s with tracker := w.tracker, sticky := w.sticky }

/-- A valid frame of another station has been applied: header, claim list, items (R153). -/
def State.heard (s : State) (f : Frame) : State :=
  let v := (s.rounded f.sender.toNat f.round).headed f (s.line.count.any fun n => n != f.round)
  let n := v.line.count.getD f.round
  ({ v with view := v.view.applyClaims n s.lc.holdCeiling f.sender.toNat f.slotA f.slotB } : State).itemsTaken f

/-- A frame out of turn has realigned the rotation from the address held, `p`, to its sender `u` in round `n` (R110, R136,
R146). -/
def State.realigned (s : State) (p u : Nat) (n : Word16) : State :=
  let a : State := { s with line := { s.line with record := { s.line.record with clean := false } } }
  let b := a.roundClosed n
  let c : State :=
    if u < p then { b with line := { b.line with record := { b.line.record with clean := false } } } else a
  { c with view := { c.view with miss := true, missThisRound := true } }

/-- An engine after an admission is reported (R79, R80). -/
def Engine.admittedTo (e : Engine) (o : Option Offer) (schedule : Nat) : Engine :=
  if e.state = .requesting ∧ e.request.map Request.number = o.map Offer.number then
    { e with
      state := .firing, sch := BitVec.ofNat 6 schedule, fire := true, request := none, reach := .stopped
      pstb := .stopped, pendingStrobe := none }
  else e

/-- Own turn end with a good echo of a frame that carried `k` items (R123, R141, R143, R150), before the rotation moves
on. -/
def State.echoGood (s : State) (f : Frame) (k : Nat) : State :=
  let entered := if s.line.state = .joining then { s.line.setRoster s.own (some 0) with state := .onLine } else s.line
  let v := ({ s with line := { entered with jabber := 0, inFlight := none } } : State).headed f false
  let offered := s.view.offerA.isSome || s.view.offerB.isSome
  ({ v with
      engA := if s.view.offerA.isSome then s.engA.admittedTo s.view.offerA (s.current .a).schedule else s.engA
      engB := if s.view.offerB.isSome then s.engB.admittedTo s.view.offerB (s.current .b).schedule else s.engB
      view := { v.view with pointer := if offered then s.own else v.view.pointer, offerA := none, offerB := none }
      line :=
        { v.line with
          outbox := s.line.outbox.drop k, record := { s.line.record with goodEcho := true } } } : State).itemsTaken f

/-- An own slot after a failed echo: an offered one waits again with its request round (R124). -/
def Slot.unoffered (x : Slot) (o : Option Offer) : Slot :=
  match x, o with
  | .active l _ _, some q => .waiting l q.round
  | x, _ => x

/-- Own turn end with a failed echo (R124, R139, R141), before the rotation moves on; `jabber` is the jabber count after
it (R142). -/
def State.echoFailed (s : State) (k jabber : Nat) : State :=
  let w := s.view.row s.own
  { s with
    view :=
      { (s.view.setRow s.own
          { w with slotA := w.slotA.unoffered s.view.offerA, slotB := w.slotB.unoffered s.view.offerB }) with
        offerA := none, offerB := none, miss := true, missThisRound := true }
    line :=
      { s.line with
        jabber := jabber
        inFlight := none
        outbox :=
          s.line.outbox.zipIdx.map fun x =>
            match x.1 with
            | .result r => .result { r with rpt := r.rpt || decide (x.2 < k) }
            | i => i
        record := { s.line.record with clean := false } } }

/-- The station has gone OFF LINE: the engines closed out, A before B, and every block at rest (R64, R93, R126, R143,
R152, R160). -/
def State.goneOffLine (s : State) : State :=
  let u := (s.closedOut .a).closedOut .b
  { u with
    counter :=
      { s.counter with
        heldWatch := .disarmed, pairWatch := .disarmed, zoneWatch := .disarmed, windowA := none, windowB := none }
    tracker :=
      { u.tracker with
        held := none
        bodyIn := { s.tracker.bodyIn with wait := .stopped }
        zoneOut := { s.tracker.zoneOut with wait := .stopped }
        tagBytes := []
        tagTimer := .stopped }
    view := { s.view with offerA := none, offerB := none }
    aux := { u.aux with inputs := s.aux.inputs.map fun x => { x with timer := .stopped } }
    line :=
      { (s.line.setRoster s.own none) with
        state := .offLine, position := none, foundingTimer := .stopped, inFlight := none, de := false
        carrier := none, untaken := .absent } }

/-- A slot of a dropped station has been taken by the feeder table at round count `n` (R106, R107). -/
def slotDropped (n : Word16) (a : Nat) (c : Chan) (v w : View) : Prop :=
  let x := v.row a
  match x.slot c with
  | .empty => w = v
  | .waiting _ _ => w = v.setRow a (x.setSlot c .empty)
  | .active l r h =>
    liveAt n r h = true →
      if v.orphans.length < 8 then
        w = { v.setRow a ((x.setSlot c .empty).setRetained c false) with
              orphans := v.orphans ++ [{ address := a, channel := c, load := l, expire := r + BitVec.ofNat 16 h }] }
      else w = v.setRow a (x.setRetained c true)

/-- One own slot has been judged at own turn start (R118, R119 to R121): `v` the view before, `w` after. -/
def slotJudged (s : State) (n : Word16) (c : Chan) (v w : View) : Prop :=
  match (v.row s.own).slot c, (s.eng c).request with
  | .waiting l r, some q =>
    let refused :=
      s.blind = true ∨ s.lc.budget < v.committed n + l
        ∨ policyRefuses s.lc v n { address := s.own, channel := c, round := r } = true
    (refused → w = v)
      ∧ (¬refused →
          w = (v.setRow s.own ((v.row s.own).setSlot c (.active l n q.hold))).setOffer c
                (some { number := q.number, round := r }))
  | _, _ => w = v

/-- The own slots as own turn start sets them (R116, R117): a standing request WAITING, a weld in FIRING as it was,
anything else EMPTY. -/
def State.ownSlotWanted (s : State) (n : Word16) (c : Chan) (x : Slot) : Prop :=
  let e := s.eng c
  (∀ q, e.state = .requesting → e.request = some q → x = .waiting q.load (q.round.getD n))
    ∧ (e.state = .firing → x = (s.view.row s.own).slot c)
    ∧ (e.state ≠ .firing → (e.state = .requesting → e.request = none) → x = .empty)

/-- A frame shows what the station holds (R122, R138, R172, Table 48). -/
structure Frame.Shows (f : Frame) (s : State) (n : Word16) : Prop where
  sender : f.sender = BitVec.ofNat 8 s.own
  flags : f.fresh = s.view.fresh ∧ f.blind = s.blind ∧ f.reader = s.sc.reader ∧ f.exit = s.sc.exit
    ∧ f.halted = decide (s.counter.motion = .halted) ∧ f.occupied = decide (s.tracker.zone ≠ .empty)
  round : f.round = n
  pointer : f.pointer = BitVec.ofNat 8 s.view.pointer
  digest : f.digest = s.lc.digest
  tag : f.tag = s.store.tag
  status : f.status = s.statusWord
  slots : f.slotA = (s.view.row s.own).slotA.raw ∧ f.slotB = (s.view.row s.own).slotB.raw
  items : f.items = takeItems 0 0 s.line.outbox

/-- The own turn has started in round `n` (R117 to R122, R131, R138): the own slots are set and judged in their order,
and the frame that shows the result is in flight. -/
def turnBegun (n : Word16) (s t : State) : Prop :=
  ∃ (x y : Slot) (v w : View) (f : Frame),
    s.ownSlotWanted n .a x ∧ s.ownSlotWanted n .b y
      ∧ (let v0 := s.view.setRow s.own { s.view.row s.own with slotA := x, slotB := y }
         let bFirst := ∃ l r m q, x = .waiting l r ∧ y = .waiting m q ∧ roundAge n r < roundAge n q
         (bFirst → slotJudged s n .b v0 v ∧ slotJudged s n .a v w)
           ∧ (¬bFirst → slotJudged s n .a v0 v ∧ slotJudged s n .b v w))
      ∧ f.Shows { s with view := w } n
      ∧ t = { s with
              view := w
              line := { s.line with de := true, inFlight := some { bytes := f.encode, carried := f.items.length } } }

end Sys2Proof.Machine
end

