-- ==== Sys2Proof/Certificates/Slice0/Obligations.lean ====
section
/-!
DEFINITION. The statements for the provers, in the order of the manual's chapters. OBLIGATIONS.json lists them.
-/

open Sys2Proof Sys2Proof.Machine

/-! ## The queue -/

/-- A step takes the command at the front with the queue's rest; on an empty queue the part idles (log 1). -/
def Obligations.StepRunsFront : Prop :=
  (∀ (c : Instr) (rest : List Instr) (s : State), s.pending = c :: rest → step s = exec c { s with pending := rest })
    ∧ ∀ s : State, s.pending = [] → step s = .next s

/-- Every command completes in every state, and leaves the queue to the step (95; log 1, log 3). -/
def Obligations.EveryCommandCompletes : Prop :=
  ∀ (c : Instr) (s : State), ∃ t, exec c s = .next t ∧ t.pending = s.pending

/-! ## Start-up (01, 09) -/

/-- RESET: every block returns to its reset values, and the lines to their reset levels (R176, Tables 6, 13, 19, 25, 31,
34, 35, 42, 44). The queue is the model's own (log 1). -/
def Obligations.ResetLeavesNothing : Prop :=
  ∀ s : State, ∃ t, exec .reset s = .next t ∧ t.pending = s.pending
    ∧ (t.store.line = none ∧ t.store.station = none ∧ t.store.tag = 0 ∧ t.store.styles = [] ∧ t.store.directory = []
        ∧ t.store.points = [] ∧ (∀ p, t.store.marked p = false)
        ∧ t.store.firstFault = { kind := .noFault, program := 0, point := 0 })
    ∧ (t.counter.quad = none ∧ t.counter.raw = 0 ∧ t.counter.tracked = 0 ∧ t.counter.motion = .halted
        ∧ t.counter.haltTimer = .stopped ∧ t.counter.heldWatch = .disarmed ∧ t.counter.pairWatch = .disarmed
        ∧ t.counter.zoneWatch = .disarmed)
    ∧ (t.tracker.register = [] ∧ t.tracker.zone = .empty ∧ t.tracker.held = none ∧ t.tracker.tagBytes = [])
    ∧ (∀ c, (t.eng c).state = .idle ∧ (t.eng c).cursor = none ∧ (t.eng c).running = none ∧ (t.eng c).options = 0
        ∧ (t.eng c).reach = .stopped ∧ (t.eng c).faults = 0 ∧ (t.eng c).request = none ∧ (t.eng c).requestNumber = 0
        ∧ (t.eng c).Home ∧ t.counter.window c = none ∧ t.firePin c = false ∧ t.pstbPin c = false ∧ t.ptPins c = 0
        ∧ t.schPins c = 0)
    ∧ ((∀ a, t.view.row a = AddrRow.blank) ∧ t.view.orphans = [] ∧ t.view.pointer = 0 ∧ t.view.adoptPending = true
        ∧ t.view.miss = false ∧ t.view.fresh = true ∧ t.view.missThisRound = false ∧ t.view.offerA = none
        ∧ t.view.offerB = none ∧ t.blind = true)
    ∧ ((∀ a, t.line.onRoster a = false) ∧ t.line.count = none ∧ t.line.position = none ∧ t.line.lastValid = none
        ∧ t.line.record.complete = false ∧ t.line.joinHold = 0 ∧ t.line.foundingTimer = .stopped ∧ t.line.jabber = 0
        ∧ t.line.outbox = [] ∧ t.line.inFlight = none ∧ t.line.de = false)
    ∧ (∀ i : Fin 8, t.aux.inputs[i] = AuxIn.afterReset ∧ t.aux.outputs[i] = .released ∧ t.auxPin i = .undriven)
    ∧ t.sticky = Sticky.afterReset ∧ t.statusWord = 0 ∧ t.pmSelected = false ∧ t.faultActive = false

/-- STRAP_READING: once after reset; 1..30 is the own address and starts LOADING, 0 and 31 give OFF LINE with FAULT_N
active and no read of program memory (R177, R178). -/
def Obligations.StrapsGiveAddress : Prop :=
  ∀ (straps : BitVec 5) (s : State),
    (s.store.phase = .straps → ∃ t, exec (.strapReading straps) s = .next t ∧ t.own = straps.toNat
      ∧ t = { s with store := { s.store with phase := t.store.phase },
                     line := { s.line with straps := straps, state := t.line.state } }
      ∧ if straps.toNat = 0 ∨ straps.toNat = 31 then
          t.line.state = .offLine ∧ t.store.phase = .ended ∧ t.pmSelected = false ∧ t.faultActive = true
        else t.line.state = .loading ∧ t.store.phase = .header ∧ t.pmSelected = true)
    ∧ (s.store.phase ≠ .straps → exec (.strapReading straps) s = .next s)

/-- HEADER_PASS. The bytes of the image are read high byte first, a line configuration byte bit by bit as Tables 57 and
58 code it. A good header: the constants, the library tag and the counts are taken in as Table 54 codes them, and the
outputs leave the released state as R162 gives (R9, R185). A faulty one: the five checks of R9 in order, the first to
fail being a fatal fault: the record as R16 gives it, OFF LINE, FAULT_N active, the record presented (R11, R17). A
memory that does not answer fails the marker check; a byte it does not give reads as all ones (log 4). -/
def Obligations.HeaderPass : Prop :=
  (∀ (image : List Byte) (i n : Nat),
      let b := fun k => (imageByte image (i + k)).toNat
      (∀ x, image[i]? = some x → imageByte image i = x) ∧ (image[i]? = none → imageByte image i = 0xFF)
        ∧ (image16 image i).toNat = 256 * b 0 + b 1
        ∧ (be32 (imageByte image i) (imageByte image (i + 1)) (imageByte image (i + 2)) (imageByte image (i + 3))).toNat =
            16777216 * b 0 + 65536 * b 1 + 256 * b 2 + b 3
        ∧ (imageRange image i n).length = n ∧ ∀ j < n, (imageRange image i n)[j]? = some (imageByte image (i + j)))
    ∧ (∀ x : Byte,
      let k := decodeAuxIn x
      k.activeLow = x.getLsbD 7 ∧ k.used = x.getLsbD 6 ∧ k.filter = x.toNat % 16
        ∧ (x.getLsbD 5 = false → x.getLsbD 4 = false → k.edge = .never)
        ∧ (x.getLsbD 5 = false → x.getLsbD 4 = true → k.edge = .onActive)
        ∧ (x.getLsbD 5 = true → x.getLsbD 4 = false → k.edge = .onInactive)
        ∧ (x.getLsbD 5 = true → x.getLsbD 4 = true → k.edge = .both))
    ∧ (∀ x : Byte,
      let k := decodeAuxOut x
      k.used = x.getLsbD 7 ∧ k.activeLow = x.getLsbD 1 ∧ k.initialActive = x.getLsbD 0
        ∧ (x.getLsbD 5 = false → x.getLsbD 4 = false → k.drive = .pushPull)
        ∧ (x.getLsbD 5 = false → x.getLsbD 4 = true → k.drive = .openDrainLow)
        ∧ (x.getLsbD 5 = true → x.getLsbD 4 = false → k.drive = .openDrainHigh))
    ∧ (∀ (image : List Byte) (s : State), s.store.phase = .header → headerFault image = none →
      ∃ t, exec (.headerPass image) s = .next t
        ∧ t = { s with store := { s.store with
                         line := t.store.line, station := t.store.station, tag := t.store.tag,
                         styleCount := t.store.styleCount, programCount := t.store.programCount,
                         totalPoints := t.store.totalPoints, phase := .styles },
                       aux := { s.aux with outputs := t.aux.outputs } }
        ∧ (t.store.line ≠ none ∧ t.lc.budget = (image16 image 8).toNat
            ∧ (t.lc.policy = .strict ↔ imageByte image 10 = 0) ∧ (t.lc.order = .fixed ↔ imageByte image 11 = 0)
            ∧ t.lc.fillGuard = (imageByte image 12).toNat ∧ t.lc.holdCeiling = (image16 image 13).toNat
            ∧ t.lc.digest = crc16 (imageRange image 8 7) ∧ t.lc.digest = image16 image 15)
        ∧ (t.store.station ≠ none ∧ t.sc.enableA = (imageByte image 3).getLsbD 0
            ∧ t.sc.enableB = (imageByte image 3).getLsbD 1 ∧ t.sc.reader = (imageByte image 3).getLsbD 2
            ∧ t.sc.exit = (imageByte image 3).getLsbD 3 ∧ t.sc.zoneLength = (image16 image 17).toNat
            ∧ t.sc.hysteresis = (imageByte image 19).toNat ∧ t.sc.haltTime = (imageByte image 20).toNat
            ∧ t.sc.reachLimit = (imageByte image 21).toNat ∧ t.sc.tagWait = (image16 image 22).toNat)
        ∧ t.store.tag = be32 (imageByte image 4) (imageByte image 5) (imageByte image 6) (imageByte image 7)
        ∧ t.store.styleCount = (imageByte image 40).toNat ∧ t.store.programCount = (imageByte image 41).toNat
        ∧ t.store.totalPoints = (image16 image 42).toNat
        ∧ ∀ i : Fin 8,
            t.sc.auxIn[i] = decodeAuxIn (imageByte image (24 + i)) ∧ t.sc.auxOut[i] = decodeAuxOut (imageByte image (32 + i))
            ∧ t.aux.outputs[i] =
                if (imageByte image (32 + i)).getLsbD 7 then
                  if (imageByte image (32 + i)).getLsbD 0 then .active else .inactive
                else .released)
    ∧ ∀ (image : List Byte) (s : State), s.store.phase = .header →
      let marker := imageByte image 0 = 0x57 ∧ imageByte image 1 = 0x42
      let version := imageByte image 2 = 1
      let check := crc16 (imageRange image 0 44) = image16 image 44
      let digest := crc16 (imageRange image 8 7) = image16 image 15
      let range :=
        1 ≤ (image16 image 8).toNat ∧ (image16 image 8).toNat ≤ 1000 ∧ (imageByte image 10).toNat ≤ 1
          ∧ (imageByte image 11).toNat ≤ 1 ∧ 1 ≤ (imageByte image 12).toNat ∧ 16 ≤ (image16 image 13).toNat
          ∧ (image16 image 13).toNat ≤ 1023 ∧ 1 ≤ (image16 image 17).toNat ∧ 1 ≤ (imageByte image 20).toNat
          ∧ 1 ≤ (imageByte image 21).toNat ∧ 1 ≤ (image16 image 22).toNat
          ∧ (∀ i < 8, ¬((imageByte image (32 + i)).getLsbD 5 = true ∧ (imageByte image (32 + i)).getLsbD 4 = true))
          ∧ (imageByte image 40).toNat ≤ 64 ∧ (imageByte image 41).toNat ≤ 128 ∧ (image16 image 42).toNat ≤ 4096
      let fatal := fun k : FaultKind =>
        ∃ t, exec (.headerPass image) s = .next t ∧ t.line.state = .offLine ∧ t.faultActive = true
          ∧ t.store.firstFault =
              (if s.store.firstFault.kind = .noFault then { kind := k, program := 0, point := 0 } else s.store.firstFault)
          ∧ (s.store.firstFault.kind = .noFault → t.presents .a = true ∧ t.presents .b = true)
          ∧ t = { s with store := { s.store with firstFault := t.store.firstFault, phase := .ended },
                         line := { s.line with state := .offLine } }
      (¬marker → fatal .marker) ∧ (marker → ¬version → fatal .version) ∧ (marker → version → ¬check → fatal .headerCheck)
        ∧ (marker → version → check → ¬digest → fatal .digest)
        ∧ (marker → version → check → digest → ¬range → fatal .headerRange)
        ∧ (marker → version → check → digest → range → headerFault image = none)
        ∧ (image = [] → fatal .marker)

/-- STYLE_PASS. An entry is read as Table 55 codes it. With every entry sound: the entries are taken in table order, and the link check marks every program
named above the program count; the first such field gives the first-fault record. With a faulty entry: the first to
fail its structure check is a fatal STYLE ENTRY fault at its table position, and the outputs keep their levels (R10,
R11, R15, R16). -/
def Obligations.StylePass : Prop :=
  (∀ (image : List Byte) (i : Nat),
      let b := fun k => imageByte image (3 * i + k)
      let e := decodeStyle image i
      e.style = (b 0).toNat ∧ e.prog .a = (if b 1 = 0 then none else some (b 1).toNat)
        ∧ e.prog .b = (if b 2 = 0 then none else some (b 2).toNat))
    ∧ (∀ (image : List Byte) (s : State), s.store.phase = .styles →
      let n := s.store.styleCount
      let e := decodeStyle image
      let undefinedAt := fun (i : Nat) (c : Chan) (p : Nat) => i < n ∧ (e i).prog c = some p ∧ s.store.programCount < p
      (∀ i < n, (e i).style ≤ 63 ∧ (∀ j < i, (e j).style ≠ (e i).style) ∧ ∀ c p, (e i).prog c = some p → p ≤ 128) →
      ∃ t, exec (.stylePass image) s = .next t
        ∧ t = { s with store := { s.store with styles := (List.range n).map e, marks := t.store.marks,
                                               firstFault := t.store.firstFault, phase := .directory } }
        ∧ (∀ p, 1 ≤ p → p ≤ 128 →
            (t.store.marked p = true ↔ s.store.marked p = true ∨ ∃ i c, undefinedAt i c p))
        ∧ ((s.store.firstFault.kind ≠ .noFault ∨ ∀ i c p, ¬undefinedAt i c p) → t.store.firstFault = s.store.firstFault)
        ∧ ∀ i c p, s.store.firstFault.kind = .noFault → undefinedAt i c p → (∀ j d q, j < i → ¬undefinedAt j d q) →
            (c = .b → ∀ q, ¬undefinedAt i .a q) →
            t.store.firstFault = { kind := .undefinedProgram, program := p, point := i + 1 })
    ∧ ∀ (image : List Byte) (s : State) (i : Nat), s.store.phase = .styles → i < s.store.styleCount →
      let e := decodeStyle image
      let sound := fun j =>
        (e j).style ≤ 63 ∧ (∀ k < j, (e k).style ≠ (e j).style) ∧ ∀ c p, (e j).prog c = some p → p ≤ 128
      (∀ j < i, sound j) → ¬sound i →
      ∃ t, exec (.stylePass image) s = .next t ∧ t.line.state = .offLine ∧ t.faultActive = true
        ∧ t.store.firstFault =
            (if s.store.firstFault.kind = .noFault then { kind := .styleEntry, program := 0, point := i + 1 }
              else s.store.firstFault)
        ∧ t = { s with store := { s.store with firstFault := t.store.firstFault, phase := .ended },
                       line := { s.line with state := .offLine } }

/-- DIRECTORY_PASS: the entries are taken as Table 55 codes them, each faulty one marks its program DIRECTORY RANGE, the first such giving the
first-fault record, and the fourth pass or the end of LOADING follows (R12, R16, R18; log 24). -/
def Obligations.DirectoryPass : Prop :=
  (∀ (image : List Byte) (i : Nat),
      let b := fun k => (imageByte image (5 * i + k)).toNat
      let d := decodeDir image i
      d.first = 256 * b 0 + b 1 ∧ d.count = b 2 ∧ d.check.toNat = 256 * b 3 + b 4)
    ∧ ∀ (image : List Byte) (pins : PinSample) (s : State), s.store.phase = .directory → s.store.programCount ≤ 128 →
    let d := fun p => decodeDir image (p - 1)
    let faulty := fun p => 1 ≤ p ∧ p ≤ s.store.programCount ∧ ((d p).count = 0 ∨ s.store.totalPoints < (d p).first + (d p).count)
    ∃ t, exec (.directoryPass image pins) s = .next t
      ∧ t.store = { s.store with directory := t.store.directory, marks := t.store.marks,
                                 firstFault := t.store.firstFault, phase := t.store.phase }
      ∧ (∀ p, t.store.dirEntry p = if 1 ≤ p ∧ p ≤ s.store.programCount then some (d p) else none)
      ∧ (∀ p, 1 ≤ p → p ≤ 128 → (t.store.marked p = true ↔ s.store.marked p = true ∨ faulty p))
      ∧ ((s.store.firstFault.kind ≠ .noFault ∨ ∀ p, ¬faulty p) → t.store.firstFault = s.store.firstFault)
      ∧ (∀ p, s.store.firstFault.kind = .noFault → faulty p → (∀ q < p, ¬faulty q) →
          t.store.firstFault = { kind := .directoryRange, program := p, point := 0 })
      ∧ passGoesOn 0 pins s t

/-- PROGRAM_PASS: a mismatched program check, or the first point that fails R14, marks the program; a program whose
every point passes is good and its records stand in the point array (R13, R16; log 24). A record is read as Table 56
codes it. -/
def Obligations.ProgramPass : Prop :=
  (∀ (image : List Byte) (i : Nat),
      let b := fun k => imageByte image (11 * i + k)
      let two := fun k => 256 * (b k).toNat + (b (k + 1)).toNat
      let r := decodePoint image i
      r.schedule = (b 0).toNat ∧ r.load = (b 1).toNat ∧ r.hold = two 2 ∧ r.windowOpen = two 4 ∧ r.windowClose = two 6
        ∧ ((b 8).getLsbD 7 = false → r.cond = none)
        ∧ ((b 8).getLsbD 7 = true →
            ∃ x, r.cond = some x ∧ x.required = (b 8).getLsbD 6
              ∧ ((b 8).getLsbD 5 = false → (b 8).getLsbD 4 = false → x.index = (b 8).toNat % 16))
        ∧ ((b 9).getLsbD 7 = false → r.gate = none)
        ∧ ((b 9).getLsbD 7 = true →
            ∃ x, r.gate = some x ∧ x.line.val = (b 9).toNat % 8 ∧ x.kind = if (b 9).getLsbD 6 then .event else .level)
        ∧ ((b 10).getLsbD 7 = false → r.action = none)
        ∧ ((b 10).getLsbD 7 = true →
            ∃ x, r.action = some x ∧ x.line.val = (b 10).toNat % 8 ∧ x.always = (b 10).getLsbD 6
              ∧ x.level = (b 10).getLsbD 5))
    ∧ ∀ (image : List Byte) (pins : PinSample) (s : State) (p : Nat) (d : DirEntry),
    s.store.phase = .points p → 1 ≤ p → p ≤ 128 → s.store.dirEntry p = some d →
    let matching := crc16 (imageRange image 0 (11 * d.count)) = d.check
    let fails := fun k => pointFault s.lc s.sc (decodePoint image (k - 1))
    let marks := fun (f : FaultKind) (k : Nat) (t : State) =>
      (∀ q, t.store.marked q = (s.store.marked q || q == p))
        ∧ t.store.firstFault =
            (if s.store.firstFault.kind = .noFault then { kind := f, program := p, point := k } else s.store.firstFault)
    ∃ t, exec (.programPass image pins) s = .next t
      ∧ t.store = { s.store with points := t.store.points, marks := t.store.marks, firstFault := t.store.firstFault,
                                 phase := t.store.phase }
      ∧ (¬matching → marks .programCheck 0 t)
      ∧ (∀ k f, matching → 1 ≤ k → k ≤ d.count → (∀ j, 1 ≤ j → j < k → fails j = none) → fails k = some f → marks f k t)
      ∧ (matching → (∀ k, 1 ≤ k → k ≤ d.count → fails k = none) →
          t.store.marks = s.store.marks ∧ t.store.firstFault = s.store.firstFault
            ∧ ∀ k, 1 ≤ k → k ≤ d.count → t.store.pointAt (d.first + k - 1) = some (decodePoint image (k - 1)))
      ∧ passGoesOn p pins s t

/-- The point checks and their law (R14): the ten checks in order; a point that opens at 65535 fails the sixth; and in
every step every point of an accepted program passes them all, so that its load is within the budget and its hold
within the ceiling. The law holds the program count to the 128 of the header's check 5 (R9). -/
def Obligations.PointChecksAndTheirLaw : Prop :=
  (∀ (k : LineConsts) (c : StationConsts) (r : PointRec),
    let checks : List (FaultKind × Prop) :=
      [(.schedule, 1 ≤ r.schedule ∧ r.schedule ≤ 63), (.loadRange, 1 ≤ r.load ∧ r.load ≤ 250),
        (.loadOverBudget, r.load ≤ k.budget), (.holdRange, r.hold ≠ 0), (.holdOverCeiling, r.hold ≤ k.holdCeiling),
        (.windowOrder, r.windowOpen < r.windowClose), (.windowBeyondZone, r.windowClose ≤ c.zoneLength),
        (.optionIndex, ∀ x, r.cond = some x → x.index ≤ 15),
        (.gateLine, ∀ x, r.gate = some x → c.auxIn[x.line].used = true),
        (.actionLine, ∀ x, r.action = some x → c.auxOut[x.line].used = true)]
    (pointFault k c r = none ↔ ∀ x ∈ checks, x.2)
      ∧ ∀ (i : Nat) (f : FaultKind) (holds : Prop), checks[i]? = some (f, holds) → (∀ j < i, ∀ x : FaultKind × Prop, checks[j]? = some x → x.2) → ¬holds →
          pointFault k c r = some f)
    ∧ (∀ (image : List Byte) (i : Nat) (k : LineConsts) (c : StationConsts),
        (decodePoint image i).windowOpen = 65535 → pointFault k c (decodePoint image i) ≠ none)
    ∧ (∀ (image : List Byte) (i : Nat), (imageByte image (11 * i + 8)).getLsbD 7 = true →
        (imageByte image (11 * i + 8)).getLsbD 5 = true ∨ (imageByte image (11 * i + 8)).getLsbD 4 = true →
        ∃ x, (decodePoint image i).cond = some x ∧ 15 < x.index)
    ∧ (∀ s t : State, s.StartUp → s.LibraryChecked → step s = .next t → t.LibraryChecked)
    ∧ ∀ (s : State) (p k : Nat) (d : DirEntry), s.LibraryChecked → s.store.phase = .ended →
        s.store.dirEntry p = some d → s.store.marked p = false → 1 ≤ k → k ≤ d.count →
        (s.store.pointRec p k).load ≤ s.lc.budget ∧ (s.store.pointRec p k).hold ≤ s.lc.holdCeiling

/-- The store is fixed from the end of LOADING until reset (R1, R18), and a mark, the first-fault record and the sticky
status bits last until reset (R15, R16, R173). -/
def Obligations.RecordsLastUntilReset : Prop :=
  ∀ (i : Instr) (s t : State), i ≠ .reset → exec i s = .next t →
    (s.store.phase = .ended → t.store = s.store)
      ∧ (∀ p, s.store.marked p = true → t.store.marked p = true)
      ∧ (s.store.firstFault.kind ≠ .noFault → t.store.firstFault = s.store.firstFault)
      ∧ (s.sticky.outboxOverflow = true → t.sticky.outboxOverflow = true)
      ∧ (s.sticky.encoderError = true → t.sticky.encoderError = true)
      ∧ (s.sticky.strayBody = true → t.sticky.strayBody = true)
      ∧ (s.sticky.tagMissing = true → t.sticky.tagMissing = true)
      ∧ (s.sticky.tagRecordError = true → t.sticky.tagRecordError = true)
      ∧ (s.sticky.registerEviction = true → t.sticky.registerEviction = true)
      ∧ (s.sticky.reverseTravel = true → t.sticky.reverseTravel = true)

/-- Resolution takes the first row of R19's table that applies. -/
def Obligations.ResolutionByFirstRow : Prop :=
  ∀ (k : StationConsts) (st : Store) (c : Chan) (style : Byte),
    (k.enabled c = false → resolve k st c style = .absent)
      ∧ (k.enabled c = true → (∀ e ∈ st.styles, e.style ≠ style.toNat) → resolve k st c style = .absent)
      ∧ ∀ before e after, k.enabled c = true → st.styles = before ++ e :: after → e.style = style.toNat →
          (∀ x ∈ before, x.style ≠ style.toNat) →
          (e.prog c = none → resolve k st c style = .absent)
            ∧ (∀ p d, e.prog c = some p → st.dirEntry p = some d → st.marked p = true →
                resolve k st c style = .failed p d.count)
            ∧ (∀ p, e.prog c = some p → st.dirEntry p = none → st.marked p = true →
                resolve k st c style = .failed p 0)
            ∧ ∀ p d, e.prog c = some p → st.dirEntry p = some d → st.marked p = false →
                resolve k st c style = .good p d.count

/-! ## The conveyor (02) -/

/-- COUNT_CHANGE: C changes by one as Table 14 gives, T follows R25, the station is MOVING with its halt timer restarted
(R26, R27), and the watches and windows follow T (R23). A station OFF LINE keeps its bits (log 13). -/
def Obligations.CountChangeMovesPositions : Prop :=
  ∀ (l : EncLine) (s : State) (q : Bool × Bool), s.counter.quad = some q →
    let q' := match l with
      | .encA => (!q.1, q.2)
      | .encB => (q.1, !q.2)
    let forward := [((false, false), (true, false)), ((true, false), (true, true)), ((true, true), (false, true)),
      ((false, true), (false, false))]
    let h := s.sc.hysteresis
    let T := s.counter.tracked
    ∃ t, exec (.countChange l) s = .next t
      ∧ t = { s with counter := t.counter, sticky := { s.sticky with reverseTravel := t.sticky.reverseTravel } }
      ∧ t.counter.quad = some q' ∧ t.counter.raw = s.counter.raw + (if (q, q') ∈ forward then 1 else -1)
      ∧ (if 0 < posDiff t.counter.raw T then t.counter.tracked = t.counter.raw
          else if posDiff t.counter.raw T < -(h : Int) then t.counter.tracked = t.counter.raw + BitVec.ofNat 32 h
          else t.counter.tracked = T)
      ∧ (s.line.state ≠ .offLine →
          t.sticky.reverseTravel = (s.sticky.reverseTravel || decide (posDiff t.counter.raw T < -(h : Int))))
      ∧ t.counter.motion = .moving ∧ t.counter.haltTimer = .running (s.sc.haltTime * 10000) ∧ followsTracked s t

/-- HALT_TIMER_EXPIRY: HALTED, the timer stopped, and T re-anchored to C without the reverse travel bit (R26 to R28).
ILLEGAL_TRANSITION: encoder error and a new reference, no count (R24). -/
def Obligations.HaltAndIllegalTransition : Prop :=
  (∀ (s : State) (n : Nat), s.counter.haltTimer = .running n →
    ∃ t, exec .haltTimerExpiry s = .next t ∧ t = { s with counter := t.counter } ∧ t.counter.motion = .halted
      ∧ t.counter.haltTimer = .stopped ∧ t.counter.raw = s.counter.raw ∧ t.counter.tracked = s.counter.raw
      ∧ t.counter.quad = s.counter.quad ∧ followsTracked s t)
    ∧ ∀ (s : State) (q : Bool × Bool), s.counter.quad = some q → s.line.state ≠ .offLine →
      exec .illegalTransition s =
        .next { s with counter := { s.counter with quad := some (!q.1, !q.2) },
                       sticky := { s.sticky with encoderError := true } }

/-- The relative position P (R29), window states at sending (R34) and at a change of P (R35), and the discharge of a watch
(R30; log 11). -/
def Obligations.WindowsAndWatches : Prop :=
  (∀ s : State,
    (s.tracker.zone = .empty → s.relPos = none)
      ∧ ∀ d, (s.tracker.zone = .pairing d ∨ s.tracker.zone = .stray d ∨ ∃ b, s.tracker.zone = .bound d b) →
        let x := (s.counter.tracked - d).toInt
        (x < 0 → s.relPos = some 0) ∧ (0 ≤ x → x ≤ 65535 → s.relPos = some x.toNat)
          ∧ (65535 < x → s.relPos = some 65535))
    ∧ (∀ (r : PointRec) (p : Nat),
      (p < r.windowOpen → r.windowAt p = .notYet)
        ∧ (r.windowOpen ≤ p → p ≤ r.windowClose → r.windowAt p = .opened)
        ∧ (r.windowOpen ≤ p → r.windowClose < p → r.windowAt p = .closed))
    ∧ (∀ (c : Chan) (k p : Nat) (s : State), s.relPos = some p →
    let r := s.pointRec c k
    let w := (sendWindow c k s).counter.window c
    (p < r.windowOpen → w = some { state := .notYet, openDue := false, closeDue := false })
      ∧ (r.windowOpen ≤ p → p ≤ r.windowClose → w = some { state := .opened, openDue := true, closeDue := false })
      ∧ (r.windowOpen ≤ p → r.windowClose < p → w.map Window.state = some .closed))
    ∧ (∀ (w : Window) (r : PointRec) (p : Nat), r.windowOpen < r.windowClose →
        (w.state = .notYet → p < r.windowOpen → w.after r p = w)
          ∧ (w.state = .notYet → r.windowOpen ≤ p → p ≤ r.windowClose →
              w.after r p = { w with state := .opened, openDue := true })
          ∧ (w.state ≠ .closed → r.windowClose < p → w.after r p = { w with state := .closed, closeDue := true })
          ∧ (w.state = .opened → p ≤ r.windowClose → w.after r p = w)
          ∧ (w.state = .closed → w.after r p = w))
    ∧ ∀ (r T : Word32) (d : Nat),
        Watch.after (.armed r d) T = (if (d : Int) < (T - r).toInt then .due else .armed r d)
          ∧ Watch.after .disarmed T = .disarmed ∧ Watch.after .due T = .due

/-! ## Bodies (03, 08) -/

/-- HELD_READ_EXPIRY discards the held read and nothing else (R57). PAIRING_WAIT_EXPIRY in PAIRING sets tag missing and
binds by order (R58). That engine A takes the body before B, and what a pulse does at FINISHED, is the model's reading
(log 26, log 9). -/
def Obligations.TagWaitsEnd : Prop :=
  (∀ s : State, s.counter.heldWatch = .due →
    exec .heldReadExpiry s =
      .next { s with counter := { s.counter with heldWatch := .disarmed }, tracker := { s.tracker with held := none } })
    ∧ ∀ (s : State) (d : Word32), s.counter.pairWatch = .due → s.tracker.zone = .pairing d →
      ∃ t, exec .pairingWaitExpiry s = .next t ∧ t.sticky.tagMissing = true ∧ t.counter.pairWatch = .disarmed
        ∧ t.counter.zoneWatch = s.counter.zoneWatch ∧ t.counter.heldWatch = s.counter.heldWatch
        ∧ t.tracker = { s.tracker with zone := t.tracker.zone, register := t.tracker.register }
        ∧ boundByOrder d s t ∧ bindingFrame s t

/-- ARRIVAL into an empty zone: the datum is T, the zone length watch is armed, and the body is bound or paired (R49 to
R52). Into any other zone: the forced zone end first, with the effect of a zone length event, and then the same arrival
(R50, R62). That engine A takes the body before B, and what a pulse does at FINISHED, is the model's reading (log 26,
log 9). -/
def Obligations.ArrivalTakesBody : Prop :=
  (∀ s : State, s.isRunning = true → s.tracker.bodyIn = { raw := true, filtered := false, wait := .running 2000 } →
    s.tracker.zone = .empty → s.line.outbox.length ≤ 16 →
    let T := s.counter.tracked
    ∃ t, exec .arrival s = .next t ∧ bindingFrame s t
      ∧ t.tracker = { s.tracker with bodyIn := { raw := true, filtered := true, wait := .stopped }, zone := t.tracker.zone,
                                     held := t.tracker.held, register := t.tracker.register }
      ∧ t.counter.zoneWatch = .armed T (s.sc.zoneLength - 1) ∧ t.sticky.tagMissing = s.sticky.tagMissing
      ∧ (s.sc.reader = false → boundByOrder T s t ∧ t.tracker.held = s.tracker.held
          ∧ t.counter.heldWatch = s.counter.heldWatch ∧ t.counter.pairWatch = s.counter.pairWatch)
      ∧ (s.sc.reader = true → s.tracker.held = none →
          t = { s with tracker := { s.tracker with bodyIn := t.tracker.bodyIn, zone := .pairing T },
                       counter := { s.counter with zoneWatch := t.counter.zoneWatch,
                                                   pairWatch := .armed T s.sc.tagWait } })
      ∧ ∀ r, s.sc.reader = true → s.tracker.held = some r →
          boundByTag T r.serial r.style r.options s t ∧ t.tracker.held = none ∧ t.counter.heldWatch = .disarmed
            ∧ t.counter.pairWatch = .disarmed)
    ∧ ∀ s : State, s.isRunning = true → s.tracker.bodyIn.rises = true → s.tracker.zone ≠ .empty →
      ∃ u, exec .zoneLengthEvent { s with counter := { s.counter with zoneWatch := .due } } = .next u
        ∧ u.tracker.zone = .empty ∧ exec .arrival s = exec .arrival u

/-- ZONE_LENGTH_EVENT and ZONE_EXIT: zone end by the state of the zone record (R33, R59 to R61, R91). That a PSTB pulse
still running and a pending strobe end with the close-out is the model's reading (log 9). -/
def Obligations.ZoneEnds : Prop :=
  ∀ (i : Instr) (s : State),
    (i = .zoneLengthEvent ∧ s.counter.zoneWatch = .due)
      ∨ (i = .zoneExit ∧ s.isRunning = true ∧ s.tracker.zoneOut = { raw := true, filtered := false, wait := .running 2000 }) →
    let sensor : Sensor :=
      if i = .zoneExit then { raw := true, filtered := true, wait := .stopped } else s.tracker.zoneOut
    let watches : Counter :=
      { s.counter with pairWatch := .disarmed, zoneWatch := .disarmed, windowA := none, windowB := none }
    (s.tracker.zone = .empty →
        exec i s = .next { s with tracker := { s.tracker with zoneOut := sensor },
                                  counter := { s.counter with
                                    zoneWatch := if i = .zoneExit then s.counter.zoneWatch else .disarmed } })
      ∧ (∀ d, s.tracker.zone = .stray d →
          exec i s = .next { s with tracker := { s.tracker with zoneOut := sensor, zone := .empty }, counter := watches })
      ∧ (∀ d, s.tracker.zone = .pairing d →
          exec i s = .next { s with tracker := { s.tracker with zoneOut := sensor, zone := .empty }, counter := watches,
                                    sticky := { s.sticky with tagMissing := true } })
      ∧ ∀ d b, s.tracker.zone = .bound d b → s.PlacesFollow → s.line.outbox.length ≤ 16 →
          let u := (s.closedOut .a).closedOut .b
          ∃ t, exec i s = .next t ∧ marked b.serial .passed s t ∧ pushed (zoneEndItems s) s t
            ∧ t = { s with counter := watches,
                           tracker := { s.tracker with zoneOut := sensor, zone := .empty, register := t.tracker.register },
                           engA := u.engA, engB := u.engB, line := { s.line with outbox := t.line.outbox },
                           aux := u.aux,
                           sticky := { s.sticky with outboxOverflow := t.sticky.outboxOverflow } }

/-- The RESULT of a channel whose places are all written: every count, and as the defect list the first 16 points, in
point order, that are MISSED or defective, with their kinds of Table 52 (R168, R169); and every
RESULT that a step adds to the outbox accounts for every point that resolution gave the channel (R167, R168). -/
def Obligations.ResultsAccountForEveryPoint : Prop :=
  (∀ (c : Chan) (b : Body), (∀ x ∈ (b.part c).places, x ≠ none) → (b.part c).places.length ≤ 255 →
    let places := (b.part c).places
    let number := fun os : List PointOutcome => (places.filter fun x => ∃ o ∈ os, x = some o).length
    let r := formResult c b
    r.serial = b.serial ∧ r.channel = c ∧ r.rpt = false ∧ r.unlisted = !b.listed
      ∧ r.welded.toNat = number [.welded] ∧ r.skipped.toNat = number [.skipped] ∧ r.missed.toNat = number [.missed]
      ∧ r.defective.toNat = number [.faulted, .overrun, .cut, .stalled] ∧ r.withheld.toNat = number [.withheld]
      ∧ r.welded.toNat + r.skipped.toNat + r.missed.toNat + r.defective.toNat + r.withheld.toNat = places.length
      ∧ r.defects.length = min 16 (r.missed.toNat + r.defective.toNat)
      ∧ (r.more = true ↔ 16 < r.missed.toNat + r.defective.toNat)
      ∧ (∀ d ∈ r.defects, ∃ o, places[d.point.toNat - 1]? = some (some o) ∧ 1 ≤ d.point.toNat
          ∧ (o, d.kind.toNat) ∈ [(PointOutcome.missed, 3), (.faulted, 4), (.overrun, 5), (.cut, 6), (.stalled, 7)])
      ∧ (r.defects.Pairwise fun d e => d.point.toNat < e.point.toNat)
      ∧ ∀ d ∈ r.defects, ∀ k o, 1 ≤ k → k < d.point.toNat → places[k - 1]? = some (some o) →
          o ∈ [PointOutcome.missed, .faulted, .overrun, .cut, .stalled] → ∃ e ∈ r.defects, e.point.toNat = k)
    ∧ ∀ (i : Instr) (s t : State) (r : Result), s.WindowsFollow → s.PlacesFollow → exec i s = .next t →
      .result r ∈ t.line.outbox → .result r ∉ s.line.outbox → r.rpt = false →
      ∃ d b, s.tracker.zone = .bound d b ∧ r.serial = b.serial
        ∧ r.welded.toNat + r.skipped.toNat + r.missed.toNat + r.defective.toNat + r.withheld.toNat =
            (b.part r.channel).answer.count

/-- TAG_BYTE and TAG_BYTE_TIMEOUT: the receiver's table (R54), a complete record's check, and what the tracker does with
a good one (R55, R56). That engine A takes a bound body before B, and what a pulse does at FINISHED, is the model's
reading (log 26, log 9). -/
def Obligations.TagPort : Prop :=
  ∀ s : State, s.isRunning = true → s.sc.reader = true →
    let idle : State := { s with tracker := { s.tracker with tagBytes := [], tagTimer := .stopped } }
    let error : State := { idle with sticky := { s.sticky with tagRecordError := true } }
    let taken := fun bs : List Byte =>
      { s with tracker := { s.tracker with tagBytes := bs, tagTimer := .running 2000 } }
    (∀ x, exec (.tagByte x false) s = .next error)
      ∧ (s.tracker.tagBytes ≠ [] → exec .tagByteTimeout s = .next error)
      ∧ (s.tracker.tagBytes = [] → exec (.tagByte 0x5B true) s = .next (taken [0x5B])
          ∧ ∀ x, x ≠ 0x5B → exec (.tagByte x true) s = .next error)
      ∧ (∀ x, 1 ≤ s.tracker.tagBytes.length → s.tracker.tagBytes.length ≤ 6 →
          exec (.tagByte x true) s = .next (taken (s.tracker.tagBytes ++ [x])))
      ∧ ∀ b0 b1 b2 b3 b4 b5 b6 x, s.tracker.tagBytes = [b0, b1, b2, b3, b4, b5, b6] →
          let good := x = b1 ^^^ b2 ^^^ b3 ^^^ b4 ^^^ b5 ^^^ b6 ∧ be24 b1 b2 b3 ≠ 0
          (¬good → exec (.tagByte x true) s = .next error)
            ∧ (good → ∀ d, s.tracker.zone = .pairing d → s.line.outbox.length ≤ 16 →
                ∃ t, exec (.tagByte x true) s = .next t ∧ boundByTag d (be24 b1 b2 b3) b4 (be16 b5 b6) s t
                  ∧ t.counter.pairWatch = .disarmed ∧ t.counter.zoneWatch = s.counter.zoneWatch
                  ∧ t.counter.heldWatch = s.counter.heldWatch ∧ t.sticky.tagMissing = s.sticky.tagMissing
                  ∧ t.tracker = { idle.tracker with zone := t.tracker.zone, register := t.tracker.register }
                  ∧ bindingFrame s t)
            ∧ (good → (∃ d b, s.tracker.zone = .bound d b ∧ b.serial = be24 b1 b2 b3) →
                exec (.tagByte x true) s = .next idle)
            ∧ (good → (∀ d, s.tracker.zone ≠ .pairing d) →
                (∀ d b, s.tracker.zone = .bound d b → b.serial ≠ be24 b1 b2 b3) →
                exec (.tagByte x true) s =
                  .next { idle with
                    tracker := { idle.tracker with
                      held := some { serial := be24 b1 b2 b3, style := b4, options := be16 b5 b6,
                                     position := s.counter.tracked } },
                    counter := { s.counter with heldWatch := .armed s.counter.tracked s.sc.tagWait } })

/-- SENSOR_RAW_LEVEL_CHANGE and SENSOR_FALLING_EDGE: the 2 ms filter of BODY_IN and ZONE_OUT (R49). A raw change starts
the wait or abandons it; a falling edge has no other effect. -/
def Obligations.SensorsFiltered : Prop :=
  ∀ (l : SensorLine) (s : State), s.isRunning = true →
    let x := s.tracker.sensor l
    let set := fun y : Sensor =>
      match l with
      | .bodyIn => { s with tracker := { s.tracker with bodyIn := y } }
      | .zoneOut => { s with tracker := { s.tracker with zoneOut := y } }
    (∀ level, x.raw ≠ level →
        exec (.sensorRawLevelChange l level) s =
          .next (set { x with raw := level, wait := if level = x.filtered then .stopped else .running 2000 }))
      ∧ (x = { raw := false, filtered := true, wait := .running 2000 } →
          exec (.sensorFallingEdge l) s = .next (set { raw := false, filtered := false, wait := .stopped }))

/-- The items of a frame, applied to the register one at a time in frame order (R39 to R45): ANNOUNCE with its eviction and the mark of the new entry,
DISPUTE, RESYNC, DEPART; a RESULT and an item with serial 0 are passed over. -/
def Obligations.RegisterItemsApplied : Prop :=
  ∀ (sender : Nat) (exit : Bool) (s : State),
    let reg := s.tracker.register
    let result := fun i : Item => applyItem sender exit s i
    let register := fun r : List Entry => { s with tracker := { s.tracker with register := r } }
    applyItems sender exit [] s = s
      ∧ (∀ i rest, applyItems sender exit (i :: rest) s = applyItems sender exit rest (result i))
      ∧ (∀ r, result (.result r) = s)
      ∧ (∀ y o, result (.announce 0 y o) = s ∧ result (.dispute 0 y o) = s ∧ result (.resync 0) = s
          ∧ result (.depart 0) = s)
      ∧ (∀ n y o, (∃ e ∈ reg, e.serial = n) → result (.announce n y o) = s)
      ∧ (∀ n y o, n ≠ 0 → (∀ e ∈ reg, e.serial ≠ n) → reg.length ≤ 24 →
          let unlisted := ∃ d b, s.tracker.zone = .bound d b ∧ b.listed = false ∧ b.serial = n
          ∃ t, result (.announce n y o) = t
            ∧ t = { s with tracker := { s.tracker with register := t.tracker.register, zone := t.tracker.zone },
                           sticky := { s.sticky with
                             registerEviction := s.sticky.registerEviction || decide (reg.length = 24) } }
            ∧ (∃ m, t.tracker.register = (if reg.length = 24 then reg.drop 1 else reg)
                  ++ [{ serial := n, style := y, options := o, announcer := sender, disputed := false, mark := m }]
                ∧ (unlisted → m = .here) ∧ (¬unlisted → sender = s.own → m = .passed)
                ∧ (¬unlisted → sender < s.own → m = .ahead) ∧ (¬unlisted → s.own < sender → m = .notMine))
            ∧ (¬unlisted → t.tracker.zone = s.tracker.zone)
            ∧ ∀ d b, s.tracker.zone = .bound d b → b.serial = n → t.tracker.zone = .bound d { b with listed := true })
      ∧ (∀ n y o, n ≠ 0 →
          result (.dispute n y o) = register (reg.map fun e => if e.serial = n then { e with disputed := true } else e))
      ∧ (∀ n, (∀ e ∈ reg, e.serial ≠ n) → result (.resync n) = s ∧ result (.depart n) = s)
      ∧ (∀ n older e newer, n ≠ 0 → reg = older ++ e :: newer → e.serial = n → (∀ x ∈ older, x.serial ≠ n) →
          result (.resync n) = register ((older.filter fun x => sender < x.announcer) ++ e :: newer)
            ∧ applyItem sender exit (result (.resync n)) (.resync n) = result (.resync n))
      ∧ ∀ n, n ≠ 0 →
          result (.depart n) = if exit then register (reg.filter fun e => e.serial ≠ n) else s

/-! ## Points (04) -/

/-- PSTB_PULSE_END: the pulse ends; a pending strobe is given in its place, with the reach timer and the EVENT latch
(R69). -/
def Obligations.PulseEndGivesPendingStrobe : Prop :=
  ∀ (c : Chan) (s : State) (n : Nat), (s.eng c).pstb = .running n →
    ((s.eng c).pendingStrobe = none →
        exec (.pstbPulseEnd c) s = .next (s.setEng c { s.eng c with pstb := .stopped }))
      ∧ ∀ k, (s.eng c).pendingStrobe = some k →
          exec (.pstbPulseEnd c) s =
            .next { (s.setEng c ((s.eng c).strobed k s.sc.reachLimit)) with
                    aux := { s.aux with inputs := (s.pointRec c k).clearLatch c s.aux.inputs } }

/-- AT_PT_RISE and WINDOW_OPEN: the robot's arrival leads to GATED (R72), and in GATED the engine asks when its window is
OPEN and its gate satisfied (R75 to R77). An AT_PT edge in another state, or while the strobe is pending, changes
nothing. -/
def Obligations.GatedEngineAsksWhenReady : Prop :=
  ∀ (c : Chan) (s : State),
    let e := s.eng c
    let gated : Engine := { e with state := .gated, reach := .stopped }
    (e.state = .positioning → e.pendingStrobe = none →
        (s.mayAsk c → exec (.atPtRise c) s = .next (s.setEng c (gated.asking (s.current c) s.line.count)))
          ∧ (¬s.mayAsk c → exec (.atPtRise c) s = .next (s.setEng c gated)))
      ∧ (e.state ≠ .positioning ∨ e.pendingStrobe ≠ none → exec (.atPtRise c) s = .next s)
      ∧ ∀ w d, s.counter.window c = some { state := w, openDue := true, closeDue := d } →
          let taken := s.setWindow c (some { state := w, openDue := false, closeDue := d })
          (e.state = .gated → s.mayAsk c →
              exec (.windowOpen c) s = .next (taken.setEng c (e.asking (s.current c) s.line.count)))
            ∧ (¬(e.state = .gated ∧ s.mayAsk c) → exec (.windowOpen c) s = .next taken)

/-- REACH_EXPIRY: the current point is STALLED and the engine HELD, every later point WITHHELD (R74, R86, R87; log 9).
WINDOW_CLOSE: the point is MISSED in POSITIONING, GATED and REQUESTING, its request withdrawn, and the engine advances
(R70, R73, R75, R78, R86); in any other state the event is taken without a change. -/
def Obligations.PointsEndWithoutAWeld : Prop :=
  (∀ (c : Chan) (s : State) (m : Nat), s.Pointed → (s.eng c).state = .positioning → (s.eng c).reach = .running m →
      exec (.reachExpiry c) s = .next (s.heldAfter c .stalled))
    ∧ ∀ (c : Chan) (s : State) (w : WindowState) (d : Bool), s.Pointed →
      s.counter.window c = some { state := w, openDue := d, closeDue := true } →
      let e := s.eng c
      let taken := s.setWindow c (some { state := w, openDue := d, closeDue := false })
      (e.state = .positioning ∨ e.state = .gated →
          exec (.windowClose c) s =
            .next ((taken.setEng c { e with reach := .stopped }).advancedAfter c e.at (some .missed)))
        ∧ (e.state = .requesting →
            exec (.windowClose c) s =
              .next ((taken.setEng c { e with request := none }).advancedAfter c e.at (some .missed)))
        ∧ (e.state = .firing ∨ e.state.hasPoint = false → exec (.windowClose c) s = .next taken)

/-- WDONE_RISE and WFAULT_RISE in FIRING: FIRE falls, the outcome is WELDED or FAULTED, the consecutive-fault count
follows, and the engine advances, or is HELD at a count of 2 (R81, R82, R86, R87; log 9). -/
def Obligations.WeldTimerAnswers : Prop :=
  ∀ (c : Chan) (s : State), s.Pointed → (s.eng c).state = .firing →
    let e := s.eng c
    let down := fun n => s.setEng c { e with fire := false, sch := 0, faults := n }
    let n := e.faults + 1
    exec (.wdoneRise c false) s = .next ((down 0).advancedAfter c e.at (some .welded))
      ∧ ∀ i, i = .wdoneRise c true ∨ i = .wfaultRise c →
          exec i s =
            .next (if 2 ≤ n then (down n).heldAfter c .faulted else (down n).advancedAfter c e.at (some .faulted))

/-- A WDONE or WFAULT edge while FIRE is low is stray: nothing changes (R85). -/
def Obligations.StrayAnswersChangeNothing : Prop :=
  ∀ (c : Chan) (b : Bool) (s : State), s.LinesFollow →
    ((s.eng c).state ≠ .firing → (s.eng c).fire = false)
      ∧ ((s.eng c).fire = false → exec (.wdoneRise c b) s = .next s ∧ exec (.wfaultRise c) s = .next s)

/-- In FIRING the window close, a gate becoming inactive and AT_PT change nothing of the engine, and the counter still
moves the window to CLOSED (R83). -/
def Obligations.FiringIgnoresWindowAndGate : Prop :=
  ∀ (c : Chan) (s : State), (s.eng c).state = .firing →
    (∀ w d, s.counter.window c = some { state := w, openDue := d, closeDue := true } →
        exec (.windowClose c) s = .next (s.setWindow c (some { state := w, openDue := d, closeDue := false })))
      ∧ (∀ l pin t, exec (.auxRawChange l pin) s = .next t → t.eng c = s.eng c)
      ∧ (∀ l t, exec (.auxFilterExpiry l) s = .next t → t.eng c = s.eng c)
      ∧ exec (.atPtRise c) s = .next s
      ∧ ∀ l t w p, exec (.countChange l) s = .next t → s.counter.window c = some w → t.relPos = some p →
          t.counter.tracked ≠ s.counter.tracked → (s.current c).windowOpen < (s.current c).windowClose →
          (s.current c).windowClose < p →
          t.eng c = s.eng c ∧ (t.counter.window c).map Window.state = some .closed

/-- The engine enters FINISHED when it advances from the last point: the cursor keeps the value n, no strobe is given,
and the channel lines are those of FINISHED (R90, Table 20). That PSTB is low and no strobe pending there is the model's
reading (log 9). -/
def Obligations.FinishedAfterTheLastPoint : Prop :=
  (∀ (c : Chan) (s : State), s.Pointed → (s.eng c).state = .firing → (s.eng c).at = (s.eng c).points →
      ∃ t, exec (.wdoneRise c false) s = .next t ∧ (t.eng c).state = .finished
        ∧ (t.eng c).cursor = some (s.eng c).points ∧ (t.eng c).Home ∧ t.counter.window c = none)
    ∧ (∀ (c : Chan) (s : State) (w : WindowState) (d : Bool), s.Pointed →
        s.counter.window c = some { state := w, openDue := d, closeDue := true } →
        (s.eng c).state = .positioning ∨ (s.eng c).state = .gated ∨ (s.eng c).state = .requesting →
        (s.eng c).at = (s.eng c).points →
        ∃ t, exec (.windowClose c) s = .next t ∧ (t.eng c).state = .finished
          ∧ (t.eng c).cursor = some (s.eng c).points ∧ (t.eng c).Home ∧ t.counter.window c = none)
    ∧ ∀ (i : Instr) (c : Chan) (s t : State), s.Pointed → exec i s = .next t → (s.eng c).state ≠ .finished →
        (t.eng c).state = .finished → 1 ≤ (t.eng c).points →
        (t.eng c).cursor = some (t.eng c).points ∧ (t.eng c).Home ∧ t.counter.window c = none

/-- An event on one channel's lines changes nothing in the other channel: its engine, its window, its outcome places and
its event latches (R92). -/
def Obligations.ChannelsApart : Prop :=
  ∀ (i : Instr) (c d : Chan) (s t : State), c ≠ d →
    i ∈ [Instr.pstbPulseEnd c, .atPtRise c, .reachExpiry c, .windowOpen c, .windowClose c, .wdoneRise c true,
      .wdoneRise c false, .wfaultRise c] →
    exec i s = .next t →
    t.eng d = s.eng d ∧ t.counter.window d = s.counter.window d
      ∧ (∀ x b, s.tracker.zone = .bound x b → ∃ p, t.tracker.zone = .bound x (b.setPart c p))
      ∧ ((∀ x b, s.tracker.zone ≠ .bound x b) → t.tracker.zone = s.tracker.zone)
      ∧ (∀ l : Fin 8, ∃ v, t.aux.inputs[l] = s.aux.inputs[l].setLatch c v)
      ∧ t = { (s.setEng c (t.eng c)).setWindow c (t.counter.window c) with
              tracker := { s.tracker with zone := t.tracker.zone }, aux := t.aux }

/-! ## Auxiliary lines (07) -/

/-- AUX_RAW_CHANGE and AUX_FILTER_EXPIRY: the filter of a used input, and a filtered change with its latches and the
reports to both engines (R76, R78, R156 to R158). -/
def Obligations.AuxInputsConditioned : Prop :=
  ∀ (line : Fin 8) (s : State),
    let k := s.sc.auxIn[line]
    let x := s.aux.inputs[line]
    let set := fun y : AuxIn => { s with aux := { s.aux with inputs := s.aux.inputs.set line y } }
    (∀ pin, s.isRunning = true → k.used = true →
        let level := pin != k.activeLow
        x.raw ≠ some level →
        (level = x.filtered →
            exec (.auxRawChange line pin) s = .next (set { x with raw := some level, timer := .stopped }))
          ∧ (level ≠ x.filtered → k.filter ≠ 0 →
              exec (.auxRawChange line pin) s =
                .next (set { x with raw := some level, timer := .running (k.filter * 1000) }))
          ∧ (level ≠ x.filtered → k.filter = 0 →
              exec (.auxRawChange line pin) s = .next (s.filteredTo line level)))
      ∧ (∀ pin, s.isRunning = false ∨ k.used = false → exec (.auxRawChange line pin) s = .next s)
      ∧ ∀ n level, x.timer = .running n → x.raw = some level →
          exec (.auxFilterExpiry line) s = .next (s.filteredTo line level)

/-! ## The feeder view (05) -/

/-- Table 26 and the committed load: a slot counts while it is ACTIVE and live, an orphan always (R97, R98). -/
def Obligations.CommittedLoadCounts : Prop :=
  (∀ (n r : Word16) (h : Nat), h ≤ 1023 →
      (liveAt n r h = false ↔ h ≤ (n - r).toNat ∧ (n - r).toNat ≤ 32767))
    ∧ ∀ (v : View) (n : Word16),
      v.committed n =
        ((List.range 30).map fun i =>
          let load := fun x : Slot =>
            match x with
            | .active l r h => if liveAt n r h then l else 0
            | .empty | .waiting _ _ => 0
          load (v.row (i + 1)).slotA + load (v.row (i + 1)).slotB).sum + (v.orphans.map Orphan.load).sum

/-- Precedence is a strict order over the WAITING slots of a view: of any two different slots one precedes the other, by
request age, then address in the walk of the order, then channel (R115). -/
def Obligations.PrecedenceIsStrictOrder : Prop :=
  ∀ (order : Order) (pointer : Nat) (n : Word16), pointer ≤ 30 →
    let valid := fun x : Claim => 1 ≤ x.address ∧ x.address ≤ 30
    let before := fun x y : Claim => precedes order pointer n x y = true
    let age := fun x : Claim => (n - x.round).toNat
    (∀ x y, age y < age x → before x y ∧ ¬before y x)
      ∧ (∀ x y, age x = age y → x.address < y.address →
          (order = .fixed ∨ pointer = 0 ∨ pointer < x.address ∨ y.address ≤ pointer → valid x → valid y → before x y)
            ∧ (order = .rotating → x.address ≤ pointer → pointer < y.address → valid x → valid y → before y x))
      ∧ (∀ x y, age x = age y → x.address = y.address → (before x y ↔ x.channel = .a ∧ y.channel = .b))
      ∧ (∀ x, ¬before x x)
      ∧ (∀ x y z, valid x → valid y → valid z → before x y → before y z → before x z)
      ∧ ∀ x y, valid x → valid y → x.address ≠ y.address ∨ x.channel ≠ y.channel →
          (before x y ∨ before y x) ∧ ¬(before x y ∧ before y x)

/-- The admission policies: STRICT refuses behind any WAITING slot that precedes, FILL only behind one that has waited
the fill guard (R119, R120). -/
def Obligations.PoliciesRefuse : Prop :=
  ∀ (k : LineConsts) (v : View) (n : Word16) (x : Claim),
    policyRefuses k v n x = true ↔
      ∃ a c l r, 1 ≤ a ∧ a ≤ 30 ∧ (v.row a).slot c = .waiting l r
        ∧ precedes k.order v.pointer n { address := a, channel := c, round := r } x = true
        ∧ (k.policy = .strict ∨ k.fillGuard ≤ (n - r).toNat)

/-- A claim list replaces the sender's slots, a malformed slot leaving its own and setting the miss cause; a new
admission moves the pointer (R101 to R103, R110). That the view before is the one the header has left is the model's
reading (log 27). -/
def Obligations.ClaimListApplied : Prop :=
  ∀ (n : Word16) (ceiling u : Nat) (a b : RawSlot) (v : View), 1 ≤ u → u ≤ 30 →
    let raw := fun c : Chan => match c with
      | .a => a
      | .b => b
    let w := v.applyClaims n ceiling u a b
    let malformed := fun x : RawSlot =>
      (x.kind = 0 ∧ ¬(x.hold = 0 ∧ x.load = 0 ∧ x.round = 0))
        ∨ (x.kind = 1 ∧ (x.load.toNat = 0 ∨ 250 < x.load.toNat))
        ∨ (x.kind = 2 ∧ (x.load.toNat = 0 ∨ 250 < x.load.toNat ∨ x.hold.toNat = 0 ∨ ceiling < x.hold.toNat))
        ∨ x.kind = 3
    let admits := fun c : Chan =>
      ∃ l r h, (w.row u).slot c = .active l r h ∧ ∀ l' h', (v.row u).slot c ≠ .active l' r h'
    (∀ c,
        (malformed (raw c) → (w.row u).slot c = (v.row u).slot c ∧ (w.row u).retained c = (v.row u).retained c)
          ∧ (¬malformed (raw c) →
              (w.row u).retained c = false
                ∧ ((raw c).kind = 0 → (w.row u).slot c = .empty)
                ∧ ((raw c).kind = 1 → (w.row u).slot c = .waiting (raw c).load.toNat (raw c).round)
                ∧ ((raw c).kind = 2 →
                    (w.row u).slot c =
                      if liveAt n (raw c).round (raw c).hold.toNat then
                        .active (raw c).load.toNat (raw c).round (raw c).hold.toNat
                      else .empty)))
      ∧ (w.row u).digestMark = (v.row u).digestMark
      ∧ (∀ x, x ≠ u → w.row x = v.row x)
      ∧ ((malformed a ∨ malformed b) → w.miss = true ∧ w.missThisRound = true)
      ∧ (¬(malformed a ∨ malformed b) → w.miss = v.miss ∧ w.missThisRound = v.missThisRound)
      ∧ ((admits .a ∨ admits .b) → w.pointer = u)
      ∧ (¬(admits .a ∨ admits .b) → w.pointer = v.pointer)
      ∧ w = { v with rows := w.rows, miss := w.miss, missThisRound := w.missThisRound, pointer := w.pointer }

/-- CLAIM_EXPIRY: what the round count has reached expires (R84, R104, R105): ACTIVE slots past their hold, orphans at
their expire round, and a weld on an own slot that expires, A before B when both do (log 26), with the lines of HELD
(log 9). The count comes with a boundary or an adoption, which take the same expiry themselves (log 12). -/
def Obligations.ClaimExpiryExpires : Prop :=
  (∀ (s : State) (m : Word16), s.Pointed → s.isRunning = true → s.line.count = some m →
      exec .claimExpiry s = .next (s.expiredAt m))
    ∧ ∀ (s : State) (m : Word16),
      let v := (s.expiredAt m).view
      (∀ a c, 1 ≤ a → a ≤ 30 →
          (∀ l r h, (s.view.row a).slot c = .active l r h → liveAt m r h = false →
              (v.row a).slot c = .empty ∧ (v.row a).retained c = false)
            ∧ (¬(∃ l r h, (s.view.row a).slot c = .active l r h ∧ liveAt m r h = false) →
                (v.row a).slot c = (s.view.row a).slot c ∧ (v.row a).retained c = (s.view.row a).retained c))
        ∧ v.orphans = s.view.orphans.filter fun o => 32768 ≤ (m - o.expire).toNat

/-- JOIN_HOLD_END: a LISTENING station whose join hold count has reached the hold ceiling + 2 enters JOINING; short of it,
or in another line state, nothing changes (R149). The boundary that raises the count makes the same entry (log 12). -/
def Obligations.JoinHoldEnds : Prop :=
  ∀ (s : State) (n : Word16), s.line.count = some n →
    (s.line.state = .listening → s.lc.holdCeiling + 2 ≤ s.line.joinHold →
        exec .joinHoldEnd s = .next { s with line := { s.line with state := .joining } })
      ∧ (s.line.state ≠ .listening ∨ s.line.joinHold < s.lc.holdCeiling + 2 → exec .joinHoldEnd s = .next s)

/-! ## The station line (06) -/

/-- CARRIER_START on an idle line notes the level of LINE_DE and the position held, and stops the founding silence (R129,
R135, R148); TRANSMISSION_END releases the line (R131). CARRIER_END with no carrier taken ends one that was not taken:
LINE_RX is idle, and the founding silence restarts (log 24, log 25). -/
def Obligations.CarrierAndTransmitter : Prop :=
  ∀ s : State,
    (s.isRunning = true → s.line.carrier = none → s.line.untaken = .absent →
        exec .carrierStart s =
          .next { s with line := { s.line with
            carrier := some { deHigh := s.line.de, began := s.line.position }, foundingTimer := .stopped } })
      ∧ (s.isRunning = false ∨ s.line.carrier ≠ none ∨ s.line.untaken ≠ .absent → exec .carrierStart s = .next s)
      ∧ (∀ bytes e, s.line.carrier = none →
          (s.line.untaken = .absent → exec (.carrierEnd bytes e) s = .next s)
            ∧ (s.line.untaken = .present →
                exec (.carrierEnd bytes e) s =
                  .next { s with line := { s.line with
                    untaken := .absent
                    foundingTimer :=
                      if s.line.state = .listening ∧ s.line.count = none then .running (2000 + s.own * 100)
                      else s.line.foundingTimer } }))
      ∧ exec .transmissionEnd s = .next { s with line := { s.line with de := false } }

/-- CARRIER_END with a valid frame of another station, by the position in which its carrier began. In its turn or window,
or with no position held: header, claim list, items, and the rotation moves on from the sender (R132, R135, R153). Out of
turn: the miss cause, a realignment with a boundary when the sender's address is lower than that of the position held,
rounds not clean, then the same (R110, R136, R146; log 10, log 14). The claim list is judged against the view that the
header has left (log 27), and an expiry on the way is that of ClaimExpiryExpires (log 9, log 12, log 26). -/
def Obligations.HeardFramesAreApplied : Prop :=
  ∀ (bytes : List Byte) (f : Frame) (k : Carrier) (s : State), s.Pointed → Frame.parse bytes = some f →
    f.sender.toNat ≠ s.own → s.line.carrier = some k → s.line.inFlight = none →
    let ended := ({ s with line := { s.line with carrier := none } } : State)
    ((∀ q, k.began = some q → q.address = f.sender.toNat) →
        exec (.carrierEnd bytes false) s = .next ((ended.heard f).movedOn f.sender.toNat .frameEnd))
      ∧ ∀ q p n, k.began = some q → q.address ≠ f.sender.toNat → s.line.position = some p → s.line.count = some n →
          exec (.carrierEnd bytes false) s =
            .next (((ended.realigned p.address f.sender.toNat n).heard f).movedOn f.sender.toNat .frameEnd)

/-- The round of a frame in turn: the first frame gives the count to the station and its requests (R77, R149); a
disagreement sets the miss cause and is recorded, and only the second of two frames from two senders that agree on
another count is adopted (R147). That a founder compares the round of a frame begun with no position held, and that the
count's expiry is part of the step, is the model's reading (log 14, log 12). -/
def Obligations.RoundTakenFromFrames : Prop :=
  ∀ (bytes : List Byte) (f : Frame) (k : Carrier) (s : State), s.Pointed → Frame.parse bytes = some f →
    f.sender.toNat ≠ s.own → s.line.carrier = some k → s.line.inFlight = none →
    (∀ q, k.began = some q → q.address = f.sender.toNat) → f.sender.toNat < 30 →
    let m := f.round
    ∃ t, exec (.carrierEnd bytes false) s = .next t
      ∧ t.line.lastValid =
          some { sender := f.sender.toNat, round := m, since := .zero,
                 disagreed := decide (s.line.count ≠ none ∧ s.line.count ≠ some m) }
      ∧ (s.line.count = none → (∀ c, (s.eng c).state ≠ .firing) →
          t.line.count = some m ∧ t.line.joinHold = 0
            ∧ ∀ c, (t.eng c).request = (s.eng c).request.map fun q => { q with round := some (q.round.getD m) })
      ∧ (s.line.count = some m → t.line.count = some m ∧ ∀ c, t.eng c = s.eng c)
      ∧ ∀ n, s.line.count = some n → n ≠ m →
          t.view.miss = true ∧ t.view.missThisRound = true
            ∧ (let agreed := ∃ g, s.line.lastValid = some g ∧ g.disagreed = true ∧ g.sender ≠ f.sender.toNat
                  ∧ ((g.since = .zero ∧ m = g.round) ∨ (g.since = .one ∧ m = g.round + 1))
               (agreed → t.line.count = some m) ∧ (¬agreed → t.line.count = some n ∧ ∀ c, t.eng c = s.eng c))

/-- CARRIER_END with a garbled carrier, and CARRIER_TIMEOUT, apart from the echo, by the position in which the carrier
began: the miss cause, in a turn a round not clean, and the rotation moves on from that position, unless an own turn end
has moved it on already (R110, R129, R132, R135, R146; log 14). Without a position or a count the founding silence of a
LISTENING station restarts (R148). After a timeout LINE_RX stays busy with a carrier not taken (R129). A carrier not
taken, for which the own turn was forgone, counts as the own turn (R135, R140; log 25). An own frame whose turn has ended,
its carrier begun while transmitting, counts as garbled (log 14). A boundary on the way expires as ClaimExpiryExpires says
(log 9, log 12, log 26). -/
def Obligations.GarbledCarrierMissed : Prop :=
  (∀ (i : Instr) (k : Carrier) (s : State), s.Pointed → s.line.carrier = some k → s.line.inFlight = none →
    (i = .carrierTimeout
        ∨ ∃ bytes e, i = .carrierEnd bytes e
            ∧ (e = true ∨ Frame.parse bytes = none
                ∨ k.deHigh = true ∧ ∃ f, Frame.parse bytes = some f ∧ f.sender.toNat = s.own)) →
    let busy := if i = .carrierTimeout then Untaken.present else s.line.untaken
    let missed := fun (timer : Timer) (clean : Bool) (position : Option Position) =>
      ({ s with
          view := { s.view with miss := true, missThisRound := true }
          line :=
            { s.line with
              carrier := none, untaken := busy, foundingTimer := timer, position := position
              record := { s.line.record with clean := clean } } } : State)
    (k.began = none →
        exec i s =
          .next
            (missed
              (if s.line.state = .listening ∧ s.line.count = none then .running (2000 + s.own * 100)
                else s.line.foundingTimer)
              s.line.record.clean s.line.position))
      ∧ ∀ p n, k.began = some p → s.line.count = some n →
          let clean := s.line.record.clean && p.kind == .window
          (s.line.position = some p →
              exec i s = .next ((missed s.line.foundingTimer clean s.line.position).movedOn p.address .frameEnd))
            ∧ (s.line.position ≠ some p →
                exec i s =
                  .next
                    (missed s.line.foundingTimer clean
                      (s.line.position.map fun q => { q with ref := .frameEnd }))))
    ∧ ∀ (bytes : List Byte) (e : Bool) (s : State) (p : Position) (n : Word16), s.Pointed → s.line.carrier = none →
      s.line.untaken = .forgone → s.line.position = some p → s.line.count = some n →
      exec (.carrierEnd bytes e) s =
        .next
          (({ s with
              view := { s.view with miss := true, missThisRound := true }
              line :=
                { s.line with
                  untaken := .absent
                  record := { s.line.record with clean := s.line.record.clean && p.kind == .window } } } : State).movedOn
            p.address .frameEnd)

/-- CARRIER_END with a valid frame bearing the own address, begun while the station was not transmitting: an address
conflict; the frame is not applied and the station goes OFF LINE, its engines closed out and every block at rest (R64,
R93, R126, R143, R151, R152, R160, R165). That the sensor filters and the tag receiver stop too, and PSTB goes low with
no strobe pending, is the model's reading (log 16, log 9). -/
def Obligations.AddressConflictGoesOffLine : Prop :=
  ∀ (bytes : List Byte) (f : Frame) (k : Carrier) (s : State), s.Pointed → Frame.parse bytes = some f →
    f.sender.toNat = s.own → s.line.carrier = some k → k.deHigh = false → s.line.inFlight = none →
    ∃ t, exec (.carrierEnd bytes false) s = .next t ∧ t = s.goneOffLine ∧ t.AtRest ∧ t.faultActive = true
      ∧ t.line.onRoster t.own = false ∧ t.view.row = s.view.row ∧ t.line.outbox = s.line.outbox

/-- CARRIER_END with the echo, byte for byte: the good own turn end. A joining station is ON LINE with its address on its
roster before its header is applied, so that its join sets no miss cause (R143, R150, R153); the pointer and the admitted
engines (R123; log 9, log 18), the sent items gone from the outbox (R139), and the rotation moves on (R141), with the
expiry of a boundary on the way (log 12, log 26). -/
def Obligations.GoodEchoEndsTheTurn : Prop :=
  ∀ (bytes : List Byte) (f : Frame) (carried : Nat) (k : Carrier) (s : State), s.Pointed → Frame.parse bytes = some f →
    f.sender.toNat = s.own → s.line.count = some f.round → s.line.carrier = some k → k.deHigh = true →
    s.line.inFlight = some { bytes := bytes, carried := carried } →
    exec (.carrierEnd bytes false) s =
      .next ((({ s with line := { s.line with carrier := none } } : State).echoGood f carried).movedOn s.own .frameEnd)

/-- CARRIER_END with a damaged echo, CARRIER_TIMEOUT of the echo, NO_ECHO_TIMEOUT and JABBER_CUT: the failed own turn end.
Offered slots wait again, the miss cause is set, RESULT items sent become repeats, the round is not clean (R124, R131,
R139, R141, R142, R146). LINE_RX stays busy after a timeout and after a cut with a carrier (R129). A cut counts, and the
third consecutive one takes the station OFF LINE (R142, R152; log 9, log 16); an own turn that has ended before its cut
leaves the count to the cut (log 15). A cut of no transmission changes nothing (log 3). A boundary on the way expires as
ClaimExpiryExpires says (log 12, log 26). -/
def Obligations.FailedEchoEndsTheTurn : Prop :=
  ∀ s : State, s.Pointed →
    let released := fun (de : Bool) (untaken : Untaken) =>
      ({ s with line := { s.line with carrier := none, de := de, untaken := untaken } } : State)
    let cut := fun t : State => if 3 ≤ s.line.jabber + 1 then t.goneOffLine else t
    (∀ own, s.line.inFlight = some own →
        (∀ k, s.line.carrier = some k → k.deHigh = true →
            (∀ bytes e, e = true ∨ Frame.parse bytes = none ∨ bytes ≠ own.bytes →
                exec (.carrierEnd bytes e) s =
                  .next (((released s.line.de s.line.untaken).echoFailed own.carried 0).movedOn s.own .frameEnd))
              ∧ exec .carrierTimeout s =
                  .next
                    (((released s.line.de .present).echoFailed own.carried
                      (if s.line.de then s.line.jabber else 0)).movedOn s.own .frameEnd))
          ∧ (s.line.de = false → (∀ k, s.line.carrier = some k → k.deHigh = false) →
              exec .noEchoTimeout s = .next ((s.echoFailed own.carried 0).movedOn s.own .echoWaitEnd))
          ∧ (s.line.de = true →
              exec .jabberCut s =
                .next
                  (cut
                    (((released false (if s.line.carrier = none then s.line.untaken else .present)).echoFailed
                      own.carried (s.line.jabber + 1)).movedOn s.own .frameEnd))))
      ∧ (s.line.inFlight = none → s.line.de = true →
          exec .jabberCut s =
            .next (cut { s with line := { s.line with de := false, jabber := s.line.jabber + 1 } }))
      ∧ (s.line.de = false → exec .jabberCut s = .next s)

/-- The own turn starts (R117 to R122, R131, R138). OWN_TURN_START: ON LINE in the own turn with LINE_RX idle; with a
carrier on the line, taken or not, the turn is forgone and the round is not clean (R140, R146), and a carrier not taken
counts as the own turn at its end (log 25). JOIN_FRAME_START: JOINING in the own window with LINE_RX idle, with FRESH and
BLIND and nothing admitted; else it waits for the next round (R125, R150). FOUNDING, with LINE_RX idle (log 24): after the
founding silence a LISTENING station without a count is ON LINE at round 0, its address on its roster, its requests take
round 0, and its first frame is sent with no position held (R77, R143, R148). With a frame in flight neither own turn nor
join frame starts (log 3), nor on an idle LINE_RX with LINE_DE still high (log 28). -/
def Obligations.OwnTurnsBegin : Prop :=
  (∀ (s : State) (n : Word16) (ref : RefPoint), s.line.state = .onLine → s.line.count = some n →
      s.line.position = some { address := s.own, kind := .turn, ref := ref } → s.line.inFlight = none →
      (s.line.de = false → s.line.carrier = none → s.line.untaken = .absent →
          ∃ t, exec .ownTurnStart s = .next t ∧ turnBegun n s t)
        ∧ (s.line.carrier ≠ none ∨ s.line.untaken ≠ .absent →
            exec .ownTurnStart s =
              .next { s with line := { s.line with
                record := { s.line.record with clean := false }
                untaken := if s.line.untaken = .present then .forgone else s.line.untaken } }))
    ∧ (∀ (s : State) (n : Word16) (ref : RefPoint), s.StartUp → s.line.state = .joining → s.line.count = some n →
      s.line.position = some { address := s.own, kind := .window, ref := ref } → s.line.inFlight = none →
      (s.line.de = false → s.line.carrier = none → s.line.untaken = .absent →
          ∃ t, exec .joinFrameStart s = .next t ∧ turnBegun n s t ∧ t.view.offerA = none ∧ t.view.offerB = none
            ∧ t.view.fresh = true ∧ t.blind = true)
        ∧ (s.line.carrier ≠ none ∨ s.line.untaken ≠ .absent → exec .joinFrameStart s = .next s))
    ∧ (∀ s : State,
      s.line.inFlight ≠ none ∨ (s.line.de = true ∧ s.line.carrier = none ∧ s.line.untaken = .absent) →
      exec .ownTurnStart s = .next s ∧ exec .joinFrameStart s = .next s)
    ∧ ∀ (s : State) (m : Nat), s.line.state = .listening → s.line.count = none → s.line.foundingTimer = .running m →
      s.line.carrier = none → s.line.untaken = .absent →
      ∃ t, exec .founding s = .next t
        ∧ turnBegun 0
            { s with
              engA := s.engA.counted 0
              engB := s.engB.counted 0
              line :=
                { (s.line.setRoster s.own (some 0)) with
                  state := .onLine, count := some 0, foundingTimer := .stopped } } t

/-- LAPSE in another station's turn: the miss cause, a round not clean, the lapse count; the third drops the station and
its slots become orphans or are retained, its digest mark clear; the rotation moves on (R106, R107, R110, R133, R143,
R144; log 23). VACANCY_WINDOW_END: the rotation moves on. Either way the move after address 30 goes through the round
boundary: the count, the expiry, the sight of a clean round, the join hold and a new record (R132, R134, R145, R146,
R149; log 9, log 12, log 26). -/
def Obligations.PositionsEndWithoutACarrier : Prop :=
  (∀ (s : State) (p : Position) (n : Word16), s.Pointed → s.isRunning = true → s.line.count = some n →
      s.line.position = some p → p.kind = .turn → p.address ≠ s.own → s.line.carrier = none → s.line.inFlight = none →
      let u : State :=
        { s with
          view := { s.view with miss := true, missThisRound := true }
          line := { s.line with record := { s.line.record with clean := false } } }
      (s.line.lapses p.address = none → exec .lapse s = .next (u.movedOn p.address .lapsePoint))
        ∧ (∀ x, s.line.lapses p.address = some x → x.val < 2 →
            exec .lapse s =
              .next (({ u with line := u.line.setRoster p.address (some (x + 1)) } : State).movedOn p.address .lapsePoint))
        ∧ (s.line.lapses p.address = some 2 →
            ∃ v w, slotDropped n p.address .a u.view v ∧ slotDropped n p.address .b v w
              ∧ exec .lapse s =
                  .next
                    (({ u with
                        view := w.setRow p.address { w.row p.address with digestMark := false }
                        line := u.line.setRoster p.address none } : State).movedOn p.address .lapsePoint)))
    ∧ ∀ (s : State) (p : Position), s.Pointed → s.isRunning = true → s.line.position = some p → p.kind = .window →
      s.line.carrier = none → s.line.inFlight = none →
      exec .vacancyWindowEnd s = .next (s.movedOn p.address .windowEnd)

/-- An admission is made at own turn start alone, and within the budget: if a step leaves an own slot ACTIVE with an
admit round that it did not have, the step is an own turn start of a station that is not BLIND, the admit round is the
round count, and the committed load is at most the feeder budget (R118, R121, R122, R124). -/
def Obligations.OnlyOwnTurnAdmits : Prop :=
  ∀ (i : Instr) (c : Chan) (s t : State) (l h : Nat) (r : Word16), s.StartUp → s.LibraryChecked → s.ViewInRange →
    s.FiringBacked → exec i s = .next t → (t.view.row t.own).slot c = .active l r h →
    (∀ l' h', (s.view.row s.own).slot c ≠ .active l' r h') →
    (i = .ownTurnStart ∧ s.line.state = .onLine) ∧ s.blind = false ∧ t.line.count = some r
      ∧ t.view.committed r ≤ t.lc.budget ∧ t.view.offer c ≠ none ∧ (s.eng c).state = .requesting

/-- The line states change only as Figure 6.1's table gives, and OFF LINE holds until reset, where only the conveyor
counter's positions still move (R21, R128, R152); that no status bit, sensor or tag byte moves there is the model's reading
(log 13, log 16). -/
def Obligations.LineStatesChangeAsGiven : Prop :=
  ∀ (i : Instr) (s t : State), s.StartUp → exec i s = .next t →
    (s.line.state ≠ t.line.state →
        (i = .reset ∧ t.line.state = .loading)
          ∨ (s.line.state = .loading ∧ (t.line.state = .listening ∨ t.line.state = .offLine))
          ∨ (s.line.state = .listening ∧ (t.line.state = .joining ∨ (t.line.state = .onLine ∧ i = .founding)))
          ∨ (s.line.state = .joining ∧ t.line.state = .onLine)
          ∨ (s.isRunning = true ∧ t.line.state = .offLine))
      ∧ (s.line.state = .offLine → i ≠ .reset →
          t = { s with counter := { s.counter with
                  quad := t.counter.quad, raw := t.counter.raw, tracked := t.counter.tracked,
                  motion := t.counter.motion, haltTimer := t.counter.haltTimer } })

/-! ## Frames and status (08, 10) -/

/-- The bytes of a frame stand as Tables 47, 48, 50 and 51 give, every bit that they do not define being 0, an EMPTY slot
five zero bytes, a WAITING slot without hold bits; and every well-formed frame is read back from its bytes, whatever its
fields (R130, R184). -/
def Obligations.FramesReadBack : Prop :=
  (∀ f : Frame,
    let two := fun w : Word16 => [BitVec.ofNat 8 (w.toNat / 256), BitVec.ofNat 8 w.toNat]
    let four := fun w : Word32 =>
      [BitVec.ofNat 8 (w.toNat / 16777216), BitVec.ofNat 8 (w.toNat / 65536), BitVec.ofNat 8 (w.toNat / 256),
        BitVec.ofNat 8 w.toNat]
    let flags : Byte :=
      BitVec.ofNat 8
        (f.fresh.toNat + 2 * f.blind.toNat + 4 * f.reader.toNat + 8 * f.exit.toNat + 16 * f.halted.toNat
          + 32 * f.occupied.toNat)
    let slot := fun x : RawSlot =>
      [BitVec.ofNat 8 (64 * x.kind.toNat + x.hold.toNat / 256), BitVec.ofNat 8 x.hold.toNat, x.load] ++ two x.round
    let header :=
      [f.sender, flags] ++ two f.round ++ [f.pointer] ++ two f.digest ++ four f.tag ++ two f.status
        ++ [BitVec.ofNat 8 f.items.length]
    let body := header ++ slot f.slotA ++ slot f.slotB ++ f.items.flatMap Item.encode
    f.encode = [0xA6] ++ body ++ two (crc16 body))
    ∧ (∀ (n : Word24) (y : Byte) (o : Word16) (r : Result),
      let serial := fun w : Word24 =>
        [BitVec.ofNat 8 (w.toNat / 65536), BitVec.ofNat 8 (w.toNat / 256), BitVec.ofNat 8 w.toNat]
      let read := serial n ++ [y, BitVec.ofNat 8 (o.toNat / 256), BitVec.ofNat 8 o.toNat]
      let flags : Byte :=
        BitVec.ofNat 8 ((r.channel == .b).toNat + 2 * r.rpt.toNat + 4 * r.more.toNat + 8 * r.unlisted.toNat)
      (Item.announce n y o).encode = [0x01] ++ read ∧ (Item.dispute n y o).encode = [0x02] ++ read
        ∧ (Item.resync n).encode = [0x03] ++ serial n ∧ (Item.depart n).encode = [0x04] ++ serial n
        ∧ (Item.result r).encode =
            [0x05] ++ serial r.serial ++ [flags, r.welded, r.skipped, r.missed, r.defective, r.withheld]
              ++ [BitVec.ofNat 8 r.defects.length] ++ r.defects.flatMap fun d => [d.point, d.kind])
    ∧ (∀ (l h : Nat) (r : Word16),
      Slot.empty.raw = { kind := 0, hold := 0, load := 0, round := 0 }
        ∧ (Slot.waiting l r).raw = { kind := 1, hold := 0, load := BitVec.ofNat 8 l, round := r }
        ∧ (Slot.active l r h).raw = { kind := 2, hold := BitVec.ofNat 10 h, load := BitVec.ofNat 8 l, round := r })
    ∧ ∀ f : Frame, f.WellFormed →
      Frame.parse f.encode = some f ∧ f.encode.length = 27 + itemsSize f.items ∧ f.encode.length ≤ 256

/-- The 16-bit check enters each byte most significant bit first into a register that starts at all ones (R184), and bytes
are taken as a frame only when every test of R130 holds. -/
def Obligations.OnlyValidFramesAreTaken : Prop :=
  (∀ (bytes : List Byte) (b : Byte),
    let enter := fun (r : Word16) (bit : Bool) => if r.getLsbD 15 = bit then r <<< 1 else (r <<< 1) ^^^ 0x1021
    crc16 [] = 0xFFFF
      ∧ crc16 (bytes ++ [b]) = ([7, 6, 5, 4, 3, 2, 1, 0].map b.getLsbD).foldl enter (crc16 bytes))
    ∧ ∀ (bytes : List Byte) (f : Frame), Frame.parse bytes = some f →
    f.WellFormed ∧ bytes.head? = some 0xA6 ∧ bytes.length = 27 + itemsSize f.items
      ∧ bytes16 (crc16 ((bytes.drop 1).take (bytes.length - 3))) = bytes.drop (bytes.length - 2)

/-- The frame a station builds is valid, carries the oldest outbox items that fit and no more, and is at most 256 bytes
(R138, R172). -/
def Obligations.OwnFrameIsValid : Prop :=
  ∀ s : State, s.Bounded → s.ViewInRange → 1 ≤ s.own → s.own ≤ 30 →
    let f := buildFrame s
    f.Shows s (s.line.count.getD 0) ∧ f.WellFormed ∧ Frame.parse f.encode = some f
      ∧ ∃ k, f.items = s.line.outbox.take k ∧ k ≤ s.line.outbox.length ∧ itemsSize f.items ≤ 229 ∧ k ≤ 32
        ∧ ∀ i, s.line.outbox[k]? = some i → 229 < itemsSize f.items + i.size

/-- The status word's bits, FAULT_N, sight, the presentation of the first-fault record on each channel, and the auxiliary
output pins through polarity and drive (R17, R109, R112, R113, R161, R165, R173, Tables 12, 35, 49). -/
def Obligations.StatusShowsTheState : Prop :=
  ∀ s : State,
    let w := s.statusWord
    let disagree := ∃ a, 1 ≤ a ∧ a ≤ 30 ∧ s.line.onRoster a = true ∧ (s.view.row a).digestMark = true
    let full := 8 ≤ s.view.orphans.length ∨ ∃ a c, (s.view.row a).retained c = true
    let marks := ∃ p, s.store.marked p = true
    (w.getLsbD 0 = true ↔ s.engA.state = .held) ∧ (w.getLsbD 1 = true ↔ s.engB.state = .held)
      ∧ (w.getLsbD 2 = true ↔ marks) ∧ (w.getLsbD 3 = true ↔ disagree) ∧ (w.getLsbD 4 = true ↔ full)
      ∧ w.getLsbD 5 = false ∧ w.getLsbD 6 = false ∧ w.getLsbD 7 = false
      ∧ w.getLsbD 8 = s.sticky.outboxOverflow ∧ w.getLsbD 9 = s.sticky.encoderError
      ∧ w.getLsbD 10 = s.sticky.strayBody ∧ w.getLsbD 11 = s.sticky.tagMissing
      ∧ w.getLsbD 12 = s.sticky.tagRecordError ∧ w.getLsbD 13 = s.sticky.registerEviction
      ∧ w.getLsbD 14 = s.sticky.reverseTravel ∧ w.getLsbD 15 = false
      ∧ (s.faultActive = true ↔
          s.line.state = .offLine ∨ s.engA.state = .held ∨ s.engB.state = .held ∨ disagree ∨ marks)
      ∧ (s.blind = true ↔ s.view.miss = true ∨ s.view.fresh = true ∨ full ∨ disagree)
      ∧ (∀ x ∈ [(FaultKind.noFault, 0), (.marker, 1), (.version, 2), (.headerCheck, 3), (.digest, 4), (.headerRange, 5),
            (.styleEntry, 6), (.undefinedProgram, 16), (.directoryRange, 17), (.programCheck, 18), (.schedule, 19),
            (.loadRange, 20), (.loadOverBudget, 21), (.holdRange, 22), (.holdOverCeiling, 23), (.windowOrder, 24),
            (.windowBeyondZone, 25), (.optionIndex, 26), (.gateLine, 27), (.actionLine, 28)],
          x.1.code = x.2)
      ∧ (∀ c,
          let first := s.store.firstFault
          let shows :=
            s.ptPins c = (if c = .a then BitVec.ofNat 8 first.kind.code else BitVec.ofNat 8 first.program)
              ∧ s.schPins c = (if c = .a then BitVec.ofNat 6 first.point else BitVec.ofNat 6 (first.point / 64 % 4))
              ∧ s.firePin c = false ∧ s.pstbPin c = false
          let drives :=
            s.ptPins c = (s.eng c).pt ∧ s.schPins c = (s.eng c).sch ∧ s.firePin c = (s.eng c).fire
              ∧ (s.pstbPin c = true ↔ (s.eng c).pstb ≠ .stopped)
          (s.line.state = .offLine → 1 ≤ first.kind.code → first.kind.code ≤ 6 → shows)
            ∧ (s.line.state = .offLine → first.kind.code = 0 ∨ 16 ≤ first.kind.code → drives)
            ∧ (s.line.state = .listening → first.kind ≠ .noFault → (s.eng c).state = .idle → shows)
            ∧ (s.line.state = .listening → (s.eng c).state ≠ .idle → drives)
            ∧ (first.kind = .noFault ∨ s.line.state = .loading ∨ s.line.state = .joining ∨ s.line.state = .onLine →
                drives))
      ∧ ∀ i : Fin 8,
          let k := s.sc.auxOut[i]
          let l := s.aux.outputs[i]
          let high := l = (if k.activeLow then .inactive else .active)
          (l = .released → s.auxPin i = .undriven)
            ∧ (l ≠ .released →
                (k.drive = .pushPull → high → s.auxPin i = .high) ∧ (k.drive = .pushPull → ¬high → s.auxPin i = .low)
                  ∧ (k.drive = .openDrainLow → high → s.auxPin i = .undriven)
                  ∧ (k.drive = .openDrainLow → ¬high → s.auxPin i = .low)
                  ∧ (k.drive = .openDrainHigh → high → s.auxPin i = .high)
                  ∧ (k.drive = .openDrainHigh → ¬high → s.auxPin i = .undriven))

/-! ## Laws that every step keeps -/

/-- Reset satisfies every law below. -/
def Obligations.ResetIsSound : Prop :=
  State.reset.Bounded ∧ State.reset.StartUp ∧ State.reset.TrackedWithin ∧ State.reset.WindowsFollow
    ∧ State.reset.LibraryChecked ∧ State.reset.ProgramsGood ∧ State.reset.LinesFollow ∧ State.reset.PlacesFollow
    ∧ State.reset.FiringBacked ∧ State.reset.ViewInRange ∧ State.reset.LineInRange

/-- The line states and what each of them leaves at rest (R9, R126, R128, R152, R176; log 9, log 16). No carrier not taken
stands beside a frame in flight (R140, R150; log 25). -/
def Obligations.LineStatesStaySound : Prop := ∀ s t : State, s.StartUp → step s = .next t → t.StartUp

/-- T is never behind C and never more than the hysteresis ahead (R25). -/
def Obligations.TrackedPositionStaysWithin : Prop :=
  ∀ s t : State, s.StartUp → s.TrackedWithin → step s = .next t → t.TrackedWithin

/-- A channel has a window state exactly while its engine has a current point, and without one it takes no window event
(R36). -/
def Obligations.WindowsFollowThePoint : Prop :=
  (∀ s t : State, s.WindowsFollow → step s = .next t → t.WindowsFollow)
    ∧ ∀ (c : Chan) (s : State), s.counter.window c = none →
        exec (.windowOpen c) s = .next s ∧ exec (.windowClose c) s = .next s

/-- An engine with a point runs a program that is not marked, at one of its points, and a request is within the checks of
R14 (R14, R20, R65, R77). -/
def Obligations.GoodProgramsRun : Prop :=
  ∀ s t : State, s.StartUp → s.LibraryChecked → s.ProgramsGood → step s = .next t → t.ProgramsGood

/-- The channel lines follow the engine state as Table 20 gives (R66; log 9). -/
def Obligations.ChannelLinesFollow : Prop :=
  ∀ s t : State, s.StartUp → s.WindowsFollow → s.LinesFollow → step s = .next t → t.LinesFollow

/-- Every point of a body receives its outcome, in point order, once: the places before the cursor are written and those
from the cursor on are not (R47, R71). -/
def Obligations.OutcomePlacesFollow : Prop :=
  (∀ s t : State, s.StartUp → s.LibraryChecked → s.ProgramsGood → s.WindowsFollow → s.PlacesFollow →
      step s = .next t → t.PlacesFollow)
    ∧ ∀ (i : Instr) (s t : State) (d d' : Word32) (b b' : Body) (c : Chan) (k : Nat) (o : PointOutcome), i ≠ .arrival →
        i ≠ .reset → exec i s = .next t → s.tracker.zone = .bound d b → t.tracker.zone = .bound d' b' →
        (b.part c).places[k]? = some (some o) → (b'.part c).places[k]? = some (some o)

/-- A channel's FIRE is high only while its own published slot is ACTIVE and live in the own view (R67). -/
def Obligations.FireOnlyOnAnAdmittedClaim : Prop :=
  (∀ s t : State, s.StartUp → s.LibraryChecked → s.ProgramsGood → s.WindowsFollow → s.FiringBacked →
      step s = .next t → t.FiringBacked)
    ∧ ∀ (c : Chan) (s : State), s.LinesFollow → s.FiringBacked → (s.eng c).fire = true → s.ownSlotLive c = true

/-- Nothing ever holds more than its capacity, and the register has no two entries of one serial; the view's slots,
orphans, pointer and retained marks, and the line controller's counts, stay in their ranges (R37, R54, R96, R99, R107,
R114, R127, R137, R142, R143, R149, R169; log 25). -/
def Obligations.CapacitiesAndRangesHold : Prop :=
  (∀ s t : State, s.Bounded → step s = .next t → t.Bounded)
    ∧ ∀ s t : State, s.StartUp → s.LibraryChecked → s.ProgramsGood → s.ViewInRange → s.LineInRange → step s = .next t →
      t.ViewInRange ∧ t.LineInRange
end

