-- ==== Sys2Proof/Laws/State.lean ====
section
/-!
SUPPORT. What each named update of the state leaves as it was, field by field: true by unfolding, and tagged for `simp`
so that no later proof unfolds a record update.
-/

namespace Sys2Proof.Machine

variable (s : State) (c d : Chan)


/-! ## An engine -/

@[simp] theorem State.setEng_store (e : Engine) : (s.setEng c e).store = s.store := by cases c <;> rfl
@[simp] theorem State.setEng_counter (e : Engine) : (s.setEng c e).counter = s.counter := by cases c <;> rfl
@[simp] theorem State.setEng_tracker (e : Engine) : (s.setEng c e).tracker = s.tracker := by cases c <;> rfl
@[simp] theorem State.setEng_view (e : Engine) : (s.setEng c e).view = s.view := by cases c <;> rfl
@[simp] theorem State.setEng_line (e : Engine) : (s.setEng c e).line = s.line := by cases c <;> rfl
@[simp] theorem State.setEng_aux (e : Engine) : (s.setEng c e).aux = s.aux := by cases c <;> rfl
@[simp] theorem State.setEng_sticky (e : Engine) : (s.setEng c e).sticky = s.sticky := by cases c <;> rfl
@[simp] theorem State.setEng_pending (e : Engine) : (s.setEng c e).pending = s.pending := by cases c <;> rfl
@[simp] theorem State.eng_setEng (e : Engine) : (s.setEng c e).eng c = e := by cases c <;> rfl
theorem State.eng_setEng_other (e : Engine) (h : d ≠ c) : (s.setEng c e).eng d = s.eng d := by
  cases c <;> cases d <;> first | rfl | exact absurd rfl h
@[simp] theorem State.eng_a : s.eng .a = s.engA := rfl
@[simp] theorem State.eng_b : s.eng .b = s.engB := rfl
@[simp] theorem State.modEng_store (f : Engine → Engine) : (s.modEng c f).store = s.store := by cases c <;> rfl
@[simp] theorem State.modEng_counter (f : Engine → Engine) : (s.modEng c f).counter = s.counter := by cases c <;> rfl
@[simp] theorem State.modEng_tracker (f : Engine → Engine) : (s.modEng c f).tracker = s.tracker := by cases c <;> rfl
@[simp] theorem State.modEng_view (f : Engine → Engine) : (s.modEng c f).view = s.view := by cases c <;> rfl
@[simp] theorem State.modEng_line (f : Engine → Engine) : (s.modEng c f).line = s.line := by cases c <;> rfl
@[simp] theorem State.modEng_aux (f : Engine → Engine) : (s.modEng c f).aux = s.aux := by cases c <;> rfl
@[simp] theorem State.modEng_sticky (f : Engine → Engine) : (s.modEng c f).sticky = s.sticky := by cases c <;> rfl
@[simp] theorem State.modEng_pending (f : Engine → Engine) : (s.modEng c f).pending = s.pending := by cases c <;> rfl
@[simp] theorem State.eng_modEng (f : Engine → Engine) : (s.modEng c f).eng c = f (s.eng c) := by cases c <;> rfl
theorem State.eng_modEng_other (f : Engine → Engine) (h : d ≠ c) : (s.modEng c f).eng d = s.eng d :=
  State.eng_setEng_other s c d _ h

/-! ## A window record -/

@[simp] theorem State.setWindow_store (w : Option Window) : (s.setWindow c w).store = s.store := by cases c <;> rfl
@[simp] theorem State.setWindow_tracker (w : Option Window) : (s.setWindow c w).tracker = s.tracker :=
  by cases c <;> rfl
@[simp] theorem State.setWindow_engA (w : Option Window) : (s.setWindow c w).engA = s.engA := by cases c <;> rfl
@[simp] theorem State.setWindow_engB (w : Option Window) : (s.setWindow c w).engB = s.engB := by cases c <;> rfl
@[simp] theorem State.setWindow_view (w : Option Window) : (s.setWindow c w).view = s.view := by cases c <;> rfl
@[simp] theorem State.setWindow_line (w : Option Window) : (s.setWindow c w).line = s.line := by cases c <;> rfl
@[simp] theorem State.setWindow_aux (w : Option Window) : (s.setWindow c w).aux = s.aux := by cases c <;> rfl
@[simp] theorem State.setWindow_sticky (w : Option Window) : (s.setWindow c w).sticky = s.sticky := by cases c <;> rfl
@[simp] theorem State.setWindow_pending (w : Option Window) : (s.setWindow c w).pending = s.pending :=
  by cases c <;> rfl
@[simp] theorem State.setWindow_quad (w : Option Window) : (s.setWindow c w).counter.quad = s.counter.quad :=
  by cases c <;> rfl
@[simp] theorem State.setWindow_raw (w : Option Window) : (s.setWindow c w).counter.raw = s.counter.raw :=
  by cases c <;> rfl
@[simp] theorem State.setWindow_tracked (w : Option Window) : (s.setWindow c w).counter.tracked = s.counter.tracked :=
  by cases c <;> rfl
@[simp] theorem State.setWindow_motion (w : Option Window) : (s.setWindow c w).counter.motion = s.counter.motion :=
  by cases c <;> rfl
@[simp] theorem State.setWindow_haltTimer (w : Option Window) : (s.setWindow c w).counter.haltTimer = s.counter.haltTimer :=
  by cases c <;> rfl
@[simp] theorem State.setWindow_heldWatch (w : Option Window) : (s.setWindow c w).counter.heldWatch = s.counter.heldWatch :=
  by cases c <;> rfl
@[simp] theorem State.setWindow_pairWatch (w : Option Window) : (s.setWindow c w).counter.pairWatch = s.counter.pairWatch :=
  by cases c <;> rfl
@[simp] theorem State.setWindow_zoneWatch (w : Option Window) : (s.setWindow c w).counter.zoneWatch = s.counter.zoneWatch :=
  by cases c <;> rfl
@[simp] theorem State.window_setWindow (w : Option Window) : (s.setWindow c w).counter.window c = w :=
  by cases c <;> rfl
theorem State.window_setWindow_other (w : Option Window) (h : d ≠ c) :
    (s.setWindow c w).counter.window d = s.counter.window d := by
  cases c <;> cases d <;> first | rfl | exact absurd rfl h
@[simp] theorem State.eng_setWindow (w : Option Window) : (s.setWindow c w).eng d = s.eng d := by cases c <;> rfl

/-! ## The zone record and the register -/

@[simp] theorem State.setZone_store (z : Zone) : (s.setZone z).store = s.store := rfl
@[simp] theorem State.setZone_counter (z : Zone) : (s.setZone z).counter = s.counter := rfl
@[simp] theorem State.setZone_engA (z : Zone) : (s.setZone z).engA = s.engA := rfl
@[simp] theorem State.setZone_engB (z : Zone) : (s.setZone z).engB = s.engB := rfl
@[simp] theorem State.setZone_view (z : Zone) : (s.setZone z).view = s.view := rfl
@[simp] theorem State.setZone_line (z : Zone) : (s.setZone z).line = s.line := rfl
@[simp] theorem State.setZone_aux (z : Zone) : (s.setZone z).aux = s.aux := rfl
@[simp] theorem State.setZone_sticky (z : Zone) : (s.setZone z).sticky = s.sticky := rfl
@[simp] theorem State.setZone_pending (z : Zone) : (s.setZone z).pending = s.pending := rfl
@[simp] theorem State.setZone_zone (z : Zone) : (s.setZone z).tracker.zone = z := rfl
@[simp] theorem State.setZone_register (z : Zone) : (s.setZone z).tracker.register = s.tracker.register := rfl
@[simp] theorem State.setZone_held (z : Zone) : (s.setZone z).tracker.held = s.tracker.held := rfl
@[simp] theorem State.setZone_bodyIn (z : Zone) : (s.setZone z).tracker.bodyIn = s.tracker.bodyIn := rfl
@[simp] theorem State.setZone_zoneOut (z : Zone) : (s.setZone z).tracker.zoneOut = s.tracker.zoneOut := rfl
@[simp] theorem State.setZone_tagBytes (z : Zone) : (s.setZone z).tracker.tagBytes = s.tracker.tagBytes := rfl
@[simp] theorem State.setZone_tagTimer (z : Zone) : (s.setZone z).tracker.tagTimer = s.tracker.tagTimer := rfl
@[simp] theorem State.eng_setZone (z : Zone) : (s.setZone z).eng c = s.eng c := by cases c <;> rfl
@[simp] theorem State.markEntry_store (n : Word24) (m : Mark) : (s.markEntry n m).store = s.store := rfl
@[simp] theorem State.markEntry_counter (n : Word24) (m : Mark) : (s.markEntry n m).counter = s.counter := rfl
@[simp] theorem State.markEntry_engA (n : Word24) (m : Mark) : (s.markEntry n m).engA = s.engA := rfl
@[simp] theorem State.markEntry_engB (n : Word24) (m : Mark) : (s.markEntry n m).engB = s.engB := rfl
@[simp] theorem State.markEntry_view (n : Word24) (m : Mark) : (s.markEntry n m).view = s.view := rfl
@[simp] theorem State.markEntry_line (n : Word24) (m : Mark) : (s.markEntry n m).line = s.line := rfl
@[simp] theorem State.markEntry_aux (n : Word24) (m : Mark) : (s.markEntry n m).aux = s.aux := rfl
@[simp] theorem State.markEntry_sticky (n : Word24) (m : Mark) : (s.markEntry n m).sticky = s.sticky := rfl
@[simp] theorem State.markEntry_pending (n : Word24) (m : Mark) : (s.markEntry n m).pending = s.pending := rfl
@[simp] theorem State.markEntry_register (n : Word24) (m : Mark) : (s.markEntry n m).tracker.register = markSerial s.tracker.register n m :=
  rfl
@[simp] theorem State.markEntry_zone (n : Word24) (m : Mark) : (s.markEntry n m).tracker.zone = s.tracker.zone := rfl
@[simp] theorem State.markEntry_held (n : Word24) (m : Mark) : (s.markEntry n m).tracker.held = s.tracker.held := rfl
@[simp] theorem State.markEntry_bodyIn (n : Word24) (m : Mark) : (s.markEntry n m).tracker.bodyIn = s.tracker.bodyIn :=
  rfl
@[simp] theorem State.markEntry_zoneOut (n : Word24) (m : Mark) : (s.markEntry n m).tracker.zoneOut = s.tracker.zoneOut :=
  rfl
@[simp] theorem State.markEntry_tagBytes (n : Word24) (m : Mark) : (s.markEntry n m).tracker.tagBytes = s.tracker.tagBytes :=
  rfl
@[simp] theorem State.markEntry_tagTimer (n : Word24) (m : Mark) : (s.markEntry n m).tracker.tagTimer = s.tracker.tagTimer :=
  rfl
@[simp] theorem State.writePlace_store (k : Nat) (o : PointOutcome) : (s.writePlace c k o).store = s.store := by
  unfold State.writePlace; split <;> rfl
@[simp] theorem State.writePlace_counter (k : Nat) (o : PointOutcome) : (s.writePlace c k o).counter = s.counter := by
  unfold State.writePlace; split <;> rfl
@[simp] theorem State.writePlace_engA (k : Nat) (o : PointOutcome) : (s.writePlace c k o).engA = s.engA := by
  unfold State.writePlace; split <;> rfl
@[simp] theorem State.writePlace_engB (k : Nat) (o : PointOutcome) : (s.writePlace c k o).engB = s.engB := by
  unfold State.writePlace; split <;> rfl
@[simp] theorem State.writePlace_view (k : Nat) (o : PointOutcome) : (s.writePlace c k o).view = s.view := by
  unfold State.writePlace; split <;> rfl
@[simp] theorem State.writePlace_line (k : Nat) (o : PointOutcome) : (s.writePlace c k o).line = s.line := by
  unfold State.writePlace; split <;> rfl
@[simp] theorem State.writePlace_aux (k : Nat) (o : PointOutcome) : (s.writePlace c k o).aux = s.aux := by
  unfold State.writePlace; split <;> rfl
@[simp] theorem State.writePlace_sticky (k : Nat) (o : PointOutcome) : (s.writePlace c k o).sticky = s.sticky := by
  unfold State.writePlace; split <;> rfl
@[simp] theorem State.writePlace_pending (k : Nat) (o : PointOutcome) : (s.writePlace c k o).pending = s.pending := by
  unfold State.writePlace; split <;> rfl
@[simp] theorem State.writePlace_register (k : Nat) (o : PointOutcome) : (s.writePlace c k o).tracker.register = s.tracker.register :=
  by
  unfold State.writePlace; split <;> rfl
@[simp] theorem State.writePlace_held (k : Nat) (o : PointOutcome) : (s.writePlace c k o).tracker.held = s.tracker.held :=
  by
  unfold State.writePlace; split <;> rfl
@[simp] theorem State.writePlace_bodyIn (k : Nat) (o : PointOutcome) : (s.writePlace c k o).tracker.bodyIn = s.tracker.bodyIn :=
  by
  unfold State.writePlace; split <;> rfl
@[simp] theorem State.writePlace_zoneOut (k : Nat) (o : PointOutcome) : (s.writePlace c k o).tracker.zoneOut = s.tracker.zoneOut :=
  by
  unfold State.writePlace; split <;> rfl
@[simp] theorem State.writePlace_tagBytes (k : Nat) (o : PointOutcome) : (s.writePlace c k o).tracker.tagBytes = s.tracker.tagBytes :=
  by
  unfold State.writePlace; split <;> rfl
@[simp] theorem State.writePlace_tagTimer (k : Nat) (o : PointOutcome) : (s.writePlace c k o).tracker.tagTimer = s.tracker.tagTimer :=
  by
  unfold State.writePlace; split <;> rfl

/-! ## Auxiliary lines -/

@[simp] theorem State.setOutput_store (l : Fin 8) (v : Bool) : (s.setOutput l v).store = s.store := by
  unfold State.setOutput; split <;> rfl
@[simp] theorem State.setOutput_counter (l : Fin 8) (v : Bool) : (s.setOutput l v).counter = s.counter := by
  unfold State.setOutput; split <;> rfl
@[simp] theorem State.setOutput_tracker (l : Fin 8) (v : Bool) : (s.setOutput l v).tracker = s.tracker := by
  unfold State.setOutput; split <;> rfl
@[simp] theorem State.setOutput_engA (l : Fin 8) (v : Bool) : (s.setOutput l v).engA = s.engA := by
  unfold State.setOutput; split <;> rfl
@[simp] theorem State.setOutput_engB (l : Fin 8) (v : Bool) : (s.setOutput l v).engB = s.engB := by
  unfold State.setOutput; split <;> rfl
@[simp] theorem State.setOutput_view (l : Fin 8) (v : Bool) : (s.setOutput l v).view = s.view := by
  unfold State.setOutput; split <;> rfl
@[simp] theorem State.setOutput_line (l : Fin 8) (v : Bool) : (s.setOutput l v).line = s.line := by
  unfold State.setOutput; split <;> rfl
@[simp] theorem State.setOutput_sticky (l : Fin 8) (v : Bool) : (s.setOutput l v).sticky = s.sticky := by
  unfold State.setOutput; split <;> rfl
@[simp] theorem State.setOutput_pending (l : Fin 8) (v : Bool) : (s.setOutput l v).pending = s.pending := by
  unfold State.setOutput; split <;> rfl
@[simp] theorem State.setOutput_inputs (l : Fin 8) (v : Bool) : (s.setOutput l v).aux.inputs = s.aux.inputs := by
  unfold State.setOutput; split <;> rfl
@[simp] theorem State.modInput_store (l : Fin 8) (f : AuxIn → AuxIn) : (s.modInput l f).store = s.store := rfl
@[simp] theorem State.modInput_counter (l : Fin 8) (f : AuxIn → AuxIn) : (s.modInput l f).counter = s.counter := rfl
@[simp] theorem State.modInput_tracker (l : Fin 8) (f : AuxIn → AuxIn) : (s.modInput l f).tracker = s.tracker := rfl
@[simp] theorem State.modInput_engA (l : Fin 8) (f : AuxIn → AuxIn) : (s.modInput l f).engA = s.engA := rfl
@[simp] theorem State.modInput_engB (l : Fin 8) (f : AuxIn → AuxIn) : (s.modInput l f).engB = s.engB := rfl
@[simp] theorem State.modInput_view (l : Fin 8) (f : AuxIn → AuxIn) : (s.modInput l f).view = s.view := rfl
@[simp] theorem State.modInput_line (l : Fin 8) (f : AuxIn → AuxIn) : (s.modInput l f).line = s.line := rfl
@[simp] theorem State.modInput_sticky (l : Fin 8) (f : AuxIn → AuxIn) : (s.modInput l f).sticky = s.sticky := rfl
@[simp] theorem State.modInput_pending (l : Fin 8) (f : AuxIn → AuxIn) : (s.modInput l f).pending = s.pending := rfl
@[simp] theorem State.modInput_outputs (l : Fin 8) (f : AuxIn → AuxIn) : (s.modInput l f).aux.outputs = s.aux.outputs :=
  rfl

/-! ## The outbox -/

@[simp] theorem State.pushItem_store (i : Item) : (s.pushItem i).store = s.store := by
  unfold State.pushItem; split <;> rfl
@[simp] theorem State.pushItem_counter (i : Item) : (s.pushItem i).counter = s.counter := by
  unfold State.pushItem; split <;> rfl
@[simp] theorem State.pushItem_tracker (i : Item) : (s.pushItem i).tracker = s.tracker := by
  unfold State.pushItem; split <;> rfl
@[simp] theorem State.pushItem_engA (i : Item) : (s.pushItem i).engA = s.engA := by
  unfold State.pushItem; split <;> rfl
@[simp] theorem State.pushItem_engB (i : Item) : (s.pushItem i).engB = s.engB := by
  unfold State.pushItem; split <;> rfl
@[simp] theorem State.pushItem_view (i : Item) : (s.pushItem i).view = s.view := by
  unfold State.pushItem; split <;> rfl
@[simp] theorem State.pushItem_aux (i : Item) : (s.pushItem i).aux = s.aux := by
  unfold State.pushItem; split <;> rfl
@[simp] theorem State.pushItem_pending (i : Item) : (s.pushItem i).pending = s.pending := by
  unfold State.pushItem; split <;> rfl
@[simp] theorem State.pushItem_state (i : Item) : (s.pushItem i).line.state = s.line.state := by
  unfold State.pushItem; split <;> rfl
@[simp] theorem State.pushItem_straps (i : Item) : (s.pushItem i).line.straps = s.line.straps := by
  unfold State.pushItem; split <;> rfl
@[simp] theorem State.pushItem_roster (i : Item) : (s.pushItem i).line.roster = s.line.roster := by
  unfold State.pushItem; split <;> rfl
@[simp] theorem State.pushItem_count (i : Item) : (s.pushItem i).line.count = s.line.count := by
  unfold State.pushItem; split <;> rfl
@[simp] theorem State.pushItem_position (i : Item) : (s.pushItem i).line.position = s.line.position := by
  unfold State.pushItem; split <;> rfl
@[simp] theorem State.pushItem_lastValid (i : Item) : (s.pushItem i).line.lastValid = s.line.lastValid := by
  unfold State.pushItem; split <;> rfl
@[simp] theorem State.pushItem_record (i : Item) : (s.pushItem i).line.record = s.line.record := by
  unfold State.pushItem; split <;> rfl
@[simp] theorem State.pushItem_joinHold (i : Item) : (s.pushItem i).line.joinHold = s.line.joinHold := by
  unfold State.pushItem; split <;> rfl
@[simp] theorem State.pushItem_foundingTimer (i : Item) : (s.pushItem i).line.foundingTimer = s.line.foundingTimer :=
  by
  unfold State.pushItem; split <;> rfl
@[simp] theorem State.pushItem_jabber (i : Item) : (s.pushItem i).line.jabber = s.line.jabber := by
  unfold State.pushItem; split <;> rfl
@[simp] theorem State.pushItem_inFlight (i : Item) : (s.pushItem i).line.inFlight = s.line.inFlight := by
  unfold State.pushItem; split <;> rfl
@[simp] theorem State.pushItem_de (i : Item) : (s.pushItem i).line.de = s.line.de := by
  unfold State.pushItem; split <;> rfl
@[simp] theorem State.pushItem_carrier (i : Item) : (s.pushItem i).line.carrier = s.line.carrier := by
  unfold State.pushItem; split <;> rfl
@[simp] theorem State.pushItem_untaken (i : Item) : (s.pushItem i).line.untaken = s.line.untaken := by
  unfold State.pushItem; split <;> rfl

/-! ## Sight, the round record and the roster -/

@[simp] theorem State.setMiss_store : s.setMiss.store = s.store := rfl
@[simp] theorem State.unclean_store : s.unclean.store = s.store := rfl
@[simp] theorem State.setMiss_counter : s.setMiss.counter = s.counter := rfl
@[simp] theorem State.unclean_counter : s.unclean.counter = s.counter := rfl
@[simp] theorem State.setMiss_tracker : s.setMiss.tracker = s.tracker := rfl
@[simp] theorem State.unclean_tracker : s.unclean.tracker = s.tracker := rfl
@[simp] theorem State.setMiss_engA : s.setMiss.engA = s.engA := rfl
@[simp] theorem State.unclean_engA : s.unclean.engA = s.engA := rfl
@[simp] theorem State.setMiss_engB : s.setMiss.engB = s.engB := rfl
@[simp] theorem State.unclean_engB : s.unclean.engB = s.engB := rfl
@[simp] theorem State.unclean_view : s.unclean.view = s.view := rfl
@[simp] theorem State.setMiss_line : s.setMiss.line = s.line := rfl
@[simp] theorem State.setMiss_aux : s.setMiss.aux = s.aux := rfl
@[simp] theorem State.unclean_aux : s.unclean.aux = s.aux := rfl
@[simp] theorem State.setMiss_sticky : s.setMiss.sticky = s.sticky := rfl
@[simp] theorem State.unclean_sticky : s.unclean.sticky = s.sticky := rfl
@[simp] theorem State.setMiss_pending : s.setMiss.pending = s.pending := rfl
@[simp] theorem State.unclean_pending : s.unclean.pending = s.pending := rfl
@[simp] theorem State.setMiss_rows : s.setMiss.view.rows = s.view.rows := rfl
@[simp] theorem State.setMiss_orphans : s.setMiss.view.orphans = s.view.orphans := rfl
@[simp] theorem State.setMiss_pointer : s.setMiss.view.pointer = s.view.pointer := rfl
@[simp] theorem State.setMiss_adoptPending : s.setMiss.view.adoptPending = s.view.adoptPending := rfl
@[simp] theorem State.setMiss_fresh : s.setMiss.view.fresh = s.view.fresh := rfl
@[simp] theorem State.setMiss_offerA : s.setMiss.view.offerA = s.view.offerA := rfl
@[simp] theorem State.setMiss_offerB : s.setMiss.view.offerB = s.view.offerB := rfl
@[simp] theorem State.unclean_state : s.unclean.line.state = s.line.state := rfl
@[simp] theorem State.unclean_straps : s.unclean.line.straps = s.line.straps := rfl
@[simp] theorem State.unclean_roster : s.unclean.line.roster = s.line.roster := rfl
@[simp] theorem State.unclean_count : s.unclean.line.count = s.line.count := rfl
@[simp] theorem State.unclean_position : s.unclean.line.position = s.line.position := rfl
@[simp] theorem State.unclean_lastValid : s.unclean.line.lastValid = s.line.lastValid := rfl
@[simp] theorem State.unclean_joinHold : s.unclean.line.joinHold = s.line.joinHold := rfl
@[simp] theorem State.unclean_foundingTimer : s.unclean.line.foundingTimer = s.line.foundingTimer := rfl
@[simp] theorem State.unclean_jabber : s.unclean.line.jabber = s.line.jabber := rfl
@[simp] theorem State.unclean_outbox : s.unclean.line.outbox = s.line.outbox := rfl
@[simp] theorem State.unclean_inFlight : s.unclean.line.inFlight = s.line.inFlight := rfl
@[simp] theorem State.unclean_de : s.unclean.line.de = s.line.de := rfl
@[simp] theorem State.unclean_carrier : s.unclean.line.carrier = s.line.carrier := rfl
@[simp] theorem State.unclean_untaken : s.unclean.line.untaken = s.line.untaken := rfl
@[simp] theorem LineCtl.setRoster_state (l : LineCtl) (a : Nat) (n : Option (Fin 3)) : (l.setRoster a n).state = l.state :=
  by
  unfold LineCtl.setRoster; split <;> rfl
@[simp] theorem LineCtl.setRoster_straps (l : LineCtl) (a : Nat) (n : Option (Fin 3)) : (l.setRoster a n).straps = l.straps :=
  by
  unfold LineCtl.setRoster; split <;> rfl
@[simp] theorem LineCtl.setRoster_count (l : LineCtl) (a : Nat) (n : Option (Fin 3)) : (l.setRoster a n).count = l.count :=
  by
  unfold LineCtl.setRoster; split <;> rfl
@[simp] theorem LineCtl.setRoster_position (l : LineCtl) (a : Nat) (n : Option (Fin 3)) : (l.setRoster a n).position = l.position :=
  by
  unfold LineCtl.setRoster; split <;> rfl
@[simp] theorem LineCtl.setRoster_lastValid (l : LineCtl) (a : Nat) (n : Option (Fin 3)) : (l.setRoster a n).lastValid = l.lastValid :=
  by
  unfold LineCtl.setRoster; split <;> rfl
@[simp] theorem LineCtl.setRoster_record (l : LineCtl) (a : Nat) (n : Option (Fin 3)) : (l.setRoster a n).record = l.record :=
  by
  unfold LineCtl.setRoster; split <;> rfl
@[simp] theorem LineCtl.setRoster_joinHold (l : LineCtl) (a : Nat) (n : Option (Fin 3)) : (l.setRoster a n).joinHold = l.joinHold :=
  by
  unfold LineCtl.setRoster; split <;> rfl
@[simp] theorem LineCtl.setRoster_foundingTimer (l : LineCtl) (a : Nat) (n : Option (Fin 3)) : (l.setRoster a n).foundingTimer = l.foundingTimer :=
  by
  unfold LineCtl.setRoster; split <;> rfl
@[simp] theorem LineCtl.setRoster_jabber (l : LineCtl) (a : Nat) (n : Option (Fin 3)) : (l.setRoster a n).jabber = l.jabber :=
  by
  unfold LineCtl.setRoster; split <;> rfl
@[simp] theorem LineCtl.setRoster_outbox (l : LineCtl) (a : Nat) (n : Option (Fin 3)) : (l.setRoster a n).outbox = l.outbox :=
  by
  unfold LineCtl.setRoster; split <;> rfl
@[simp] theorem LineCtl.setRoster_inFlight (l : LineCtl) (a : Nat) (n : Option (Fin 3)) : (l.setRoster a n).inFlight = l.inFlight :=
  by
  unfold LineCtl.setRoster; split <;> rfl
@[simp] theorem LineCtl.setRoster_de (l : LineCtl) (a : Nat) (n : Option (Fin 3)) : (l.setRoster a n).de = l.de := by
  unfold LineCtl.setRoster; split <;> rfl
@[simp] theorem LineCtl.setRoster_carrier (l : LineCtl) (a : Nat) (n : Option (Fin 3)) : (l.setRoster a n).carrier = l.carrier :=
  by
  unfold LineCtl.setRoster; split <;> rfl
@[simp] theorem LineCtl.setRoster_untaken (l : LineCtl) (a : Nat) (n : Option (Fin 3)) : (l.setRoster a n).untaken = l.untaken :=
  by
  unfold LineCtl.setRoster; split <;> rfl
@[simp] theorem View.setRow_orphans (v : View) (a : Nat) (w : AddrRow) : (v.setRow a w).orphans = v.orphans := by
  unfold View.setRow; split <;> rfl
@[simp] theorem View.setRow_pointer (v : View) (a : Nat) (w : AddrRow) : (v.setRow a w).pointer = v.pointer := by
  unfold View.setRow; split <;> rfl
@[simp] theorem View.setRow_adoptPending (v : View) (a : Nat) (w : AddrRow) : (v.setRow a w).adoptPending = v.adoptPending :=
  by
  unfold View.setRow; split <;> rfl
@[simp] theorem View.setRow_miss (v : View) (a : Nat) (w : AddrRow) : (v.setRow a w).miss = v.miss := by
  unfold View.setRow; split <;> rfl
@[simp] theorem View.setRow_fresh (v : View) (a : Nat) (w : AddrRow) : (v.setRow a w).fresh = v.fresh := by
  unfold View.setRow; split <;> rfl
@[simp] theorem View.setRow_missThisRound (v : View) (a : Nat) (w : AddrRow) : (v.setRow a w).missThisRound = v.missThisRound :=
  by
  unfold View.setRow; split <;> rfl
@[simp] theorem View.setRow_offerA (v : View) (a : Nat) (w : AddrRow) : (v.setRow a w).offerA = v.offerA := by
  unfold View.setRow; split <;> rfl
@[simp] theorem View.setRow_offerB (v : View) (a : Nat) (w : AddrRow) : (v.setRow a w).offerB = v.offerB := by
  unfold View.setRow; split <;> rfl
@[simp] theorem View.setOffer_rows (v : View) (o : Option Offer) : (v.setOffer c o).rows = v.rows :=
  by cases c <;> rfl
@[simp] theorem View.setOffer_orphans (v : View) (o : Option Offer) : (v.setOffer c o).orphans = v.orphans :=
  by cases c <;> rfl
@[simp] theorem View.setOffer_pointer (v : View) (o : Option Offer) : (v.setOffer c o).pointer = v.pointer :=
  by cases c <;> rfl
@[simp] theorem View.setOffer_adoptPending (v : View) (o : Option Offer) : (v.setOffer c o).adoptPending = v.adoptPending :=
  by cases c <;> rfl
@[simp] theorem View.setOffer_miss (v : View) (o : Option Offer) : (v.setOffer c o).miss = v.miss :=
  by cases c <;> rfl
@[simp] theorem View.setOffer_fresh (v : View) (o : Option Offer) : (v.setOffer c o).fresh = v.fresh :=
  by cases c <;> rfl
@[simp] theorem View.setOffer_missThisRound (v : View) (o : Option Offer) : (v.setOffer c o).missThisRound = v.missThisRound :=
  by cases c <;> rfl

/-! ## Sensors -/

@[simp] theorem State.setSensor_store (l : SensorLine) (x : Sensor) : (s.setSensor l x).store = s.store :=
  by cases l <;> rfl
@[simp] theorem State.setSensor_counter (l : SensorLine) (x : Sensor) : (s.setSensor l x).counter = s.counter :=
  by cases l <;> rfl
@[simp] theorem State.setSensor_engA (l : SensorLine) (x : Sensor) : (s.setSensor l x).engA = s.engA :=
  by cases l <;> rfl
@[simp] theorem State.setSensor_engB (l : SensorLine) (x : Sensor) : (s.setSensor l x).engB = s.engB :=
  by cases l <;> rfl
@[simp] theorem State.setSensor_view (l : SensorLine) (x : Sensor) : (s.setSensor l x).view = s.view :=
  by cases l <;> rfl
@[simp] theorem State.setSensor_line (l : SensorLine) (x : Sensor) : (s.setSensor l x).line = s.line :=
  by cases l <;> rfl
@[simp] theorem State.setSensor_aux (l : SensorLine) (x : Sensor) : (s.setSensor l x).aux = s.aux :=
  by cases l <;> rfl
@[simp] theorem State.setSensor_sticky (l : SensorLine) (x : Sensor) : (s.setSensor l x).sticky = s.sticky :=
  by cases l <;> rfl
@[simp] theorem State.setSensor_pending (l : SensorLine) (x : Sensor) : (s.setSensor l x).pending = s.pending :=
  by cases l <;> rfl
@[simp] theorem State.setSensor_register (l : SensorLine) (x : Sensor) : (s.setSensor l x).tracker.register = s.tracker.register :=
  by cases l <;> rfl
@[simp] theorem State.setSensor_zone (l : SensorLine) (x : Sensor) : (s.setSensor l x).tracker.zone = s.tracker.zone :=
  by cases l <;> rfl
@[simp] theorem State.setSensor_held (l : SensorLine) (x : Sensor) : (s.setSensor l x).tracker.held = s.tracker.held :=
  by cases l <;> rfl
@[simp] theorem State.setSensor_tagBytes (l : SensorLine) (x : Sensor) : (s.setSensor l x).tracker.tagBytes = s.tracker.tagBytes :=
  by cases l <;> rfl
@[simp] theorem State.setSensor_tagTimer (l : SensorLine) (x : Sensor) : (s.setSensor l x).tracker.tagTimer = s.tracker.tagTimer :=
  by cases l <;> rfl
@[simp] theorem State.sensor_setSensor (l : SensorLine) (x : Sensor) : (s.setSensor l x).tracker.sensor l = x :=
  by cases l <;> rfl

/-! ## Slots of a row and parts of a body -/

@[simp] theorem AddrRow.slot_setSlot (w : AddrRow) (x : Slot) : (w.setSlot c x).slot c = x := by cases c <;> rfl
@[simp] theorem AddrRow.retained_setSlot (w : AddrRow) (x : Slot) : (w.setSlot c x).retained d = w.retained d :=
  by cases c <;> cases d <;> rfl
@[simp] theorem AddrRow.slot_setRetained (w : AddrRow) (x : Bool) : (w.setRetained c x).slot d = w.slot d :=
  by cases c <;> cases d <;> rfl
@[simp] theorem AddrRow.retained_setRetained (w : AddrRow) (x : Bool) : (w.setRetained c x).retained c = x :=
  by cases c <;> rfl
@[simp] theorem AddrRow.setSlot_digestMark (w : AddrRow) (x : Slot) : (w.setSlot c x).digestMark = w.digestMark :=
  by cases c <;> rfl
@[simp] theorem AddrRow.setRetained_digestMark (w : AddrRow) (x : Bool) : (w.setRetained c x).digestMark = w.digestMark :=
  by cases c <;> rfl
@[simp] theorem Body.part_setPart (b : Body) (p : ChannelPart) : (b.setPart c p).part c = p := by cases c <;> rfl
@[simp] theorem Body.setPart_serial (b : Body) (p : ChannelPart) : (b.setPart c p).serial = b.serial :=
  by cases c <;> rfl
@[simp] theorem Body.setPart_style (b : Body) (p : ChannelPart) : (b.setPart c p).style = b.style :=
  by cases c <;> rfl
@[simp] theorem Body.setPart_options (b : Body) (p : ChannelPart) : (b.setPart c p).options = b.options :=
  by cases c <;> rfl
@[simp] theorem Body.setPart_disputed (b : Body) (p : ChannelPart) : (b.setPart c p).disputed = b.disputed :=
  by cases c <;> rfl
@[simp] theorem Body.setPart_listed (b : Body) (p : ChannelPart) : (b.setPart c p).listed = b.listed :=
  by cases c <;> rfl

end Sys2Proof.Machine
end

