-- ==== Sys2Proof/Laws/Ops.lean ====
section
/-!
SUPPORT. One lemma for each shared operation that says once everything it can do; the statements' proofs cite these and
do not unfold the operation.
-/

namespace Sys2Proof.Machine

/-! ## Rows of the view and the roster -/

/-- The row written is the row read (addresses 1..30). -/
theorem View.row_setRow (v : View) (a : Nat) (w : AddrRow) (h1 : 1 ≤ a) (h2 : a ≤ 30) : (v.setRow a w).row a = w := by
  have h0 : a ≠ 0 := by omega
  simp [View.setRow, View.row, h0]
  simp [show a - 1 < 30 by omega]

/-- Every other row is as it was. -/
theorem View.row_setRow_other (v : View) (a b : Nat) (w : AddrRow) (h : b ≠ a) : (v.setRow a w).row b = v.row b := by
  unfold View.setRow View.row
  split
  · rfl
  · split
    · rfl
    · rw [Vector.getElem?_setIfInBounds_ne (by omega)]

/-- Address 0 and addresses above 30 have a blank row. -/
theorem View.row_blank (v : View) (a : Nat) (h : a = 0 ∨ 30 < a) : v.row a = AddrRow.blank := by
  unfold View.row
  split
  · rfl
  · rw [Vector.getElem?_eq_none (by omega)]
    rfl

/-- The lapse count written is the one read (addresses 1..30). -/
theorem LineCtl.lapses_setRoster (l : LineCtl) (a : Nat) (n : Option (Fin 3)) (h1 : 1 ≤ a) (h2 : a ≤ 30) :
    (l.setRoster a n).lapses a = n := by
  have h0 : a ≠ 0 := by omega
  simp [LineCtl.setRoster, LineCtl.lapses, h0]
  simp [show a - 1 < 30 by omega]

/-- Every other address keeps its lapse count. -/
theorem LineCtl.lapses_setRoster_other (l : LineCtl) (a b : Nat) (n : Option (Fin 3)) (h : b ≠ a) :
    (l.setRoster a n).lapses b = l.lapses b := by
  unfold LineCtl.setRoster LineCtl.lapses
  split
  · rfl
  · split
    · rfl
    · rw [Vector.getElem?_setIfInBounds_ne (by omega)]

/-! ## The outbox -/

/-- An item is appended while there is room, and sets outbox overflow otherwise (R137). -/
theorem State.pushItem_pushed (s : State) (i : Item) (h : s.line.outbox.length ≤ 16) :
    pushed [i] s (s.pushItem i)
      ∧ s.pushItem i =
        { s with
          line := { s.line with outbox := (s.pushItem i).line.outbox }
          sticky := { s.sticky with outboxOverflow := (s.pushItem i).sticky.outboxOverflow } } := by
  by_cases hc : s.line.outbox.length < 16
  · have hp : s.pushItem i = { s with line := { s.line with outbox := s.line.outbox ++ [i] } } := by
      simp [State.pushItem, Config.outboxCapacity, hc]
    rw [hp]
    refine ⟨⟨?_, ?_⟩, rfl⟩
    · rw [List.take_of_length_le (by simp; omega)]
    · simp; omega
  · have hl : s.line.outbox.length = 16 := by omega
    have hp : s.pushItem i = { s with sticky := { s.sticky with outboxOverflow := true } } := by
      simp [State.pushItem, Config.outboxCapacity, hc]
    rw [hp]
    refine ⟨⟨?_, ?_⟩, rfl⟩
    · rw [List.take_append_of_le_length (by omega), List.take_of_length_le (by omega)]
    · simp [hl]

/-! ## The tracked position -/

/-- A new tracked position moves the watches and windows, and an old one nothing (R23, R30, R35). -/
theorem State.setTracked_follows (s : State) (x : Word32) :
    (s.setTracked x).counter.tracked = x ∧ followsTracked s (s.setTracked x)
      ∧ s.setTracked x = { s with counter := (s.setTracked x).counter } := by
  by_cases h : x = s.counter.tracked
  · simp [State.setTracked, h, followsTracked]
  · have ht : s.setTracked x =
        { s with counter := ({ s.counter with tracked := x } : Counter).updateWatches }.updateWindows := by
      simp [State.setTracked, h]
    refine ⟨by rw [ht]; rfl, ⟨fun hn => ?_, fun _ => ?_⟩, by rw [ht]; rfl⟩
    · exact absurd (by rw [ht] at hn; exact hn) h
    · rw [ht]
      refine ⟨rfl, rfl, rfl, fun c => ?_⟩
      cases c <;> rfl

/-! ## Outcomes -/

/-- The level an action leaves on the output lines (R86, R163). -/
theorem PointRec.actOn_eq (r : PointRec) (o : PointOutcome) (s : State) :
    (match r.action with
      | some a => if a.applies o then s.setOutput a.line a.level else s
      | none => s) = { s with aux := { s.aux with outputs := r.actOn o s.aux.outputs } } := by
  cases ha : r.action with
  | none => simp [PointRec.actOn, ha]
  | some a =>
    simp only [PointRec.actOn, ha]
    by_cases hr : s.aux.outputs[a.line] = .released
    · have : s.setOutput a.line a.level = s := by simp [State.setOutput, hr]
      simp [this, hr]
    · have hs : s.setOutput a.line a.level =
          { s with
            aux := { s.aux with outputs := s.aux.outputs.set a.line (if a.level then .active else .inactive) } } := by
        simp only [State.setOutput, if_neg hr]
      rw [hs]
      unfold Action.applies
      have hr' : ¬s.aux.outputs[(a.line : Nat)] = .released := hr
      cases hal : a.always <;> cases o <;> simp [hr']

/-- One place written is that place of the closed form (R71). -/
theorem Zone.placed_write (z : Zone) (c : Chan) (k : Nat) (o : PointOutcome) (hk : 1 ≤ k) :
    z.placed c (fun j => if k ≤ j ∧ j < k + 1 then some o else none) =
      match z with
      | .bound d b => .bound d (b.setPart c ((b.part c).write k o))
      | z => z := by
  cases z with
  | bound d b =>
    simp only [Zone.placed, ChannelPart.write]
    congr 2
    simp only [ChannelPart.mk.injEq, true_and]
    apply List.ext_getElem
    · simp
    · intro i h1 h2
      simp only [List.getElem_map, List.getElem_zipIdx, List.getElem_modify, Nat.zero_add]
      by_cases h : k - 1 = i
      · rw [if_pos h, if_pos (by omega)]
      · rw [if_neg h, if_neg (by omega), Option.or_none]
  | _ => rfl

/-- Taking one outcome: its place and its action, and nothing else (R86). -/
theorem takeOutcome_eq (c : Chan) (o : PointOutcome) (k : Nat) (s : State) (hk : 1 ≤ k) :
    takeOutcome c o k s = s.outcomesTaken c k (k + 1) fun _ => some o := by
  have hw : s.writePlace c k o =
      { s with
        tracker :=
          { s.tracker with
            zone := s.tracker.zone.placed c fun j => if k ≤ j ∧ j < k + 1 then some o else none } } := by
    rw [Zone.placed_write _ _ _ _ hk]
    unfold State.writePlace
    split <;> simp_all
  have ha := PointRec.actOn_eq (s.pointRec c k) o (s.writePlace c k o)
  unfold takeOutcome
  refine ha.trans ?_
  rw [hw]
  simp [State.outcomesTaken, State.actedOver]

/-! ## The test of R75 -/

/-- The test of R75 spelled out is the model's: the gate of R76 satisfied under an OPEN window. -/
theorem State.mayAsk_iff (s : State) (c : Chan) :
    s.mayAsk c ↔
      (∃ w, s.counter.window c = some w ∧ w.state = .opened) ∧ s.gateSatisfied c (s.current c) = true := by
  unfold State.mayAsk State.gateSatisfied
  refine and_congr_right fun _ => ?_
  cases (s.current c).gate with
  | none => simp
  | some g =>
    obtain ⟨i, kind⟩ := g
    cases kind
    · simp
    · cases c <;> simp [AuxIn.latch]

/-- The engine enters REQUESTING exactly when it is GATED and its window and gate let it (R75, R77). -/
theorem tryRequest_eq (c : Chan) (s : State) :
    ((s.eng c).state = .gated → s.mayAsk c →
        tryRequest c s = s.setEng c ((s.eng c).asking (s.current c) s.line.count))
      ∧ (¬((s.eng c).state = .gated ∧ s.mayAsk c) → tryRequest c s = s) := by
  have hw : (s.counter.window c).map Window.state = some .opened ↔
      ∃ w, s.counter.window c = some w ∧ w.state = .opened := by
    cases s.counter.window c <;> simp
  constructor
  · intro hg hm
    unfold tryRequest
    rw [State.mayAsk_iff] at hm
    rw [if_pos ⟨hg, hw.2 hm.1, hm.2⟩]
    rfl
  · intro hn
    unfold tryRequest
    rw [if_neg]
    rintro ⟨hg, ho, hs⟩
    exact hn ⟨hg, (State.mayAsk_iff s c).2 ⟨hw.1 ho, hs⟩⟩

/-! ## The strobe -/

/-- The strobe's effect: PT, the pulse, the reach timer, and the EVENT latch of its own channel (R69, R159). -/
theorem giveStrobe_eq (c : Chan) (k : Nat) (s : State) :
    giveStrobe c k s =
      { (s.setEng c ((s.eng c).strobed k s.sc.reachLimit)) with
        aux := { s.aux with inputs := (s.pointRec c k).clearLatch c s.aux.inputs } } := by
  have hp : ∀ e, s.modEng c (fun _ => e) = s.setEng c e := fun _ => rfl
  unfold giveStrobe PointRec.clearLatch
  cases hg : (s.pointRec c k).gate with
  | none => cases c <;> rfl
  | some g =>
    obtain ⟨i, kind⟩ := g
    cases kind <;> cases c <;> rfl

end Sys2Proof.Machine
end

