-- ==== Sys2Proof/Laws/Points.lean ====
section
/-!
SUPPORT. What the point engines' shared operations can do, in the closed forms of Sys2Proof/Safety.lean: outcomes taken
in a row, HELD, the advance, the close-out.
-/

namespace Sys2Proof.Machine

/-! ## Outcomes in a row -/

/-- Two writes of places are one: a place once written stays (R71). -/
theorem Zone.placed_placed (z : Zone) (c : Chan) (f g : Nat → Option PointOutcome) :
    (z.placed c f).placed c g = z.placed c fun j => (f j).or (g j) := by
  cases z with
  | bound d b =>
    simp only [Zone.placed, Body.part_setPart]
    congr 1
    cases c <;>
    · simp only [Body.setPart, Body.part, Body.mk.injEq, ChannelPart.mk.injEq, true_and, and_true]
      apply List.ext_getElem
      · simp
      · intro i h1 h2
        simp [Option.or_assoc]
  | _ => rfl

/-- Nothing is written where nothing is taken. -/
theorem Zone.placed_none (z : Zone) (c : Chan) : (z.placed c fun _ => none) = z := by
  cases z with
  | bound d b =>
    simp only [Zone.placed]
    congr 1
    have h : ((b.part c).places.zipIdx.map fun x => x.1.or none) = (b.part c).places := by
      apply List.ext_getElem
      · simp
      · intro i h1 h2
        simp
    rw [h]
    cases c <;> rfl
  | _ => rfl

@[simp] theorem State.outcomesTaken_pointRec (s : State) (c d : Chan) (k n j : Nat) (f : Nat → Option PointOutcome) :
    (s.outcomesTaken c k n f).pointRec d j = s.pointRec d j := by cases d <;> rfl

@[simp] theorem State.outcomesTaken_eng (s : State) (c d : Chan) (k n : Nat) (f : Nat → Option PointOutcome) :
    (s.outcomesTaken c k n f).eng d = s.eng d := by cases d <;> rfl

/-- No point, no change. -/
theorem State.outcomesTaken_self (s : State) (c : Chan) (k : Nat) (f : Nat → Option PointOutcome) :
    s.outcomesTaken c k k f = s := by
  have h : (fun j => if k ≤ j ∧ j < k then f j else none) = fun _ => none := by
    funext j
    rw [if_neg (by omega)]
  simp only [State.outcomesTaken, State.actedOver, h, Zone.placed_none, Nat.sub_self, List.range'_zero, List.foldl_nil]

/-- The outcomes depend only on what the function gives the points taken. -/
theorem State.outcomesTaken_congr (s : State) (c : Chan) (k n : Nat) (f g : Nat → Option PointOutcome)
    (h : ∀ j, k ≤ j → j < n → f j = g j) : s.outcomesTaken c k n f = s.outcomesTaken c k n g := by
  have h1 : (fun j => if k ≤ j ∧ j < n then f j else none) = fun j => if k ≤ j ∧ j < n then g j else none := by
    funext j
    split
    · rename_i hj
      exact h j hj.1 hj.2
    · rfl
  have h2 : s.actedOver c k n f = s.actedOver c k n g := by
    unfold State.actedOver
    apply List.foldl_ext
    intro v j hj
    rw [List.mem_range'_1] at hj
    rw [h j hj.1 (by omega)]
  simp only [State.outcomesTaken, h1, h2]

/-- Two runs of outcomes, one after the other, are one run. -/
theorem State.outcomesTaken_append (s : State) (c : Chan) (k m n : Nat) (f g : Nat → Option PointOutcome) (h1 : k ≤ m)
    (h2 : m ≤ n) :
    (s.outcomesTaken c k m f).outcomesTaken c m n g = s.outcomesTaken c k n fun j => if j < m then f j else g j := by
  have hz : (s.tracker.zone.placed c fun j => if k ≤ j ∧ j < m then f j else none).placed c
        (fun j => if m ≤ j ∧ j < n then g j else none) =
      s.tracker.zone.placed c fun j => if k ≤ j ∧ j < n then (if j < m then f j else g j) else none := by
    rw [Zone.placed_placed]
    congr 1
    funext j
    by_cases ha : k ≤ j <;> by_cases hb : j < m <;> by_cases hc : j < n <;>
      simp [ha, hb, hc, show (m ≤ j) ↔ ¬j < m by omega] <;> omega
  have ho : (s.outcomesTaken c k m f).actedOver c m n g = s.actedOver c k n fun j => if j < m then f j else g j := by
    have hr : List.range' k (n - k) = List.range' k (m - k) ++ List.range' m (n - m) := by
      have := List.range'_append_1 (s := k) (m := m - k) (n := n - m)
      rw [show k + (m - k) = m by omega, show m - k + (n - m) = n - k by omega] at this
      exact this.symm
    unfold State.actedOver
    rw [hr, List.foldl_append]
    simp only [State.outcomesTaken_pointRec]
    have e1 : (s.outcomesTaken c k m f).aux.outputs =
        (List.range' k (m - k)).foldl
          (fun v j => ((if j < m then f j else g j) : Option PointOutcome).elim v fun o => (s.pointRec c j).actOn o v)
          s.aux.outputs := by
      show s.actedOver c k m f = _
      unfold State.actedOver
      apply List.foldl_ext
      intro v j hj
      rw [List.mem_range'_1] at hj
      rw [if_pos (show j < m by omega)]
    rw [e1]
    apply List.foldl_ext
    intro v j hj
    rw [List.mem_range'_1] at hj
    rw [if_neg (show ¬j < m by omega)]
  show ({ s with tracker := _, aux := _ } : State) = { s with tracker := _, aux := _ }
  congr 1
  · simp only [State.outcomesTaken, hz]
  · simp only [State.outcomesTaken] at ho ⊢
    rw [ho]

/-- One outcome for a run of points (R68, R87, R91). -/
theorem takeOutcomes_eq (c : Chan) (o : PointOutcome) (n : Nat) :
    ∀ (k : Nat) (s : State), 1 ≤ k → takeOutcomes c o n k s = s.outcomesTaken c k (k + n) fun _ => some o := by
  induction n with
  | zero => exact fun k s _ => (State.outcomesTaken_self s c k _).symm
  | succ n ih =>
    intro k s hk
    show takeOutcomes c o n (k + 1) (takeOutcome c o k s) = _
    rw [takeOutcome_eq c o k s hk, ih (k + 1) _ (by omega), State.outcomesTaken_append _ _ _ _ _ _ _ (by omega) (by omega)]
    rw [show k + 1 + n = k + (n + 1) by omega]
    exact State.outcomesTaken_congr _ _ _ _ _ _ fun j _ _ => by split <;> rfl

/-- The outcome of the current point and one for every later point, taken in point order. -/
theorem takeCurrentAndRest (c : Chan) (o x : PointOutcome) (k n : Nat) (s : State) (h1 : 1 ≤ k) (h2 : k ≤ n) :
    takeOutcomes c x (n - k) (k + 1) (takeOutcome c o k s) =
      s.outcomesTaken c k (n + 1) fun j => some (if j = k then o else x) := by
  rw [takeOutcome_eq _ _ _ _ h1, takeOutcomes_eq _ _ _ _ _ (by omega),
    State.outcomesTaken_append _ _ _ _ _ _ _ (by omega) (by omega), show k + 1 + (n - k) = n + 1 by omega]
  refine State.outcomesTaken_congr _ _ _ _ _ _ fun j ha _ => ?_
  by_cases hj : j = k
  · simp [hj]
  · rw [if_neg (by omega), if_neg hj]

/-- An outcome and the entry to HELD (R86, R87). -/
theorem holdPoint_eq (c : Chan) (o : PointOutcome) (s : State) (h1 : 1 ≤ (s.eng c).at)
    (h2 : (s.eng c).at ≤ (s.eng c).points) : holdPoint c o s = s.heldAfter c o := by
  unfold holdPoint enterHeld
  have he : (takeOutcome c o (s.eng c).at s).eng c = s.eng c := by
    rw [takeOutcome_eq _ _ _ _ h1, State.outcomesTaken_eng]
  simp only [he]
  rw [takeCurrentAndRest c _ _ _ _ s h1 h2]
  simp only [State.modEng, State.outcomesTaken_eng]
  rfl

/-- The close-out of an engine (R91). -/
theorem closeOut_eq (c : Chan) (s : State)
    (h : (s.eng c).state.hasPoint = true → 1 ≤ (s.eng c).at ∧ (s.eng c).at ≤ (s.eng c).points) :
    closeOut c s = s.closedOut c := by
  unfold closeOut State.closedOut
  cases hs : (s.eng c).state <;> simp only [hs, EngineState.hasPoint, forall_const] at h ⊢
  case idle | finished | held => rfl
  case positioning | gated | requesting =>
    rw [takeCurrentAndRest c _ _ _ _ s h.1 h.2]
    simp only [ite_self, enterIdle, State.modEng, State.outcomesTaken_eng]
    rfl
  case firing =>
    rw [takeCurrentAndRest c _ _ _ _ (dropFire c s) h.1 h.2]
    cases c <;> rfl

/-! ## Sending -/

/-- A state with another cursor and window record of one channel, which sending overwrites. -/
def State.aside (s : State) (c : Chan) (x : Option Nat) (w : Option Window) : State :=
  (s.setEng c { s.eng c with cursor := x }).setWindow c w

theorem State.aside_outcomesTaken (s : State) (c : Chan) (x : Option Nat) (w : Option Window) (k n : Nat)
    (f : Nat → Option PointOutcome) :
    (s.aside c x w).outcomesTaken c k n f = (s.outcomesTaken c k n f).aside c x w := by cases c <;> rfl

theorem State.aside_sent (s : State) (c : Chan) (x : Option Nat) (w : Option Window) (j : Nat) :
    (s.aside c x w).sent c j = s.sent c j := by
  have he : (s.aside c x w).eng c = { s.eng c with cursor := x } := by cases c <;> rfl
  have hr : (s.aside c x w).pointRec c j = s.pointRec c j := by cases c <;> rfl
  unfold State.sent
  rw [he, hr]
  cases hp : (s.eng c).pstb <;> cases c <;> simp only [hp] <;> rfl

theorem State.aside_decided (s : State) (c : Chan) (x : Option Nat) (w : Option Window) (j : Nat) :
    (s.aside c x w).decided c j = s.decided c j := by cases c <;> rfl

/-- The zone's datum is not an outcome's business. -/
theorem State.outcomesTaken_relPos (s : State) (c : Chan) (k n : Nat) (f : Nat → Option PointOutcome) :
    (s.outcomesTaken c k n f).relPos = s.relPos := by
  have h : ∀ (z : Zone) g, (z.placed c g).datum = z.datum := by
    intro z g
    cases z <;> rfl
  have hd : (s.outcomesTaken c k n f).tracker.zone.datum = s.tracker.zone.datum := by
    simp only [State.outcomesTaken]
    exact h _ _
  unfold State.relPos
  rw [hd]
  rfl

theorem State.outcomesTaken_decided (s : State) (c : Chan) (k n j : Nat) (f : Nat → Option PointOutcome) :
    (s.outcomesTaken c k n f).decided c j = s.decided c j := by
  unfold State.decided
  rw [State.outcomesTaken_relPos, State.outcomesTaken_pointRec, State.outcomesTaken_eng]

/-- What sending finds, spelled out by R7 and R34, is what the model tests. -/
theorem State.decided_eq (s : State) (c : Chan) (j : Nat) :
    s.decided c j =
      if (s.pointRec c j).meets (s.eng c).options = false then some .skipped
      else if (s.pointRec c j).windowAt (s.relPos.getD 0) = .closed then some .missed
      else none := by
  have hm : ((s.pointRec c j).cond.any fun x => (s.eng c).options.getLsbD x.index != x.required) =
      !(s.pointRec c j).meets (s.eng c).options := by
    unfold PointRec.meets
    cases (s.pointRec c j).cond <;> simp [bne]
  have hw : ((s.pointRec c j).windowOpen ≤ s.relPos.getD 0 ∧ (s.pointRec c j).windowClose < s.relPos.getD 0) ↔
      (s.pointRec c j).windowAt (s.relPos.getD 0) = .closed := by
    unfold PointRec.windowAt
    split
    · simp; omega
    · split <;> simp <;> omega
  unfold State.decided
  simp only [hm, hw, Bool.not_eq_true']

/-- The strobe of a point whose window is not CLOSED at sending. -/
theorem strobe_eq (c : Chan) (j : Nat) (s : State) (x : Option Window) :
    strobe c j (sendWindow c j (s.aside c (some j) x)) = s.sent c j := by
  have hg :
      giveStrobe c j ((sendWindow c j (s.aside c (some j) x)).modEng c fun e =>
        { e with state := .positioning, reach := .stopped }) =
        { (((sendWindow c j (s.aside c (some j) x)).modEng c fun e =>
            { e with state := .positioning, reach := .stopped }).setEng c
              (({ s.eng c with state := .positioning, cursor := some j, reach := .stopped } : Engine).strobed j
                s.sc.reachLimit)) with
          aux := { s.aux with inputs := (s.pointRec c j).clearLatch c s.aux.inputs } } := by
    rw [giveStrobe_eq]
    cases c <;> rfl
  unfold strobe
  cases c
  · obtain ⟨store, counter, tracker, ⟨a1, a2, a3, a4, a5, a6, a7, a8, a9, a10, pstb, a12, a13⟩, engB, view, line, aux,
      sticky, pending⟩ := s
    cases pstb
    · exact hg
    · rfl
  · obtain ⟨store, counter, tracker, engA, ⟨a1, a2, a3, a4, a5, a6, a7, a8, a9, a10, pstb, a12, a13⟩, view, line, aux,
      sticky, pending⟩ := s
    cases pstb
    · exact hg
    · rfl

/-- Sending points `k + 1`, ..., `k + n`: those decided at sending have their outcomes, and the engine is POSITIONING on
the first other one, or FINISHED (R69, R70, R90). -/
theorem sendPoints_eq (c : Chan) (n : Nat) :
    ∀ (k : Nat) (s : State) (x : Option Nat) (w : Option Window),
      sendPoints c n (k + 1) (s.aside c x w) =
        match (List.range' (k + 1) n).find? fun j => s.decided c j == none with
        | some j => (s.outcomesTaken c (k + 1) j (s.decided c)).sent c j
        | none =>
          ((s.outcomesTaken c (k + 1) (k + n + 1) (s.decided c)).setEng c
            { (s.eng c).homed .finished with cursor := if 0 < n then some (k + n) else x }).setWindow c none := by
  induction n with
  | zero =>
    intro k s x w
    show enterFinished c (s.aside c x w) = _
    simp only [List.range'_zero, List.find?_nil, Nat.add_zero, State.outcomesTaken_self, lt_self_iff_false, if_false]
    cases c <;> rfl
  | succ n ih =>
    intro k s x w
    have step : ∀ (o : PointOutcome) (y : Option Window), s.decided c (k + 1) = some o →
        sendPoints c n (k + 1 + 1) (takeOutcome c o (k + 1) (s.aside c (some (k + 1)) y)) =
          match (List.range' (k + 1) (n + 1)).find? fun j => s.decided c j == none with
          | some j => (s.outcomesTaken c (k + 1) j (s.decided c)).sent c j
          | none =>
            ((s.outcomesTaken c (k + 1) (k + (n + 1) + 1) (s.decided c)).setEng c
              { (s.eng c).homed .finished with
                cursor := if 0 < n + 1 then some (k + (n + 1)) else x }).setWindow c none := by
      intro o y hd
      rw [takeOutcome_eq _ _ _ _ (by omega), State.aside_outcomesTaken, ih]
      rw [List.range'_succ, List.find?_cons_of_neg (by simp [hd])]
      simp only [State.outcomesTaken_decided, State.outcomesTaken_eng]
      have hone : ∀ j, k + 1 + 1 ≤ j →
          (s.outcomesTaken c (k + 1) (k + 1 + 1) fun _ => some o).outcomesTaken c (k + 1 + 1) j
              ((s.outcomesTaken c (k + 1) (k + 1 + 1) fun _ => some o).decided c) =
            s.outcomesTaken c (k + 1) j (s.decided c) := by
        intro j hj
        rw [State.outcomesTaken_append _ _ _ _ _ _ _ (by omega) hj]
        refine State.outcomesTaken_congr _ _ _ _ _ _ fun i h1 h2 => ?_
        by_cases hi : i < k + 1 + 1
        · rw [if_pos hi, show i = k + 1 by omega, hd]
        · rw [if_neg hi, State.outcomesTaken_decided]
      cases hf : (List.range' (k + 1 + 1) n).find? fun j => s.decided c j == none with
      | some j =>
        have hm := List.mem_of_find?_eq_some hf
        rw [List.mem_range'_1] at hm
        simp only
        rw [hone j (by omega)]
      | none =>
        simp only
        rw [show k + 1 + n + 1 = k + (n + 1) + 1 by omega, hone _ (by omega)]
        simp only [show (if 0 < n then some (k + 1 + n) else some (k + 1)) = some (k + (n + 1)) by
          split <;> simp <;> omega, show 0 < n + 1 by omega, if_true]
    have hr : (s.aside c x w).pointRec c (k + 1) = s.pointRec c (k + 1) := by cases c <;> rfl
    have ho : ((s.aside c x w).eng c).options = (s.eng c).options := by cases c <;> rfl
    have hc : (s.aside c x w).modEng c (fun e => { e with cursor := some (k + 1) }) = s.aside c (some (k + 1)) w := by
      cases c <;> rfl
    show (if ((s.aside c x w).pointRec c (k + 1)).meets ((s.aside c x w).eng c).options then _ else _) = _
    rw [hr, ho, hc]
    have hwin : (sendWindow c (k + 1) (s.aside c (some (k + 1)) w)).counter.window c =
        some
          { state := (s.pointRec c (k + 1)).windowAt (s.relPos.getD 0)
            openDue := (s.pointRec c (k + 1)).windowAt (s.relPos.getD 0) == .opened
            closeDue := false } := by
      cases c <;> rfl
    by_cases hm : (s.pointRec c (k + 1)).meets (s.eng c).options = true
    · rw [if_pos hm, hwin]
      by_cases hcl : (s.pointRec c (k + 1)).windowAt (s.relPos.getD 0) = .closed
      · simp only [Option.map_some, hcl, if_true]
        have hd : s.decided c (k + 1) = some .missed := by
          rw [State.decided_eq]
          simp [hm, hcl]
        have ha : sendWindow c (k + 1) (s.aside c (some (k + 1)) w) =
            s.aside c (some (k + 1))
              (some
                { state := (s.pointRec c (k + 1)).windowAt (s.relPos.getD 0)
                  openDue := (s.pointRec c (k + 1)).windowAt (s.relPos.getD 0) == .opened
                  closeDue := false }) := by
          cases c <;> rfl
        rw [ha]
        exact step .missed _ hd
      · simp only [Option.map_some, Option.some.injEq, hcl, if_false]
        have hd : s.decided c (k + 1) = none := by
          rw [State.decided_eq]
          simp [hm, hcl]
        rw [strobe_eq, List.range'_succ, List.find?_cons_of_pos (by simp [hd])]
        simp only
        rw [State.outcomesTaken_self]
    · rw [if_neg hm]
      have hd : s.decided c (k + 1) = some .skipped := by
        rw [State.decided_eq]
        simp [hm]
      exact step .skipped w hd

/-- The outcome of the current point and the advance from it (R70, R86). -/
theorem endPoint_eq (c : Chan) (o : PointOutcome) (s : State) (h1 : 1 ≤ (s.eng c).at)
    (h2 : (s.eng c).at ≤ (s.eng c).points) : endPoint c o s = s.advancedAfter c (s.eng c).at (some o) := by
  obtain ⟨k, hk⟩ : ∃ k, (s.eng c).at = k := ⟨_, rfl⟩
  have hcur : (s.eng c).cursor = some k := by
    unfold Engine.at at hk h1
    cases hx : (s.eng c).cursor with
    | none => rw [hx] at h1; simp at h1
    | some y => rw [hx] at hk; simp at hk; rw [hk]
  have hid : ∀ u : State, u = u.aside c (u.eng c).cursor (u.counter.window c) := by
    intro u
    cases c <;> rfl
  unfold endPoint advance
  rw [hk, takeOutcome_eq _ _ _ _ (by omega)]
  simp only [State.outcomesTaken_eng]
  rw [hk, hid (s.outcomesTaken c k (k + 1) fun _ => some o), sendPoints_eq]
  unfold State.advancedAfter
  simp only [State.outcomesTaken_eng, State.outcomesTaken_decided, hcur]
  have hone : ∀ j, k + 1 ≤ j →
      (s.outcomesTaken c k (k + 1) fun _ => some o).outcomesTaken c (k + 1) j
          ((s.outcomesTaken c k (k + 1) fun _ => some o).decided c) =
        s.outcomesTaken c k j fun j => if j = k then some o else s.decided c j := by
    intro j hj
    rw [State.outcomesTaken_append _ _ _ _ _ _ _ (by omega) hj]
    refine State.outcomesTaken_congr _ _ _ _ _ _ fun i hi1 hi2 => ?_
    by_cases hi : i < k + 1
    · rw [if_pos hi, if_pos (by omega)]
    · rw [if_neg hi, if_neg (by omega), State.outcomesTaken_decided]
  cases hf : (List.range' (k + 1) ((s.eng c).points - k)).find? fun j => s.decided c j == none with
  | some j =>
    have hm := List.mem_of_find?_eq_some hf
    rw [List.mem_range'_1] at hm
    simp only
    rw [hone j (by omega)]
  | none =>
    simp only
    rw [show k + ((s.eng c).points - k) + 1 = (s.eng c).points + 1 by omega, hone _ (by omega),
      show k + ((s.eng c).points - k) = (s.eng c).points by omega]
    simp only [show (0 < (s.eng c).points - k) ↔ k < (s.eng c).points by omega]

end Sys2Proof.Machine
end

