-- ==== Sys2Proof/Laws/Line.lean ====
section
/-!
SUPPORT. What the shared operations of the feeder table and the line controller can do, in the closed forms of
Sys2Proof/Safety.lean: expiry, the boundary, the rotation, frames, own turn ends, OFF LINE.
-/

namespace Sys2Proof.Machine

/-! ## Expiry and rounds -/

/-- Every row of a view, changed alike. -/
theorem mapRows_eq (f : AddrRow → AddrRow) (v : Vector AddrRow 30) : mapRows f v = v.map f := by
  apply Vector.ext
  intro i hi
  simp [mapRows]

/-- An expiry reported to an engine: OVERRUN and HELD in FIRING, nothing otherwise (R84). -/
theorem reportExpiry_eq (c : Chan) (s : State) (h : s.Pointed) :
    reportExpiry c s = if (s.eng c).state = .firing then s.heldAfter c .overrun else s := by
  unfold reportExpiry
  split
  · rename_i hf
    obtain ⟨h1, h2⟩ := h c (by rw [hf]; rfl)
    have ha : ((dropFire c s).eng c).at = (s.eng c).at := by cases c <;> rfl
    have hp : ((dropFire c s).eng c).points = (s.eng c).points := by cases c <;> rfl
    rw [holdPoint_eq _ _ _ (by rw [ha]; exact h1) (by rw [ha, hp]; exact h2)]
    cases c <;> rfl
  · rfl

/-- HELD leaves the other channel's engine as it was. -/
theorem State.heldAfter_eng_other (s : State) (c d : Chan) (o : PointOutcome) (h : d ≠ c) :
    (s.heldAfter c o).eng d = s.eng d := by
  cases c <;> cases d <;> first | rfl | exact absurd rfl h

/-- HELD leaves every engine at a point of its program. -/
theorem State.heldAfter_pointed (s : State) (c : Chan) (o : PointOutcome) (h : s.Pointed) : (s.heldAfter c o).Pointed := by
  intro d
  by_cases hd : d = c
  · subst hd
    have : ((s.heldAfter d o).eng d).state = .held := by cases d <;> rfl
    rw [this]
    exact fun hf => absurd hf (by decide)
  · rw [State.heldAfter_eng_other s c d o hd]
    exact h d

/-- An own slot's expiry beside any view: the report, or nothing (R105). -/
theorem reportExpiry_beside (s : State) (m : Word16) (c : Chan) (u : State) (v : View) (h : u.Pointed)
    (hs : (u.eng c).state = (s.eng c).state) :
    (if ((s.view.row s.own).slot c).expired m = true then reportExpiry c { u with view := v } else { u with view := v }) =
      { s.overrunAt m c u with view := v } := by
  have he : ∀ d, (State.eng { u with view := v } d) = u.eng d := fun d => by cases d <;> rfl
  have hp : State.Pointed { u with view := v } := fun d => by
    rw [he]
    exact h d
  rw [reportExpiry_eq c _ hp, he, hs]
  unfold State.overrunAt
  by_cases h1 : ((s.view.row s.own).slot c).expired m = true <;> by_cases h2 : (s.eng c).state = .firing
  · rw [if_pos h1, if_pos h2, if_pos ⟨h1, h2⟩]
    cases c <;> rfl
  · rw [if_pos h1, if_neg h2, if_neg fun h => h2 h.2]
  · rw [if_neg h1, if_neg fun h => h1 h.1]
  · rw [if_neg h1, if_neg fun h => h1 h.1]

/-- An overrun keeps every engine at a point of its program. -/
theorem State.overrunAt_pointed (s : State) (m : Word16) (c : Chan) (u : State) (h : u.Pointed) :
    (s.overrunAt m c u).Pointed := by
  unfold State.overrunAt
  split
  · exact State.heldAfter_pointed u c .overrun h
  · exact h

/-- An overrun leaves the other channel's engine. -/
theorem State.overrunAt_eng_other (s : State) (m : Word16) (c d : Chan) (u : State) (h : d ≠ c) :
    (s.overrunAt m c u).eng d = u.eng d := by
  unfold State.overrunAt
  split
  · exact State.heldAfter_eng_other u c d .overrun h
  · rfl

/-- The feeder table takes a round count (R104, R105). -/
theorem expireClaims_eq (s : State) (n : Word16) (h : s.Pointed) (hc : s.line.count = some n) :
    expireClaims s = s.expiredAt n := by
  have hw : s.view.expire n =
      { s.view with
        rows := s.view.rows.map (AddrRow.expire n), orphans := s.view.orphans.filter fun o => !o.reached n } := by
    simp only [View.expire, mapRows_eq]
  unfold expireClaims
  rw [hc]
  simp only [hw]
  rw [show (s.view.row s.own).slotA = (s.view.row s.own).slot .a from rfl,
    show (s.view.row s.own).slotB = (s.view.row s.own).slot .b from rfl,
    reportExpiry_beside s n .a s _ h rfl,
    reportExpiry_beside s n .b _ _ (State.overrunAt_pointed s n .a s h)
      (by rw [State.overrunAt_eng_other s n .a .b s (by decide)])]
  rfl

/-- What an overrun leaves as it was. -/
theorem State.overrunAt_frame (s : State) (m : Word16) (c : Chan) (u : State) :
    (s.overrunAt m c u).line = u.line ∧ (s.overrunAt m c u).store = u.store ∧ (s.overrunAt m c u).view = u.view
      ∧ (s.overrunAt m c u).sticky = u.sticky ∧ (s.overrunAt m c u).pending = u.pending := by
  unfold State.overrunAt
  split
  · cases c <;> exact ⟨rfl, rfl, rfl, rfl, rfl⟩
  · exact ⟨rfl, rfl, rfl, rfl, rfl⟩

/-- What an expiry leaves as it was. -/
theorem State.expiredAt_frame (s : State) (m : Word16) :
    (s.expiredAt m).line = s.line ∧ (s.expiredAt m).store = s.store ∧ (s.expiredAt m).sticky = s.sticky
      ∧ (s.expiredAt m).pending = s.pending := by
  obtain ⟨h1, h2, -, h4, h5⟩ := State.overrunAt_frame s m .a s
  obtain ⟨g1, g2, -, g4, g5⟩ := State.overrunAt_frame s m .b (s.overrunAt m .a s)
  exact ⟨g1.trans h1, g2.trans h2, g4.trans h4, g5.trans h5⟩

/-- An overrun beside another line controller with the same straps. -/
theorem State.overrunAt_beside (s u : State) (l : LineCtl) (m : Word16) (c : Chan) (h : l.straps = s.line.straps) :
    ({ s with line := l } : State).overrunAt m c { u with line := l } = { s.overrunAt m c u with line := l } := by
  obtain ⟨a1, straps, a3, a4, a5, a6, a7, a8, a9, a10, a11, a12, a13, a14⟩ := l
  simp only at h
  subst h
  unfold State.overrunAt
  by_cases hp : ((s.view.row s.own).slot c).expired m = true ∧ (s.eng c).state = .firing
  · rw [if_pos hp]
    refine (if_pos ?_).trans ?_
    · cases c <;> exact hp
    · cases c <;> rfl
  · rw [if_neg hp]
    refine (if_neg ?_).trans rfl
    cases c <;> exact hp

/-- Expiry beside another line controller with the same straps. -/
theorem State.expiredAt_beside (s : State) (l : LineCtl) (m : Word16) (h : l.straps = s.line.straps) :
    ({ s with line := l } : State).expiredAt m = { s.expiredAt m with line := l } := by
  unfold State.expiredAt
  rw [State.overrunAt_beside s s l m .a h, State.overrunAt_beside s _ l m .b h]

/-- The join hold count at a boundary: raised in LISTENING, with the entry to JOINING at the hold ceiling + 2 (R149). -/
theorem raiseJoinHold_eq (u : State) (hc : u.line.count.isSome = true) :
    raiseJoinHold u =
      { u with
        line :=
          { u.line with
            joinHold := if u.line.state = .listening then u.line.joinHold + 1 else u.line.joinHold
            state :=
              if u.line.state = .listening ∧ u.lc.holdCeiling + 2 ≤ u.line.joinHold + 1 then .joining
              else u.line.state } } := by
  unfold raiseJoinHold
  by_cases hl : u.line.state = .listening
  · rw [if_pos hl]
    unfold joinHoldEnd
    by_cases hh : u.lc.holdCeiling + 2 ≤ u.line.joinHold + 1
    · rw [if_pos ⟨hl, hc, hh⟩]
      simp only [hl, true_and, hh, if_true]
    · rw [if_neg fun h => hh h.2.2]
      simp only [hl, true_and, hh, if_true, if_false]
  · rw [if_neg hl]
    simp only [hl, false_and, if_false]

/-- The round boundary (R145). -/
theorem boundary_eq (s : State) (n : Word16) (h : s.Pointed) (hc : s.line.count = some n) :
    boundary s = s.roundClosed n := by
  have he : expireClaims { s with line := { s.line with count := some (n + 1) } } =
      { s.expiredAt (n + 1) with line := { s.line with count := some (n + 1) } } := by
    rw [expireClaims_eq { s with line := { s.line with count := some (n + 1) } } (n + 1) h rfl]
    exact State.expiredAt_beside s _ _ rfl
  have hst := (State.expiredAt_frame s (n + 1)).2.1
  have hlc : ∀ (v : View) (l : LineCtl), State.lc { s.expiredAt (n + 1) with view := v, line := l } = s.lc := by
    intro v l
    unfold State.lc
    rw [show (State.store { s.expiredAt (n + 1) with view := v, line := l }) = s.store from hst]
  unfold boundary
  rw [hc]
  simp only [he]
  rw [raiseJoinHold_eq _ rfl]
  rw [hlc]
  rfl

/-- The rotation moves on (R132). -/
theorem moveOn_eq (s : State) (a : Nat) (ref : RefPoint) (h : s.Pointed) : moveOn a ref s = s.movedOn a ref := by
  unfold moveOn State.movedOn nextAddress
  simp only [Config.lastAddress]
  by_cases ha : a = 30
  · simp only [ha, if_true]
    cases hc : s.line.count with
    | none =>
      have : boundary s = s := by
        unfold boundary
        rw [hc]
      rw [this]
      rfl
    | some n =>
      rw [boundary_eq s n h hc]
      rfl
  · simp only [ha, if_false]

/-- The rotation moves on from a position at a frame end, or has been moved on from it already (R132, log 14). -/
theorem moveOnFrom_eq (s : State) (p : Position) (h : s.Pointed) :
    (s.line.position = some p → moveOnFrom p s = s.movedOn p.address .frameEnd)
      ∧ (s.line.position ≠ some p →
          moveOnFrom p s =
            { s with line := { s.line with position := s.line.position.map fun q => { q with ref := .frameEnd } } }) := by
  unfold moveOnFrom
  exact ⟨fun hp => by rw [if_pos hp, moveOn_eq s _ _ h], fun hp => by rw [if_neg hp]⟩

/-- A realignment with the miss cause of its frame (R110, R136, R146). -/
theorem realign_eq (s : State) (p : Position) (u : Nat) (n : Word16) (h : s.Pointed) (hp : s.line.position = some p)
    (hc : s.line.count = some n) : (realign u s).setMiss = s.realigned p.address u n := by
  have hb : boundary s.unclean = s.unclean.roundClosed n := boundary_eq s.unclean n h hc
  unfold realign State.realigned
  rw [hp]
  by_cases hu : u < p.address
  · simp only [hu, if_true, hb]
    rfl
  · simp only [hu, if_false]
    rfl

/-! ## Carriers not taken (R129, R140) -/

/-- LINE_RX is idle exactly when no carrier is on it, taken or not. -/
theorem LineCtl.rxIdle_iff (l : LineCtl) : l.rxIdle = true ↔ l.carrier = none ∧ l.untaken = .absent := by
  simp [LineCtl.rxIdle]

/-- The own turn is forgone (R140, R146, log 25). -/
theorem forgoTurn_eq (s : State) :
    forgoTurn s =
      { s with
        line :=
          { s.line with
            record := { s.line.record with clean := false }
            untaken := if s.line.untaken = .present then .forgone else s.line.untaken } } := rfl

/-- The end of a carrier not taken: nothing, an idle line, or the end of a forgone own turn (R135, R140, R148, log 25). -/
theorem endUntaken_eq (s : State) :
    (s.line.untaken = .absent → endUntaken s = s)
      ∧ (s.line.untaken = .present →
          endUntaken s =
            { s with
              line :=
                { s.line with
                  untaken := .absent
                  foundingTimer :=
                    if s.line.state = .listening ∧ s.line.count = none then .running (2000 + s.own * 100)
                    else s.line.foundingTimer } })
      ∧ (s.line.untaken = .forgone → ∀ p, s.line.position = some p → s.Pointed →
          endUntaken s =
            ({ s with
                view := { s.view with miss := true, missThisRound := true }
                line :=
                  { s.line with
                    untaken := .absent
                    record := { s.line.record with clean := s.line.record.clean && p.kind == .window } } } : State).movedOn
              p.address .frameEnd) := by
  refine ⟨fun h => ?_, fun h => ?_, fun h p hp hs => ?_⟩
  · unfold endUntaken
    rw [h]
  · unfold endUntaken restartFounding
    rw [h]
    simp only
    split <;> rfl
  · have moves : ∀ u : State, u.Pointed → u.line.position = some p →
        moveOnFrom p u = u.movedOn p.address .frameEnd := fun u hu hq => (moveOnFrom_eq u p hu).1 hq
    unfold endUntaken hearGarbled
    rw [h, hp]
    cases hk : p.kind <;> simp only [hk]
    · rw [moves _ (by exact hs) (by exact hp)]
      rw [show (s.line.record.clean && PosKind.turn == PosKind.window) = false from Bool.and_false _]
      rfl
    · rw [moves _ (by exact hs) (by exact hp)]
      rw [show (s.line.record.clean && PosKind.window == PosKind.window) = s.line.record.clean from Bool.and_true _]
      rfl

/-! ## OFF LINE -/

/-- The close-outs of both channels, A before B (R91, R93). -/
theorem closeOutBoth_eq (s : State) (h : s.Pointed) :
    closeOut .b (closeOut .a s) = (s.closedOut .a).closedOut .b := by
  rw [closeOut_eq .a s (h .a)]
  have hb : (s.closedOut .a).eng .b = s.eng .b := by
    unfold State.closedOut
    cases hs : (s.eng .a).state <;> simp only [hs] <;> rfl
  rw [closeOut_eq .b _ (by
    rw [hb]
    exact h .b)]

/-- Conditioning stops on every input (R160). -/
theorem stopConditioning_eq (v : Vector AuxIn 8) : stopConditioning v = v.map fun x => { x with timer := .stopped } := by
  apply Vector.ext
  intro i hi
  interval_cases i <;> simp [stopConditioning]

/-- What a close-out leaves as it was. -/
theorem State.closedOut_frame (s : State) (c : Chan) :
    (s.closedOut c).store = s.store ∧ (s.closedOut c).view = s.view ∧ (s.closedOut c).line = s.line
      ∧ (s.closedOut c).sticky = s.sticky ∧ (s.closedOut c).pending = s.pending
      ∧ (s.closedOut c).aux.inputs = s.aux.inputs
      ∧ (s.closedOut c).tracker = { s.tracker with zone := (s.closedOut c).tracker.zone }
      ∧ (s.closedOut c).counter =
          { s.counter with windowA := (s.closedOut c).counter.windowA, windowB := (s.closedOut c).counter.windowB } := by
  unfold State.closedOut
  cases hs : (s.eng c).state <;> simp only [hs] <;> cases c <;> exact ⟨rfl, rfl, rfl, rfl, rfl, rfl, rfl, rfl⟩

/-- The entry to OFF LINE (R64, R93, R126, R152, R160). -/
theorem enterOffLine_eq (s : State) (h : s.Pointed) : enterOffLine s = s.goneOffLine := by
  obtain ⟨-, a2, a3, -, -, a6, a7, a8⟩ := State.closedOut_frame s .a
  obtain ⟨-, b2, b3, -, -, b6, b7, b8⟩ := State.closedOut_frame (s.closedOut .a) .b
  unfold enterOffLine State.goneOffLine
  rw [closeOutBoth_eq s h]
  simp only [State.own, stopConditioning_eq, b2, a2, b3, a3, b6, a6, Sensor.stopWait]
  rw [b8, a8, b7, a7]

/-! ## Own turn ends -/

/-- The items of a failed echo: the RESULTs among the first `k` become repeats (R139). -/
theorem markRepeats_eq (k : Nat) (items : List Item) :
    markRepeats k items =
      items.zipIdx.map fun x =>
        match x.1 with
        | .result r => .result { r with rpt := r.rpt || decide (x.2 < k) }
        | i => i := by
  have hr : ∀ (x : Item × Nat),
      (match x.1 with
        | .result r => .result { r with rpt := r.rpt || decide (x.2 < k) }
        | i => i) = if x.2 < k then x.1.repeated else x.1 := by
    rintro ⟨i, n⟩
    by_cases h : n < k <;> cases i <;> simp [Item.repeated, h]
  simp only [hr]
  unfold markRepeats
  apply List.ext_getElem
  · simp; omega
  · intro i h1 h2
    simp only [List.getElem_map, List.getElem_zipIdx, Nat.zero_add]
    rw [List.getElem_append]
    simp only [List.length_map, List.length_take, List.getElem_map, List.getElem_take, List.getElem_drop]
    simp only [List.length_map, List.length_zipIdx] at h2
    split
    · rename_i hi
      rw [if_pos (by omega)]
    · rename_i hi
      rw [if_neg (by omega)]
      congr 1
      omega

/-- Own turn end with a failed echo (R124, R141). -/
theorem ownTurnFailed_eq (k jabber : Nat) (ref : RefPoint) (s : State) (h : s.Pointed) :
    ownTurnFailed k jabber ref s = (s.echoFailed k jabber).movedOn s.own ref := by
  have hr : ∀ (x : Slot) (o : Option Offer), revertSlot x o = x.unoffered o := fun x o => by
    unfold revertSlot Slot.unoffered
    rfl
  unfold ownTurnFailed
  simp only [feederFailedEcho, hr, markRepeats_eq]
  rw [moveOn_eq _ _ _ (by exact h)]
  rfl

/-! ## Frames -/

/-- The round of a frame against the count (R147, R149). -/
theorem takeRound_eq (u : Nat) (m : Word16) (s : State) (h : s.Pointed) : takeRound u m s = s.rounded u m := by
  have hcount : ∀ (x : State), x.Pointed → x.line = s.line →
      adoptCount m x = { x.expiredAt m with line := { s.line with count := some m } } := by
    intro x hx hl
    unfold adoptCount
    rw [expireClaims_eq _ m (by exact hx) rfl, ← hl]
    exact State.expiredAt_beside x { x.line with count := some m } m rfl
  unfold takeRound State.rounded
  cases hc : s.line.count with
  | none =>
    simp only
    rw [hcount s h rfl]
    rfl
  | some n =>
    simp only
    by_cases hn : n = m
    · rw [if_pos hn, if_pos hn.symm]
    · rw [if_neg hn, if_neg (Ne.symm hn)]
      have ha : adopts s.line.lastValid u m = s.line.lastValid.any fun g => g.agrees u m := by
        unfold adopts
        cases s.line.lastValid with
        | none => rfl
        | some g =>
          simp only [Option.any_some, LastValid.agrees]
          cases g.since <;> simp [show (Since.zero == Since.one) = false from rfl, show (Since.one == Since.zero) = false from rfl,
            show (Since.more == Since.zero) = false from rfl, show (Since.more == Since.one) = false from rfl]
      rw [ha]
      split
      · rw [hcount s.setMiss (by exact h) rfl]
        rfl
      · rfl

/-- A compared round leaves the roster, the view's rows apart from expiry, and the frame's other parts as they were. -/
theorem State.rounded_frame (s : State) (u : Nat) (m : Word16) :
    (s.rounded u m).line.roster = s.line.roster ∧ (s.rounded u m).line.straps = s.line.straps
      ∧ (s.rounded u m).store = s.store ∧ (s.rounded u m).view.adoptPending = s.view.adoptPending
      ∧ (s.rounded u m).view.pointer = s.view.pointer := by
  have h := fun x : State => State.expiredAt_frame x m
  unfold State.rounded
  cases s.line.count with
  | none => exact ⟨rfl, rfl, (h s).2.1, rfl, rfl⟩
  | some n =>
    simp only
    split
    · exact ⟨rfl, rfl, rfl, rfl, rfl⟩
    · split
      · exact ⟨rfl, rfl, (h _).2.1, rfl, rfl⟩
      · exact ⟨rfl, rfl, rfl, rfl, rfl⟩

end Sys2Proof.Machine
end

