-- ==== Sys2Proof/Laws/Store.lean ====
section
/-!
SUPPORT. The point array keeps its one form, and what it answers after a record enters it.
-/

namespace Sys2Proof.Machine

/-- Positions of the array after a record enters it: the ones it had, and the record's. -/
theorem insertPoint_positions (anew : Bool) (i : Nat) (r : PointRec) (array : List (Nat × PointRec)) :
    ∀ j, j ∈ (insertPoint anew i r array).map Prod.fst ↔ j = i ∨ j ∈ array.map Prod.fst := by
  induction array with
  | nil => simp [insertPoint]
  | cons e rest ih =>
    intro j
    unfold insertPoint
    split
    · simp
    · split
      · cases anew <;> simp_all
      · simp only [List.map_cons, List.mem_cons, ih j]
        tauto

/-- A record enters the point array in its place: the array stays in its one form. -/
theorem insertPoint_wf (anew : Bool) (i : Nat) (r : PointRec) (array : List (Nat × PointRec))
    (h : PointArray.wf array = true) : PointArray.wf (insertPoint anew i r array) = true := by
  simp only [PointArray.wf, decide_eq_true_eq] at h ⊢
  induction array with
  | nil => simp [insertPoint]
  | cons e rest ih =>
    simp only [List.map_cons, List.pairwise_cons] at h
    unfold insertPoint
    split
    · rename_i hi
      simp only [List.map_cons, List.pairwise_cons, List.mem_cons]
      refine ⟨?_, h⟩
      rintro j (rfl | hj)
      · exact hi
      · exact lt_trans hi (h.1 j hj)
    · split
      · rename_i hi
        subst hi
        cases anew <;> exact List.pairwise_cons.2 h
      · rename_i h1 h2
        simp only [List.map_cons, List.pairwise_cons]
        refine ⟨fun j hj => ?_, ih h.2⟩
        rcases (insertPoint_positions anew i r rest j).1 hj with rfl | hj
        · omega
        · exact h.1 j hj

/-- Records enter the point array: it stays in its one form. -/
theorem insertPoints_wf (anew : Bool) (recs : List PointRec) :
    ∀ (i : Nat) (array : List (Nat × PointRec)), PointArray.wf array = true →
      PointArray.wf (insertPoints anew i recs array) = true := by
  induction recs with
  | nil => exact fun _ _ h => h
  | cons r rest ih => exact fun i array h => ih (i + 1) _ (insertPoint_wf anew i r array h)

/-- After reset the point array is empty, in its one form. -/
theorem pointArray_reset_wf : PointArray.wf State.reset.store.points = true := by decide

/-- What the array answers at the position of a record that entered anew. -/
theorem insertPoint_find_same (i : Nat) (r : PointRec) (array : List (Nat × PointRec)) :
    (insertPoint true i r array).find? (fun e => e.1 == i) = some (i, r) := by
  induction array with
  | nil => simp [insertPoint]
  | cons e rest ih =>
    unfold insertPoint
    split
    · simp
    · split
      · simp
      · rename_i h1 h2
        rw [List.find?_cons_of_neg (by simp; omega)]
        exact ih

/-- What the array answers at every other position. -/
theorem insertPoint_find_other (anew : Bool) (i j : Nat) (r : PointRec) (array : List (Nat × PointRec)) (h : j ≠ i) :
    (insertPoint anew i r array).find? (fun e => e.1 == j) = array.find? (fun e => e.1 == j) := by
  induction array with
  | nil => simp [insertPoint, Ne.symm h]
  | cons e rest ih =>
    unfold insertPoint
    split
    · simp [Ne.symm h]
    · split
      · rename_i h1 h2
        cases anew
        · rfl
        · simp [h2 ▸ Ne.symm h, Ne.symm h]
      · simp [List.find?_cons, ih]

end Sys2Proof.Machine
end

