-- ==== Sys2Proof/WellFormed.lean ====
section
/-!
DEFINITION. Which operands an event of the part can bring. A meaning takes any operands (log 4): this predicate says
which of them the hardware itself can supply.
-/

namespace Sys2Proof

/-- The lengths the program memory layout of 10.3 gives the passes, and the longest carrier R129 leaves: a first start
bit to the cut at 1.40 ms is at most 280 bytes of 5 µs. -/
def Instr.wellFormed : Instr → Bool
  | .headerPass image => image.length == 46
  | .stylePass image => image.length % 3 == 0 && image.length ≤ 3 * 64
  | .directoryPass image _ => image.length % 5 == 0 && image.length ≤ 5 * 128
  | .programPass image _ => image.length % 11 == 0 && image.length ≤ 11 * 255
  | .carrierEnd bytes _ => 1 ≤ bytes.length && bytes.length ≤ 280
  | .reset | .strapReading _ | .countChange _ | .illegalTransition | .haltTimerExpiry | .heldReadExpiry
  | .pairingWaitExpiry | .zoneLengthEvent | .arrival | .zoneExit | .tagByte _ _ | .tagByteTimeout | .pstbPulseEnd _
  | .atPtRise _ | .reachExpiry _ | .windowOpen _ | .windowClose _ | .auxRawChange _ _ | .auxFilterExpiry _
  | .wdoneRise _ _ | .wfaultRise _ | .carrierStart | .carrierTimeout | .noEchoTimeout | .jabberCut | .ownTurnStart
  | .joinFrameStart | .lapse | .vacancyWindowEnd | .claimExpiry | .joinHoldEnd | .founding
  | .sensorRawLevelChange _ _ | .sensorFallingEdge _ | .transmissionEnd => true

end Sys2Proof
end

