-- ==== Sys2Proof/Tests/Slice0.lean ====
section
/-!
SUPPORT. Tests on small states, and for every statement with hypotheses a state that meets them. Values come from the
manual's worked examples and tables; check values from an independent computation of the 16-bit check of R184.
-/

namespace Sys2Proof.Tests

set_option Elab.async false

open Sys2Proof.Machine

/-! ## Small states -/

/-- The state after a command. -/
def after (i : Instr) (s : State) : State :=
  match exec i s with
  | .next t => t
  | .fault _ | .refused _ => s

/-- A point of the worked example 4.10. -/
def point (schedule load hold windowOpen windowClose : Nat) : PointRec :=
  { schedule := schedule, load := load, hold := hold, windowOpen := windowOpen, windowClose := windowClose,
    cond := none, gate := none, action := none }

/-- Program 1 of the worked example 4.10, in the point array. -/
def program : List (Nat × PointRec) :=
  [(0, point 11 40 3 200 700),
    (1, { point 12 35 3 900 1400 with cond := some { index := 3, required := true } }),
    (2, { point 14 45 4 1500 2100 with
          gate := some { line := 1, kind := .event }, action := some { line := 4, always := true, level := true } }),
    (3, point 11 40 3 2300 2500),
    (4, { point 15 50 4 3000 3800 with action := some { line := 2, always := false, level := true } })]

/-- Line constants: budget 150, STRICT, ROTATING. -/
def lineConsts : LineConsts :=
  { budget := 150, policy := .strict, order := .rotating, fillGuard := 1, holdCeiling := 16, digest := 0xFC83 }

/-- Station constants of the worked examples 2.8 and 4.10; input 1 has an event on becoming active and no filter, input
0 a filter of 3 ms. -/
def stationConsts : StationConsts :=
  { StationConsts.unloaded with
    enableA := true, enableB := true, zoneLength := 6000, hysteresis := 8, haltTime := 20, reachLimit := 40
    tagWait := 1000
    auxIn :=
      #v[{ used := true, activeLow := false, edge := .never, filter := 3 },
        { used := true, activeLow := false, edge := .onActive, filter := 0 }, AuxInCfg.unloaded, AuxInCfg.unloaded,
        AuxInCfg.unloaded, AuxInCfg.unloaded, AuxInCfg.unloaded, AuxInCfg.unloaded]
    auxOut :=
      #v[AuxOutCfg.unloaded, AuxOutCfg.unloaded, { AuxOutCfg.unloaded with used := true }, AuxOutCfg.unloaded,
        { AuxOutCfg.unloaded with used := true }, AuxOutCfg.unloaded, AuxOutCfg.unloaded, AuxOutCfg.unloaded] }

/-- Station 6 of the worked example 4.10, on line in its own turn of round 412, with an empty zone. -/
def station : State :=
  { State.reset with
    store :=
      { Store.afterReset with
        line := some lineConsts, station := some stationConsts, styleCount := 1, programCount := 1, totalPoints := 5
        styles := [{ style := 12, progA := some 1, progB := none }], directory := [{ first := 0, count := 5, check := 0 }]
        points := program, phase := .ended }
    counter := { Counter.afterReset with quad := some (false, false), raw := 50000, tracked := 50000 }
    view := { View.afterReset with fresh := false, adoptPending := false }
    line :=
      { LineCtl.afterReset.setRoster 6 (some 0) with
        state := .onLine, straps := 6, count := some 412, position := some { address := 6, kind := .turn, ref := .frameEnd }
        record := { complete := true, clean := true, openedOnLine := true, goodEcho := false } }
    aux := { AuxUnit.afterReset with outputs := AuxUnit.afterReset.outputs.set 2 .inactive |>.set 4 .inactive } }

/-- The body of the worked example 4.10, its option set {0, 5}, with these places on channel A. -/
def body (places : List (Option PointOutcome)) : Body :=
  { serial := 2301, style := 12, options := 0x21, disputed := false, listed := true
    partA := { answer := .good 1 5, places := places }, partB := { answer := .absent, places := [] } }

/-- Engine A in a state of Table 24 at point `k`, with its places and its window. -/
def working (st : EngineState) (k : Nat) (places : List (Option PointOutcome)) (w : WindowState) : State :=
  { station with
    tracker := { station.tracker with zone := .bound 50000 (body places) }
    counter := { station.counter with windowA := some { state := w, openDue := false, closeDue := false } }
    engA :=
      { Engine.afterReset with
        state := st, cursor := some k, running := some { program := 1, count := 5 }, options := 0x21
        pt := BitVec.ofNat 8 k } }

/-- Five places, none written. -/
def unset : List (Option PointOutcome) := List.replicate 5 none

/-- Step 3 of the worked example 4.10: REQUESTING on point 1 in round 412. -/
def requesting : State :=
  let s := working .requesting 1 unset .opened
  { s with
    engA :=
      { s.engA with
        requestNumber := 1, request := some { point := 1, load := 40, hold := 3, round := some 412, number := 1 } }
    pending := [.ownTurnStart] }

/-- Step 4 of the worked example 4.10: FIRING on point `k` with the own slot ACTIVE since round 412, hold 3. -/
def firing (k schedule faults : Nat) (places : List (Option PointOutcome)) : State :=
  let s := working .firing k places .opened
  { s with
    engA := { s.engA with sch := BitVec.ofNat 6 schedule, fire := true, faults := faults }
    view := s.view.setSlot 6 .a (.active 40 412 3) }

/-- A carrier is being taken on a line at rest, begun at the position held. -/
def hearing (s : State) (a : Nat) (k : PosKind) (deHigh : Bool) : State :=
  let p : Position := { address := a, kind := k, ref := .frameEnd }
  { s with line := { s.line with position := some p, carrier := some { deHigh := deHigh, began := some p } } }

/-- A frame of station 9 in round 412 with an ACTIVE slot on channel A and a RESYNC of body 2301; its check computed
apart from the model. -/
def frameBytes : List Byte :=
  [166, 9, 0, 1, 156, 4, 252, 131, 0, 0, 0, 0, 0, 0, 1, 128, 3, 30, 1, 156, 0, 0, 0, 0, 0, 3, 0, 8, 253, 226, 187]

/-- The frame those bytes carry. -/
def frame : Frame :=
  { sender := 9, fresh := false, blind := false, reader := false, exit := false, halted := false, occupied := false
    round := 412, pointer := 4, digest := 0xFC83, tag := 0, status := 0
    slotA := { kind := 2, hold := 3, load := 30, round := 412 }, slotB := { kind := 0, hold := 0, load := 0, round := 0 }
    items := [.resync 2301] }

/-- A header with budget 1000, hold ceiling 16 and a zone length of 6000; its checks computed apart from the model. -/
def header : List Byte :=
  [87, 66, 1, 1, 1, 2, 3, 4, 3, 232, 0, 1, 1, 0, 16, 252, 131, 23, 112, 8, 20, 40, 3, 232, 0, 80, 0, 0, 0, 0, 0, 0, 0, 0,
    128, 0, 129, 0, 0, 0, 1, 1, 0, 1, 152, 56]

/-- LOADING with the straps of station 6, before the header pass. -/
def loading : State := after (.strapReading 6) State.reset

/-- The pins of a station at rest. -/
def pins : PinSample := { encA := false, encB := false, bodyIn := false, zoneOut := false, aux := 0, lineIdle := true }

/-! ## Operands and formats -/

theorem test_header_short : (Instr.headerPass (header.take 45)).wellFormed = false := by decide
theorem test_styles_ragged : (Instr.stylePass [12, 1]).wellFormed = false := by decide
theorem test_styles_long : (Instr.stylePass (List.replicate 195 0)).wellFormed = false := by decide +kernel
theorem test_directory_ragged : (Instr.directoryPass [0, 0, 1, 252] pins).wellFormed = false := by decide
theorem test_directory_long : (Instr.directoryPass (List.replicate 645 0) pins).wellFormed = false := by decide +kernel
theorem test_program_ragged : (Instr.programPass [11] pins).wellFormed = false := by decide
theorem test_program_long : (Instr.programPass (List.replicate 2816 0) pins).wellFormed = false := by decide +kernel
theorem test_carrier_silent : (Instr.carrierEnd [] false).wellFormed = false := by decide
theorem test_carrier_long : (Instr.carrierEnd (List.replicate 281 0) false).wellFormed = false := by decide +kernel
theorem test_carrier_admitted : (Instr.carrierEnd frameBytes false).wellFormed = true := by decide
theorem test_no_word : decodeTableWord 8 5 = none := by decide
theorem test_frame_reads : Frame.parse frameBytes = some frame := by decide +kernel
theorem test_frame_writes : frame.encode = frameBytes := by decide +kernel
theorem test_frame_damaged : Frame.parse (frameBytes.set 5 5) = none := by decide +kernel
theorem test_check : crc16 [0x31, 0x32, 0x33, 0x34, 0x35, 0x36, 0x37, 0x38, 0x39] = 0x29B1 := by decide +kernel

/-! ## Start-up -/

theorem test_reset : (after .reset (firing 1 11 0 unset)).engA.fire = false := by decide +kernel
theorem test_reset_queue : (after .reset requesting).pending = [.ownTurnStart] := by decide +kernel
theorem test_strap_31 : (after (.strapReading 31) State.reset).line.state = .offLine := by decide +kernel
theorem test_strap_30 : (after (.strapReading 30) State.reset).line.state = .loading := by decide +kernel
theorem test_header_good : (after (.headerPass header) loading).lc.budget = 1000 := by decide +kernel
theorem test_header_silent : (after (.headerPass []) loading).store.firstFault.kind = .marker := by decide +kernel

/-- After the good header. -/
def loaded : State :=
  { loading with
    store :=
      { loading.store with
        line := some lineConsts, station := some stationConsts, styleCount := 1, programCount := 1, totalPoints := 1
        phase := .styles } }

/-- After the style pass. -/
def styled : State := { loaded with store := { loaded.store with phase := .directory } }

/-- In the fourth pass, before program 1: one point, its program check computed apart from the model. -/
def checking : State :=
  { loaded with store := { loaded.store with directory := [{ first := 0, count := 1, check := 0xFC5A }], phase := .points 1 } }

/-- The record of point 1 of the worked example 4.10. -/
def record : List Byte := [11, 40, 0, 3, 0, 200, 2, 188, 0, 0, 0]

theorem test_style_undefined : (after (.stylePass [12, 2, 0]) loaded).store.marked 2 = true := by decide +kernel
theorem test_style_repeated :
    (after (.stylePass [12, 1, 0, 12, 0, 0]) { loaded with store := { loaded.store with styleCount := 2 } }).store.firstFault =
      { kind := .styleEntry, program := 0, point := 2 } := by decide +kernel
theorem test_directory_empty : (after (.directoryPass [0, 0, 0, 0, 0] pins) styled).store.marked 1 = true := by decide +kernel
theorem test_directory_good : (after (.directoryPass [0, 0, 1, 252, 90] pins) styled).store.phase = .points 1 := by
  decide +kernel
theorem test_program_good : (after (.programPass record pins) checking).line.state = .listening := by decide +kernel
theorem test_program_check : (after (.programPass (record.set 1 41) pins) checking).store.firstFault =
    { kind := .programCheck, program := 1, point := 0 } := by decide +kernel

/-! ## The conveyor (worked example 2.8) -/

/-- Step 3 of the worked example 2.8: C = 50,992, T = 51,000. -/
def rolled : State := { station with counter := { station.counter with raw := 50992, tracked := 51000 } }

theorem test_roll_back : (after (.countChange .encB) rolled).counter.tracked = 50999 := by decide +kernel
theorem test_roll_back_bit : (after (.countChange .encB) rolled).sticky.reverseTravel = true := by decide +kernel
theorem test_illegal : (after .illegalTransition rolled).sticky.encoderError = true := by decide +kernel
theorem test_halt :
    (after .haltTimerExpiry { rolled with counter := { rolled.counter with haltTimer := .running 200000 } }).counter.tracked =
      50992 := by decide +kernel

/-! ## Points (worked example 4.10, Table 24) -/

theorem test_gated : (after (.atPtRise .a) (working .positioning 1 unset .notYet)).engA.state = .gated := by decide +kernel
theorem test_window_open :
    (after (.windowOpen .a) ((working .gated 1 unset .opened).setWindow .a (some ⟨.opened, true, false⟩))).engA.request =
      some { point := 1, load := 40, hold := 3, round := some 412, number := 1 } := by decide +kernel
theorem test_welded : (after (.wdoneRise .a false) (firing 1 11 0 unset)).tracker.zone =
    .bound 50000 (body [some .welded, some .skipped, none, none, none]) := by decide +kernel
theorem test_welded_next : (after (.wdoneRise .a false) (firing 1 11 0 unset)).engA.pt = 3 := by decide +kernel
theorem test_faulted_action : (after (.wfaultRise .a) (firing 3 14 0 unset)).aux.outputs[4] = .active := by decide +kernel
theorem test_faulted_twice : (after (.wdoneRise .a true) (firing 3 14 1 unset)).engA.state = .held := by decide +kernel
theorem test_window_close :
    (after (.windowClose .a) ((working .requesting 4 unset .closed).setWindow .a (some ⟨.closed, false, true⟩))).engA.cursor =
      some 5 := by decide +kernel
theorem test_reach :
    (after (.reachExpiry .a)
      { working .positioning 4 unset .notYet with
        engA := { (working .positioning 4 unset .notYet).engA with reach := .running 4000000 } }).tracker.zone =
      .bound 50000 (body [none, none, none, some .stalled, some .withheld]) := by decide +kernel
theorem test_pulse_end :
    (after (.pstbPulseEnd .a)
      { working .positioning 3 unset .notYet with
        engA :=
          { (working .positioning 3 unset .notYet).engA with pt := 1, pstb := .running 10, pendingStrobe := some 3 } }).engA.pt =
      3 := by decide +kernel

/-! ## Auxiliary lines -/

/-- Input 1 sampled inactive, input 0 sampled inactive. -/
def sampled (s : State) : State :=
  { s with
    aux :=
      { s.aux with
        inputs :=
          (s.aux.inputs.set 0 { AuxIn.afterReset with raw := some false }).set 1
            { AuxIn.afterReset with raw := some false } } }

theorem test_clamp_closes : (after (.auxRawChange 1 true) (sampled (working .gated 3 unset .opened))).engA.state = .requesting := by
  decide +kernel
theorem test_filter_starts : (after (.auxRawChange 0 true) (sampled station)).aux.inputs[0].timer = .running 3000 := by
  decide +kernel
theorem test_filter_expires :
    (after (.auxFilterExpiry 0) (after (.auxRawChange 0 true) (sampled station))).aux.inputs[0].filtered = true := by
  decide +kernel

/-! ## Bodies -/

/-- A sensor whose raw level has been active for the filter time. -/
def rising : Sensor := { raw := true, filtered := false, wait := .running 2000 }

/-- A station with a body announced from upstream, and BODY_IN rising. -/
def arriving : State :=
  { station with
    tracker :=
      { station.tracker with
        bodyIn := rising
        register := [{ serial := 2301, style := 12, options := 0x21, announcer := 5, disputed := false, mark := .ahead }] } }

/-- The same station with a reader. -/
def withReader (s : State) : State :=
  { s with store := { s.store with station := some { stationConsts with reader := true } } }

theorem test_arrival : (after .arrival arriving).tracker.zone = .bound 50000 (body unset) := by decide +kernel
theorem test_arrival_engine : (after .arrival arriving).engA.state = .positioning := by decide +kernel
theorem test_arrival_reader : (after .arrival (withReader arriving)).tracker.zone = .pairing 50000 := by decide +kernel
theorem test_zone_length :
    (after .zoneLengthEvent
      { firing 3 14 0 [some .welded, some .skipped, none, none, none] with
        counter := { (firing 3 14 0 unset).counter with zoneWatch := .due } }).line.outbox =
      [.result
        { serial := 2301, channel := .a, rpt := false, more := false, unlisted := false, welded := 1, skipped := 1
          missed := 2, defective := 1, withheld := 0
          defects := [{ point := 3, kind := 6 }, { point := 4, kind := 3 }, { point := 5, kind := 3 }] }] := by
  decide +kernel
theorem test_zone_exit :
    (after .zoneExit
      { working .finished 5 [some .welded, some .skipped, some .faulted, some .missed, some .welded] .closed with
        tracker :=
          { station.tracker with
            zoneOut := rising
            zone := .bound 50000 (body [some .welded, some .skipped, some .faulted, some .missed, some .welded]) } }).line.outbox =
      [.result
        { serial := 2301, channel := .a, rpt := false, more := false, unlisted := false, welded := 2, skipped := 1
          missed := 1, defective := 1, withheld := 0, defects := [{ point := 3, kind := 4 }, { point := 4, kind := 3 }] }] := by
  decide +kernel
theorem test_held_read :
    (after .heldReadExpiry
      { withReader station with
        counter := { station.counter with heldWatch := .due }
        tracker := { station.tracker with held := some ⟨7, 12, 0, 0⟩ } }).tracker.held = none := by decide +kernel

/-- A body stands in PAIRING, its wait discharged. -/
def pairing : State :=
  { withReader arriving with
    counter := { station.counter with pairWatch := .due }, tracker := { arriving.tracker with zone := .pairing 50000 } }

theorem test_pairing_wait : (after .pairingWaitExpiry pairing).sticky.tagMissing = true := by decide +kernel

/-- A reader with seven bytes of a record of body 2301, style 12, options {0, 5}. -/
def reading (s : State) : State :=
  { s with tracker := { s.tracker with tagBytes := [0x5B, 0, 8, 0xFD, 12, 0, 0x21], tagTimer := .running 2000 } }

theorem test_tag_record : (after (.tagByte 0xD8 true) (reading pairing)).tracker.zone = .bound 50000 (body unset) := by
  decide +kernel
theorem test_tag_check : (after (.tagByte 0xD9 true) (reading pairing)).sticky.tagRecordError = true := by decide +kernel
theorem test_tag_timeout : (after .tagByteTimeout (reading pairing)).tracker.tagBytes = [] := by decide +kernel
theorem test_sensor_raw : (after (.sensorRawLevelChange .bodyIn true) station).tracker.bodyIn = rising := by decide +kernel
theorem test_sensor_falls :
    (after (.sensorFallingEdge .zoneOut)
      { station with
        tracker := { station.tracker with zoneOut := { raw := false, filtered := true, wait := .running 2000 } } }).tracker.zoneOut =
      { raw := false, filtered := false, wait := .stopped } := by decide +kernel

/-! ## The station line -/

/-- The own turn of the worked example 4.10, its frame in flight and its echo being taken. -/
def sending : State :=
  let t := after .ownTurnStart requesting
  { t with line := { t.line with de := false, carrier := some { deHigh := true, began := t.line.position } } }

/-- The bytes in flight. -/
def flight : List Byte := (sending.line.inFlight.map InFlight.bytes).getD []

theorem test_own_turn : (after .ownTurnStart requesting).view.row 6 =
    { AddrRow.blank with slotA := .active 40 412 3 } := by decide +kernel
theorem test_own_turn_sends : (after .ownTurnStart requesting).line.de = true := by decide +kernel
theorem test_good_echo : (after (.carrierEnd flight false) sending).engA.sch = 11 := by decide +kernel
theorem test_good_echo_fires : (after (.carrierEnd flight false) sending).engA.fire = true := by decide +kernel
theorem test_failed_echo : (after (.carrierEnd flight true) sending).view.row 6 =
    { AddrRow.blank with slotA := .waiting 40 412 } := by decide +kernel
theorem test_frame_heard : (after (.carrierEnd frameBytes false) (hearing station 9 .turn false)).view.row 9 =
    { AddrRow.blank with slotA := .active 30 412 3 } := by decide +kernel
theorem test_frame_heard_moves : (after (.carrierEnd frameBytes false) (hearing station 9 .turn false)).line.position =
    some { address := 10, kind := .window, ref := .frameEnd } := by decide +kernel
theorem test_carrier_start : (after .carrierStart station).line.carrier =
    some { deHigh := false, began := some { address := 6, kind := .turn, ref := .frameEnd } } := by decide +kernel
theorem test_carrier_timeout : (after .carrierTimeout (hearing station 9 .turn false)).view.miss = true := by decide +kernel
theorem test_no_echo :
    (after .noEchoTimeout { sending with line := { sending.line with carrier := none } }).line.position =
      some { address := 7, kind := .window, ref := .echoWaitEnd } := by decide +kernel
theorem test_jabber :
    (after .jabberCut { sending with line := { sending.line with de := true, jabber := 2 } }).line.state = .offLine := by
  decide +kernel
theorem test_transmission_end : (after .transmissionEnd (after .ownTurnStart requesting)).line.de = false := by decide +kernel

/-- LINE_RX is busy with a carrier that the station does not take. -/
def busy (u : Untaken) (s : State) : State := { s with line := { s.line with untaken := u } }

theorem test_timeout_busy : (after .carrierTimeout (hearing station 9 .turn false)).line.untaken = .present := by
  decide +kernel
theorem test_own_turn_busy : (after .ownTurnStart (busy .present requesting)).line.de = false := by decide +kernel
theorem test_forgone_turn_ends :
    (after (.carrierEnd [] true) (after .ownTurnStart (busy .present requesting))).line.position =
      some { address := 7, kind := .window, ref := .frameEnd } := by decide +kernel

/-- The own turn of a station whose transmitter has outlasted its last own frame. -/
def outlasting : State := { requesting with line := { requesting.line with de := true } }

theorem test_outlasting_idle : (after .ownTurnStart outlasting).line.record.clean = true := by decide +kernel
theorem test_outlasting_busy : (after .ownTurnStart (busy .present outlasting)).line.record.clean = false := by
  decide +kernel

theorem test_loading_busy :
    (after (.programPass record { pins with lineIdle := false }) checking).line.foundingTimer = .stopped := by
  decide +kernel

/-- Station 30 of a line, its own turn the last of the round, waits for the echo of its frame. -/
def echoWait : State :=
  let s : State :=
    { station with
      line :=
        { LineCtl.afterReset.setRoster 30 (some 0) with
          state := .onLine, straps := 30, count := some 412
          position := some { address := 30, kind := .turn, ref := .frameEnd } } }
  after .transmissionEnd (after .ownTurnStart s)

/-- A carrier has begun within that wait, and the wait has ended without an echo. -/
def overtaken : State := after .noEchoTimeout (after .carrierStart echoWait)

theorem test_overtaken_began : overtaken.line.carrier =
    some { deHigh := false, began := some { address := 30, kind := .turn, ref := .frameEnd } } := by decide +kernel
theorem test_overtaken_count :
    (overtaken.line.count, (after (.carrierEnd [] true) overtaken).line.count) = (some 413, some 413) := by decide +kernel
theorem test_overtaken_garbled : (after (.carrierEnd [] true) overtaken).line.position =
    some { address := 1, kind := .window, ref := .frameEnd } := by decide +kernel

/-- Station 9 on the roster with a number of lapses, and its turn. -/
def silent (n : Fin 3) : State :=
  { station with
    view := station.view.setSlot 9 .b (.active 30 411 3)
    line := { station.line.setRoster 9 (some n) with position := some { address := 9, kind := .turn, ref := .frameEnd } } }

theorem test_lapse : (after .lapse (silent 0)).line.lapses 9 = some 1 := by decide +kernel
theorem test_drop : (after .lapse (silent 2)).view.orphans = [{ address := 9, channel := .b, load := 30, expire := 414 }] := by
  decide +kernel

/-- The window of address 30, the last position of the round. -/
def roundEnd (s : State) : State :=
  { s with line := { s.line with position := some { address := 30, kind := .window, ref := .windowEnd } } }

theorem test_boundary : (after .vacancyWindowEnd (roundEnd station)).line.count = some 413 := by decide +kernel
theorem test_overrun :
    (after .vacancyWindowEnd
      (roundEnd { firing 1 11 0 unset with line := { station.line with count := some 414 } })).tracker.zone =
      .bound 50000 (body [some .overrun, some .withheld, some .withheld, some .withheld, some .withheld]) := by decide +kernel
theorem test_claim_expiry :
    (after .claimExpiry { firing 1 11 0 unset with line := { station.line with count := some 415 } }).engA.state = .held := by
  decide +kernel

/-- A LISTENING station with a round count. -/
def listening : State :=
  { station with
    view := { station.view with fresh := true }
    line :=
      { station.line.setRoster 6 none with
        state := .listening, record := { station.line.record with openedOnLine := false }
        position := some { address := 6, kind := .window, ref := .frameEnd } } }

theorem test_join_hold :
    (after .joinHoldEnd { listening with line := { listening.line with joinHold := 18 } }).line.state = .joining := by
  decide +kernel
theorem test_join_frame :
    (after .joinFrameStart { listening with line := { listening.line with state := .joining } }).line.de = true := by
  decide +kernel

/-- A LISTENING station without a count, its founding silence running. -/
def founder : State :=
  { listening with
    line := { listening.line with count := none, position := none, foundingTimer := .running 2600 } }

theorem test_founding : (after .founding founder).line.count = some 0 := by decide +kernel
theorem test_founding_state : (after .founding founder).line.state = .onLine := by decide +kernel

/-- A founder has waited for its echo in vain while a carrier, begun with no position held, is being taken. -/
def founded : State :=
  after .noEchoTimeout (after .carrierStart (after .transmissionEnd (after .founding founder)))

theorem test_founder_heard : (after (.carrierEnd frameBytes false) founded).view.miss = true := by decide +kernel

/-! ## Sound states: every law of Safety at once -/

/-- Both channels at once. -/
theorem chans {p : Chan → Prop} (a : p .a) (b : p .b) : ∀ c, p c
  | .a => a
  | .b => b

/-- An engine with a current point stands at one of its points. -/
theorem pointed (s : State) (a : s.engA.state.hasPoint = true → 1 ≤ s.engA.at ∧ s.engA.at ≤ s.engA.points)
    (b : s.engB.state.hasPoint = true → 1 ≤ s.engB.at ∧ s.engB.at ≤ s.engB.points) : s.Pointed := chans a b

/-- Engines that are IDLE have no current point. -/
theorem idle_pointed (s : State) (a : s.engA.state = .idle) (b : s.engB.state = .idle) : s.Pointed :=
  pointed s (fun h => by simp [a, EngineState.hasPoint] at h) (fun h => by simp [b, EngineState.hasPoint] at h)

/-- A running station with its engines' lines at rest apart from what the arguments say meets the start-up law. -/
theorem startUp_running (s : State) (running : s.isRunning = true) (ended : s.store.phase = .ended)
    (own : 1 ≤ s.own ∧ s.own ≤ 30) (listening : s.line.state = .listening → s.line.de = false ∧ s.line.inFlight = none)
    (uncounted : s.line.count = none → s.line.position = none ∧ s.line.inFlight = none)
    (counted : s.line.state = .joining ∨ s.line.state = .onLine → s.line.count ≠ none)
    (flight : s.line.inFlight ≠ none → s.line.untaken = .absent)
    (offers : s.view.offerA ≠ none ∨ s.view.offerB ≠ none → s.line.inFlight ≠ none)
    (fresh : s.line.state = .listening ∨ s.line.state = .joining →
      s.view.fresh = true ∧ s.line.record.openedOnLine = false) : s.StartUp where
  loading := ⟨fun h => by simp [State.isRunning, LineState.running, h] at running, fun h => absurd ended h⟩
  straps h := by simp [ended] at h
  heldBack h := by simp [State.isRunning, LineState.running, h] at running
  own _ _ := own
  offLine h := by simp [State.isRunning, LineState.running, h] at running
  listening := listening
  uncounted := uncounted
  counted := counted
  flight := flight
  offers := offers
  fresh := fresh

/-- Stations with the store of the worked example 4.10 meet R14's law. -/
theorem libraryChecked_example (s : State) (store : s.store = station.store) : s.LibraryChecked where
  noDirectory h := by rw [store] at h; exact absurd h (by decide)
  programs := by rw [store]; decide
  pointArray := by rw [store]; decide
  directory := by rw [store]; decide
  counts := by rw [store]; decide
  points := by
    intro p d k hd _ _ h1 hk
    have hs : s.lc = lineConsts ∧ s.sc = stationConsts := by simp [State.lc, State.sc, store, station]
    rw [store] at hd
    obtain rfl : p = 1 := by
      rcases p with _ | _ | p
      · simp [Store.dirEntry] at hd
      · rfl
      · simp [Store.dirEntry, station] at hd
    obtain rfl : d = { first := 0, count := 5, check := 0 } := by simpa [Store.dirEntry, station] using hd.symm
    rw [hs.1, hs.2, store]
    have hk5 : k ≤ 5 := hk
    interval_cases k
    · exact ⟨point 11 40 3 200 700, by decide⟩
    · exact ⟨_, rfl, by decide⟩
    · exact ⟨_, rfl, by decide⟩
    · exact ⟨_, rfl, by decide⟩
    · exact ⟨_, rfl, by decide⟩

/-- REQUESTING on point 1 meets every law, and its step is an own turn start that admits. -/
theorem requesting_sound :
    requesting.Bounded ∧ requesting.StartUp ∧ requesting.TrackedWithin ∧ requesting.WindowsFollow
      ∧ requesting.LibraryChecked ∧ requesting.ProgramsGood ∧ requesting.LinesFollow ∧ requesting.PlacesFollow
      ∧ requesting.FiringBacked ∧ requesting.ViewInRange ∧ requesting.LineInRange := by
  refine ⟨?_, ?_, ?_, ?_, libraryChecked_example _ rfl, ?_, ?_, ?_, ?_, ?_, ?_⟩
  · constructor <;> decide +kernel
  · apply startUp_running <;> decide +kernel
  · constructor <;> decide +kernel
  · exact ⟨chans (by decide +kernel) (by decide +kernel), chans (by decide +kernel) (by decide +kernel)⟩
  · refine ⟨chans (fun _ => ?_) (fun h => ?_), chans (fun q h => ?_) (fun q h => ?_)⟩
    · exact ⟨1, 5, 1, { first := 0, count := 5, check := 0 }, by decide +kernel⟩
    · exact absurd h (by decide +kernel)
    · obtain rfl : { point := 1, load := 40, hold := 3, round := some 412, number := 1 } = q := Option.some.inj h
      exact ⟨by decide, by decide, by decide, by decide, by decide⟩
    · exact absurd h (by simp [requesting, working, State.eng, station, State.reset, Engine.afterReset])
  · refine ⟨chans (fun h => ?_) (fun _ => ?_), chans (fun _ => ?_) (fun _ => ?_), chans (fun h => ?_) (fun h => ?_),
      chans (fun k h => ?_) (fun k h => ?_), chans (fun _ _ => ?_) (fun h => ?_)⟩
    · exact absurd h (by decide +kernel)
    · constructor <;> decide +kernel
    · decide +kernel
    · decide +kernel
    · exact absurd h (by decide +kernel)
    · exact absurd h (by decide +kernel)
    · exact absurd h (by simp [requesting, working, State.eng, Engine.afterReset])
    · exact absurd h (by simp [requesting, working, State.eng, station, State.reset, Engine.afterReset])
    · decide +kernel
    · exact absurd h (by decide +kernel)
  · intro d b c h
    obtain ⟨rfl, rfl⟩ : (50000 : Word32) = d ∧ body unset = b := by
      simpa [requesting, working] using h
    revert c
    refine chans ⟨by decide +kernel, by decide +kernel, fun h => absurd h (by decide +kernel), fun _ => ⟨1, 1, ?_⟩⟩
      ⟨by decide +kernel, by decide +kernel, by decide +kernel, fun h => absurd h (by decide +kernel)⟩
    decide +kernel
  · refine ⟨chans (fun h => ?_) (fun h => ?_), chans (fun h => ?_) (fun h => ?_), fun k f h => ?_⟩
    · exact absurd h (by decide +kernel)
    · exact absurd h (by decide +kernel)
    · exact absurd (by decide +kernel : requesting.view.offer .a = none) h
    · exact absurd (by decide +kernel : requesting.view.offer .b = none) h
    · exact absurd h (by simp [requesting, working, station, State.reset, LineCtl.afterReset, LineCtl.setRoster])
  · refine ⟨?_, by decide +kernel, by decide +kernel, fun a => chans (fun h => ?_) (fun h => ?_)⟩
    · intro w hw
      obtain rfl : w = AddrRow.blank := by
        simpa [requesting, working, station, State.reset, View.afterReset] using hw
      exact ⟨trivial, trivial⟩
    all_goals
      have hr : requesting.view.row a = AddrRow.blank := by
        simp [View.row, requesting, working, station, State.reset, View.afterReset, Vector.getElem?_replicate]
        split <;> intro <;> rfl
      rw [hr] at h
      exact absurd h (by decide)
  · refine ⟨?_, ?_, ?_, ?_, ?_, ?_⟩
    · intro p h
      obtain rfl : { address := 6, kind := PosKind.turn, ref := RefPoint.frameEnd } = p := Option.some.inj h
      decide
    all_goals decide +kernel

/-! ## Witnesses: for every statement with hypotheses, states and operands that meet them, clause by clause -/

/-- Whether a command completes in a state. -/
def completes (i : Instr) (s : State) : Bool :=
  match exec i s with
  | .next _ => true
  | .fault _ | .refused _ => false

/-- A command that completes answers the state after it. -/
theorem next_after (i : Instr) (s : State) (h : completes i s = true) : exec i s = .next (after i s) := by
  unfold completes at h
  unfold after
  split at h <;> simp_all

/-- A step with a command in front answers the state after it. -/
theorem step_requesting : step requesting = .next (after .ownTurnStart { requesting with pending := [] }) :=
  next_after .ownTurnStart { requesting with pending := [] } (by decide +kernel)

theorem witness_StepRunsFront : requesting.pending = [Instr.ownTurnStart] ∧ station.pending = [] := by decide +kernel

theorem witness_StrapsGiveAddress :
    State.reset.store.phase = .straps ∧ loading.store.phase ≠ .straps
      ∧ (∀ n : BitVec 5, n ∈ [0, 31] → n.toNat = 0 ∨ n.toNat = 31)
      ∧ ∀ n : BitVec 5, n ∈ [1, 30] → ¬(n.toNat = 0 ∨ n.toNat = 31) := by decide +kernel

/-- The header of station 6 with a digest that does not fit, and with a zone length of 0; their trailing checks computed
apart from the model. -/
def headerBadDigest : List Byte := (((header.set 15 0).set 16 0).set 44 219).set 45 171
def headerBadZone : List Byte := (((header.set 17 0).set 18 0).set 44 144).set 45 236

theorem witness_HeaderPass :
    loading.store.phase = .header ∧ loading.store.firstFault.kind = .noFault ∧ headerFault header = none
      ∧ imageByte [] 0 ≠ 0x57
      ∧ (let im := header.set 2 2; imageByte im 0 = 0x57 ∧ imageByte im 1 = 0x42 ∧ imageByte im 2 ≠ 1)
      ∧ (let im := header.set 44 0
         imageByte im 0 = 0x57 ∧ imageByte im 1 = 0x42 ∧ imageByte im 2 = 1
          ∧ crc16 (imageRange im 0 44) ≠ image16 im 44)
      ∧ (let im := headerBadDigest
         imageByte im 0 = 0x57 ∧ imageByte im 1 = 0x42 ∧ imageByte im 2 = 1 ∧ crc16 (imageRange im 0 44) = image16 im 44
          ∧ crc16 (imageRange im 8 7) ≠ image16 im 15)
      ∧ let im := headerBadZone
        imageByte im 0 = 0x57 ∧ imageByte im 1 = 0x42 ∧ imageByte im 2 = 1 ∧ crc16 (imageRange im 0 44) = image16 im 44
          ∧ crc16 (imageRange im 8 7) = image16 im 15 ∧ ¬1 ≤ (image16 im 17).toNat := by decide +kernel

theorem witness_HeaderPass_range :
    let im := header
    imageByte im 0 = 0x57 ∧ imageByte im 1 = 0x42 ∧ imageByte im 2 = 1 ∧ crc16 (imageRange im 0 44) = image16 im 44
      ∧ crc16 (imageRange im 8 7) = image16 im 15 ∧ 1 ≤ (image16 im 8).toNat ∧ (image16 im 8).toNat = 1000
      ∧ (imageByte im 10).toNat ≤ 1 ∧ (imageByte im 11).toNat ≤ 1 ∧ 1 ≤ (imageByte im 12).toNat
      ∧ (image16 im 13).toNat = 16 ∧ 1 ≤ (image16 im 17).toNat ∧ 1 ≤ (imageByte im 20).toNat
      ∧ 1 ≤ (imageByte im 21).toNat ∧ 1 ≤ (image16 im 22).toNat
      ∧ (∀ i < 8, ¬((imageByte im (32 + i)).getLsbD 5 = true ∧ (imageByte im (32 + i)).getLsbD 4 = true))
      ∧ (imageByte im 40).toNat ≤ 64 ∧ (imageByte im 41).toNat ≤ 128 ∧ (image16 im 42).toNat ≤ 4096 := by
  decide +kernel

/-- One entry with the highest style and the highest program number, its program above the count of 1. -/
theorem witness_StylePass_undefined :
    let e := decodeStyle [63, 128, 2]
    loaded.store.phase = .styles ∧ loaded.store.firstFault.kind = .noFault
      ∧ (∀ i < loaded.store.styleCount, (e i).style ≤ 63 ∧ (∀ j < i, (e j).style ≠ (e i).style)
          ∧ ∀ c p, (e i).prog c = some p → p ≤ 128)
      ∧ (0 < loaded.store.styleCount ∧ (e 0).prog .a = some 128 ∧ loaded.store.programCount < 128)
      ∧ (∀ j d q, j < 0 → ¬(j < loaded.store.styleCount ∧ (e j).prog d = some q ∧ loaded.store.programCount < q)) := by
  refine ⟨by decide, by decide, fun i hi => ?_, by decide, fun j d q hj => absurd hj (by omega)⟩
  obtain rfl : i = 0 := Nat.lt_one_iff.mp hi
  refine ⟨by decide, fun j hj => absurd hj (by omega), chans (fun p h => ?_) (fun p h => ?_)⟩
  · obtain rfl : 128 = p := Option.some.inj h
    exact le_rfl
  · obtain rfl : 2 = p := Option.some.inj h
    decide

/-- One entry whose channel B field alone names a program above the count. -/
theorem witness_StylePass_channelB :
    let e := decodeStyle [12, 1, 2]
    (0 < loaded.store.styleCount ∧ (e 0).prog .b = some 2 ∧ loaded.store.programCount < 2)
      ∧ ∀ q, ¬(0 < loaded.store.styleCount ∧ (e 0).prog .a = some q ∧ loaded.store.programCount < q) := by
  refine ⟨by decide, fun q h => ?_⟩
  obtain rfl : 1 = q := Option.some.inj h.2.1
  exact absurd h.2.2 (by decide)

/-- One entry with no program above the count. -/
theorem witness_StylePass_defined :
    let e := decodeStyle [12, 1, 0]
    ∀ i c p, ¬(i < loaded.store.styleCount ∧ (e i).prog c = some p ∧ loaded.store.programCount < p) := by
  intro e i c p h
  obtain rfl : i = 0 := Nat.lt_one_iff.mp h.1
  revert c
  refine chans (fun h => ?_) (fun h => ?_)
  · obtain rfl : 1 = p := Option.some.inj h.2.1
    exact absurd h.2.2 (by decide)
  · exact absurd h.2.1 (by simp [e, decodeStyle, StyleEntry.prog, decodeProgField, imageByte])

/-- A style code above 63, and a second entry that repeats the first one's style. -/
theorem witness_StylePass_faulty :
    (loaded.store.phase = .styles ∧ 0 < loaded.store.styleCount ∧ ¬(decodeStyle [64, 0, 0] 0).style ≤ 63)
      ∧ (let e := decodeStyle [12, 0, 0, 12, 0, 0]
         (∀ c p, (e 0).prog c = some p → p ≤ 128) ∧ (e 0).style ≤ 63 ∧ ¬∀ k < 1, (e k).style ≠ (e 1).style) :=
  ⟨by decide +kernel,
    chans (fun _ h => absurd h (by simp [decodeStyle, StyleEntry.prog, decodeProgField, imageByte]))
      (fun _ h => absurd h (by simp [decodeStyle, StyleEntry.prog, decodeProgField, imageByte])),
    by decide, by decide⟩

theorem witness_DirectoryPass :
    styled.store.phase = .directory ∧ styled.store.programCount ≤ 128 ∧ styled.store.firstFault.kind = .noFault
      ∧ (decodeDir [0, 0, 0, 0, 0] 0).count = 0
      ∧ (let d := decodeDir [0, 1, 1, 0, 0] 0; styled.store.totalPoints < d.first + d.count)
      ∧ let d := decodeDir [0, 0, 1, 252, 90] 0
        ¬(d.count = 0 ∨ styled.store.totalPoints < d.first + d.count) := by decide +kernel

/-- `checking` with the check of a program whose one point has schedule 0. -/
def checkingSchedule : State :=
  { checking with
    store :=
      { checking.store with directory := [{ first := 0, count := 1, check := crc16 (imageRange (record.set 0 0) 0 11) }] } }

theorem witness_ProgramPass :
    let d : DirEntry := { first := 0, count := 1, check := 0xFC5A }
    checking.store.phase = .points 1 ∧ checking.store.dirEntry 1 = some d
      ∧ crc16 (imageRange record 0 (11 * d.count)) = d.check
      ∧ crc16 (imageRange (record.set 1 41) 0 (11 * d.count)) ≠ d.check
      ∧ (∀ k < 2, 1 ≤ k → pointFault checking.lc checking.sc (decodePoint record (k - 1)) = none)
      ∧ checkingSchedule.store.phase = .points 1
      ∧ pointFault checkingSchedule.lc checkingSchedule.sc (decodePoint (record.set 0 0) 0) = some .schedule := by
  decide +kernel

/-- For each check of R14 a point that fails it and passes those before it, most of them by one. -/
theorem witness_PointChecksAndTheirLaw_checks :
    let p := point 1 1 1 0 1
    [{ p with schedule := 64 }, { p with load := 251 }, { p with load := 151 }, { p with hold := 0 },
      { p with hold := 17 }, { p with windowOpen := 1 }, { p with windowClose := 6001 },
      { p with cond := some { index := 16, required := true } }, { p with gate := some { line := 2, kind := .level } },
      { p with action := some { line := 3, always := true, level := true } }].map (pointFault lineConsts stationConsts) =
      [some .schedule, some .loadRange, some .loadOverBudget, some .holdRange, some .holdOverCeiling,
        some .windowOrder, some .windowBeyondZone, some .optionIndex, some .gateLine, some .actionLine] := by decide

theorem witness_PointChecksAndTheirLaw_bytes :
    (decodePoint [11, 40, 0, 3, 0xFF, 0xFF, 2, 188, 0, 0, 0] 0).windowOpen = 65535
      ∧ (let im : List Byte := [11, 40, 0, 3, 0, 200, 2, 188, 0x90, 0, 0]
         (imageByte im (11 * 0 + 8)).getLsbD 7 = true ∧ (imageByte im (11 * 0 + 8)).getLsbD 4 = true) := by decide +kernel

theorem witness_PointChecksAndTheirLaw :
    requesting.StartUp ∧ requesting.LibraryChecked ∧ (∃ t, step requesting = .next t) ∧ requesting.store.phase = .ended
      ∧ requesting.store.dirEntry 1 = some { first := 0, count := 5, check := 0 } ∧ requesting.store.marked 1 = false :=
  ⟨requesting_sound.2.1, requesting_sound.2.2.2.2.1, ⟨_, step_requesting⟩, by decide +kernel⟩

/-- A station with every sticky bit, a mark and a first-fault record. -/
def marked : State :=
  { station with
    store :=
      { station.store with
        marks := station.store.marks.set 0 true
        firstFault := { kind := .programCheck, program := 1, point := 0 } }
    sticky :=
      { outboxOverflow := true, encoderError := true, strayBody := true, tagMissing := true, tagRecordError := true
        registerEviction := true, reverseTravel := true } }

theorem witness_RecordsLastUntilReset :
    Instr.ownTurnStart ≠ .reset ∧ (∃ t, exec .ownTurnStart marked = .next t) ∧ marked.store.phase = .ended
      ∧ marked.store.marked 1 = true ∧ marked.store.firstFault.kind ≠ .noFault ∧ marked.sticky.outboxOverflow = true
      ∧ marked.sticky.encoderError = true ∧ marked.sticky.strayBody = true ∧ marked.sticky.tagMissing = true
      ∧ marked.sticky.tagRecordError = true ∧ marked.sticky.registerEviction = true
      ∧ marked.sticky.reverseTravel = true :=
  ⟨by decide, ⟨_, next_after _ _ (by decide +kernel)⟩, by decide +kernel⟩

/-- The store of the worked example with a second style that names a program without a directory entry, marked. -/
def twoStyles : Store :=
  { station.store with
    styles := [{ style := 12, progA := some 1, progB := none }, { style := 63, progA := some 2, progB := some 1 }]
    marks := (station.store.marks.set 0 true).set 1 true }

theorem witness_ResolutionByFirstRow :
    StationConsts.unloaded.enabled .a = false ∧ stationConsts.enabled .a = true ∧ stationConsts.enabled .b = true
      ∧ (∀ e ∈ station.store.styles, e.style ≠ (13 : Byte).toNat)
      ∧ (let e : StyleEntry := { style := 12, progA := some 1, progB := none }
         station.store.styles = [] ++ e :: [] ∧ e.style = (12 : Byte).toNat ∧ e.prog .b = none ∧ e.prog .a = some 1
          ∧ station.store.dirEntry 1 = some { first := 0, count := 5, check := 0 } ∧ station.store.marked 1 = false)
      ∧ (let x : StyleEntry := { style := 12, progA := some 1, progB := none }
         let e : StyleEntry := { style := 63, progA := some 2, progB := some 1 }
         twoStyles.styles = [x] ++ e :: [] ∧ e.style = (63 : Byte).toNat ∧ x.style ≠ (63 : Byte).toNat
          ∧ e.prog .a = some 2 ∧ twoStyles.dirEntry 2 = none ∧ twoStyles.marked 2 = true ∧ e.prog .b = some 1
          ∧ twoStyles.dirEntry 1 = some { first := 0, count := 5, check := 0 } ∧ twoStyles.marked 1 = true) := by
  decide +kernel

/-! ### The conveyor -/

/-- The counter follows each of R25's three rows: the new C beyond T, within 8 steps of it, and 9 steps behind. -/
theorem witness_CountChangeMovesPositions :
    station.counter.quad = some (false, false) ∧ station.line.state ≠ .offLine
      ∧ 0 < posDiff (station.counter.raw + 1) station.counter.tracked
      ∧ ¬posDiff (50993 - 1) (51000 : Word32) < -((station.sc.hysteresis : Nat) : Int)
      ∧ posDiff (rolled.counter.raw - 1) rolled.counter.tracked < -((rolled.sc.hysteresis : Nat) : Int)
      ∧ rolled.counter.quad = some (false, false) := by decide +kernel

theorem witness_HaltAndIllegalTransition :
    ({ rolled.counter with haltTimer := .running 200000 } : Counter).haltTimer = .running 200000
      ∧ station.counter.quad = some (false, false) ∧ station.line.state ≠ .offLine := by decide +kernel

/-- GATED on point 1, the tracked position at `p` of the zone. -/
def gatedAt (p : Word32) : State :=
  let s := working .gated 1 unset .opened
  { s with counter := { s.counter with raw := 50000 + p, tracked := 50000 + p } }

theorem witness_WindowsAndWatches :
    let r := requesting.pointRec .a 1
    (gatedAt 199).relPos = some 199 ∧ 199 < r.windowOpen ∧ (gatedAt 200).relPos = some 200 ∧ r.windowOpen ≤ 200
      ∧ 200 ≤ r.windowClose ∧ (gatedAt 700).relPos = some 700 ∧ 700 ≤ r.windowClose ∧ (gatedAt 701).relPos = some 701
      ∧ r.windowClose < 701 ∧ r.windowOpen < r.windowClose := by decide +kernel

/-- The zone EMPTY, and distances about both ends of the range of P. -/
theorem witness_WindowsAndWatches_relPos :
    station.tracker.zone = .empty ∧ (gatedAt 0).tracker.zone = .bound 50000 (body unset)
      ∧ [0xFFFFFFFF, 0, 65535, 65536].map (fun p => ((gatedAt p).counter.tracked - 50000).toInt) = [-1, 0, 65535, 65536] := by
  decide +kernel

/-! ### Bodies -/

theorem witness_TagWaitsEnd :
    ({ station.counter with heldWatch := .due } : Counter).heldWatch = .due ∧ pairing.counter.pairWatch = .due
      ∧ pairing.tracker.zone = .pairing 50000 ∧ (∃ e ∈ pairing.tracker.register, e.mark = .ahead)
      ∧ ∀ e ∈ (withReader station).tracker.register, e.mark ≠ .ahead := by decide +kernel

/-- An arrival at a reader with a read held. -/
def arrivingHeld : State :=
  { withReader arriving with
    tracker := { arriving.tracker with held := some { serial := 7, style := 12, options := 0, position := 49000 } } }

theorem witness_ArrivalTakesBody :
    (∀ s ∈ [arriving, withReader arriving, arrivingHeld], s.isRunning = true
        ∧ s.tracker.bodyIn = { raw := true, filtered := false, wait := .running 2000 } ∧ s.tracker.zone = .empty
        ∧ s.line.outbox.length ≤ 16)
      ∧ arriving.sc.reader = false ∧ (withReader arriving).sc.reader = true ∧ (withReader arriving).tracker.held = none
      ∧ arrivingHeld.sc.reader = true ∧ arrivingHeld.tracker.held ≠ none
      ∧ (let s : State := { requesting with tracker := { requesting.tracker with bodyIn := rising } }
         s.isRunning = true ∧ s.tracker.bodyIn.rises = true ∧ s.tracker.zone ≠ .empty) := by decide +kernel

/-- The tag record of a body that the register holds: binding by order, by a tag that agrees, and by one that does not. -/
theorem witness_ArrivalTakesBody_entry :
    let e : Entry := { serial := 2301, style := 12, options := 0x21, announcer := 5, disputed := false, mark := .ahead }
    arriving.tracker.register = [] ++ e :: [] ∧ e.mark = .ahead ∧ (∀ x ∈ arriving.tracker.register, x.serial ≠ 7) := by
  decide +kernel

/-- A body in the zone, with its zone length event due and ZONE_OUT rising. -/
def leaving (z : Zone) : State :=
  { requesting with
    tracker := { requesting.tracker with zone := z, zoneOut := rising }
    counter := { requesting.counter with zoneWatch := .due } }

theorem leaving_placesFollow : (leaving (.bound 50000 (body unset))).PlacesFollow :=
  requesting_sound.2.2.2.2.2.2.2.1

theorem witness_ZoneEnds :
    (∀ z, (leaving z).counter.zoneWatch = .due ∧ (leaving z).isRunning = true
        ∧ (leaving z).tracker.zoneOut = { raw := true, filtered := false, wait := .running 2000 }
        ∧ (leaving z).tracker.zone = z ∧ (leaving z).line.outbox.length ≤ 16)
      ∧ (leaving (.bound 50000 (body unset))).PlacesFollow :=
  ⟨fun _ => ⟨rfl, rfl, rfl, rfl, (by decide +kernel : requesting.line.outbox.length ≤ 16)⟩, leaving_placesFollow⟩

theorem witness_ResultsAccountForEveryPoint :
    let s := leaving (.bound 50000 (body unset))
    let r : Result :=
      { serial := 2301, channel := .a, rpt := false, more := false, unlisted := false, welded := 0, skipped := 0, missed := 5
        defective := 0, withheld := 0
        defects := [⟨1, 3⟩, ⟨2, 3⟩, ⟨3, 3⟩, ⟨4, 3⟩, ⟨5, 3⟩] }
    s.WindowsFollow ∧ s.PlacesFollow ∧ exec .zoneLengthEvent s = .next (after .zoneLengthEvent s)
      ∧ .result r ∈ (after .zoneLengthEvent s).line.outbox ∧ .result r ∉ s.line.outbox ∧ r.rpt = false
      ∧ (let places := ((body [some .welded, some .skipped, some .faulted, some .missed, some .withheld]).part .a).places
         (∀ x ∈ places, x ≠ none) ∧ places.length ≤ 255) :=
  ⟨⟨chans (by decide +kernel) (by decide +kernel), chans (by decide +kernel) (by decide +kernel)⟩, leaving_placesFollow, next_after _ _ (by decide +kernel), by decide +kernel⟩

/-- A body of 17 points, all of them defects: the list takes the first 16. -/
theorem witness_ResultsAccountForEveryPoint_more :
    let b : Body :=
      { body [] with partA := { answer := .good 1 17, places := List.replicate 16 (some .missed) ++ [some .stalled] } }
    (∀ x ∈ (b.part .a).places, x ≠ none) ∧ (b.part .a).places.length = 17 ∧ (formResult .a b).more = true
      ∧ (formResult .a b).defects = (List.range 16).map fun i => { point := BitVec.ofNat 8 (i + 1), kind := 3 } := by
  decide +kernel

/-- A reader that has taken these bytes of a record. -/
def taken (bs : List Byte) (z : Zone) : State :=
  { withReader requesting with tracker := { requesting.tracker with zone := z, tagBytes := bs, tagTimer := .running 2000 } }

theorem witness_TagPort :
    (∀ bs z, (taken bs z).isRunning = true ∧ (taken bs z).sc.reader = true ∧ (taken bs z).tracker.tagBytes = bs
        ∧ (taken bs z).tracker.zone = z ∧ (taken bs z).line.outbox.length ≤ 16)
      ∧ (0xD8 : Byte) = 0 ^^^ 8 ^^^ 0xFD ^^^ 12 ^^^ 0 ^^^ 0x21 ∧ be24 0 8 0xFD ≠ 0
      ∧ ¬(0xD9 : Byte) = 0 ^^^ 8 ^^^ 0xFD ^^^ 12 ^^^ 0 ^^^ 0x21 ∧ (body unset).serial = be24 0 8 0xFD
      ∧ (body unset).serial ≠ be24 0 8 0xFE ∧ ∀ d, Zone.empty ≠ .pairing d :=
  ⟨fun _ _ => ⟨rfl, rfl, rfl, rfl, (by decide +kernel : requesting.line.outbox.length ≤ 16)⟩, by decide, by decide, by decide, by decide, by decide,
    fun _ h => by cases h⟩

theorem witness_SensorsFiltered :
    station.isRunning = true ∧ station.tracker.bodyIn.raw ≠ true ∧ rising.raw ≠ false
      ∧ (let x : Sensor := { raw := false, filtered := true, wait := .running 2000 }
         ({ station with tracker := { station.tracker with zoneOut := x } } : State).tracker.sensor .zoneOut = x) := by
  decide +kernel

/-- A register of `n` entries with the serials 1, ..., n, all announced by station 5 and ahead. -/
def crowded (n : Nat) : State :=
  { station with
    tracker :=
      { station.tracker with
        register :=
          (List.range n).map fun i =>
            { serial := BitVec.ofNat 24 (i + 1), style := 12, options := 0, announcer := 5, disputed := false, mark := .ahead } } }

theorem witness_RegisterItemsApplied :
    (∃ e ∈ (crowded 24).tracker.register, e.serial = 24) ∧ (25 : Word24) ≠ 0
      ∧ (∀ e ∈ (crowded 24).tracker.register, e.serial ≠ 25) ∧ (crowded 24).tracker.register.length = 24
      ∧ (crowded 23).tracker.register.length ≠ 24 ∧ (5 < (crowded 24).own ∧ (crowded 24).own = 6 ∧ (crowded 24).own < 7)
      ∧ (let z : Zone := .bound 50000 { body unset with listed := false, serial := 25 }
         ∃ d b, ({ (crowded 24) with tracker := { (crowded 24).tracker with zone := z } } : State).tracker.zone = .bound d b
          ∧ b.listed = false ∧ b.serial = 25)
      ∧ ∃ older e newer, (crowded 24).tracker.register = older ++ e :: newer ∧ e.serial = 24
          ∧ ∀ x ∈ older, x.serial ≠ 24 := by
  refine ⟨by decide +kernel, by decide, by decide +kernel, by decide +kernel, by decide +kernel, by decide +kernel,
    ⟨_, _, rfl, rfl, rfl⟩, (crowded 23).tracker.register,
    { serial := 24, style := 12, options := 0, announcer := 5, disputed := false, mark := .ahead }, [], ?_⟩
  decide +kernel

/-! ### Points -/

theorem witness_PulseEndGivesPendingStrobe :
    (∀ k : Option Nat, k ∈ [none, some 3] →
      let e : Engine := { requesting.engA with pstb := .running 10, pendingStrobe := k }
      ((requesting.setEng .a e).eng .a).pstb = .running 10 ∧ ((requesting.setEng .a e).eng .a).pendingStrobe = k) := by
  decide +kernel

/-- GATED with the window OPEN, at point 1 with a LEVEL gate on line 0 or at point 3 with its EVENT gate on line 1, that
line's filtered level and channel A's latch of it as given. -/
def gatedOn (k : Nat) (level latch : Bool) : State :=
  let s := working .gated k unset .opened
  let x : AuxIn := { AuxIn.afterReset with filtered := level, latchA := latch }
  { s with
    store :=
      { s.store with
        points := (0, { point 11 40 3 200 700 with gate := some { line := 0, kind := .level } }) :: program.drop 1 }
    aux := { s.aux with inputs := (s.aux.inputs.set 0 x).set 1 x } }

/-- No gate, a LEVEL gate and an EVENT gate, satisfied and not; and a window not yet OPEN. -/
theorem witness_GatedEngineAsksWhenReady :
    (let s := working .positioning 1 unset .opened
     s.engA.state = .positioning ∧ s.engA.pendingStrobe = none ∧ s.mayAsk .a)
      ∧ ¬(working .positioning 1 unset .notYet).mayAsk .a ∧ ¬(working .positioning 3 unset .opened).mayAsk .a
      ∧ (gatedOn 1 true false).mayAsk .a ∧ ¬(gatedOn 1 false true).mayAsk .a
      ∧ (gatedOn 3 false true).mayAsk .a ∧ ¬(gatedOn 3 true false).mayAsk .a
      ∧ (gatedOn 1 true false).engA.state = .gated
      ∧ ((working .gated 1 unset .opened).setWindow .a (some ⟨.opened, true, false⟩)).counter.window .a =
          some { state := .opened, openDue := true, closeDue := false } := by
  simp only [State.mayAsk_iff]
  exact ⟨⟨by decide +kernel, by decide +kernel, ⟨_, rfl, rfl⟩, by decide +kernel⟩,
    (by rintro ⟨⟨w, h, hw⟩, _⟩; cases h; cases hw), fun h => absurd h.2 (by decide +kernel),
    ⟨⟨_, rfl, rfl⟩, by decide +kernel⟩, fun h => absurd h.2 (by decide +kernel),
    ⟨⟨_, rfl, rfl⟩, by decide +kernel⟩, fun h => absurd h.2 (by decide +kernel), by decide +kernel, by decide +kernel⟩

/-- A window CLOSED whose event is not yet taken. -/
def closing (s : State) : State := s.setWindow .a (some { state := .closed, openDue := false, closeDue := true })

/-- POSITIONING with the reach timer running. -/
def reaching : State :=
  (working .positioning 5 unset .notYet).setEng .a
    { (working .positioning 5 unset .notYet).engA with reach := .running 4000000 }

theorem witness_PointsEndWithoutAWeld :
    (reaching.Pointed ∧ (reaching.eng .a).state = .positioning ∧ (reaching.eng .a).reach = .running 4000000)
      ∧ ∀ st ∈ [EngineState.positioning, .gated, .requesting, .firing], (closing (working st 5 unset .closed)).Pointed
        ∧ (closing (working st 5 unset .closed)).counter.window .a =
            some { state := .closed, openDue := false, closeDue := true }
        ∧ ((closing (working st 5 unset .closed)).eng .a).state = st := by
  refine ⟨⟨pointed _ (by decide +kernel) (by decide +kernel), by decide +kernel⟩, ?_⟩
  simp only [List.mem_cons, List.not_mem_nil, or_false]
  rintro st (rfl | rfl | rfl | rfl)
  all_goals exact ⟨pointed _ (by decide +kernel) (by decide +kernel), by decide +kernel⟩

/-- FIRING on the first and on the last point, with no fault before and with one. -/
theorem witness_WeldTimerAnswers :
    ((firing 1 11 0 unset).Pointed ∧ ((firing 1 11 0 unset).eng .a).state = .firing
        ∧ ¬2 ≤ ((firing 1 11 0 unset).eng .a).faults + 1)
      ∧ (firing 5 15 1 unset).Pointed ∧ ((firing 5 15 1 unset).eng .a).state = .firing
        ∧ 2 ≤ ((firing 5 15 1 unset).eng .a).faults + 1 :=
  ⟨⟨pointed _ (by decide +kernel) (by decide +kernel), by decide +kernel⟩,
    pointed _ (by decide +kernel) (by decide +kernel), by decide +kernel⟩

theorem witness_StrayAnswersChangeNothing :
    requesting.LinesFollow ∧ (requesting.eng .a).state ≠ .firing ∧ (requesting.eng .a).fire = false :=
  ⟨requesting_sound.2.2.2.2.2.2.1, by decide +kernel⟩

/-- FIRING on point 1 at its closing position. -/
def firingLate : State :=
  { firing 1 11 0 unset with
    counter := { (firing 1 11 0 unset).counter with raw := 50700, tracked := 50700 } }

theorem witness_FiringIgnoresWindowAndGate :
    ((closing (firing 1 11 0 unset)).eng .a).state = .firing
      ∧ (closing (firing 1 11 0 unset)).counter.window .a = some { state := .closed, openDue := false, closeDue := true }
      ∧ exec (.auxRawChange 1 true) (sampled (firing 3 14 0 unset)) =
          .next (after (.auxRawChange 1 true) (sampled (firing 3 14 0 unset)))
      ∧ exec (.auxFilterExpiry 0) (after (.auxRawChange 0 true) (sampled (firing 3 14 0 unset))) =
          .next (after (.auxFilterExpiry 0) (after (.auxRawChange 0 true) (sampled (firing 3 14 0 unset))))
      ∧ exec (.countChange .encA) firingLate = .next (after (.countChange .encA) firingLate)
      ∧ firingLate.engA.state = .firing
      ∧ firingLate.counter.window .a = some { state := .opened, openDue := false, closeDue := false }
      ∧ (after (.countChange .encA) firingLate).relPos = some 701
      ∧ (after (.countChange .encA) firingLate).counter.tracked ≠ firingLate.counter.tracked
      ∧ (firingLate.current .a).windowOpen < (firingLate.current .a).windowClose
      ∧ (firingLate.current .a).windowClose < 701 :=
  ⟨by decide +kernel, by decide +kernel, next_after _ _ (by decide +kernel), next_after _ _ (by decide +kernel),
    next_after _ _ (by decide +kernel), by decide +kernel⟩

theorem witness_FinishedAfterTheLastPoint :
    ((firing 5 15 0 unset).Pointed ∧ ((firing 5 15 0 unset).eng .a).state = .firing
        ∧ ((firing 5 15 0 unset).eng .a).at = ((firing 5 15 0 unset).eng .a).points)
      ∧ (∀ st ∈ [EngineState.positioning, .gated, .requesting],
          ((closing (working st 5 unset .closed)).eng .a).at = ((closing (working st 5 unset .closed)).eng .a).points)
      ∧ exec (.wdoneRise .a false) (firing 5 15 0 unset) = .next (after (.wdoneRise .a false) (firing 5 15 0 unset))
      ∧ ((firing 5 15 0 unset).eng .a).state ≠ .finished
      ∧ ((after (.wdoneRise .a false) (firing 5 15 0 unset)).eng .a).state = .finished
      ∧ ((after (.wdoneRise .a false) (firing 5 15 0 unset)).eng .a).points = 5 :=
  ⟨⟨pointed _ (by decide +kernel) (by decide +kernel), by decide +kernel⟩, by decide +kernel,
    next_after _ _ (by decide +kernel), by decide +kernel⟩

theorem witness_ChannelsApart :
    Chan.a ≠ .b ∧ exec (.wfaultRise .a) (firing 3 14 1 unset) = .next (after (.wfaultRise .a) (firing 3 14 1 unset))
      ∧ (firing 3 14 1 unset).tracker.zone = .bound 50000 (body unset) ∧ station.tracker.zone = .empty :=
  ⟨by decide, next_after _ _ (by decide +kernel), by decide +kernel⟩

/-! ### Auxiliary lines -/

theorem witness_AuxInputsConditioned :
    ((sampled station).isRunning = true ∧ (sampled station).sc.auxIn[(0 : Fin 8)].used = true
        ∧ (sampled station).aux.inputs[(0 : Fin 8)].raw ≠ some true ∧ (sampled station).sc.auxIn[(0 : Fin 8)].filter ≠ 0
        ∧ (sampled station).sc.auxIn[(1 : Fin 8)].used = true ∧ (sampled station).sc.auxIn[(1 : Fin 8)].filter = 0
        ∧ (sampled station).aux.inputs[(1 : Fin 8)].raw ≠ some true
        ∧ (sampled station).sc.auxIn[(7 : Fin 8)].used = false)
      ∧ (let s := after (.auxRawChange 0 true) (sampled station)
         s.aux.inputs[(0 : Fin 8)].timer = .running 3000 ∧ s.aux.inputs[(0 : Fin 8)].raw = some true
          ∧ s.aux.inputs[(0 : Fin 8)].filtered = false) := by decide +kernel

/-! ### The feeder view -/

theorem witness_CommittedLoadCounts :
    (1023 : Nat) ≤ 1023 ∧ 1023 ≤ ((1435 : Word16) - 412).toNat ∧ ¬1023 ≤ ((1434 : Word16) - 412).toNat := by decide

/-- Equal ages, addresses 1, 6 and 30 about the pointer 6, and a younger claim. -/
theorem witness_PrecedenceIsStrictOrder :
    (6 : Nat) ≤ 30 ∧ ((412 : Word16) - 411).toNat < (412 - (410 : Word16)).toNat ∧ (1 : Nat) < 6 ∧ (6 : Nat) < 30
      ∧ (1 ≤ (1 : Nat) ∧ (1 : Nat) ≤ 30) ∧ 1 ≤ (30 : Nat)
      ∧ precedes .rotating 6 412 { address := 30, channel := .a, round := 411 } { address := 6, channel := .a, round := 411 } =
          true
      ∧ precedes .rotating 6 412 { address := 6, channel := .a, round := 411 } { address := 6, channel := .b, round := 411 } =
          true := by decide

theorem witness_ClaimListApplied :
    let v := (station.view.setSlot 30 .a (.active 30 412 3)).setSlot 30 .b (.waiting 20 411)
    (1 ≤ 30 ∧ 30 ≤ 30)
      ∧ (let x : RawSlot := { kind := 0, hold := 1, load := 0, round := 0 }; ¬(x.hold = 0 ∧ x.load = 0 ∧ x.round = 0))
      ∧ (let x : RawSlot := { kind := 1, hold := 0, load := 251, round := 412 }; 250 < x.load.toNat)
      ∧ (let x : RawSlot := { kind := 2, hold := 17, load := 250, round := 412 }; x.load.toNat ≤ 250 ∧ 16 < x.hold.toNat)
      ∧ (let x : RawSlot := { kind := 2, hold := 16, load := 250, round := 412 }
         (∃ l r h, ((v.applyClaims 412 16 30 x x).row 30).slot .b = .active l r h
            ∧ ∀ l' h', (v.row 30).slot .b ≠ .active l' r h')
          ∧ ¬∃ l r h, ((v.applyClaims 412 16 30 x x).row 30).slot .a = .active l r h
              ∧ ∀ l' h', (v.row 30).slot .a ≠ .active l' r h') := by
  refine ⟨by decide, by decide, by decide, by decide, ⟨250, 412, 16, by decide +kernel, fun l' h' h => ?_⟩, ?_⟩
  · exact absurd ((by decide +kernel : (((station.view.setSlot 30 .a (.active 30 412 3)).setSlot 30 .b
      (.waiting 20 411)).row 30).slot .b = .waiting 20 411).symm.trans h) (by simp)
  · rintro ⟨l, r, h, hw, hv⟩
    rw [show ((((station.view.setSlot 30 .a (.active 30 412 3)).setSlot 30 .b (.waiting 20 411)).applyClaims 412 16 30
      { kind := 2, hold := 16, load := 250, round := 412 } { kind := 2, hold := 16, load := 250, round := 412 }).row 30).slot .a =
        .active 250 412 16 by decide +kernel] at hw
    cases hw
    exact hv 30 3 (by decide +kernel)

/-- The own slot of the firing station expires at 415 and not at 414. -/
theorem witness_ClaimExpiryExpires :
    let s : State := { firing 1 11 0 unset with line := { station.line with count := some 415 } }
    s.Pointed ∧ s.isRunning = true ∧ s.line.count = some 415 ∧ (s.view.row 6).slot .a = .active 40 412 3
      ∧ liveAt 415 412 3 = false ∧ liveAt 414 412 3 = true ∧ (s.view.row 30).slot .b = .empty :=
  ⟨pointed _ (by decide +kernel) (by decide +kernel), by decide +kernel⟩

theorem witness_JoinHoldEnds :
    (∀ n, ({ listening with line := { listening.line with joinHold := n } } : State).line.count = some 412
        ∧ ({ listening with line := { listening.line with joinHold := n } } : State).line.state = .listening
        ∧ ({ listening with line := { listening.line with joinHold := n } } : State).lc.holdCeiling + 2 = 18)
      ∧ station.line.count = some 412 ∧ station.line.state ≠ .listening :=
  ⟨fun _ => ⟨rfl, rfl, rfl⟩, by decide +kernel⟩

/-! ### The station line -/

theorem witness_CarrierAndTransmitter :
    station.isRunning = true ∧ station.line.carrier = none ∧ station.line.untaken = .absent
      ∧ State.reset.isRunning = false ∧ (hearing station 9 .turn false).line.carrier ≠ none
      ∧ (busy .present station).line.carrier = none ∧ (busy .present station).line.untaken = .present := by decide +kernel

theorem pointed_hearing (a : Nat) (k : PosKind) (d : Bool) : (hearing station a k d).Pointed :=
  idle_pointed _ rfl rfl

/-- A frame of station 9 whose carrier began in its own turn, or in one on either side of it. -/
theorem witness_HeardFramesAreApplied :
    Frame.parse frameBytes = some frame ∧ ∀ a ∈ [9, 1, 30],
      let p : Position := { address := a, kind := .turn, ref := .frameEnd }
      (hearing station a .turn false).Pointed ∧ frame.sender.toNat ≠ (hearing station a .turn false).own
        ∧ (hearing station a .turn false).line.carrier = some { deHigh := false, began := some p }
        ∧ (hearing station a .turn false).line.inFlight = none ∧ (hearing station a .turn false).line.count = some 412
        ∧ (hearing station a .turn false).line.position = some p :=
  ⟨by decide +kernel,
    fun a _ => ⟨pointed_hearing a _ _, (by decide +kernel : frame.sender.toNat ≠ station.own), rfl, rfl, rfl, rfl⟩⟩

/-- The position that the echo wait's end has left behind is the one in which the carrier began. -/
theorem witness_HeardFramesAreApplied_overtaken :
    overtaken.Pointed ∧ frame.sender.toNat ≠ overtaken.own ∧ overtaken.line.inFlight = none
      ∧ overtaken.line.carrier =
          some { deHigh := false, began := some { address := 30, kind := .turn, ref := .frameEnd } }
      ∧ overtaken.line.position = some { address := 1, kind := .window, ref := .echoWaitEnd }
      ∧ overtaken.line.count = some 413 ∧ 30 ≠ frame.sender.toNat :=
  ⟨pointed _ (by decide +kernel) (by decide +kernel), by decide +kernel⟩

theorem witness_RoundTakenFromFrames :
    let s := hearing station 9 .turn false
    let p : Position := { address := 9, kind := .turn, ref := .frameEnd }
    let g : LastValid := { sender := 3, round := 412, disagreed := true, since := .zero }
    let h : LastValid := { sender := 3, round := 411, disagreed := true, since := .one }
    Frame.parse frameBytes = some frame ∧ s.Pointed ∧ frame.sender.toNat ≠ s.own
      ∧ s.line.carrier = some { deHigh := false, began := some p } ∧ s.line.inFlight = none ∧ p.address = frame.sender.toNat
      ∧ frame.sender.toNat < 30 ∧ s.line.count = some frame.round ∧ (∀ c, (s.eng c).state ≠ .firing)
      ∧ (413 : Word16) ≠ frame.round ∧ g.disagreed = true ∧ g.sender ≠ frame.sender.toNat ∧ g.since = .zero
      ∧ frame.round = g.round ∧ h.since = .one ∧ frame.round = h.round + 1 :=
  ⟨by decide +kernel, pointed_hearing _ _ _, by decide +kernel, rfl, rfl, by decide, by decide, rfl,
    chans (by decide +kernel) (by decide +kernel), by decide⟩

/-- The same frame heard by a station without a count. -/
theorem witness_RoundTakenFromFrames_uncounted :
    let s := after .carrierStart founder
    s.Pointed ∧ frame.sender.toNat ≠ s.own ∧ s.line.carrier = some { deHigh := false, began := none }
      ∧ s.line.inFlight = none ∧ s.line.count = none ∧ (∀ c, (s.eng c).state ≠ .firing) :=
  ⟨pointed _ (by decide +kernel) (by decide +kernel), by decide +kernel, by decide +kernel, by decide +kernel,
    by decide +kernel, chans (by decide +kernel) (by decide +kernel)⟩

/-- The same frame heard by a founder, begun in its echo wait. -/
theorem witness_RoundTakenFromFrames_founder :
    founded.Pointed ∧ frame.sender.toNat ≠ founded.own ∧ founded.line.carrier = some { deHigh := false, began := none }
      ∧ founded.line.inFlight = none ∧ founded.line.position = some { address := 7, kind := .window, ref := .echoWaitEnd }
      ∧ founded.line.count = some 0 ∧ 0 ≠ frame.round :=
  ⟨pointed _ (by decide +kernel) (by decide +kernel), by decide +kernel⟩

/-- The last position of the round, held and then left behind; no position; and a turn forgone. -/
theorem witness_GarbledCarrierMissed :
    (∀ k, let p : Position := { address := 30, kind := k, ref := .frameEnd }
        (hearing station 30 k false).Pointed
          ∧ (hearing station 30 k false).line.carrier = some { deHigh := false, began := some p }
          ∧ (hearing station 30 k false).line.inFlight = none ∧ (hearing station 30 k false).line.count = some 412
          ∧ (hearing station 30 k false).line.position = some p)
      ∧ Frame.parse (frameBytes.set 5 5) = none
      ∧ overtaken.line.position ≠ some { address := 30, kind := .turn, ref := .frameEnd }
      ∧ (let s := after .carrierStart founder
         s.line.carrier = some { deHigh := false, began := none } ∧ s.line.inFlight = none ∧ s.line.state = .listening
          ∧ s.line.count = none ∧ s.line.untaken = .absent)
      ∧ (let s := after .ownTurnStart (busy .present requesting)
         s.Pointed ∧ s.line.carrier = none ∧ s.line.untaken = .forgone ∧ s.line.count = some 412
          ∧ s.line.position = some { address := 6, kind := .turn, ref := .frameEnd }) :=
  ⟨fun k => ⟨pointed_hearing _ k _, rfl, rfl, rfl, rfl⟩, by decide +kernel, by decide +kernel, by decide +kernel,
    pointed _ (by decide +kernel) (by decide +kernel), by decide +kernel⟩

/-- A frame that bears the own address, in a carrier begun while not transmitting, and in one begun while transmitting
whose turn has ended. -/
theorem witness_AddressConflictGoesOffLine :
    let f : Frame := { frame with sender := 6 }
    Frame.parse f.encode = some f ∧ ∀ d,
      let s := hearing station 6 .turn d
      s.Pointed ∧ f.sender.toNat = s.own
        ∧ s.line.carrier = some { deHigh := d, began := some { address := 6, kind := .turn, ref := .frameEnd } }
        ∧ s.line.inFlight = none :=
  ⟨by decide +kernel, fun d => ⟨pointed_hearing _ _ _, (by decide : (6 : Byte).toNat = 6), rfl, rfl⟩⟩

/-- The own frame of the worked example 4.10: its claim A is ACTIVE in round 412, its zone occupied, its conveyor at
rest. -/
def ownFrame : Frame :=
  { sender := 6, fresh := false, blind := false, reader := false, exit := false, halted := true, occupied := true
    round := 412, pointer := 0, digest := 0xFC83, tag := 0, status := 0
    slotA := { kind := 2, hold := 3, load := 40, round := 412 }, slotB := { kind := 0, hold := 0, load := 0, round := 0 }
    items := [] }

theorem sending_pointed : sending.Pointed := pointed _ (by decide +kernel) (by decide +kernel)

/-- JOINING in the own window. -/
def joining : State := { listening with line := { listening.line with state := .joining } }

theorem joining_startUp : joining.StartUp := by apply startUp_running <;> decide +kernel

/-- A joining station at the echo of its first frame. -/
def joiningEcho : State :=
  let t := after .joinFrameStart joining
  { t with line := { t.line with de := false, carrier := some { deHigh := true, began := t.line.position } } }

theorem test_join_echo :
    (after (.carrierEnd ((joiningEcho.line.inFlight.map InFlight.bytes).getD []) false) joiningEcho).view.miss = false := by
  decide +kernel

/-- The echo of an own turn that admits, and that of a join frame. -/
theorem witness_GoodEchoEndsTheTurn :
    (sending.Pointed ∧ Frame.parse flight = some ownFrame ∧ ownFrame.sender.toNat = sending.own
        ∧ sending.line.count = some ownFrame.round ∧ sending.line.carrier.map Carrier.deHigh = some true
        ∧ sending.line.inFlight = some { bytes := flight, carried := 0 })
      ∧ (let f := buildFrame joining
         joiningEcho.Pointed ∧ joiningEcho.line.state = .joining ∧ Frame.parse f.encode = some f
          ∧ f.sender.toNat = joiningEcho.own ∧ joiningEcho.line.count = some f.round
          ∧ joiningEcho.line.carrier.map Carrier.deHigh = some true
          ∧ joiningEcho.line.inFlight = some { bytes := f.encode, carried := 0 }
          ∧ joiningEcho.line.onRoster joiningEcho.own = false) :=
  ⟨⟨sending_pointed, by decide +kernel⟩, pointed _ (by decide +kernel) (by decide +kernel), by decide +kernel⟩

/-- A damaged echo; a carrier begun in the echo wait; the second and the third cut, with the echo and without a carrier;
and a cut after the own turn has ended. -/
theorem witness_FailedEchoEndsTheTurn :
    (sending.Pointed ∧ sending.line.inFlight = some { bytes := flight, carried := 0 }
        ∧ sending.line.carrier.map Carrier.deHigh = some true ∧ Frame.parse [] = none ∧ frameBytes ≠ flight
        ∧ sending.line.de = false ∧ sending.line.jabber = 0)
      ∧ ((after .carrierStart echoWait).Pointed ∧ (after .carrierStart echoWait).line.inFlight ≠ none
          ∧ (after .carrierStart echoWait).line.de = false
          ∧ (after .carrierStart echoWait).line.carrier.map Carrier.deHigh = some false)
      ∧ (let s : State := { sending with line := { sending.line with carrier := none } }
         s.line.de = false ∧ s.line.carrier = none)
      ∧ (∀ n ∈ [1, 2],
          let s : State := { sending with line := { sending.line with de := true, jabber := n } }
          s.line.de = true ∧ s.line.carrier ≠ none ∧ (3 ≤ s.line.jabber + 1 ↔ n = 2))
      ∧ (let s : State := { station with line := { station.line with de := true, jabber := 1 } }
         s.line.inFlight = none ∧ s.line.de = true ∧ ¬3 ≤ s.line.jabber + 1) :=
  ⟨⟨sending_pointed, by decide +kernel⟩, ⟨pointed _ (by decide +kernel) (by decide +kernel), by decide +kernel⟩,
    by decide +kernel⟩

theorem witness_OwnTurnsBegin :
    (requesting.line.state = .onLine ∧ requesting.line.count = some 412
        ∧ requesting.line.position = some { address := requesting.own, kind := .turn, ref := .frameEnd }
        ∧ requesting.line.de = false ∧ requesting.line.inFlight = none ∧ requesting.line.carrier = none
        ∧ requesting.line.untaken = .absent ∧ (hearing station 6 .turn false).line.carrier ≠ none
        ∧ (busy .present requesting).line.untaken ≠ .absent)
      ∧ ((after .ownTurnStart requesting).line.inFlight ≠ none
          ∧ outlasting.line.inFlight = none ∧ outlasting.line.de = true ∧ outlasting.line.carrier = none
          ∧ outlasting.line.untaken = .absent)
      ∧ (joining.StartUp ∧ joining.line.state = .joining ∧ joining.line.count = some 412
          ∧ joining.line.position = some { address := joining.own, kind := .window, ref := .frameEnd }
          ∧ joining.line.de = false ∧ joining.line.inFlight = none ∧ joining.line.carrier = none
          ∧ joining.line.untaken = .absent)
      ∧ founder.line.state = .listening ∧ founder.line.count = none ∧ founder.line.foundingTimer = .running 2600
        ∧ founder.line.carrier = none ∧ founder.line.untaken = .absent :=
  ⟨by decide +kernel, by decide +kernel, ⟨joining_startUp, by decide +kernel⟩, by decide +kernel⟩

theorem witness_PositionsEndWithoutACarrier :
    (∀ n : Fin 3, (silent n).Pointed ∧ (silent n).isRunning = true ∧ (silent n).line.count = some 412
        ∧ (silent n).line.position = some { address := 9, kind := .turn, ref := .frameEnd } ∧ 9 ≠ (silent n).own
        ∧ (silent n).line.carrier = none ∧ (silent n).line.inFlight = none ∧ (silent n).line.lapses 9 = some n)
      ∧ ({ station with line := { station.line with position := some { address := 9, kind := .turn, ref := .frameEnd } } } :
          State).line.lapses 9 = none
      ∧ ((roundEnd station).Pointed ∧ (roundEnd station).isRunning = true
          ∧ (roundEnd station).line.position = some { address := 30, kind := .window, ref := .windowEnd }
          ∧ (roundEnd station).line.carrier = none ∧ (roundEnd station).line.inFlight = none) := by
  refine ⟨fun n => ⟨idle_pointed _ rfl rfl, ?_⟩, by decide +kernel,
    idle_pointed _ rfl rfl, by decide +kernel⟩
  revert n
  decide +kernel

theorem witness_OnlyOwnTurnAdmits :
    requesting.StartUp ∧ requesting.LibraryChecked ∧ requesting.ViewInRange ∧ requesting.FiringBacked
      ∧ exec .ownTurnStart requesting = .next (after .ownTurnStart requesting)
      ∧ ((after .ownTurnStart requesting).view.row (after .ownTurnStart requesting).own).slot .a = .active 40 412 3
      ∧ ∀ l' h', (requesting.view.row requesting.own).slot .a ≠ .active l' 412 h' := by
  obtain ⟨_, h1, _, _, h2, _, _, _, h3, h4, _⟩ := requesting_sound
  refine ⟨h1, h2, h4, h3, next_after _ _ (by decide +kernel), by decide +kernel, fun l' h' h => ?_⟩
  exact absurd ((by decide +kernel : (requesting.view.row requesting.own).slot .a = .empty).symm.trans h) (by simp)

/-- A station whose straps read 31. -/
def unstrapped : State := after (.strapReading 31) State.reset

theorem unstrapped_startUp : unstrapped.StartUp := by
  refine ⟨by decide +kernel, by decide +kernel, fun h => absurd h (by decide +kernel), by decide +kernel, fun _ => ?_,
    by decide +kernel, by decide +kernel, by decide +kernel, by decide +kernel, by decide +kernel, by decide +kernel⟩
  refine ⟨chans ⟨by decide +kernel, ?_, by decide +kernel⟩ ⟨by decide +kernel, ?_, by decide +kernel⟩, by decide +kernel,
    by decide +kernel, by decide +kernel, by decide +kernel, by decide +kernel⟩ <;>
  constructor <;> decide +kernel

theorem loading_startUp : loading.StartUp := by
  refine ⟨by decide +kernel, by decide +kernel, fun _ => ?_, by decide +kernel, fun h => absurd h (by decide +kernel),
    by decide +kernel, by decide +kernel, by decide +kernel, by decide +kernel, by decide +kernel, by decide +kernel⟩
  constructor <;> decide +kernel

/-- A change of each kind that the table of Figure 6.1 gives, and a state OFF LINE. -/
theorem witness_LineStatesChangeAsGiven :
    (requesting.StartUp ∧ completes .reset requesting = true ∧ (after .reset requesting).line.state = .loading)
      ∧ (loading.StartUp ∧ completes (.headerPass []) loading = true
          ∧ (after (.headerPass []) loading).line.state = .offLine)
      ∧ (let s : State := { listening with line := { listening.line with joinHold := 18 } }
         s.StartUp ∧ completes .joinHoldEnd s = true ∧ (after .joinHoldEnd s).line.state = .joining)
      ∧ (founder.StartUp ∧ completes .founding founder = true ∧ (after .founding founder).line.state = .onLine)
      ∧ (let b := (joiningEcho.line.inFlight.map InFlight.bytes).getD []
         joiningEcho.StartUp ∧ completes (.carrierEnd b false) joiningEcho = true
          ∧ (after (.carrierEnd b false) joiningEcho).line.state = .onLine)
      ∧ (let s : State := { requesting with line := { requesting.line with de := true, jabber := 2 } }
         s.StartUp ∧ completes .jabberCut s = true ∧ (after .jabberCut s).line.state = .offLine)
      ∧ unstrapped.StartUp ∧ unstrapped.line.state = .offLine := by
  refine ⟨⟨requesting_sound.2.1, by decide +kernel⟩, ⟨loading_startUp, by decide +kernel⟩, ⟨?_, by decide +kernel⟩,
    ⟨?_, by decide +kernel⟩, ⟨?_, by decide +kernel⟩, ⟨?_, by decide +kernel⟩, unstrapped_startUp, by decide +kernel⟩
  all_goals apply startUp_running <;> decide +kernel

/-! ### Frames and status -/

/-- The largest frame: 32 items in 229 bytes, from address 30. -/
def largest : Frame :=
  let r := fun n : Nat =>
    Item.result
      { serial := 1, channel := .b, rpt := true, more := true, unlisted := true, welded := 255, skipped := 255, missed := 255
        defective := 255, withheld := 255, defects := List.replicate n ⟨255, 7⟩ }
  { frame with sender := 30, pointer := 30, items := [r 16, r 16, r 8] ++ List.replicate 29 (.depart 7) }

theorem witness_FramesReadBack :
    frame.WellFormed ∧ largest.WellFormed ∧ largest.items.length = 32 ∧ itemsSize largest.items = 229 := by
  refine ⟨?_, ?_, by decide, by decide⟩ <;> constructor <;> decide +kernel

theorem witness_OnlyValidFramesAreTaken : Frame.parse frameBytes = some frame := by decide +kernel

theorem witness_OwnFrameIsValid :
    requesting.Bounded ∧ requesting.ViewInRange ∧ 1 ≤ requesting.own ∧ requesting.own ≤ 30 := by
  obtain ⟨h1, _, _, _, _, _, _, _, _, h2, _⟩ := requesting_sound
  exact ⟨h1, h2, by decide +kernel⟩

/-- A fatal fault OFF LINE and an OFF LINE without one; LISTENING with one engine IDLE and one at work; and a used output
line, released and inactive. -/
theorem witness_StatusShowsTheState :
    (let s := after (.headerPass []) loading
     s.line.state = .offLine ∧ 1 ≤ s.store.firstFault.kind.code ∧ s.store.firstFault.kind.code ≤ 6)
      ∧ ((after (.strapReading 31) State.reset).line.state = .offLine
          ∧ (after (.strapReading 31) State.reset).store.firstFault.kind.code = 0)
      ∧ (let s : State := { listening with store := marked.store, engA := requesting.engA }
         s.line.state = .listening ∧ s.store.firstFault.kind ≠ .noFault ∧ (s.eng .b).state = .idle
          ∧ (s.eng .a).state ≠ .idle)
      ∧ requesting.store.firstFault.kind = .noFault ∧ loading.line.state = .loading ∧ joining.line.state = .joining
      ∧ marked.line.state = .onLine ∧ station.aux.outputs[(2 : Fin 8)] = .inactive
      ∧ station.aux.outputs[(0 : Fin 8)] = .released := by
  decide +kernel

/-! ### Laws -/

theorem witness_LineStatesStaySound : requesting.StartUp ∧ ∃ t, step requesting = .next t :=
  ⟨requesting_sound.2.1, _, step_requesting⟩

theorem witness_TrackedPositionStaysWithin :
    requesting.StartUp ∧ requesting.TrackedWithin ∧ ∃ t, step requesting = .next t :=
  ⟨requesting_sound.2.1, requesting_sound.2.2.1, _, step_requesting⟩

theorem witness_WindowsFollowThePoint :
    requesting.WindowsFollow ∧ (∃ t, step requesting = .next t) ∧ requesting.counter.window .b = none :=
  ⟨requesting_sound.2.2.2.1, ⟨_, step_requesting⟩, by decide +kernel⟩

theorem witness_GoodProgramsRun :
    requesting.StartUp ∧ requesting.LibraryChecked ∧ requesting.ProgramsGood ∧ ∃ t, step requesting = .next t :=
  ⟨requesting_sound.2.1, requesting_sound.2.2.2.2.1, requesting_sound.2.2.2.2.2.1, _, step_requesting⟩

theorem witness_ChannelLinesFollow :
    requesting.StartUp ∧ requesting.WindowsFollow ∧ requesting.LinesFollow ∧ ∃ t, step requesting = .next t :=
  ⟨requesting_sound.2.1, requesting_sound.2.2.2.1, requesting_sound.2.2.2.2.2.2.1, _, step_requesting⟩

theorem witness_OutcomePlacesFollow :
    (requesting.StartUp ∧ requesting.LibraryChecked ∧ requesting.ProgramsGood ∧ requesting.WindowsFollow
        ∧ requesting.PlacesFollow ∧ ∃ t, step requesting = .next t)
      ∧ (let s := firing 3 14 0 [some .welded, some .skipped, none, none, none]
         let i := Instr.wdoneRise .a false
         let b' := body [some .welded, some .skipped, some .welded, none, none]
         i ≠ .arrival ∧ i ≠ .reset ∧ exec i s = .next (after i s)
          ∧ s.tracker.zone = .bound 50000 (body [some .welded, some .skipped, none, none, none])
          ∧ (after i s).tracker.zone = .bound 50000 b'
          ∧ ((body [some .welded, some .skipped, none, none, none]).part .a).places[1]? = some (some .skipped)) := by
  obtain ⟨_, h1, _, h2, h3, h4, _, h5, _, _, _⟩ := requesting_sound
  exact ⟨⟨h1, h3, h4, h2, h5, _, step_requesting⟩, by decide, by decide, next_after _ _ (by decide +kernel),
    by decide +kernel, by decide +kernel, by decide⟩

/-- FIRING on an admitted claim meets the laws of the channel lines and of firing. -/
theorem firing_sound : (firing 1 11 0 unset).LinesFollow ∧ (firing 1 11 0 unset).FiringBacked := by
  have inFlight : (firing 1 11 0 unset).line.inFlight = none := by decide +kernel
  have strobes : ∀ c, ((firing 1 11 0 unset).eng c).pendingStrobe = none := chans (by decide +kernel) (by decide +kernel)
  refine ⟨⟨chans (fun h => absurd h (by decide +kernel)) (fun _ => by constructor <;> decide +kernel),
    chans (by decide +kernel) (by decide +kernel), chans (by decide +kernel) (by decide +kernel),
    fun c k h => absurd h (by simp [strobes]), chans (by decide +kernel) (by decide +kernel)⟩,
    chans (by decide +kernel) (by decide +kernel), chans (by decide +kernel) (by decide +kernel),
    fun k f h => absurd h (by simp [inFlight])⟩

theorem witness_FireOnlyOnAnAdmittedClaim :
    (requesting.StartUp ∧ requesting.LibraryChecked ∧ requesting.ProgramsGood ∧ requesting.WindowsFollow
        ∧ requesting.FiringBacked ∧ ∃ t, step requesting = .next t)
      ∧ (firing 1 11 0 unset).LinesFollow ∧ (firing 1 11 0 unset).FiringBacked
      ∧ ((firing 1 11 0 unset).eng .a).fire = true := by
  obtain ⟨_, h1, _, h2, h3, h4, _, _, h5, _, _⟩ := requesting_sound
  exact ⟨⟨h1, h3, h4, h2, h5, _, step_requesting⟩, firing_sound.1, firing_sound.2, by decide +kernel⟩

theorem witness_CapacitiesAndRangesHold :
    requesting.Bounded ∧ requesting.StartUp ∧ requesting.LibraryChecked ∧ requesting.ProgramsGood
      ∧ requesting.ViewInRange ∧ requesting.LineInRange ∧ ∃ t, step requesting = .next t := by
  obtain ⟨h0, h1, _, _, h2, h3, _, _, _, h4, h5⟩ := requesting_sound
  exact ⟨h0, h1, h2, h3, h4, h5, _, step_requesting⟩

end Sys2Proof.Tests
end

