-- ==== Sys2Proof/Proofs/StoreFrame.lean ====
section
/-!
SUPPORT. The store is written by the start-up commands alone: every shared operation leaves it as it was, in the order
of the definitions, and with them every command but RESET, STRAP_READING and the four passes.
-/

namespace Sys2Proof.Machine

variable (s : State) (c : Chan)

/-! ## The conveyor -/

@[simp] theorem State.setTracked_store (x : Word32) : (s.setTracked x).store = s.store := by
  unfold State.setTracked; split <;> rfl
@[simp] theorem State.setReverse_store : s.setReverse.store = s.store := by
  unfold State.setReverse; split <;> rfl

/-! ## The point engines -/

@[simp] theorem takeOutcome_store (o : PointOutcome) (k : Nat) : (takeOutcome c o k s).store = s.store := by
  unfold takeOutcome
  split
  · split <;> simp
  · simp
@[simp] theorem takeOutcomes_store (o : PointOutcome) (n : Nat) :
    ∀ (k : Nat) (s : State), (takeOutcomes c o n k s).store = s.store := by
  induction n with
  | zero => exact fun _ _ => rfl
  | succ n ih => exact fun k s => (ih (k + 1) _).trans (takeOutcome_store s c o k)
@[simp] theorem enterFinished_store : (enterFinished c s).store = s.store := by simp [enterFinished]
@[simp] theorem enterHeld_store : (enterHeld c s).store = s.store := by simp [enterHeld]
@[simp] theorem enterIdle_store : (enterIdle c s).store = s.store := by simp [enterIdle]
@[simp] theorem enterFiring_store : (enterFiring c s).store = s.store := by simp [enterFiring]
@[simp] theorem dropFire_store : (dropFire c s).store = s.store := by simp [dropFire]
@[simp] theorem enterRequesting_store : (enterRequesting c s).store = s.store := by simp [enterRequesting]
@[simp] theorem withdraw_store : (withdraw c s).store = s.store := by simp [withdraw]
@[simp] theorem tryRequest_store : (tryRequest c s).store = s.store := by
  unfold tryRequest; split <;> simp
@[simp] theorem giveStrobe_store (k : Nat) : (giveStrobe c k s).store = s.store := by simp [giveStrobe_eq]
@[simp] theorem strobe_store (k : Nat) : (strobe c k s).store = s.store := by
  unfold strobe; split <;> simp
@[simp] theorem sendWindow_store (k : Nat) : (sendWindow c k s).store = s.store := by simp [sendWindow]
@[simp] theorem sendPoints_store (n : Nat) :
    ∀ (k : Nat) (s : State), (sendPoints c n k s).store = s.store := by
  induction n with
  | zero => exact fun _ s => enterFinished_store s c
  | succ n ih =>
    intro k s
    unfold sendPoints
    dsimp only
    split
    · split <;> simp [ih]
    · simp [ih]
@[simp] theorem advance_store : (advance c s).store = s.store := by simp [advance]
@[simp] theorem endPoint_store (o : PointOutcome) : (endPoint c o s).store = s.store := by simp [endPoint]
@[simp] theorem holdPoint_store (o : PointOutcome) : (holdPoint c o s).store = s.store := by simp [holdPoint]
@[simp] theorem startEngine_store (b : Body) : (startEngine c b s).store = s.store := by
  unfold startEngine
  split
  · rfl
  · simp
  · split <;> simp
@[simp] theorem closeOut_store : (closeOut c s).store = s.store := by
  unfold closeOut
  dsimp only
  split <;> simp
@[simp] theorem reportExpiry_store : (reportExpiry c s).store = s.store := by
  unfold reportExpiry; split <;> simp
@[simp] theorem reportAdmission_store (number : Byte) : (reportAdmission c number s).store = s.store := by
  unfold reportAdmission; split <;> simp
@[simp] theorem reportLevel_store (line : Fin 8) (active : Bool) : (reportLevel line active c s).store = s.store := by
  unfold reportLevel
  split
  · split
    · simp
    · split <;> simp
  · rfl
@[simp] theorem reportLatch_store (line : Fin 8) : (reportLatch line c s).store = s.store := by
  unfold reportLatch; split <;> simp
@[simp] theorem weldAnswer_store (o : PointOutcome) : (weldAnswer c o s).store = s.store := by
  simp [weldAnswer, apply_ite State.store]

/-! ## The auxiliary inputs -/

@[simp] theorem setLatch_store (line : Fin 8) : (setLatch line c s).store = s.store := by
  unfold setLatch; split <;> simp
@[simp] theorem filteredChange_store (line : Fin 8) (active : Bool) :
    (filteredChange line active s).store = s.store := by
  unfold filteredChange
  dsimp only
  split <;> simp

/-! ## The body tracker -/

@[simp] theorem pushResult_store (b : Body) : (pushResult c b s).store = s.store := by
  unfold pushResult; split <;> simp
@[simp] theorem bindZone_store (datum : Word32) (serial : Word24) (style : Byte) (options : Word16)
    (disputed listed : Bool) : (bindZone datum serial style options disputed listed s).store = s.store := by
  simp [bindZone]
@[simp] theorem orderBind_store (datum : Word32) : (orderBind datum s).store = s.store := by
  unfold orderBind; split <;> simp
@[simp] theorem tagBind_store (datum : Word32) (serial : Word24) (style : Byte) (options : Word16) :
    (tagBind datum serial style options s).store = s.store := by
  unfold tagBind
  dsimp only
  split
  · simp
  · split
    · rw [bindZone_store]
      split <;> simp
    · simp
@[simp] theorem State.endWatches_store : s.endWatches.store = s.store := rfl
@[simp] theorem finishZone_store : (finishZone s).store = s.store := by
  unfold finishZone
  split
  · dsimp only
    split <;> simp
  · rfl
@[simp] theorem zoneEnd_store : (zoneEnd s).store = s.store := by
  unfold zoneEnd; split <;> simp
@[simp] theorem takeArrival_store : (takeArrival s).store = s.store := by
  unfold takeArrival
  dsimp only
  split
  · split <;> simp
  · simp
@[simp] theorem tagError_store : (tagError s).store = s.store := rfl
@[simp] theorem takeTagRecord_store (serial : Word24) (style : Byte) (options : Word16) :
    (takeTagRecord serial style options s).store = s.store := by
  unfold takeTagRecord
  dsimp only
  split
  · simp
  · split <;> rfl
  · rfl
  · rfl
@[simp] theorem tagComplete_store (bytes : List Byte) : (tagComplete bytes s).store = s.store := by
  unfold tagComplete
  split
  · split <;> simp
  · rfl
@[simp] theorem takeTagByte_store (byte : Byte) : (takeTagByte byte s).store = s.store := by
  unfold takeTagByte
  dsimp only
  split
  · simp
  · split <;> simp

/-! ## The items of a frame -/

@[simp] theorem evictIfFull_store : (evictIfFull s).store = s.store := by
  unfold evictIfFull; split <;> rfl
@[simp] theorem applyAnnounce_store (sender : Nat) (serial : Word24) (style : Byte) (options : Word16) :
    (applyAnnounce sender serial style options s).store = s.store := by
  unfold applyAnnounce; split <;> simp
@[simp] theorem applyDispute_store (serial : Word24) : (applyDispute serial s).store = s.store := rfl
@[simp] theorem applyResync_store (sender : Nat) (serial : Word24) :
    (applyResync sender serial s).store = s.store := rfl
@[simp] theorem applyDepart_store (exitFlag : Bool) (serial : Word24) :
    (applyDepart exitFlag serial s).store = s.store := by
  unfold applyDepart; split <;> rfl
@[simp] theorem applyItem_store (sender : Nat) (exitFlag : Bool) (i : Item) :
    (applyItem sender exitFlag s i).store = s.store := by
  cases i with
  | result r => rfl
  | announce n y o => unfold applyItem; dsimp only; split <;> simp
  | dispute n y o => unfold applyItem; dsimp only; split <;> simp
  | resync n => unfold applyItem; dsimp only; split <;> simp
  | depart n => unfold applyItem; dsimp only; split <;> simp
@[simp] theorem applyItems_store (sender : Nat) (exitFlag : Bool) (items : List Item) :
    ∀ s : State, (applyItems sender exitFlag items s).store = s.store := by
  induction items with
  | nil => exact fun _ => rfl
  | cons i rest ih => exact fun s => (ih _).trans (applyItem_store s sender exitFlag i)

/-! ## The feeder table -/

@[simp] theorem expireClaims_store : (expireClaims s).store = s.store := by
  unfold expireClaims
  split
  · rfl
  · dsimp only
    split <;> split <;> simp
@[simp] theorem setOwnSlots_store (count : Word16) : (setOwnSlots count s).store = s.store := rfl
@[simp] theorem judgeSlot_store (count : Word16) : (judgeSlot count c s).store = s.store := by
  unfold judgeSlot
  split
  · split <;> rfl
  · rfl
@[simp] theorem judgeOwnSlots_store (count : Word16) : (judgeOwnSlots count s).store = s.store := by
  unfold judgeOwnSlots; split <;> simp
@[simp] theorem feederGoodEcho_store : (feederGoodEcho s).store = s.store := by
  unfold feederGoodEcho
  dsimp only
  split <;> split <;> split <;> simp
@[simp] theorem feederFailedEcho_store : (feederFailedEcho s).store = s.store := rfl

/-! ## The station line -/

@[simp] theorem joinHoldEnd_store : (joinHoldEnd s).store = s.store := by
  unfold joinHoldEnd; split <;> rfl
@[simp] theorem raiseJoinHold_store : (raiseJoinHold s).store = s.store := by
  unfold raiseJoinHold; split <;> simp
@[simp] theorem boundary_store : (boundary s).store = s.store := by
  unfold boundary; split <;> simp
@[simp] theorem moveOn_store (a : Nat) (ref : RefPoint) : (moveOn a ref s).store = s.store := by
  unfold moveOn
  dsimp only
  split <;> simp
@[simp] theorem enterOffLine_store : (enterOffLine s).store = s.store := by simp [enterOffLine]
@[simp] theorem ownTurnStart_store (count : Word16) : (ownTurnStart count s).store = s.store := by
  simp [ownTurnStart]
@[simp] theorem adoptCount_store (round : Word16) : (adoptCount round s).store = s.store := by simp [adoptCount]
@[simp] theorem takeRound_store (sender : Nat) (round : Word16) : (takeRound sender round s).store = s.store := by
  unfold takeRound
  split
  · simp
  · split
    · rfl
    · dsimp only
      split <;> simp
@[simp] theorem applyHeader_store (f : Frame) : (applyHeader f s).store = s.store := by
  unfold applyHeader
  dsimp only
  rw [takeRound_store]
  dsimp only
  split <;> rfl
@[simp] theorem applyClaimList_store (f : Frame) : (applyClaimList f s).store = s.store := by
  unfold applyClaimList; split <;> rfl
@[simp] theorem applyFrame_store (f : Frame) : (applyFrame f s).store = s.store := by simp [applyFrame]
@[simp] theorem applyOwnFrame_store (f : Frame) : (applyOwnFrame f s).store = s.store := by simp [applyOwnFrame]
@[simp] theorem enterOnLine_store : (enterOnLine s).store = s.store := by
  unfold enterOnLine; split <;> rfl
@[simp] theorem ownTurnGood_store (f : Frame) (k : Nat) : (ownTurnGood f k s).store = s.store := by
  simp [ownTurnGood]
@[simp] theorem ownTurnFailed_store (k jabber : Nat) (ref : RefPoint) :
    (ownTurnFailed k jabber ref s).store = s.store := by simp [ownTurnFailed]
@[simp] theorem restartFounding_store : (restartFounding s).store = s.store := by
  unfold restartFounding; split <;> rfl
@[simp] theorem realign_store (u : Nat) : (realign u s).store = s.store := by
  unfold realign
  split
  · split <;> simp
  · simp
@[simp] theorem hearFrame_store (f : Frame) (began : Option Position) : (hearFrame f began s).store = s.store := by
  unfold hearFrame
  dsimp only
  split
  · simp
  · split <;> simp
@[simp] theorem moveOnFrom_store (p : Position) : (moveOnFrom p s).store = s.store := by
  unfold moveOnFrom; split <;> simp
@[simp] theorem hearGarbled_store (began : Option Position) : (hearGarbled began s).store = s.store := by
  unfold hearGarbled
  split
  · simp
  · split <;> simp
@[simp] theorem endHeard_store (valid : Option Frame) (k : Carrier) : (endHeard valid k s).store = s.store := by
  unfold endHeard
  split
  · split
    · split <;> simp
    · simp
  · simp
@[simp] theorem endUntaken_store : (endUntaken s).store = s.store := by
  unfold endUntaken
  dsimp only
  split <;> simp
@[simp] theorem offLineAtLimit_store : (offLineAtLimit s).store = s.store := by
  unfold offLineAtLimit; split <;> simp
@[simp] theorem forgoTurn_store : (forgoTurn s).store = s.store := rfl
@[simp] theorem countLapse_store (p : Nat) : (countLapse p s).store = s.store := by
  unfold countLapse
  split
  · rfl
  · split
    · dsimp only
      split <;> rfl
    · rfl

/-! ## The commands -/

/-- The next state of an outcome, when it has one, meets `P`. -/
def AllNext (P : State → Prop) (o : Host.Outcome State Fault Refusal) : Prop := ∀ t, o = .next t → P t

@[simp] theorem allNext_next (P : State → Prop) (t : State) : AllNext P (.next t) ↔ P t := by simp [AllNext]

/-- The next state of an outcome, when it has one, holds this store. -/
abbrev KeepsStore (st : Store) (o : Host.Outcome State Fault Refusal) : Prop := AllNext (fun t => t.store = st) o

theorem execCountChange_keepsStore (line : EncLine) : KeepsStore s.store (execCountChange line s) := by
  unfold execCountChange
  split
  · simp
  · simp only [allNext_next, State.setTracked_store]
    split <;> simp
theorem execIllegalTransition_keepsStore : KeepsStore s.store (execIllegalTransition s) := by
  unfold execIllegalTransition
  split
  · simp
  · simp only [allNext_next]
    split <;> rfl
theorem execHaltTimerExpiry_keepsStore : KeepsStore s.store (execHaltTimerExpiry s) := by
  unfold execHaltTimerExpiry; split <;> simp
theorem execHeldReadExpiry_keepsStore : KeepsStore s.store (execHeldReadExpiry s) := by
  unfold execHeldReadExpiry; split <;> simp
theorem execPairingWaitExpiry_keepsStore : KeepsStore s.store (execPairingWaitExpiry s) := by
  unfold execPairingWaitExpiry
  split
  · dsimp only
    split <;> simp
  · simp
theorem execZoneLengthEvent_keepsStore : KeepsStore s.store (execZoneLengthEvent s) := by
  unfold execZoneLengthEvent; split <;> simp
theorem execArrival_keepsStore : KeepsStore s.store (execArrival s) := by
  unfold execArrival; split <;> simp
theorem execZoneExit_keepsStore : KeepsStore s.store (execZoneExit s) := by
  unfold execZoneExit; split <;> simp
theorem execTagByte_keepsStore (byte : Byte) (stopHigh : Bool) : KeepsStore s.store (execTagByte byte stopHigh s) := by
  unfold execTagByte
  split
  · cases stopHigh <;> simp
  · simp
theorem execTagByteTimeout_keepsStore : KeepsStore s.store (execTagByteTimeout s) := by
  unfold execTagByteTimeout; split <;> simp
theorem execSensorRawLevelChange_keepsStore (l : SensorLine) (level : Bool) :
    KeepsStore s.store (execSensorRawLevelChange l level s) := by
  unfold execSensorRawLevelChange
  dsimp only
  split <;> simp
theorem execSensorFallingEdge_keepsStore (l : SensorLine) : KeepsStore s.store (execSensorFallingEdge l s) := by
  unfold execSensorFallingEdge
  dsimp only
  split <;> simp
theorem execPstbPulseEnd_keepsStore : KeepsStore s.store (execPstbPulseEnd c s) := by
  unfold execPstbPulseEnd
  split
  · simp
  · split <;> simp
theorem execAtPtRise_keepsStore : KeepsStore s.store (execAtPtRise c s) := by
  unfold execAtPtRise; split <;> simp
theorem execReachExpiry_keepsStore : KeepsStore s.store (execReachExpiry c s) := by
  unfold execReachExpiry; split <;> simp
theorem execWindowOpen_keepsStore : KeepsStore s.store (execWindowOpen c s) := by
  unfold execWindowOpen; split <;> simp
theorem execWindowClose_keepsStore : KeepsStore s.store (execWindowClose c s) := by
  unfold execWindowClose
  split
  · dsimp only
    split <;> simp
  · simp
theorem execWdoneRise_keepsStore (wfaultActive : Bool) : KeepsStore s.store (execWdoneRise c wfaultActive s) := by
  unfold execWdoneRise; split <;> simp
theorem execWfaultRise_keepsStore : KeepsStore s.store (execWfaultRise c s) := by
  unfold execWfaultRise; split <;> simp
theorem execAuxRawChange_keepsStore (line : Fin 8) (pinHigh : Bool) :
    KeepsStore s.store (execAuxRawChange line pinHigh s) := by
  unfold execAuxRawChange
  dsimp only
  split
  · split
    · simp
    · split <;> simp
  · simp
theorem execAuxFilterExpiry_keepsStore (line : Fin 8) : KeepsStore s.store (execAuxFilterExpiry line s) := by
  unfold execAuxFilterExpiry; split <;> simp
theorem execCarrierStart_keepsStore : KeepsStore s.store (execCarrierStart s) := by
  unfold execCarrierStart; split <;> simp
theorem execCarrierEnd_keepsStore (bytes : List Byte) (framingError : Bool) :
    KeepsStore s.store (execCarrierEnd bytes framingError s) := by
  unfold execCarrierEnd
  split
  · simp
  · dsimp only
    split
    · simp
    · split
      · split
        · split <;> simp
        · simp
      · simp
theorem execCarrierTimeout_keepsStore : KeepsStore s.store (execCarrierTimeout s) := by
  unfold execCarrierTimeout
  split
  · simp
  · dsimp only
    split
    · simp
    · split <;> simp
theorem execTransmissionEnd_keepsStore : KeepsStore s.store (execTransmissionEnd s) := by
  simp [execTransmissionEnd]
theorem execNoEchoTimeout_keepsStore : KeepsStore s.store (execNoEchoTimeout s) := by
  unfold execNoEchoTimeout
  split
  · simp
  · split <;> simp
theorem execJabberCut_keepsStore : KeepsStore s.store (execJabberCut s) := by
  unfold execJabberCut
  split
  · simp
  · dsimp only
    split <;> simp
theorem execOwnTurnStart_keepsStore : KeepsStore s.store (execOwnTurnStart s) := by
  unfold execOwnTurnStart
  split
  · simp
  · split
    · split
      · simp
      · split <;> simp
    · simp
theorem execJoinFrameStart_keepsStore : KeepsStore s.store (execJoinFrameStart s) := by
  unfold execJoinFrameStart
  split
  · simp
  · split <;> simp
theorem execLapse_keepsStore : KeepsStore s.store (execLapse s) := by
  unfold execLapse
  split
  · simp
  · split <;> simp
theorem execVacancyWindowEnd_keepsStore : KeepsStore s.store (execVacancyWindowEnd s) := by
  unfold execVacancyWindowEnd
  split
  · simp
  · split <;> simp
theorem execClaimExpiry_keepsStore : KeepsStore s.store (execClaimExpiry s) := by
  unfold execClaimExpiry
  split <;> simp
theorem execJoinHoldEnd_keepsStore : KeepsStore s.store (execJoinHoldEnd s) := by simp [execJoinHoldEnd]
theorem execFounding_keepsStore : KeepsStore s.store (execFounding s) := by
  unfold execFounding; split <;> simp

end Sys2Proof.Machine

/-- The commands of start-up: RESET, STRAP_READING and the four passes. -/
def Sys2Proof.Instr.startsUp : Instr → Bool
  | .reset | .strapReading _ | .headerPass _ | .stylePass _ | .directoryPass _ _ | .programPass _ _ => true
  | _ => false

namespace Sys2Proof.Machine

/-- Every command but those of start-up leaves the store as it was (R1, R18). -/
theorem exec_keepsStore (i : Instr) (s : State) (h : i.startsUp = false) : KeepsStore s.store (exec i s) := by
  cases i with
  | reset => cases h
  | strapReading straps => cases h
  | headerPass image => cases h
  | stylePass image => cases h
  | directoryPass image pins => cases h
  | programPass image pins => cases h
  | countChange line => exact execCountChange_keepsStore s line
  | illegalTransition => exact execIllegalTransition_keepsStore s
  | haltTimerExpiry => exact execHaltTimerExpiry_keepsStore s
  | heldReadExpiry => exact execHeldReadExpiry_keepsStore s
  | pairingWaitExpiry => exact execPairingWaitExpiry_keepsStore s
  | zoneLengthEvent => exact execZoneLengthEvent_keepsStore s
  | arrival => exact execArrival_keepsStore s
  | zoneExit => exact execZoneExit_keepsStore s
  | tagByte byte stopHigh => exact execTagByte_keepsStore s byte stopHigh
  | tagByteTimeout => exact execTagByteTimeout_keepsStore s
  | pstbPulseEnd c => exact execPstbPulseEnd_keepsStore s c
  | atPtRise c => exact execAtPtRise_keepsStore s c
  | reachExpiry c => exact execReachExpiry_keepsStore s c
  | windowOpen c => exact execWindowOpen_keepsStore s c
  | windowClose c => exact execWindowClose_keepsStore s c
  | auxRawChange line pinHigh => exact execAuxRawChange_keepsStore s line pinHigh
  | auxFilterExpiry line => exact execAuxFilterExpiry_keepsStore s line
  | wdoneRise c wfaultActive => exact execWdoneRise_keepsStore s c wfaultActive
  | wfaultRise c => exact execWfaultRise_keepsStore s c
  | carrierStart => exact execCarrierStart_keepsStore s
  | carrierTimeout => exact execCarrierTimeout_keepsStore s
  | carrierEnd bytes framingError => exact execCarrierEnd_keepsStore s bytes framingError
  | noEchoTimeout => exact execNoEchoTimeout_keepsStore s
  | jabberCut => exact execJabberCut_keepsStore s
  | ownTurnStart => exact execOwnTurnStart_keepsStore s
  | joinFrameStart => exact execJoinFrameStart_keepsStore s
  | lapse => exact execLapse_keepsStore s
  | vacancyWindowEnd => exact execVacancyWindowEnd_keepsStore s
  | claimExpiry => exact execClaimExpiry_keepsStore s
  | joinHoldEnd => exact execJoinHoldEnd_keepsStore s
  | founding => exact execFounding_keepsStore s
  | sensorRawLevelChange line level => exact execSensorRawLevelChange_keepsStore s line level
  | sensorFallingEdge line => exact execSensorFallingEdge_keepsStore s line
  | transmissionEnd => exact execTransmissionEnd_keepsStore s

end Sys2Proof.Machine
end

