-- ==== Sys2Proof/Proofs/PointChecks.lean ====
section
/-!
SUPPORT. The ten point checks of R14 as a list, and the fault kind of a point as the first of them that fails.
-/

namespace Sys2Proof.Machine

open Classical in
/-- The kind of the first check in a list that fails, none when all hold. -/
noncomputable def firstFailing : List (FaultKind × Prop) → Option FaultKind
  | [] => none
  | x :: rest => if x.2 then firstFailing rest else some x.1

/-- No check fails exactly when all hold. -/
theorem firstFailing_eq_none_iff (checks : List (FaultKind × Prop)) :
    firstFailing checks = none ↔ ∀ x ∈ checks, x.2 := by
  induction checks with
  | nil => simp [firstFailing]
  | cons x rest ih =>
    by_cases hx : x.2
    · simp [firstFailing, hx, ih]
    · simp [firstFailing, hx]

/-- A failing check behind checks that hold is the first failing one. -/
theorem firstFailing_eq_some (checks : List (FaultKind × Prop)) :
    ∀ (i : Nat) (f : FaultKind) (holds : Prop), checks[i]? = some (f, holds) →
      (∀ j < i, ∀ x : FaultKind × Prop, checks[j]? = some x → x.2) → ¬holds → firstFailing checks = some f := by
  induction checks with
  | nil => simp
  | cons x rest ih =>
    intro i f holds hi before hn
    cases i with
    | zero =>
      obtain rfl : x = (f, holds) := by simpa using hi
      simp [firstFailing, hn]
    | succ i =>
      have hx : x.2 := before 0 (by omega) x rfl
      simp only [firstFailing, hx, if_true]
      exact ih i f holds hi (fun j hj => before (j + 1) (by omega)) hn

/-- The checks of R14 in table order, each with the fault kind of Table 12 that it gives. -/
def pointChecks (k : LineConsts) (c : StationConsts) (r : PointRec) : List (FaultKind × Prop) :=
  [(.schedule, 1 ≤ r.schedule ∧ r.schedule ≤ 63), (.loadRange, 1 ≤ r.load ∧ r.load ≤ 250),
    (.loadOverBudget, r.load ≤ k.budget), (.holdRange, r.hold ≠ 0), (.holdOverCeiling, r.hold ≤ k.holdCeiling),
    (.windowOrder, r.windowOpen < r.windowClose), (.windowBeyondZone, r.windowClose ≤ c.zoneLength),
    (.optionIndex, ∀ x, r.cond = some x → x.index ≤ 15),
    (.gateLine, ∀ x, r.gate = some x → c.auxIn[x.line].used = true),
    (.actionLine, ∀ x, r.action = some x → c.auxOut[x.line].used = true)]

/-- One branch of a chain of tests: `bad` gives the fault of a check that does not hold, and the rest of the chain is
that of the later checks. -/
theorem branch_eq_firstFailing {bad holds : Prop} [Decidable bad] {f : FaultKind} {later : Option FaultKind}
    {rest : List (FaultKind × Prop)} (fails : bad ↔ ¬holds) (h : later = firstFailing rest) :
    (if bad then some f else later) = firstFailing ((f, holds) :: rest) := by
  by_cases hb : bad
  · simp [firstFailing, hb, fails.1 hb]
  · simp [firstFailing, hb, not_not.1 fun hn => hb (fails.2 hn), h]

/-- The fault of a point is the first check of R14 that it fails. -/
theorem pointFault_eq_firstFailing (k : LineConsts) (c : StationConsts) (r : PointRec) :
    pointFault k c r = firstFailing (pointChecks k c r) := by
  have schedule : r.schedule < 1 ∨ 63 < r.schedule ↔ ¬(1 ≤ r.schedule ∧ r.schedule ≤ 63) := by omega
  have load : r.load < 1 ∨ 250 < r.load ↔ ¬(1 ≤ r.load ∧ r.load ≤ 250) := by omega
  have cond : r.cond.any (fun x => 15 < x.index) = true ↔ ¬∀ x, r.cond = some x → x.index ≤ 15 := by
    cases r.cond <;> simp
  have gate : r.gate.any (fun x => !c.inUsed x.line) = true ↔
      ¬∀ x, r.gate = some x → c.auxIn[x.line].used = true := by
    cases r.gate <;> simp [StationConsts.inUsed]
  have action : r.action.any (fun x => !c.outUsed x.line) = true ↔
      ¬∀ x, r.action = some x → c.auxOut[x.line].used = true := by
    cases r.action <;> simp [StationConsts.outUsed]
  exact branch_eq_firstFailing schedule <| branch_eq_firstFailing load <|
    branch_eq_firstFailing not_le.symm <| branch_eq_firstFailing not_not.symm <|
    branch_eq_firstFailing not_le.symm <| branch_eq_firstFailing not_lt.symm <|
    branch_eq_firstFailing not_le.symm <| branch_eq_firstFailing cond <|
    branch_eq_firstFailing gate <| branch_eq_firstFailing action rfl

/-- A point passes exactly when every check holds (R14). -/
theorem pointFault_eq_none_iff (k : LineConsts) (c : StationConsts) (r : PointRec) :
    pointFault k c r = none ↔ ∀ x ∈ pointChecks k c r, x.2 := by
  rw [pointFault_eq_firstFailing, firstFailing_eq_none_iff]

/-- What a passing point is within: budget, ceiling, and a window that opens before it closes. -/
theorem passing_point_bounds {k : LineConsts} {c : StationConsts} {r : PointRec} (h : pointFault k c r = none) :
    r.load ≤ k.budget ∧ r.hold ≤ k.holdCeiling ∧ r.windowOpen < r.windowClose := by
  have checks := (pointFault_eq_none_iff k c r).1 h
  simp only [pointChecks, List.forall_mem_cons] at checks
  obtain ⟨-, -, budget, -, ceiling, order, -⟩ := checks
  exact ⟨budget, ceiling, order⟩

/-- A window position of two bytes is at most 65535, so a window that opens there cannot close later. -/
theorem pointFault_open_at_limit (image : List Byte) (i : Nat) (k : LineConsts) (c : StationConsts)
    (h : (decodePoint image i).windowOpen = 65535) : pointFault k c (decodePoint image i) ≠ none := by
  intro passes
  obtain ⟨-, -, order⟩ := passing_point_bounds passes
  have close : (decodePoint image i).windowClose < 2 ^ 16 := (image16 image (11 * i + 6)).isLt
  omega

/-- A condition byte with a bit above the index's four set reads as an index above 15 (R185). -/
theorem decodeCond_undefined_bits (b : Byte) (present : b.getLsbD 7 = true)
    (undefined : b.getLsbD 5 = true ∨ b.getLsbD 4 = true) : ∃ x, decodeCond b = some x ∧ 15 < x.index := by
  refine ⟨{ index := (b.extractLsb' 0 6).toNat, required := b.getLsbD 6 }, by simp [decodeCond, present], ?_⟩
  have bit (j : Nat) (hj : j < 6) (set : b.getLsbD j = true) : 2 ^ j ≤ (b.extractLsb' 0 6).toNat := by
    apply Nat.ge_two_pow_of_testBit
    rw [BitVec.testBit_toNat, BitVec.getLsbD_extractLsb']
    simp [hj, set]
  show 15 < (b.extractLsb' 0 6).toNat
  rcases undefined with set | set
  · have := bit 5 (by omega) set
    omega
  · have := bit 4 (by omega) set
    omega

end Sys2Proof.Machine
end

