-- ==== Sys2Proof/Proofs/LoadPasses.lean ====
section
/-!
SUPPORT. What the parts of the passes of LOADING do to the store: the fault map, the point array, the checks of a header
and of a program's records, and where the fourth pass goes on.
-/

namespace Sys2Proof.Machine

/-! ## The fault map (R11, R15, R16) -/

/-- A recorded fault changes the first-fault record alone. -/
theorem Store.recordFault_frame (st : Store) (k : FaultKind) (p i : Nat) :
    st.recordFault k p i = { st with firstFault := (st.recordFault k p i).firstFault } := by
  unfold Store.recordFault; split <;> rfl

/-- A mark changes the fault map and the first-fault record alone. -/
theorem Store.mark_frame (st : Store) (k : FaultKind) (p i : Nat) :
    st.mark k p i = { st with marks := (st.mark k p i).marks, firstFault := (st.mark k p i).firstFault } := by
  unfold Store.mark Store.recordFault
  dsimp only
  split <;> split <;> rfl

/-- The marks after one more program is marked. -/
theorem Store.marked_mark (st : Store) (k : FaultKind) (p i q : Nat) (h1 : 1 ≤ p) (h2 : p ≤ 128) :
    (st.mark k p i).marked q = (decide (q = p) || st.marked q) := by
  have map : (st.mark k p i).marks = st.marks.setIfInBounds (p - 1) true := by
    unfold Store.mark
    rw [Store.recordFault_frame]
    simp [show p ≠ 0 by omega]
  unfold Store.marked
  rw [map]
  by_cases h0 : q = 0
  · simp [h0]; omega
  · by_cases hq : q = p
    · subst hq
      simp [h0, show q - 1 < 128 by omega]
    · rw [Vector.getElem?_setIfInBounds_ne (by omega)]
      simp [h0, hq]

/-- The link check changes the fault map and the first-fault record alone (R10). -/
theorem linkCheck_frame (table : List StyleEntry) :
    ∀ (i : Nat) (st : Store),
      linkCheck i table st =
        { st with marks := (linkCheck i table st).marks, firstFault := (linkCheck i table st).firstFault } := by
  have field (st : Store) (i : Nat) (p : Option Nat) :
      st.linkField i p =
        { st with marks := (st.linkField i p).marks, firstFault := (st.linkField i p).firstFault } := by
    unfold Store.linkField
    split
    · split
      · exact Store.mark_frame st _ _ _
      · rfl
    · rfl
  induction table with
  | nil => exact fun _ _ => rfl
  | cons e rest ih =>
    intro i st
    unfold linkCheck
    rw [ih, field (st.linkField i e.progA), field st]

/-- The directory check changes the fault map and the first-fault record alone (R12). -/
theorem directoryCheck_frame (dir : List DirEntry) :
    ∀ (p : Nat) (st : Store),
      directoryCheck p dir st =
        { st with marks := (directoryCheck p dir st).marks, firstFault := (directoryCheck p dir st).firstFault } := by
  induction dir with
  | nil => exact fun _ _ => rfl
  | cons d rest ih =>
    intro p st
    unfold directoryCheck
    rw [ih]
    split
    · rw [Store.mark_frame st]
    · rfl

/-! ## The directory -/

/-- A program with a directory entry has a number of the directory's. -/
theorem Store.dirEntry_bounds {st : Store} {p : Nat} {d : DirEntry} (h : st.dirEntry p = some d) :
    1 ≤ p ∧ p ≤ st.directory.length := by
  unfold Store.dirEntry at h
  split at h
  · cases h
  · obtain ⟨hp, -⟩ := List.getElem?_eq_some_iff.1 h
    omega

/-! ## The point array (R6, R13; log 19) -/

/-- What the point array answers at a position is the record found there. -/
theorem Store.pointAt_eq_some {st : Store} {i : Nat} {r : PointRec} :
    st.pointAt i = some r ↔ st.points.find? (fun e => e.1 == i) = some (i, r) := by
  unfold Store.pointAt
  constructor
  · intro h
    obtain ⟨e, he, rfl⟩ := Option.map_eq_some_iff.1 h
    have : e.1 = i := by simpa using List.find?_some he
    rw [he, ← this]
  · intro h
    rw [h]
    rfl

/-- A record that enters without replacing leaves what the array answers. -/
theorem insertPoint_find_present (i : Nat) (r : PointRec) (j : Nat) (e : Nat × PointRec)
    (array : List (Nat × PointRec)) (wf : PointArray.wf array = true)
    (h : array.find? (fun e => e.1 == j) = some e) :
    (insertPoint false i r array).find? (fun e => e.1 == j) = some e := by
  by_cases hj : j = i
  · subst hj
    simp only [PointArray.wf, decide_eq_true_eq] at wf
    induction array with
    | nil => cases h
    | cons x rest ih =>
      simp only [List.map_cons, List.pairwise_cons] at wf
      obtain ⟨above, wfRest⟩ := wf
      unfold insertPoint
      split
      · rename_i hlt
        have hm : e.1 ∈ (x :: rest).map Prod.fst := List.mem_map_of_mem (List.mem_of_find?_eq_some h)
        have he : e.1 = j := by simpa using List.find?_some h
        rcases List.mem_cons.1 hm with hx | hr
        · omega
        · have := above _ hr
          omega
      · split
        · exact h
        · rename_i hne
          rw [List.find?_cons_of_neg (by simpa using Ne.symm hne)] at h ⊢
          exact ih h wfRest
  · rw [insertPoint_find_other false i j r array hj]
    exact h

/-- Records that enter without replacing leave what the array answers. -/
theorem insertPoints_find_present (recs : List PointRec) (j : Nat) (e : Nat × PointRec) :
    ∀ (i : Nat) (array : List (Nat × PointRec)), PointArray.wf array = true →
      array.find? (fun e => e.1 == j) = some e → (insertPoints false i recs array).find? (fun e => e.1 == j) = some e := by
  induction recs with
  | nil => exact fun _ _ _ h => h
  | cons r rest ih =>
    exact fun i array wf h =>
      ih (i + 1) _ (insertPoint_wf false i r array wf) (insertPoint_find_present i r j e array wf h)

/-- Outside the positions of the records that enter, the array answers as before. -/
theorem insertPoints_find_outside (anew : Bool) (recs : List PointRec) (j : Nat) :
    ∀ (i : Nat) (array : List (Nat × PointRec)), j < i ∨ i + recs.length ≤ j →
      (insertPoints anew i recs array).find? (fun e => e.1 == j) = array.find? (fun e => e.1 == j) := by
  induction recs with
  | nil => exact fun _ _ _ => rfl
  | cons r rest ih =>
    intro i array h
    rw [List.length_cons] at h
    unfold insertPoints
    rw [ih (i + 1) _ (by omega), insertPoint_find_other anew i j r array (by omega)]

/-- At the positions of records that enter anew, the array answers them. -/
theorem insertPoints_find_anew (recs : List PointRec) (r : PointRec) :
    ∀ (i j : Nat) (array : List (Nat × PointRec)), recs[j]? = some r →
      (insertPoints true i recs array).find? (fun e => e.1 == i + j) = some (i + j, r) := by
  induction recs with
  | nil => simp
  | cons x rest ih =>
    intro i j array h
    unfold insertPoints
    cases j with
    | zero =>
      obtain rfl : x = r := by simpa using h
      rw [Nat.add_zero, insertPoints_find_outside true rest i (i + 1) _ (by omega)]
      exact insertPoint_find_same i x array
    | succ j =>
      rw [show i + (j + 1) = i + 1 + j by omega]
      exact ih (i + 1) j _ h

/-- Records that meet `P` enter anew: an answered position that met `P` still meets it. -/
theorem insertPoints_find_meets (P : PointRec → Prop) (recs : List PointRec) (new : ∀ r ∈ recs, P r) (i j : Nat)
    (array : List (Nat × PointRec)) (old : ∃ r, array.find? (fun e => e.1 == j) = some (j, r) ∧ P r) :
    ∃ r, (insertPoints true i recs array).find? (fun e => e.1 == j) = some (j, r) ∧ P r := by
  by_cases hj : j < i ∨ i + recs.length ≤ j
  · rw [insertPoints_find_outside true recs j i array hj]
    exact old
  · have hl : j - i < recs.length := by omega
    have found := insertPoints_find_anew recs recs[j - i] i (j - i) array (List.getElem?_eq_getElem hl)
    rw [show i + (j - i) = j by omega] at found
    exact ⟨_, found, new _ (List.getElem_mem hl)⟩

/-! ## The checks of a header and of a program's records (R9, R13, R14) -/

/-- A good header counts at most 128 programs (R9, check 5). -/
theorem headerFault_none_programs {image : List Byte} (h : headerFault image = none) :
    (imageByte image 41).toNat ≤ 128 := by
  have inRange : headerInRange image = true := by
    by_contra out
    simp only [headerFault, Bool.eq_false_of_not_eq_true out, if_true] at h
    split_ifs at h
  simp only [headerInRange, Bool.and_eq_true, decide_eq_true_eq] at inRange
  obtain ⟨⟨-, programs⟩, -⟩ := inRange
  exact programs

/-- No first failing point: every record passes. -/
theorem firstPointFault_eq_none {l : LineConsts} {c : StationConsts} {recs : List PointRec} :
    ∀ {k : Nat}, firstPointFault l c k recs = none → ∀ r ∈ recs, pointFault l c r = none := by
  induction recs with
  | nil => simp
  | cons x rest ih =>
    intro k h
    unfold firstPointFault at h
    split at h
    · cases h
    · rename_i hx
      exact List.forall_mem_cons.2 ⟨hx, ih h⟩

/-- A good program's records all pass. -/
theorem programFault_eq_none {l : LineConsts} {c : StationConsts} {d : DirEntry} {image : List Byte}
    {recs : List PointRec} (h : programFault l c d image recs = none) : ∀ r ∈ recs, pointFault l c r = none := by
  unfold programFault at h
  split at h
  · cases h
  · exact firstPointFault_eq_none h

/-! ## Where the fourth pass goes on (R13, R18) -/

/-- The next unmarked program follows marked ones, and is not marked itself. -/
theorem Store.nextUnmarked_eq_some {st : Store} {q : Nat} (n : Nat) :
    ∀ {p : Nat}, st.nextUnmarked n p = some q →
      p ≤ q ∧ q < p + n ∧ st.marked q = false ∧ ∀ r, p ≤ r → r < q → st.marked r = true := by
  induction n with
  | zero => exact fun h => nomatch h
  | succ n ih =>
    intro p h
    unfold Store.nextUnmarked at h
    split at h
    · rename_i hp
      obtain ⟨above, below, unmarked, between⟩ := ih h
      refine ⟨by omega, by omega, unmarked, fun r hr hq => ?_⟩
      rcases Nat.eq_or_lt_of_le hr with rfl | hlt
      · exact hp
      · exact between r hlt hq
    · rename_i hp
      obtain rfl : p = q := by simpa using h
      exact ⟨le_rfl, by omega, by simpa using hp, fun r h1 h2 => by omega⟩

/-- Without a next unmarked program all of them are marked. -/
theorem Store.nextUnmarked_eq_none {st : Store} (n : Nat) :
    ∀ {p : Nat}, st.nextUnmarked n p = none → ∀ r, p ≤ r → r < p + n → st.marked r = true := by
  induction n with
  | zero => exact fun _ r h1 h2 => by omega
  | succ n ih =>
    intro p h r hr hn
    unfold Store.nextUnmarked at h
    split at h
    · rename_i hp
      rcases Nat.eq_or_lt_of_le hr with rfl | hlt
      · exact hp
      · exact ih h r hlt (by omega)
    · cases h

/-- The fourth pass goes on, or ends, with the phase alone changed in the store, and leaves no unmarked program behind. -/
theorem continuePoints_store (p : Nat) (pins : PinSample) (s : State) :
    ∃ phase, (continuePoints p pins s).store = { s.store with phase := phase }
      ∧ (phase = .ended ∨ ∃ q, phase = .points q)
      ∧ ∀ r, phase.examined r → p ≤ r → r ≤ s.store.programCount → s.store.marked r = true := by
  cases h : s.store.nextUnmarked (s.store.programCount + 1 - p) p with
  | none =>
    refine ⟨.ended, by simp [continuePoints, h, loadingEnd], .inl rfl, fun r _ hp hr => ?_⟩
    exact Store.nextUnmarked_eq_none _ h r hp (by omega)
  | some q =>
    obtain ⟨-, -, -, between⟩ := Store.nextUnmarked_eq_some _ h
    exact ⟨.points q, by simp [continuePoints, h], .inr ⟨q, rfl⟩, fun r hq hp _ => between r hp hq⟩

end Sys2Proof.Machine
end

