-- ==== Sys2Proof/Proofs/LibraryLaw.lean ====
section
/-!
R14's law is a law of the store: every command keeps it, the passes of LOADING by what they examine and mark. O9.
-/

namespace Sys2Proof.Machine

/-- The law speaks of the store alone. -/
theorem State.LibraryChecked.of_store {s t : State} (h : s.LibraryChecked) (same : t.store = s.store) :
    t.LibraryChecked where
  noDirectory := by rw [same]; exact h.noDirectory
  programs := by rw [same]; exact h.programs
  pointArray := by rw [same]; exact h.pointArray
  directory := by rw [same]; exact h.directory
  counts := by rw [same]; exact h.counts
  points := by
    have lc : t.lc = s.lc := by rw [State.lc, State.lc, same]
    have sc : t.sc = s.sc := by rw [State.sc, State.sc, same]
    rw [same, lc, sc]
    exact h.points

/-- Before the directory is read no program is examined, and the law asks for the rest alone. -/
theorem libraryChecked_of_no_directory {s : State} (empty : s.store.directory = [])
    (programs : s.store.programCount ≤ 128) (pointArray : PointArray.wf s.store.points = true) : s.LibraryChecked where
  noDirectory _ := empty
  programs := programs
  pointArray := pointArray
  directory := .inl empty
  counts := by simp [empty]
  points p d k hd := by
    obtain ⟨h1, h2⟩ := Store.dirEntry_bounds hd
    rw [empty, List.length_nil] at h2
    omega

/-! ## The law while the fourth pass runs -/

/-- R14's law in the fourth pass: a directory has been read, and every program below `n` is marked or passes. -/
structure State.CheckedBelow (s : State) (n : Nat) : Prop where
  programs : s.store.programCount ≤ 128
  pointArray : PointArray.wf s.store.points = true
  directory : s.store.directory = [] ∨ s.store.directory.length = s.store.programCount
  counts : ∀ d ∈ s.store.directory, d.count ≤ 255
  points : ∀ p d k, s.store.dirEntry p = some d → s.store.marked p = false → p < n →
    1 ≤ k → k ≤ d.count → ∃ r, s.store.pointAt (d.first + k - 1) = some r ∧ pointFault s.lc s.sc r = none

/-- In the pass over program `p` the law holds of the programs below it. -/
theorem State.LibraryChecked.checkedBelow {s : State} {p : Nat} (h : s.LibraryChecked)
    (phase : s.store.phase = .points p) : s.CheckedBelow p where
  programs := h.programs
  pointArray := h.pointArray
  directory := h.directory
  counts := h.counts
  points q d k hd hm hq := h.points q d k hd hm (by rw [phase]; exact hq)

/-- A program with a directory entry is one of those counted. -/
theorem State.CheckedBelow.dirEntry_le {s : State} {n p : Nat} {d : DirEntry} (h : s.CheckedBelow n)
    (hd : s.store.dirEntry p = some d) : p ≤ s.store.programCount := by
  obtain ⟨h1, h2⟩ := Store.dirEntry_bounds hd
  rcases h.directory with hnil | hlen
  · rw [hnil, List.length_nil] at h2
    omega
  · omega

/-- When the programs below `n` are checked, the law holds wherever the fourth pass goes on from `n`. -/
theorem State.CheckedBelow.continuePoints {s : State} {n : Nat} (h : s.CheckedBelow n) (pins : PinSample) :
    (continuePoints n pins s).LibraryChecked := by
  obtain ⟨phase, store, later, passed⟩ := continuePoints_store n pins s
  refine State.LibraryChecked.of_store (s := { s with store := { s.store with phase := phase } }) ?_ store
  constructor
  case noDirectory => rcases later with rfl | ⟨q, rfl⟩ <;> simp
  case programs => exact h.programs
  case pointArray => exact h.pointArray
  case directory => exact h.directory
  case counts => exact h.counts
  case points =>
    intro p d k hd hm examined h1 hk
    rcases Nat.lt_or_ge p n with below | above
    · exact h.points p d k hd hm below h1 hk
    · have marked := passed p examined above (h.dirEntry_le hd)
      exact absurd (hm.symm.trans marked) (by decide)

/-- A program without a directory entry adds nothing to check. -/
theorem State.CheckedBelow.succ_of_no_entry {s : State} {p : Nat} (h : s.CheckedBelow p)
    (noEntry : s.store.dirEntry p = none) : s.CheckedBelow (p + 1) where
  programs := h.programs
  pointArray := h.pointArray
  directory := h.directory
  counts := h.counts
  points q d k hd hm hq := by
    have ne : q ≠ p := by
      rintro rfl
      rw [noEntry] at hd
      cases hd
    exact h.points q d k hd hm (by omega)

/-- A good program's records enter the array anew: with them every point up to its own passes, where they overlap those
of an earlier program too. -/
theorem State.CheckedBelow.succ_of_good {s : State} {p : Nat} {d : DirEntry} {recs : List PointRec}
    (h : s.CheckedBelow p) (entry : s.store.dirEntry p = some d) (length : recs.length = d.count)
    (good : ∀ r ∈ recs, pointFault s.lc s.sc r = none) :
    State.CheckedBelow
      { s with store := { s.store with points := insertPoints true d.first recs s.store.points } } (p + 1) where
  programs := h.programs
  pointArray := insertPoints_wf true recs _ _ h.pointArray
  directory := h.directory
  counts := h.counts
  points q e k hd hm hq h1 hk := by
    simp only [Store.pointAt_eq_some]
    by_cases own : q = p
    · subst own
      obtain rfl : d = e := Option.some.inj (entry.symm.trans hd)
      have hl : k - 1 < recs.length := by omega
      have found := insertPoints_find_anew recs recs[k - 1] d.first (k - 1) s.store.points
        (List.getElem?_eq_getElem hl)
      rw [show d.first + (k - 1) = d.first + k - 1 by omega] at found
      exact ⟨_, found, good _ (List.getElem_mem hl)⟩
    · obtain ⟨r, hr, pass⟩ := h.points q e k hd hm (by omega) h1 hk
      exact insertPoints_find_meets (fun r => pointFault s.lc s.sc r = none) recs good _ _ _
        ⟨r, Store.pointAt_eq_some.1 hr, pass⟩

/-- A program that fails is marked, and its records replace none of the programs before it. -/
theorem State.CheckedBelow.succ_of_marked {s : State} {p : Nat} {d : DirEntry} (h : s.CheckedBelow p)
    (entry : s.store.dirEntry p = some d) (recs : List PointRec) (f : FaultKind) (i : Nat) :
    State.CheckedBelow
      { s with
        store := { s.store with points := insertPoints false d.first recs s.store.points }.mark f p i } (p + 1) := by
  obtain ⟨h1, -⟩ := Store.dirEntry_bounds entry
  have h2 : p ≤ 128 := (h.dirEntry_le entry).trans h.programs
  have marks (q : Nat) :
      (Store.mark { s.store with points := insertPoints false d.first recs s.store.points } f p i).marked q =
        (decide (q = p) || s.store.marked q) := Store.marked_mark _ f p i q h1 h2
  rw [Store.mark_frame] at marks ⊢
  constructor
  case programs => exact h.programs
  case pointArray => exact insertPoints_wf false recs _ _ h.pointArray
  case directory => exact h.directory
  case counts => exact h.counts
  case points =>
    intro q e k hd hm hq hk1 hk
    obtain ⟨ne, unmarked⟩ : q ≠ p ∧ s.store.marked q = false := by
      simpa using (marks q).symm.trans hm
    obtain ⟨r, hr, pass⟩ := h.points q e k hd unmarked (by omega) hk1 hk
    exact ⟨r, Store.pointAt_eq_some.2
      (insertPoints_find_present recs _ _ _ _ h.pointArray (Store.pointAt_eq_some.1 hr)), pass⟩

/-! ## The commands of start-up -/

/-- A fatal fault leaves the law, which asks nothing of a store without a directory. -/
theorem fatalFault_libraryChecked {s : State} (h : s.LibraryChecked) (empty : s.store.directory = [])
    (k : FaultKind) (i : Nat) : (fatalFault k i s).LibraryChecked := by
  unfold fatalFault
  rw [Store.recordFault_frame]
  exact libraryChecked_of_no_directory empty h.programs h.pointArray

theorem execReset_libraryChecked (s : State) : AllNext State.LibraryChecked (execReset s) :=
  (allNext_next _ _).2 (libraryChecked_of_no_directory rfl (Nat.zero_le _) pointArray_reset_wf)

theorem execStrapReading_libraryChecked {s : State} (h : s.LibraryChecked) (straps : BitVec 5) :
    AllNext State.LibraryChecked (execStrapReading straps s) := by
  unfold execStrapReading
  split
  · rename_i phase
    have empty := h.noDirectory (.inl phase)
    split <;> rw [allNext_next] <;> exact libraryChecked_of_no_directory empty h.programs h.pointArray
  · exact (allNext_next _ _).2 h

theorem execHeaderPass_libraryChecked {s : State} (h : s.LibraryChecked) (image : List Byte) :
    AllNext State.LibraryChecked (execHeaderPass image s) := by
  unfold execHeaderPass
  split
  · rename_i phase
    have empty := h.noDirectory (.inr (.inl phase))
    split
    · exact (allNext_next _ _).2 (fatalFault_libraryChecked h empty _ _)
    · rename_i good
      exact (allNext_next _ _).2
        (libraryChecked_of_no_directory empty (headerFault_none_programs good) h.pointArray)
  · exact (allNext_next _ _).2 h

theorem execStylePass_libraryChecked {s : State} (h : s.LibraryChecked) (image : List Byte) :
    AllNext State.LibraryChecked (execStylePass image s) := by
  unfold execStylePass
  split
  · rename_i phase
    have empty := h.noDirectory (.inr (.inr (.inl phase)))
    dsimp only
    split
    · exact (allNext_next _ _).2 (fatalFault_libraryChecked h empty _ _)
    · rw [allNext_next, linkCheck_frame]
      exact libraryChecked_of_no_directory empty h.programs h.pointArray
  · exact (allNext_next _ _).2 h

theorem execDirectoryPass_libraryChecked {s : State} (h : s.LibraryChecked) (image : List Byte) (pins : PinSample) :
    AllNext State.LibraryChecked (execDirectoryPass image pins s) := by
  unfold execDirectoryPass
  split
  · dsimp only
    rw [allNext_next, directoryCheck_frame]
    apply State.CheckedBelow.continuePoints
    constructor
    case programs => exact h.programs
    case pointArray => exact h.pointArray
    case directory => exact .inr (by simp)
    case counts =>
      intro d hd
      obtain ⟨i, -, rfl⟩ := List.mem_map.1 hd
      exact Nat.le_of_lt_succ (imageByte image (5 * i + 2)).isLt
    case points =>
      intro p d k hd _ below
      obtain ⟨h1, -⟩ := Store.dirEntry_bounds hd
      omega
  · exact (allNext_next _ _).2 h

theorem execProgramPass_libraryChecked {s : State} (h : s.LibraryChecked) (image : List Byte) (pins : PinSample) :
    AllNext State.LibraryChecked (execProgramPass image pins s) := by
  unfold execProgramPass
  split
  · rename_i p phase
    have below := h.checkedBelow phase
    split
    · rename_i noEntry
      exact (allNext_next _ _).2 ((below.succ_of_no_entry noEntry).continuePoints pins)
    · rename_i d entry
      dsimp only
      rw [allNext_next]
      apply State.CheckedBelow.continuePoints
      split
      · exact below.succ_of_marked entry _ _ _
      · rename_i good
        exact below.succ_of_good entry (by simp) (programFault_eq_none good)
  all_goals exact (allNext_next _ _).2 h

/-! ## Every step -/

/-- Every command keeps R14's law. -/
theorem exec_libraryChecked {s : State} (h : s.LibraryChecked) (i : Instr) :
    AllNext State.LibraryChecked (exec i s) := by
  cases starts : i.startsUp with
  | false => exact fun t next => h.of_store (exec_keepsStore i s starts t next)
  | true =>
    cases i with
    | reset => exact execReset_libraryChecked s
    | strapReading straps => exact execStrapReading_libraryChecked h straps
    | headerPass image => exact execHeaderPass_libraryChecked h image
    | stylePass image => exact execStylePass_libraryChecked h image
    | directoryPass image pins => exact execDirectoryPass_libraryChecked h image pins
    | programPass image pins => exact execProgramPass_libraryChecked h image pins
    | _ => cases starts

/-- Every step keeps R14's law: an idle one, and one that runs the command at the front of the queue. -/
theorem step_libraryChecked {s t : State} (h : s.LibraryChecked) (next : step s = .next t) : t.LibraryChecked := by
  unfold step at next
  split at next
  · obtain rfl : s = t := by simpa using next
    exact h
  · rename_i i rest _
    exact exec_libraryChecked (h.of_store (t := { s with pending := rest }) rfl) i t next

/-- After LOADING a point of a program not marked is within the budget and the hold ceiling. -/
theorem State.LibraryChecked.pointRec_bounds {s : State} (h : s.LibraryChecked) {p k : Nat} {d : DirEntry}
    (ended : s.store.phase = .ended) (entry : s.store.dirEntry p = some d) (unmarked : s.store.marked p = false)
    (h1 : 1 ≤ k) (hk : k ≤ d.count) :
    (s.store.pointRec p k).load ≤ s.lc.budget ∧ (s.store.pointRec p k).hold ≤ s.lc.holdCeiling := by
  obtain ⟨r, hr, pass⟩ := h.points p d k entry unmarked (by rw [ended]; trivial) h1 hk
  obtain ⟨budget, ceiling, -⟩ := passing_point_bounds pass
  have point : s.store.pointRec p k = r := by simp [Store.pointRec, entry, hr]
  rw [point]
  exact ⟨budget, ceiling⟩

/-- Settles O9: the checks by their list, the law by the store that each command leaves. -/
theorem pointChecksAndTheirLaw : Obligations.PointChecksAndTheirLaw := by
  unfold Obligations.PointChecksAndTheirLaw
  refine ⟨fun k c r => ⟨pointFault_eq_none_iff k c r, fun i f holds hi before fails => ?_⟩,
    pointFault_open_at_limit, fun image i present undefined => decodeCond_undefined_bits _ present undefined,
    fun s t _ h next => step_libraryChecked h next,
    fun s p k d h ended entry unmarked h1 hk => h.pointRec_bounds ended entry unmarked h1 hk⟩
  exact (pointFault_eq_firstFailing k c r).trans
    (firstFailing_eq_some (pointChecks k c r) i f holds hi before fails)

end Sys2Proof.Machine
end

