-- ==== Sys2Proof/Proofs/WindowLaw.lean ====
section
/-!
SUPPORT. R36's law by the few things it reads of a state, and what each update of one channel asks for to keep it.
-/

namespace Sys2Proof.Machine

/-! ## One channel -/

variable {s : State} {c : Chan}

/-- R36's law of one channel. -/
def State.FollowsAt (s : State) (c : Chan) : Prop :=
  (s.eng c).state.hasPoint = (s.counter.window c).isSome
    ∧ ((s.eng c).state.hasPoint = true → s.tracker.zone.isBound = true)

/-- R36's law of every channel but one. -/
def State.FollowsBeside (s : State) (c : Chan) : Prop := ∀ d, d ≠ c → s.FollowsAt d

theorem State.windowsFollow_iff_followsAt : s.WindowsFollow ↔ ∀ c, s.FollowsAt c := by
  constructor
  · exact fun h c => ⟨Bool.eq_iff_iff.2 ((h.window c).trans Option.isSome_iff_ne_none.symm), h.bound c⟩
  · exact fun h => ⟨fun c => (Bool.eq_iff_iff.1 (h c).1).trans Option.isSome_iff_ne_none, fun c => (h c).2⟩

theorem State.windowsFollow_iff_beside (c : Chan) : s.WindowsFollow ↔ s.FollowsAt c ∧ s.FollowsBeside c := by
  rw [State.windowsFollow_iff_followsAt]
  refine ⟨fun h => ⟨h c, fun d _ => h d⟩, fun ⟨self, beside⟩ d => ?_⟩
  by_cases hd : d = c
  · exact hd ▸ self
  · exact beside d hd

theorem State.WindowsFollow.beside (h : s.WindowsFollow) (c : Chan) : s.FollowsBeside c :=
  ((State.windowsFollow_iff_beside c).1 h).2

/-- While the zone is not BOUND no engine has a point and no channel a window. -/
theorem State.WindowsFollow.of_free (h : s.WindowsFollow) (free : s.tracker.zone.isBound = false) (c : Chan) :
    (s.eng c).state.hasPoint = false ∧ s.counter.window c = none := by
  have point : (s.eng c).state.hasPoint = false := by
    by_contra has
    simpa [free] using h.bound c (by simpa using has)
  exact ⟨point, by_contra fun window => by simpa [point] using (h.window c).2 window⟩

/-- No point and no window is the law in any state of the zone. -/
theorem State.windowsFollow_of_none (h : ∀ c, (s.eng c).state.hasPoint = false ∧ s.counter.window c = none) :
    s.WindowsFollow :=
  State.windowsFollow_iff_followsAt.2 fun c => by simp [State.FollowsAt, h c]

/-! ## What the law reads -/

/-- R36's law by what it reads: whether each engine has a current point, whether each channel has a window state, and
whether the zone is BOUND. -/
def WindowLaw (pointA pointB windowA windowB bound : Bool) : Prop :=
  pointA = windowA ∧ pointB = windowB ∧ (pointA = true ∨ pointB = true → bound = true)

theorem State.windowsFollow_iff : s.WindowsFollow ↔
    WindowLaw s.engA.state.hasPoint s.engB.state.hasPoint s.counter.windowA.isSome s.counter.windowB.isSome
      s.tracker.zone.isBound := by
  rw [State.windowsFollow_iff_followsAt]
  constructor
  · exact fun h => ⟨(h .a).1, (h .b).1, fun point => point.elim (h .a).2 (h .b).2⟩
  · rintro ⟨windowA, windowB, bound⟩ (_ | _)
    · exact ⟨windowA, fun point => bound (.inl point)⟩
    · exact ⟨windowB, fun point => bound (.inr point)⟩

/-- A state written out field by field, to what the law reads of it. -/
@[simp] theorem State.windowsFollow_mk (st : Store) (k : Counter) (r : Tracker) (a b : Engine) (v : View) (l : LineCtl)
    (x : AuxUnit) (y : Sticky) (p : List Instr) :
    (State.mk st k r a b v l x y p).WindowsFollow ↔
      WindowLaw a.state.hasPoint b.state.hasPoint k.windowA.isSome k.windowB.isSome r.zone.isBound :=
  State.windowsFollow_iff

/-- What the law reads, back to the state it was read of. -/
@[simp] theorem windowLaw_state (s : State) :
    WindowLaw s.engA.state.hasPoint s.engB.state.hasPoint s.counter.windowA.isSome s.counter.windowB.isSome
      s.tracker.zone.isBound ↔ s.WindowsFollow :=
  State.windowsFollow_iff.symm

/-! ## Updates of one channel -/

@[simp] theorem State.modEng_followsBeside (f : Engine → Engine) :
    (s.modEng c f).FollowsBeside c ↔ s.FollowsBeside c :=
  forall₂_congr fun d hd => by simp [State.FollowsAt, State.eng_modEng_other _ _ _ _ hd]

@[simp] theorem State.setWindow_followsBeside (w : Option Window) :
    (s.setWindow c w).FollowsBeside c ↔ s.FollowsBeside c :=
  forall₂_congr fun d hd => by simp [State.FollowsAt, State.window_setWindow_other _ _ _ _ hd]

/-- An engine changed within the states with a point, or within those without. -/
theorem State.modEng_windowsFollow (f : Engine → Engine)
    (same : (f (s.eng c)).state.hasPoint = (s.eng c).state.hasPoint) :
    (s.modEng c f).WindowsFollow ↔ s.WindowsFollow := by
  simp [State.windowsFollow_iff_beside c, State.FollowsAt, same]

/-- A window state replaced by a window state. -/
theorem State.setWindow_windowsFollow (w : Option Window) (same : w.isSome = (s.counter.window c).isSome) :
    (s.setWindow c w).WindowsFollow ↔ s.WindowsFollow := by
  simp [State.windowsFollow_iff_beside c, State.FollowsAt, same]

/-- An engine leaves the states with a point, and its window ends (R36). -/
theorem State.windowsFollow_of_leaving (beside : s.FollowsBeside c) (f : Engine → Engine)
    (leaves : (f (s.eng c)).state.hasPoint = false) : ((s.modEng c f).setWindow c none).WindowsFollow := by
  simp [State.windowsFollow_iff_beside c, State.FollowsAt, leaves, beside]

/-- An engine has a point on a BOUND body, and its window stands (R34). -/
theorem State.windowsFollow_of_point (beside : s.FollowsBeside c) (bound : s.tracker.zone.isBound = true)
    (window : (s.counter.window c).isSome = true) (f : Engine → Engine)
    (point : (f (s.eng c)).state.hasPoint = true) : (s.modEng c f).WindowsFollow := by
  simp [State.windowsFollow_iff_beside c, State.FollowsAt, point, beside, bound, window]

end Sys2Proof.Machine
end

