-- ==== Sys2Proof/Proofs/WindowEngines.lean ====
section
/-!
SUPPORT. The point engines, the conveyor and the inputs keep R36's law: a window state is given at sending, and ends
where its engine enters IDLE, FINISHED or HELD.
-/

namespace Sys2Proof.Machine

variable {s : State} {c : Chan}

/-! ## The conveyor -/

theorem State.windowAfter_isSome (c : Chan) : (s.windowAfter c).isSome = (s.counter.window c).isSome := by
  unfold State.windowAfter; split <;> simp_all

@[simp] theorem State.updateWindows_windowsFollow : s.updateWindows.WindowsFollow ↔ s.WindowsFollow := by
  simp [State.updateWindows, State.windowAfter_isSome, Counter.window]

@[simp] theorem State.setTracked_windowsFollow (x : Word32) : (s.setTracked x).WindowsFollow ↔ s.WindowsFollow := by
  unfold State.setTracked
  split
  · rfl
  · simp [Counter.updateWatches]

@[simp] theorem State.setReverse_windowsFollow : s.setReverse.WindowsFollow ↔ s.WindowsFollow := by
  unfold State.setReverse; split <;> simp

/-! ## Outcomes -/

@[simp] theorem takeOutcome_counter (o : PointOutcome) (k : Nat) (s : State) :
    (takeOutcome c o k s).counter = s.counter := by
  unfold takeOutcome
  split
  · dsimp only
    split <;> simp
  · simp

@[simp] theorem takeOutcome_eng (o : PointOutcome) (k : Nat) (s : State) (d : Chan) :
    (takeOutcome c o k s).eng d = s.eng d := by
  unfold takeOutcome
  split
  · dsimp only
    split <;> cases d <;> simp
  · cases d <;> simp

/-- A place written leaves a BOUND zone BOUND. -/
@[simp] theorem State.writePlace_isBound (k : Nat) (o : PointOutcome) (s : State) :
    (s.writePlace c k o).tracker.zone.isBound = s.tracker.zone.isBound := by
  unfold State.writePlace
  split
  · rename_i zone
    rw [zone]
    rfl
  · rfl

@[simp] theorem takeOutcome_isBound (o : PointOutcome) (k : Nat) (s : State) :
    (takeOutcome c o k s).tracker.zone.isBound = s.tracker.zone.isBound := by
  unfold takeOutcome
  split
  · dsimp only
    split <;> simp
  · simp

/-- Every channel's law reads the same before and after an outcome. -/
@[simp] theorem takeOutcome_followsAt (o : PointOutcome) (k : Nat) (s : State) (d : Chan) :
    (takeOutcome c o k s).FollowsAt d ↔ s.FollowsAt d := by simp [State.FollowsAt]

@[simp] theorem takeOutcome_followsBeside (o : PointOutcome) (k : Nat) (s : State) (d : Chan) :
    (takeOutcome c o k s).FollowsBeside d ↔ s.FollowsBeside d := by simp [State.FollowsBeside]

@[simp] theorem takeOutcome_windowsFollow (o : PointOutcome) (k : Nat) (s : State) :
    (takeOutcome c o k s).WindowsFollow ↔ s.WindowsFollow := by simp [State.windowsFollow_iff_followsAt]

@[simp] theorem takeOutcomes_windowsFollow (o : PointOutcome) (n : Nat) :
    ∀ (k : Nat) (s : State), (takeOutcomes c o n k s).WindowsFollow ↔ s.WindowsFollow := by
  induction n with
  | zero => exact fun _ _ => Iff.rfl
  | succ n ih => exact fun k s => (ih (k + 1) _).trans (takeOutcome_windowsFollow o k s)

@[simp] theorem takeOutcomes_eng (o : PointOutcome) (n : Nat) (d : Chan) :
    ∀ (k : Nat) (s : State), (takeOutcomes c o n k s).eng d = s.eng d := by
  induction n with
  | zero => exact fun _ _ => rfl
  | succ n ih => exact fun k s => (ih (k + 1) _).trans (takeOutcome_eng o k s d)

@[simp] theorem takeOutcomes_isBound (o : PointOutcome) (n : Nat) :
    ∀ (k : Nat) (s : State), (takeOutcomes c o n k s).tracker.zone.isBound = s.tracker.zone.isBound := by
  induction n with
  | zero => exact fun _ _ => rfl
  | succ n ih => exact fun k s => (ih (k + 1) _).trans (takeOutcome_isBound o k s)

@[simp] theorem State.modInput_windowsFollow (line : Fin 8) (f : AuxIn → AuxIn) :
    (s.modInput line f).WindowsFollow ↔ s.WindowsFollow := by
  unfold State.modInput; simp

/-! ## Entries to states -/

/-- The entry to FINISHED gives the channel back its law, whatever stood there before. -/
theorem enterFinished_windowsFollow (beside : s.FollowsBeside c) : (enterFinished c s).WindowsFollow :=
  State.windowsFollow_of_leaving beside _ rfl

theorem enterHeld_windowsFollow (h : s.WindowsFollow) : (enterHeld c s).WindowsFollow :=
  State.windowsFollow_of_leaving (((takeOutcomes_windowsFollow _ _ _ _).2 h).beside c) _ rfl

theorem enterIdle_windowsFollow (h : s.WindowsFollow) : (enterIdle c s).WindowsFollow :=
  State.windowsFollow_of_leaving (h.beside c) _ rfl

@[simp] theorem dropFire_windowsFollow : (dropFire c s).WindowsFollow ↔ s.WindowsFollow :=
  State.modEng_windowsFollow _ rfl

@[simp] theorem withdraw_windowsFollow : (withdraw c s).WindowsFollow ↔ s.WindowsFollow :=
  State.modEng_windowsFollow _ rfl

theorem enterRequesting_windowsFollow (gated : (s.eng c).state = .gated) :
    (enterRequesting c s).WindowsFollow ↔ s.WindowsFollow := by
  unfold enterRequesting
  refine State.modEng_windowsFollow _ ?_
  rw [gated]
  rfl

theorem enterFiring_windowsFollow (requesting : (s.eng c).state = .requesting) :
    (enterFiring c s).WindowsFollow ↔ s.WindowsFollow := by
  unfold enterFiring
  refine State.modEng_windowsFollow _ ?_
  rw [requesting]
  rfl

theorem tryRequest_windowsFollow (h : s.WindowsFollow) : (tryRequest c s).WindowsFollow := by
  unfold tryRequest
  split
  · rename_i ready
    exact (enterRequesting_windowsFollow ready.1).2 h
  · exact h

/-! ## Sending -/

@[simp] theorem giveStrobe_windowsFollow (k : Nat) : (giveStrobe c k s).WindowsFollow ↔ s.WindowsFollow := by
  unfold giveStrobe
  dsimp only
  split <;> simp [State.modEng_windowsFollow]

/-- A strobe under a window given at sending: POSITIONING has a point (R69). -/
theorem strobe_windowsFollow (k : Nat) (beside : s.FollowsBeside c) (bound : s.tracker.zone.isBound = true)
    (window : (s.counter.window c).isSome = true) : (strobe c k s).WindowsFollow := by
  have positioning := State.windowsFollow_of_point beside bound window
    (fun e => { e with state := .positioning, reach := .stopped }) rfl
  unfold strobe
  dsimp only
  split
  · exact (State.modEng_windowsFollow _ rfl).2 positioning
  · exact (giveStrobe_windowsFollow k).2 positioning

/-- Sending ends with a point under its window or in FINISHED without one, whatever the channel was left with. -/
theorem sendPoints_windowsFollow (n : Nat) :
    ∀ (k : Nat) (s : State), s.FollowsBeside c → s.tracker.zone.isBound = true →
      (sendPoints c n k s).WindowsFollow := by
  induction n with
  | zero => exact fun _ s beside _ => enterFinished_windowsFollow beside
  | succ n ih =>
    intro k s beside bound
    unfold sendPoints
    dsimp only
    split
    · split
      · exact ih _ _ (by simp [sendWindow, beside]) (by simp [sendWindow, bound])
      · exact strobe_windowsFollow k (by simp [sendWindow, beside]) (by simp [sendWindow, bound])
          (by simp [sendWindow])
    · exact ih _ _ (by simp [beside]) (by simp [bound])

/-- Sending leaves the zone as BOUND as it was. -/
@[simp] theorem sendPoints_isBound (n : Nat) :
    ∀ (k : Nat) (s : State), (sendPoints c n k s).tracker.zone.isBound = s.tracker.zone.isBound := by
  have strobed (k : Nat) (s : State) : (strobe c k s).tracker = s.tracker := by
    unfold strobe
    split <;> simp [giveStrobe_eq]
  induction n with
  | zero => exact fun _ _ => by simp [sendPoints, enterFinished]
  | succ n ih =>
    intro k s
    unfold sendPoints
    dsimp only
    split
    · split <;> simp [ih, sendWindow, strobed]
    · simp [ih]

/-- An engine that had a point advances on the BOUND body it has (R70). -/
theorem advance_windowsFollow (h : s.WindowsFollow) (point : (s.eng c).state.hasPoint = true) :
    (advance c s).WindowsFollow :=
  sendPoints_windowsFollow _ _ s (h.beside c) (h.bound c point)

theorem endPoint_windowsFollow (o : PointOutcome) (h : s.WindowsFollow)
    (point : (s.eng c).state.hasPoint = true) : (endPoint c o s).WindowsFollow :=
  advance_windowsFollow ((takeOutcome_windowsFollow _ _ _).2 h) (by simpa using point)

theorem holdPoint_windowsFollow (o : PointOutcome) (h : s.WindowsFollow) : (holdPoint c o s).WindowsFollow :=
  enterHeld_windowsFollow ((takeOutcome_windowsFollow _ _ _).2 h)

theorem startEngine_windowsFollow (b : Body) (h : s.WindowsFollow) (bound : s.tracker.zone.isBound = true) :
    (startEngine c b s).WindowsFollow := by
  unfold startEngine
  split
  · exact h
  · exact (takeOutcomes_windowsFollow _ _ _ _).2 h
  · split
    · exact (takeOutcomes_windowsFollow _ _ _ _).2 h
    · exact sendPoints_windowsFollow _ _ _ (by simp [h.beside]) (by simp [bound])

@[simp] theorem startEngine_isBound (b : Body) :
    (startEngine c b s).tracker.zone.isBound = s.tracker.zone.isBound := by
  unfold startEngine
  split
  · rfl
  · simp
  · split <;> simp

theorem weldAnswer_windowsFollow (o : PointOutcome) (h : s.WindowsFollow) (firing : (s.eng c).state = .firing) :
    (weldAnswer c o s).WindowsFollow := by
  have answered (n : Nat) : ((takeOutcome c o (s.eng c).at (dropFire c s)).modEng c
      fun e => { e with faults := n }).WindowsFollow := by
    simp [State.modEng_windowsFollow, h]
  unfold weldAnswer
  dsimp only
  generalize (if o = PointOutcome.welded then 0 else (s.eng c).faults + 1) = n
  split
  · exact enterHeld_windowsFollow (answered n)
  · exact advance_windowsFollow (answered n) (by simp [dropFire, firing, EngineState.hasPoint])

/-! ## The close-out -/

theorem closeOut_windowsFollow (h : s.WindowsFollow) : (closeOut c s).WindowsFollow := by
  unfold closeOut
  dsimp only
  split <;> exact enterIdle_windowsFollow (by simp [h])

/-- The engine closed out is IDLE (R91). -/
@[simp] theorem closeOut_state (s : State) : ((closeOut c s).eng c).state = .idle := by
  unfold closeOut
  dsimp only
  split <;> simp [enterIdle]

/-- The other engine is as it was. -/
theorem eng_closeOut_other (s : State) {d : Chan} (h : d ≠ c) : (closeOut c s).eng d = s.eng d := by
  unfold closeOut
  dsimp only
  split <;> simp [enterIdle, dropFire, State.eng_modEng_other _ _ _ _ h]

/-- After both close-outs no engine has a point. -/
theorem closeOut_both_hasPoint (s : State) (d : Chan) :
    ((closeOut .b (closeOut .a s)).eng d).state.hasPoint = false := by
  have idle : ((closeOut .b (closeOut .a s)).eng d).state = .idle := by
    cases d with
    | a => rw [eng_closeOut_other _ (by decide), closeOut_state]
    | b => exact closeOut_state _
  rw [idle]
  rfl

/-! ## Reports to an engine -/

theorem reportExpiry_windowsFollow (h : s.WindowsFollow) : (reportExpiry c s).WindowsFollow := by
  unfold reportExpiry
  split
  · exact holdPoint_windowsFollow _ (dropFire_windowsFollow.2 h)
  · exact h

theorem reportAdmission_windowsFollow (number : Byte) (h : s.WindowsFollow) :
    (reportAdmission c number s).WindowsFollow := by
  unfold reportAdmission
  split
  · rename_i admitted
    exact (enterFiring_windowsFollow admitted.1).2 h
  · exact h

theorem reportLevel_windowsFollow (line : Fin 8) (active : Bool) (h : s.WindowsFollow) :
    (reportLevel line active c s).WindowsFollow := by
  unfold reportLevel
  split
  · split
    · exact tryRequest_windowsFollow h
    · split
      · rename_i requesting
        exact (State.modEng_windowsFollow _ (by simp [withdraw, requesting, EngineState.hasPoint])).2
          (withdraw_windowsFollow.2 h)
      · exact h
  · exact h

theorem reportLatch_windowsFollow (line : Fin 8) (h : s.WindowsFollow) : (reportLatch line c s).WindowsFollow := by
  unfold reportLatch
  split
  · exact tryRequest_windowsFollow h
  · exact h

/-! ## The auxiliary inputs -/

theorem setLatch_windowsFollow (line : Fin 8) (h : s.WindowsFollow) : (setLatch line c s).WindowsFollow := by
  unfold setLatch
  split
  · exact h
  · exact reportLatch_windowsFollow line ((State.modInput_windowsFollow line _).2 h)

theorem filteredChange_windowsFollow (line : Fin 8) (active : Bool) (h : s.WindowsFollow) :
    (filteredChange line active s).WindowsFollow := by
  have reported := reportLevel_windowsFollow (c := .b) line active
    (reportLevel_windowsFollow (c := .a) line active
      ((State.modInput_windowsFollow line fun x => { x with filtered := active, timer := .stopped }).2 h))
  unfold filteredChange
  dsimp only
  split
  · exact setLatch_windowsFollow line (setLatch_windowsFollow line reported)
  · exact reported

end Sys2Proof.Machine
end

