-- ==== Sys2Proof/Proofs/WindowBodies.lean ====
section
/-!
SUPPORT. Binding and zone end keep R36's law: a zone is bound only after every point and window of the body before is
gone, and a zone end leaves none.
-/

namespace Sys2Proof.Machine

variable {s : State} {c : Chan}

/-! ## The zone and the register -/

@[simp] theorem State.pushItem_windowsFollow (i : Item) : (s.pushItem i).WindowsFollow ↔ s.WindowsFollow := by
  unfold State.pushItem; split <;> simp

@[simp] theorem State.markEntry_windowsFollow (n : Word24) (m : Mark) :
    (s.markEntry n m).WindowsFollow ↔ s.WindowsFollow := by
  unfold State.markEntry; simp

@[simp] theorem State.setSensor_windowsFollow (l : SensorLine) (x : Sensor) :
    (s.setSensor l x).WindowsFollow ↔ s.WindowsFollow := by
  cases l <;> unfold State.setSensor <;> simp

/-- A sticky bit is nothing to the law. -/
theorem State.setSticky_windowsFollow (y : Sticky) :
    State.WindowsFollow { s with sticky := y } ↔ s.WindowsFollow := by simp

/-- With no point and no window the zone may take any state. -/
theorem State.setZone_windowsFollow (z : Zone) (h : s.WindowsFollow) (free : s.tracker.zone.isBound = false) :
    (s.setZone z).WindowsFollow :=
  State.windowsFollow_of_none fun c => by simpa using h.of_free free c

/-- The windows end with the zone once no engine has a point (R36, R60). -/
theorem State.endWatches_setZone_windowsFollow (z : Zone) (h : ∀ c, (s.eng c).state.hasPoint = false) :
    (s.endWatches.setZone z).WindowsFollow :=
  State.windowsFollow_of_none fun
    | .a => ⟨h .a, rfl⟩
    | .b => ⟨h .b, rfl⟩

@[simp] theorem State.eng_pushItem (i : Item) : (s.pushItem i).eng c = s.eng c := by cases c <;> simp

@[simp] theorem State.eng_markEntry (n : Word24) (m : Mark) : (s.markEntry n m).eng c = s.eng c := by cases c <;> rfl

@[simp] theorem pushResult_eng (b : Body) (s : State) (d : Chan) : (pushResult c b s).eng d = s.eng d := by
  unfold pushResult; split <;> simp

/-! ## Binding -/

theorem bindZone_windowsFollow (datum : Word32) (serial : Word24) (style : Byte) (options : Word16)
    (disputed listed : Bool) (h : s.WindowsFollow) (free : s.tracker.zone.isBound = false) :
    (bindZone datum serial style options disputed listed s).WindowsFollow := by
  have taken (b : Body) : (startEngine .a b (s.setZone (.bound datum b))).WindowsFollow :=
    startEngine_windowsFollow b (State.setZone_windowsFollow _ h free) rfl
  unfold bindZone
  exact startEngine_windowsFollow _ (taken _) (startEngine_isBound _)

theorem orderBind_windowsFollow (datum : Word32) (h : s.WindowsFollow) (free : s.tracker.zone.isBound = false) :
    (orderBind datum s).WindowsFollow := by
  unfold orderBind
  split
  · exact bindZone_windowsFollow _ _ _ _ _ _ ((State.markEntry_windowsFollow _ _).2 h) free
  · exact (State.setSticky_windowsFollow _).2 (State.setZone_windowsFollow _ h free)

theorem tagBind_windowsFollow (datum : Word32) (serial : Word24) (style : Byte) (options : Word16)
    (h : s.WindowsFollow) (free : s.tracker.zone.isBound = false) :
    (tagBind datum serial style options s).WindowsFollow := by
  unfold tagBind
  dsimp only
  split
  · exact bindZone_windowsFollow _ _ _ _ _ _ (by simp [h]) (by simp [free])
  · split
    · refine bindZone_windowsFollow _ _ _ _ _ _ ?_ ?_
      · split <;> simp [h]
      · split <;> simp [free]
    · exact bindZone_windowsFollow _ _ _ _ _ _ (by simp [h]) (by simp [free])

/-! ## Zone end -/

/-- The end of a BOUND zone, once the engines have closed out. -/
theorem finishZone_windowsFollow (h : s.WindowsFollow) (closed : ∀ c, (s.eng c).state.hasPoint = false) :
    (finishZone s).WindowsFollow := by
  unfold finishZone
  split
  · dsimp only
    refine State.endWatches_setZone_windowsFollow _ fun c => ?_
    split <;> simp [closed]
  · exact h

theorem zoneEnd_windowsFollow (h : s.WindowsFollow) : (zoneEnd s).WindowsFollow := by
  unfold zoneEnd
  split
  · exact h
  · exact finishZone_windowsFollow (closeOut_windowsFollow (closeOut_windowsFollow h)) (closeOut_both_hasPoint s)
  · rename_i zone
    exact State.endWatches_setZone_windowsFollow _ fun c => (h.of_free (by rw [zone]; rfl) c).1
  · rename_i zone
    exact (State.setSticky_windowsFollow _).2
      (State.endWatches_setZone_windowsFollow _ fun c => (h.of_free (by rw [zone]; rfl) c).1)

/-- The end of a zone leaves none BOUND (R60). -/
theorem finishZone_isBound (s : State) : (finishZone s).tracker.zone.isBound = false := by
  unfold finishZone
  cases zone : s.tracker.zone with
  | bound d b => rfl
  | empty | pairing d | stray d =>
    dsimp only
    rw [zone]
    rfl

theorem zoneEnd_isBound (s : State) : (zoneEnd s).tracker.zone.isBound = false := by
  unfold zoneEnd
  split
  · rename_i zone
    rw [zone]
    rfl
  · exact finishZone_isBound _
  · rfl
  · rfl

theorem takeArrival_windowsFollow (h : s.WindowsFollow) : (takeArrival s).WindowsFollow := by
  have ended := zoneEnd_windowsFollow h
  have free := zoneEnd_isBound s
  unfold takeArrival
  dsimp only
  split
  · split
    · exact tagBind_windowsFollow _ _ _ _ (by simp [ended]) free
    · exact State.windowsFollow_of_none fun
        | .a => ended.of_free free .a
        | .b => ended.of_free free .b
  · exact orderBind_windowsFollow _ (by simp [ended]) free

/-! ## Tag records -/

@[simp] theorem tagError_windowsFollow : (tagError s).WindowsFollow ↔ s.WindowsFollow := by
  unfold tagError; simp

theorem takeTagRecord_windowsFollow (serial : Word24) (style : Byte) (options : Word16) (h : s.WindowsFollow) :
    (takeTagRecord serial style options s).WindowsFollow := by
  unfold takeTagRecord
  dsimp only
  split
  · rename_i zone
    exact tagBind_windowsFollow _ _ _ _ h (by rw [zone]; rfl)
  · split <;> simp [h]
  · simp [h]
  · simp [h]

theorem tagComplete_windowsFollow (bytes : List Byte) (h : s.WindowsFollow) :
    (tagComplete bytes s).WindowsFollow := by
  unfold tagComplete
  split
  · split
    · exact takeTagRecord_windowsFollow _ _ _ (by simp [h])
    · exact tagError_windowsFollow.2 h
  · exact h

theorem takeTagByte_windowsFollow (byte : Byte) (h : s.WindowsFollow) : (takeTagByte byte s).WindowsFollow := by
  unfold takeTagByte
  dsimp only
  split
  · exact tagError_windowsFollow.2 h
  · split
    · exact tagComplete_windowsFollow _ h
    · simp [h]

/-! ## The items of a frame -/

@[simp] theorem evictIfFull_windowsFollow : (evictIfFull s).WindowsFollow ↔ s.WindowsFollow := by
  unfold evictIfFull; split <;> simp

/-- A record that becomes listed stays BOUND (R41). -/
@[simp] theorem Zone.makeListed_isBound (z : Zone) : z.makeListed.isBound = z.isBound := by cases z <;> rfl

@[simp] theorem applyAnnounce_windowsFollow (sender : Nat) (serial : Word24) (style : Byte) (options : Word16) :
    (applyAnnounce sender serial style options s).WindowsFollow ↔ s.WindowsFollow := by
  unfold applyAnnounce
  split
  · rfl
  · simp [apply_ite Zone.isBound]

@[simp] theorem applyItem_windowsFollow (sender : Nat) (exitFlag : Bool) (i : Item) :
    (applyItem sender exitFlag s i).WindowsFollow ↔ s.WindowsFollow := by
  cases i with
  | result r => exact Iff.rfl
  | announce n y o => unfold applyItem; dsimp only; split <;> simp
  | dispute n y o => unfold applyItem applyDispute; dsimp only; split <;> simp
  | resync n => unfold applyItem applyResync; dsimp only; split <;> simp
  | depart n => unfold applyItem applyDepart; dsimp only; split <;> [skip; split] <;> simp

@[simp] theorem applyItems_windowsFollow (sender : Nat) (exitFlag : Bool) (items : List Item) :
    ∀ s : State, (applyItems sender exitFlag items s).WindowsFollow ↔ s.WindowsFollow := by
  induction items with
  | nil => exact fun _ => Iff.rfl
  | cons i rest ih => exact fun s => (ih _).trans (applyItem_windowsFollow sender exitFlag i)

end Sys2Proof.Machine
end

