-- ==== Sys2Proof/Proofs/WindowStationLine.lean ====
section
/-!
SUPPORT. The feeder table and the station line touch an engine only by their reports, the close-out of OFF LINE and the
count of a standing request, and keep R36's law.
-/

namespace Sys2Proof.Machine

variable {s : State} {c : Chan}

/-! ## The feeder table -/

theorem expireClaims_windowsFollow (h : s.WindowsFollow) : (expireClaims s).WindowsFollow := by
  unfold expireClaims
  split
  · exact h
  · rename_i n _
    have expired : State.WindowsFollow { s with view := s.view.expire n } := by simp [h]
    dsimp only
    split <;> split <;> simp only [expired, reportExpiry_windowsFollow]

@[simp] theorem setOwnSlots_windowsFollow (count : Word16) :
    (setOwnSlots count s).WindowsFollow ↔ s.WindowsFollow := by
  unfold setOwnSlots; simp

@[simp] theorem judgeSlot_windowsFollow (count : Word16) : (judgeSlot count c s).WindowsFollow ↔ s.WindowsFollow := by
  unfold judgeSlot
  split
  · split <;> simp
  · rfl

@[simp] theorem judgeOwnSlots_windowsFollow (count : Word16) :
    (judgeOwnSlots count s).WindowsFollow ↔ s.WindowsFollow := by
  unfold judgeOwnSlots; split <;> simp

theorem feederGoodEcho_windowsFollow (h : s.WindowsFollow) : (feederGoodEcho s).WindowsFollow := by
  unfold feederGoodEcho
  dsimp only
  split <;> split <;> split <;> simp [reportAdmission_windowsFollow, h]

@[simp] theorem feederFailedEcho_windowsFollow : (feederFailedEcho s).WindowsFollow ↔ s.WindowsFollow := by
  unfold feederFailedEcho; simp

/-! ## Rounds and the rotation -/

@[simp] theorem State.setMiss_windowsFollow : s.setMiss.WindowsFollow ↔ s.WindowsFollow := by
  unfold State.setMiss; simp

@[simp] theorem State.unclean_windowsFollow : s.unclean.WindowsFollow ↔ s.WindowsFollow := by
  unfold State.unclean; simp

@[simp] theorem fillRequest_state (count : Word16) (e : Engine) : (fillRequest count e).state = e.state := rfl

@[simp] theorem joinHoldEnd_windowsFollow : (joinHoldEnd s).WindowsFollow ↔ s.WindowsFollow := by
  unfold joinHoldEnd; split <;> simp

@[simp] theorem raiseJoinHold_windowsFollow : (raiseJoinHold s).WindowsFollow ↔ s.WindowsFollow := by
  unfold raiseJoinHold; split <;> simp

theorem boundary_windowsFollow (h : s.WindowsFollow) : (boundary s).WindowsFollow := by
  unfold boundary
  split
  · exact h
  · simp [expireClaims_windowsFollow, h]

theorem moveOn_windowsFollow (a : Nat) (ref : RefPoint) (h : s.WindowsFollow) :
    (moveOn a ref s).WindowsFollow := by
  unfold moveOn
  dsimp only
  split <;> simp [boundary_windowsFollow, h]

/-! ## OFF LINE -/

/-- In OFF LINE both engines are IDLE and both windows none (R64, R93). -/
theorem enterOffLine_windowsFollow (s : State) : (enterOffLine s).WindowsFollow :=
  State.windowsFollow_of_none fun
    | .a => ⟨closeOut_both_hasPoint s .a, rfl⟩
    | .b => ⟨closeOut_both_hasPoint s .b, rfl⟩

theorem offLineAtLimit_windowsFollow (h : s.WindowsFollow) : (offLineAtLimit s).WindowsFollow := by
  unfold offLineAtLimit
  split
  · exact enterOffLine_windowsFollow s
  · exact h

/-! ## Applying a frame -/

@[simp] theorem ownTurnStart_windowsFollow (count : Word16) :
    (ownTurnStart count s).WindowsFollow ↔ s.WindowsFollow := by
  unfold ownTurnStart; simp

theorem adoptCount_windowsFollow (round : Word16) (h : s.WindowsFollow) : (adoptCount round s).WindowsFollow :=
  expireClaims_windowsFollow (by simp [h])

theorem takeRound_windowsFollow (sender : Nat) (round : Word16) (h : s.WindowsFollow) :
    (takeRound sender round s).WindowsFollow := by
  unfold takeRound
  split
  · simp [adoptCount_windowsFollow, h]
  · split
    · exact h
    · dsimp only
      split <;> simp [adoptCount_windowsFollow, h]

theorem applyHeader_windowsFollow (f : Frame) (h : s.WindowsFollow) : (applyHeader f s).WindowsFollow := by
  unfold applyHeader
  dsimp only
  have rostered : (if s.line.onRoster f.sender.toNat then s else s.setMiss).WindowsFollow := by split <;> simp [h]
  simp [takeRound_windowsFollow, rostered]

@[simp] theorem applyClaimList_windowsFollow (f : Frame) :
    (applyClaimList f s).WindowsFollow ↔ s.WindowsFollow := by
  unfold applyClaimList; split <;> simp

theorem applyFrame_windowsFollow (f : Frame) (h : s.WindowsFollow) : (applyFrame f s).WindowsFollow := by
  simp [applyFrame, applyHeader_windowsFollow, h]

theorem applyOwnFrame_windowsFollow (f : Frame) (h : s.WindowsFollow) : (applyOwnFrame f s).WindowsFollow := by
  simp [applyOwnFrame, feederGoodEcho_windowsFollow, applyHeader_windowsFollow, h]

/-! ## Own turn end -/

@[simp] theorem enterOnLine_windowsFollow : (enterOnLine s).WindowsFollow ↔ s.WindowsFollow := by
  unfold enterOnLine; split <;> simp

theorem ownTurnGood_windowsFollow (f : Frame) (k : Nat) (h : s.WindowsFollow) :
    (ownTurnGood f k s).WindowsFollow := by
  unfold ownTurnGood
  exact moveOn_windowsFollow _ _ (by simp [applyOwnFrame_windowsFollow, h])

theorem ownTurnFailed_windowsFollow (k jabber : Nat) (ref : RefPoint) (h : s.WindowsFollow) :
    (ownTurnFailed k jabber ref s).WindowsFollow := by
  unfold ownTurnFailed
  exact moveOn_windowsFollow _ _ (by simp [h])

/-! ## Carriers -/

@[simp] theorem restartFounding_windowsFollow : (restartFounding s).WindowsFollow ↔ s.WindowsFollow := by
  unfold restartFounding; split <;> simp

theorem realign_windowsFollow (u : Nat) (h : s.WindowsFollow) : (realign u s).WindowsFollow := by
  unfold realign
  split
  · split <;> simp [boundary_windowsFollow, h]
  · simp [h]

theorem hearFrame_windowsFollow (f : Frame) (began : Option Position) (h : s.WindowsFollow) :
    (hearFrame f began s).WindowsFollow := by
  unfold hearFrame
  dsimp only
  split
  · exact moveOn_windowsFollow _ _ (applyFrame_windowsFollow f h)
  · split
    · exact moveOn_windowsFollow _ _ (applyFrame_windowsFollow f h)
    · exact moveOn_windowsFollow _ _ (applyFrame_windowsFollow f (by simp [realign_windowsFollow, h]))

theorem moveOnFrom_windowsFollow (p : Position) (h : s.WindowsFollow) : (moveOnFrom p s).WindowsFollow := by
  unfold moveOnFrom
  split <;> simp [moveOn_windowsFollow, h]

theorem hearGarbled_windowsFollow (began : Option Position) (h : s.WindowsFollow) :
    (hearGarbled began s).WindowsFollow := by
  unfold hearGarbled
  split
  · simp [h]
  · split <;> simp [moveOnFrom_windowsFollow, h]

theorem endHeard_windowsFollow (valid : Option Frame) (k : Carrier) (h : s.WindowsFollow) :
    (endHeard valid k s).WindowsFollow := by
  have garbled := hearGarbled_windowsFollow k.began h
  unfold endHeard
  split
  · split
    · split
      · exact restartFounding_windowsFollow.2 garbled
      · exact enterOffLine_windowsFollow s
    · exact hearFrame_windowsFollow _ _ h
  · exact restartFounding_windowsFollow.2 garbled

theorem endUntaken_windowsFollow (h : s.WindowsFollow) : (endUntaken s).WindowsFollow := by
  unfold endUntaken
  dsimp only
  split
  · exact h
  · simp [h]
  · exact hearGarbled_windowsFollow _ (by simp [h])

/-! ## Turns -/

@[simp] theorem forgoTurn_windowsFollow : (forgoTurn s).WindowsFollow ↔ s.WindowsFollow := by
  unfold forgoTurn; simp

@[simp] theorem countLapse_windowsFollow (p : Nat) : (countLapse p s).WindowsFollow ↔ s.WindowsFollow := by
  unfold countLapse
  split
  · rfl
  · split
    · dsimp only
      split <;> simp
    · simp

end Sys2Proof.Machine
end

