-- ==== Sys2Proof/Proofs/WindowsFollow.lean ====
section
/-!
R36's law is kept by every command and so by every step. O55.
-/

namespace Sys2Proof.Machine

variable {s : State}

/-- The next state of an outcome, when it has one, meets R36's law. -/
abbrev KeepsWindows (o : Host.Outcome State Fault Refusal) : Prop := AllNext State.WindowsFollow o

/-! ## Start-up -/

theorem execReset_windowsFollow (s : State) : KeepsWindows (execReset s) :=
  (allNext_next _ _).2 <| State.windowsFollow_of_none fun
    | .a => ⟨rfl, rfl⟩
    | .b => ⟨rfl, rfl⟩

@[simp] theorem fatalFault_windowsFollow (k : FaultKind) (i : Nat) :
    (fatalFault k i s).WindowsFollow ↔ s.WindowsFollow := by
  unfold fatalFault; simp

@[simp] theorem loadingEnd_windowsFollow (pins : PinSample) :
    (loadingEnd pins s).WindowsFollow ↔ s.WindowsFollow := by
  unfold loadingEnd; simp

@[simp] theorem continuePoints_windowsFollow (p : Nat) (pins : PinSample) :
    (continuePoints p pins s).WindowsFollow ↔ s.WindowsFollow := by
  unfold continuePoints; split <;> simp

theorem execStrapReading_windowsFollow (straps : BitVec 5) (h : s.WindowsFollow) :
    KeepsWindows (execStrapReading straps s) := by
  unfold execStrapReading
  split
  · split <;> simp [h]
  · simp [h]

theorem execHeaderPass_windowsFollow (image : List Byte) (h : s.WindowsFollow) :
    KeepsWindows (execHeaderPass image s) := by
  unfold execHeaderPass
  split
  · split <;> simp [h]
  · simp [h]

theorem execStylePass_windowsFollow (image : List Byte) (h : s.WindowsFollow) :
    KeepsWindows (execStylePass image s) := by
  unfold execStylePass
  dsimp only
  split
  · split <;> simp [h]
  · simp [h]

theorem execDirectoryPass_windowsFollow (image : List Byte) (pins : PinSample) (h : s.WindowsFollow) :
    KeepsWindows (execDirectoryPass image pins s) := by
  unfold execDirectoryPass
  split <;> simp [h]

theorem execProgramPass_windowsFollow (image : List Byte) (pins : PinSample) (h : s.WindowsFollow) :
    KeepsWindows (execProgramPass image pins s) := by
  unfold execProgramPass
  split
  · split <;> simp [h]
  all_goals simp [h]

/-! ## The conveyor and the body tracker -/

theorem execCountChange_windowsFollow (line : EncLine) (h : s.WindowsFollow) :
    KeepsWindows (execCountChange line s) := by
  unfold execCountChange
  split
  · simp [h]
  · dsimp only
    split <;> simp [h]

theorem execIllegalTransition_windowsFollow (h : s.WindowsFollow) : KeepsWindows (execIllegalTransition s) := by
  unfold execIllegalTransition
  split
  · simp [h]
  · dsimp only
    split <;> simp [h]

theorem execHaltTimerExpiry_windowsFollow (h : s.WindowsFollow) : KeepsWindows (execHaltTimerExpiry s) := by
  unfold execHaltTimerExpiry
  split <;> simp [h]

theorem execHeldReadExpiry_windowsFollow (h : s.WindowsFollow) : KeepsWindows (execHeldReadExpiry s) := by
  unfold execHeldReadExpiry
  split <;> simp [h]

theorem execPairingWaitExpiry_windowsFollow (h : s.WindowsFollow) : KeepsWindows (execPairingWaitExpiry s) := by
  unfold execPairingWaitExpiry
  dsimp only
  split
  · split
    · rename_i zone
      exact (allNext_next _ _).2 (orderBind_windowsFollow _ (by simp [h]) (by rw [zone]; rfl))
    all_goals simp [h]
  · simp [h]

theorem execZoneLengthEvent_windowsFollow (h : s.WindowsFollow) : KeepsWindows (execZoneLengthEvent s) := by
  unfold execZoneLengthEvent
  split
  · exact (allNext_next _ _).2 (zoneEnd_windowsFollow (by simp [h]))
  · simp [h]

theorem execArrival_windowsFollow (h : s.WindowsFollow) : KeepsWindows (execArrival s) := by
  unfold execArrival
  split
  · exact (allNext_next _ _).2 (takeArrival_windowsFollow (by simp [h]))
  · simp [h]

theorem execZoneExit_windowsFollow (h : s.WindowsFollow) : KeepsWindows (execZoneExit s) := by
  unfold execZoneExit
  split
  · exact (allNext_next _ _).2 (zoneEnd_windowsFollow (by simp [h]))
  · simp [h]

theorem execTagByte_windowsFollow (byte : Byte) (stopHigh : Bool) (h : s.WindowsFollow) :
    KeepsWindows (execTagByte byte stopHigh s) := by
  unfold execTagByte
  split
  · cases stopHigh <;> simp [takeTagByte_windowsFollow, h]
  · simp [h]

theorem execTagByteTimeout_windowsFollow (h : s.WindowsFollow) : KeepsWindows (execTagByteTimeout s) := by
  unfold execTagByteTimeout
  split <;> simp [h]

theorem execSensorRawLevelChange_windowsFollow (l : SensorLine) (level : Bool) (h : s.WindowsFollow) :
    KeepsWindows (execSensorRawLevelChange l level s) := by
  unfold execSensorRawLevelChange
  dsimp only
  split <;> simp [h]

theorem execSensorFallingEdge_windowsFollow (l : SensorLine) (h : s.WindowsFollow) :
    KeepsWindows (execSensorFallingEdge l s) := by
  unfold execSensorFallingEdge
  dsimp only
  split <;> simp [h]

/-! ## The point engines -/

theorem execPstbPulseEnd_windowsFollow (c : Chan) (h : s.WindowsFollow) : KeepsWindows (execPstbPulseEnd c s) := by
  unfold execPstbPulseEnd
  split
  · simp [h]
  · split <;> simp [State.modEng_windowsFollow, h]

theorem execAtPtRise_windowsFollow (c : Chan) (h : s.WindowsFollow) : KeepsWindows (execAtPtRise c s) := by
  unfold execAtPtRise
  split
  · rename_i reached
    refine (allNext_next _ _).2 (tryRequest_windowsFollow ((State.modEng_windowsFollow _ ?_).2 h))
    rw [reached.1]
    rfl
  · simp [h]

theorem execReachExpiry_windowsFollow (c : Chan) (h : s.WindowsFollow) : KeepsWindows (execReachExpiry c s) := by
  unfold execReachExpiry
  split
  · exact (allNext_next _ _).2 (holdPoint_windowsFollow _ ((State.modEng_windowsFollow _ rfl).2 h))
  · simp [h]

theorem execWindowOpen_windowsFollow (c : Chan) (h : s.WindowsFollow) : KeepsWindows (execWindowOpen c s) := by
  unfold execWindowOpen
  split
  · rename_i window
    exact (allNext_next _ _).2 (tryRequest_windowsFollow ((State.setWindow_windowsFollow _ (by rw [window]; rfl)).2 h))
  · simp [h]

theorem execWindowClose_windowsFollow (c : Chan) (h : s.WindowsFollow) : KeepsWindows (execWindowClose c s) := by
  unfold execWindowClose
  split
  · rename_i w d window
    have taken := (State.setWindow_windowsFollow (c := c) (some { state := w, openDue := d, closeDue := false })
      (by rw [window]; rfl)).2 h
    dsimp only
    cases state : (s.eng c).state with
    | positioning | gated =>
      exact (allNext_next _ _).2 (endPoint_windowsFollow _ ((State.modEng_windowsFollow _ rfl).2 taken)
        (by simp [state, EngineState.hasPoint]))
    | requesting =>
      exact (allNext_next _ _).2 (endPoint_windowsFollow _ (withdraw_windowsFollow.2 taken)
        (by simp [withdraw, state, EngineState.hasPoint]))
    | idle | firing | finished | held => exact (allNext_next _ _).2 taken
  · simp [h]

theorem execWdoneRise_windowsFollow (c : Chan) (wfaultActive : Bool) (h : s.WindowsFollow) :
    KeepsWindows (execWdoneRise c wfaultActive s) := by
  unfold execWdoneRise
  split
  · rename_i firing
    exact (allNext_next _ _).2 (weldAnswer_windowsFollow _ h firing)
  · simp [h]

theorem execWfaultRise_windowsFollow (c : Chan) (h : s.WindowsFollow) : KeepsWindows (execWfaultRise c s) := by
  unfold execWfaultRise
  split
  · rename_i firing
    exact (allNext_next _ _).2 (weldAnswer_windowsFollow _ h firing)
  · simp [h]

theorem execAuxRawChange_windowsFollow (line : Fin 8) (pinHigh : Bool) (h : s.WindowsFollow) :
    KeepsWindows (execAuxRawChange line pinHigh s) := by
  unfold execAuxRawChange
  dsimp only
  split
  · split
    · simp [h]
    · split <;> simp [filteredChange_windowsFollow, h]
  · simp [h]

theorem execAuxFilterExpiry_windowsFollow (line : Fin 8) (h : s.WindowsFollow) :
    KeepsWindows (execAuxFilterExpiry line s) := by
  unfold execAuxFilterExpiry
  split <;> simp [filteredChange_windowsFollow, h]

/-! ## The station line -/

theorem execCarrierStart_windowsFollow (h : s.WindowsFollow) : KeepsWindows (execCarrierStart s) := by
  unfold execCarrierStart
  split <;> simp [h]

theorem execCarrierEnd_windowsFollow (bytes : List Byte) (framingError : Bool) (h : s.WindowsFollow) :
    KeepsWindows (execCarrierEnd bytes framingError s) := by
  unfold execCarrierEnd
  split
  · exact (allNext_next _ _).2 (endUntaken_windowsFollow h)
  · have ended : State.WindowsFollow { s with line := { s.line with carrier := none } } := by simp [h]
    have failed (k : Nat) := ownTurnFailed_windowsFollow k 0 .frameEnd ended
    dsimp only
    split
    · exact (allNext_next _ _).2 (endHeard_windowsFollow _ _ ended)
    · split
      · split
        · split
          · exact (allNext_next _ _).2 (ownTurnGood_windowsFollow _ _ ended)
          · exact (allNext_next _ _).2 (failed _)
        · exact (allNext_next _ _).2 (failed _)
      · simp [h]

theorem execCarrierTimeout_windowsFollow (h : s.WindowsFollow) : KeepsWindows (execCarrierTimeout s) := by
  unfold execCarrierTimeout
  split
  · simp [h]
  · dsimp only
    split
    · exact (allNext_next _ _).2 (endHeard_windowsFollow _ _ (by simp [h]))
    · split
      · exact (allNext_next _ _).2 (ownTurnFailed_windowsFollow _ _ _ (by simp [h]))
      · simp [h]

theorem execTransmissionEnd_windowsFollow (h : s.WindowsFollow) : KeepsWindows (execTransmissionEnd s) := by
  simp [execTransmissionEnd, h]

theorem execNoEchoTimeout_windowsFollow (h : s.WindowsFollow) : KeepsWindows (execNoEchoTimeout s) := by
  unfold execNoEchoTimeout
  split
  · simp [h]
  · split <;> simp [ownTurnFailed_windowsFollow, h]

theorem execJabberCut_windowsFollow (h : s.WindowsFollow) : KeepsWindows (execJabberCut s) := by
  unfold execJabberCut
  dsimp only
  split
  · simp [h]
  · split
    · exact (allNext_next _ _).2
        (offLineAtLimit_windowsFollow (ownTurnFailed_windowsFollow _ _ _ (by simp [h])))
    · exact (allNext_next _ _).2 (offLineAtLimit_windowsFollow (by simp [h]))

theorem execOwnTurnStart_windowsFollow (h : s.WindowsFollow) : KeepsWindows (execOwnTurnStart s) := by
  unfold execOwnTurnStart
  split
  · simp [h]
  · split
    · split
      · simp [h]
      · split <;> simp [h]
    · simp [h]

theorem execJoinFrameStart_windowsFollow (h : s.WindowsFollow) : KeepsWindows (execJoinFrameStart s) := by
  unfold execJoinFrameStart
  split
  · simp [h]
  · split <;> simp [h]

theorem execLapse_windowsFollow (h : s.WindowsFollow) : KeepsWindows (execLapse s) := by
  unfold execLapse
  split
  · simp [h]
  · split <;> simp [moveOn_windowsFollow, h]

theorem execVacancyWindowEnd_windowsFollow (h : s.WindowsFollow) : KeepsWindows (execVacancyWindowEnd s) := by
  unfold execVacancyWindowEnd
  split
  · simp [h]
  · split <;> simp [moveOn_windowsFollow, h]

theorem execClaimExpiry_windowsFollow (h : s.WindowsFollow) : KeepsWindows (execClaimExpiry s) := by
  unfold execClaimExpiry
  split <;> simp [expireClaims_windowsFollow, h]

theorem execJoinHoldEnd_windowsFollow (h : s.WindowsFollow) : KeepsWindows (execJoinHoldEnd s) := by
  simp [execJoinHoldEnd, h]

theorem execFounding_windowsFollow (h : s.WindowsFollow) : KeepsWindows (execFounding s) := by
  unfold execFounding
  split <;> simp [h]

/-! ## Every step -/

/-- Every command keeps R36's law. -/
theorem exec_windowsFollow (i : Instr) (h : s.WindowsFollow) : KeepsWindows (exec i s) := by
  cases i with
  | reset => exact execReset_windowsFollow s
  | strapReading straps => exact execStrapReading_windowsFollow straps h
  | headerPass image => exact execHeaderPass_windowsFollow image h
  | stylePass image => exact execStylePass_windowsFollow image h
  | directoryPass image pins => exact execDirectoryPass_windowsFollow image pins h
  | programPass image pins => exact execProgramPass_windowsFollow image pins h
  | countChange line => exact execCountChange_windowsFollow line h
  | illegalTransition => exact execIllegalTransition_windowsFollow h
  | haltTimerExpiry => exact execHaltTimerExpiry_windowsFollow h
  | heldReadExpiry => exact execHeldReadExpiry_windowsFollow h
  | pairingWaitExpiry => exact execPairingWaitExpiry_windowsFollow h
  | zoneLengthEvent => exact execZoneLengthEvent_windowsFollow h
  | arrival => exact execArrival_windowsFollow h
  | zoneExit => exact execZoneExit_windowsFollow h
  | tagByte byte stopHigh => exact execTagByte_windowsFollow byte stopHigh h
  | tagByteTimeout => exact execTagByteTimeout_windowsFollow h
  | pstbPulseEnd c => exact execPstbPulseEnd_windowsFollow c h
  | atPtRise c => exact execAtPtRise_windowsFollow c h
  | reachExpiry c => exact execReachExpiry_windowsFollow c h
  | windowOpen c => exact execWindowOpen_windowsFollow c h
  | windowClose c => exact execWindowClose_windowsFollow c h
  | auxRawChange line pinHigh => exact execAuxRawChange_windowsFollow line pinHigh h
  | auxFilterExpiry line => exact execAuxFilterExpiry_windowsFollow line h
  | wdoneRise c wfaultActive => exact execWdoneRise_windowsFollow c wfaultActive h
  | wfaultRise c => exact execWfaultRise_windowsFollow c h
  | carrierStart => exact execCarrierStart_windowsFollow h
  | carrierTimeout => exact execCarrierTimeout_windowsFollow h
  | carrierEnd bytes framingError => exact execCarrierEnd_windowsFollow bytes framingError h
  | noEchoTimeout => exact execNoEchoTimeout_windowsFollow h
  | jabberCut => exact execJabberCut_windowsFollow h
  | ownTurnStart => exact execOwnTurnStart_windowsFollow h
  | joinFrameStart => exact execJoinFrameStart_windowsFollow h
  | lapse => exact execLapse_windowsFollow h
  | vacancyWindowEnd => exact execVacancyWindowEnd_windowsFollow h
  | claimExpiry => exact execClaimExpiry_windowsFollow h
  | joinHoldEnd => exact execJoinHoldEnd_windowsFollow h
  | founding => exact execFounding_windowsFollow h
  | sensorRawLevelChange line level => exact execSensorRawLevelChange_windowsFollow line level h
  | sensorFallingEdge line => exact execSensorFallingEdge_windowsFollow line h
  | transmissionEnd => exact execTransmissionEnd_windowsFollow h

/-- Every step keeps R36's law: an idle one, and one that runs the command at the front of the queue. -/
theorem step_windowsFollow {t : State} (h : s.WindowsFollow) (next : step s = .next t) : t.WindowsFollow := by
  unfold step at next
  split at next
  · obtain rfl : s = t := by simpa using next
    exact h
  · exact exec_windowsFollow _ (by simp [h]) t next

/-- Without a window state there is no event to take (R35, R36). -/
theorem exec_window_none {c : Chan} (none : s.counter.window c = none) :
    exec (.windowOpen c) s = .next s ∧ exec (.windowClose c) s = .next s :=
  ⟨by simp [exec, execWindowOpen, none], by simp [exec, execWindowClose, none]⟩

/-- Settles O55: every command keeps the law, and a window event needs a window state. -/
theorem windowsFollowThePoint : Obligations.WindowsFollowThePoint := by
  unfold Obligations.WindowsFollowThePoint
  exact ⟨fun _ _ => step_windowsFollow, fun _ _ => exec_window_none⟩

end Sys2Proof.Machine
end

