-- ==== Sys2Proof/Proofs/FiringFrame.lean ====
section
/-!
SUPPORT. What a count change does to the engines and the windows, and what an engine in FIRING leaves unanswered (R83,
R85).
-/

namespace Sys2Proof.Machine

variable {s : State} {c : Chan}

/-! ## The conveyor -/

/-- The reverse travel bit is one of the status bits. -/
theorem State.setReverse_eq_sticky : ∃ x, s.setReverse = { s with sticky := x } := by
  unfold State.setReverse
  split
  · exact ⟨s.sticky, rfl⟩
  · exact ⟨_, rfl⟩

@[simp] theorem State.eng_setTracked (x : Word32) : (s.setTracked x).eng c = s.eng c := by
  unfold State.setTracked
  split <;> cases c <;> rfl

/-- A count change leaves the engines as they were, and the watches and windows follow T (R23, R30, R35). -/
theorem execCountChange_follows (line : EncLine) :
    AllNext (fun t => (∀ d, t.eng d = s.eng d) ∧ followsTracked s t) (execCountChange line s) := by
  unfold execCountChange
  split
  · simp [followsTracked]
  · rename_i q _
    obtain ⟨x, marked⟩ : ∃ x, (if dragsBack (nextRaw s.counter.raw q line) s.counter.tracked s.sc.hysteresis
        then s.setReverse else s) = { s with sticky := x } := by
      split
      · exact State.setReverse_eq_sticky
      · exact ⟨s.sticky, rfl⟩
    dsimp only
    rw [marked]
    exact (allNext_next _ _).2
      ⟨fun d => (State.eng_setTracked _).trans (by cases d <;> rfl), (State.setTracked_follows _ _).2.1⟩

/-- Beyond its close a window is CLOSED, whatever its state was before (R34, R35). -/
theorem Window.after_state_of_beyond (w : Window) {r : PointRec} {p : Nat} (order : r.windowOpen < r.windowClose)
    (beyond : r.windowClose < p) : (w.after r p).state = .closed := by
  have closed : r.windowAt p = .closed := by
    unfold PointRec.windowAt
    rw [if_neg (by omega), if_neg (by omega)]
  unfold Window.after
  cases state : w.state with
  | notYet => simp [closed]
  | opened => simp [beyond]
  | closed => exact state

/-- A change of T that takes P beyond the close moves the window to CLOSED (R35). -/
theorem followsTracked.window_closed {t : State} {w : Window} {p : Nat} (h : followsTracked s t)
    (moved : t.counter.tracked ≠ s.counter.tracked) (window : s.counter.window c = some w)
    (rel : t.relPos = some p) (order : (s.current c).windowOpen < (s.current c).windowClose)
    (beyond : (s.current c).windowClose < p) : (t.counter.window c).map Window.state = some .closed := by
  obtain ⟨-, -, -, windows⟩ := h.2 moved
  have after : t.counter.window c = some (w.after (s.current c) p) := by
    simpa only [window, rel] using windows c
  rw [after, Option.map_some, w.after_state_of_beyond order beyond]

/-! ## Reports to an engine in FIRING -/

@[simp] theorem State.eng_modInput (line : Fin 8) (f : AuxIn → AuxIn) : (s.modInput line f).eng c = s.eng c := by
  cases c <;> rfl

/-- An update of an engine outside FIRING is none of the engine in FIRING. -/
theorem State.eng_modEng_of_firing {d : Chan} (firing : (s.eng c).state = .firing) (f : Engine → Engine)
    (outside : (s.eng d).state ≠ .firing) : (s.modEng d f).eng c = s.eng c :=
  State.eng_modEng_other _ _ _ _ fun same => outside (same ▸ firing)

/-- The test of R75, made for either channel, leaves an engine in FIRING as it was. -/
theorem tryRequest_eng_of_firing (d : Chan) (firing : (s.eng c).state = .firing) :
    (tryRequest d s).eng c = s.eng c := by
  unfold tryRequest
  split
  · rename_i ready
    exact State.eng_modEng_of_firing firing _ (by simp [ready.1])
  · rfl

theorem reportLevel_eng_of_firing (line : Fin 8) (active : Bool) (d : Chan) (firing : (s.eng c).state = .firing) :
    (reportLevel line active d s).eng c = s.eng c := by
  unfold reportLevel
  split
  · split
    · exact tryRequest_eng_of_firing d firing
    · split
      · rename_i requesting
        have other : c ≠ d := fun same => by simp [← same, firing] at requesting
        rw [State.eng_modEng_other _ _ _ _ other, withdraw, State.eng_modEng_other _ _ _ _ other]
      · rfl
  · rfl

theorem reportLatch_eng_of_firing (line : Fin 8) (d : Chan) (firing : (s.eng c).state = .firing) :
    (reportLatch line d s).eng c = s.eng c := by
  unfold reportLatch
  split
  · exact tryRequest_eng_of_firing d firing
  · rfl

theorem setLatch_eng_of_firing (line : Fin 8) (d : Chan) (firing : (s.eng c).state = .firing) :
    (setLatch line d s).eng c = s.eng c := by
  unfold setLatch
  split
  · rfl
  · simp [reportLatch_eng_of_firing, firing]

/-- No filtered change of an input touches an engine in FIRING: neither the level's report nor a latch's (R83). -/
theorem filteredChange_eng_of_firing (line : Fin 8) (active : Bool) (firing : (s.eng c).state = .firing) :
    (filteredChange line active s).eng c = s.eng c := by
  have changed := State.eng_modInput (s := s) (c := c) line fun x => { x with filtered := active, timer := .stopped }
  have reportedA := (reportLevel_eng_of_firing line active .a (by rwa [changed])).trans changed
  have reportedB := (reportLevel_eng_of_firing line active .b (by rwa [reportedA])).trans reportedA
  have latchedA := (setLatch_eng_of_firing line .a (by rwa [reportedB])).trans reportedB
  have latchedB := (setLatch_eng_of_firing line .b (by rwa [latchedA])).trans latchedA
  unfold filteredChange
  dsimp only
  split
  · exact latchedB
  · exact reportedB

/-! ## Events in FIRING -/

/-- The next state of an outcome, when it has one, has this engine on the channel. -/
abbrev KeepsEngine (c : Chan) (e : Engine) (o : Host.Outcome State Fault Refusal) : Prop :=
  AllNext (fun t => t.eng c = e) o

theorem execAuxRawChange_keepsFiring (line : Fin 8) (pinHigh : Bool) (firing : (s.eng c).state = .firing) :
    KeepsEngine c (s.eng c) (execAuxRawChange line pinHigh s) := by
  unfold execAuxRawChange
  dsimp only
  split
  · split
    · simp
    · split <;> simp [filteredChange_eng_of_firing, firing]
  · simp

theorem execAuxFilterExpiry_keepsFiring (line : Fin 8) (firing : (s.eng c).state = .firing) :
    KeepsEngine c (s.eng c) (execAuxFilterExpiry line s) := by
  unfold execAuxFilterExpiry
  split <;> simp [filteredChange_eng_of_firing, firing]

/-- In FIRING the close event is taken and nothing more (R83). -/
theorem execWindowClose_of_firing {w : WindowState} {d : Bool} (firing : (s.eng c).state = .firing)
    (due : s.counter.window c = some { state := w, openDue := d, closeDue := true }) :
    execWindowClose c s = .next (s.setWindow c (some { state := w, openDue := d, closeDue := false })) := by
  simp [execWindowClose, due, firing]

/-- AT_PT is an answer to POSITIONING alone (R72). -/
theorem execAtPtRise_of_not_positioning (h : (s.eng c).state ≠ .positioning) : execAtPtRise c s = .next s := by
  simp [execAtPtRise, h]

/-- Settles O27: no event of the window, the gate or AT_PT has a branch for FIRING, and the counter moves the window
without a look at the engine's state. -/
theorem firingIgnoresWindowAndGate : Obligations.FiringIgnoresWindowAndGate := by
  unfold Obligations.FiringIgnoresWindowAndGate
  intro c s firing
  refine ⟨fun w d due => execWindowClose_of_firing firing due,
    fun line pin => execAuxRawChange_keepsFiring line pin firing,
    fun line => execAuxFilterExpiry_keepsFiring line firing, execAtPtRise_of_not_positioning (by simp [firing]), ?_⟩
  intro line t w p next window rel moved order beyond
  obtain ⟨engines, follows⟩ := execCountChange_follows line t next
  exact ⟨engines c, follows.window_closed moved window rel order beyond⟩

/-! ## Answers of the weld timer outside FIRING -/

theorem execWdoneRise_of_not_firing (wfaultActive : Bool) (h : (s.eng c).state ≠ .firing) :
    execWdoneRise c wfaultActive s = .next s := if_neg h

theorem execWfaultRise_of_not_firing (h : (s.eng c).state ≠ .firing) : execWfaultRise c s = .next s := if_neg h

/-- Where the channel lines follow the engine states FIRE is high exactly in FIRING (R67, Table 20). -/
theorem State.LinesFollow.fire_eq_false_iff (h : s.LinesFollow) :
    (s.eng c).fire = false ↔ (s.eng c).state ≠ .firing := by
  refine ⟨fun low firing => ?_, fun outside => (h.low c outside).2⟩
  obtain ⟨high, -⟩ := h.firing c firing
  simp [high] at low

/-- Settles O26: FIRE is low exactly outside FIRING, where neither answer has an effect. -/
theorem strayAnswersChangeNothing : Obligations.StrayAnswersChangeNothing := by
  unfold Obligations.StrayAnswersChangeNothing
  intro c b s lines
  refine ⟨lines.fire_eq_false_iff.2, fun low => ?_⟩
  have outside := lines.fire_eq_false_iff.1 low
  exact ⟨execWdoneRise_of_not_firing b outside, execWfaultRise_of_not_firing outside⟩

end Sys2Proof.Machine
end

