-- ==== Sys2Proof/Proofs/Precedence.lean ====
section
/-!
SUPPORT. Precedence of claims (R115): what each of its three tests decides, where an address stands in the walk of an
order, and the key whose lexicographic order precedence is.
-/

namespace Sys2Proof.Machine

variable {order : Order} {pointer : Nat} {n : Word16} {w x : Claim}

/-! ## The three tests -/

/-- The first test: the greater request age precedes, whatever else. -/
theorem precedes_of_age_ne (h : roundAge n w.round ≠ roundAge n x.round) :
    precedes order pointer n w x = true ↔ roundAge n x.round < roundAge n w.round := by
  simp [precedes, h]

/-- The second test: at equal request ages, the address met first in the walk precedes. -/
theorem precedes_of_address_ne (age : roundAge n w.round = roundAge n x.round) (h : w.address ≠ x.address) :
    precedes order pointer n w x = true ↔ addressRank order pointer w.address < addressRank order pointer x.address := by
  simp [precedes, age, h]

/-- The third test: at equal request ages and addresses, A precedes B. -/
theorem precedes_of_address_eq (age : roundAge n w.round = roundAge n x.round) (h : w.address = x.address) :
    precedes order pointer n w x = true ↔ w.channel = .a ∧ x.channel = .b := by
  simp [precedes, age, h]

/-! ## The walk of an order -/

/-- An address above the pointer is met on the way up from pointer + 1. -/
theorem addressRank_rotating_above {a : Nat} (above : pointer < a) (last : a ≤ 30) :
    addressRank .rotating pointer a = a - 1 - pointer := by
  unfold addressRank
  dsimp only
  omega

/-- An address up to the pointer is met after the walk has begun again at 1. -/
theorem addressRank_rotating_upTo {a : Nat} (upTo : a ≤ pointer) :
    addressRank .rotating pointer a = a + 29 - pointer := by
  unfold addressRank
  dsimp only
  omega

/-- On one side of the pointer both orders walk upward. -/
theorem addressRank_lt_of_same_side {a b : Nat} (h : pointer ≤ 30) (first : 1 ≤ a) (lt : a < b) (last : b ≤ 30)
    (side : order = .fixed ∨ pointer = 0 ∨ pointer < a ∨ b ≤ pointer) :
    addressRank order pointer a < addressRank order pointer b := by
  cases order with
  | fixed => exact lt
  | rotating =>
    rcases Nat.lt_or_ge pointer a with above | upTo
    · rw [addressRank_rotating_above above (by omega), addressRank_rotating_above (by omega) last]
      omega
    · have upTo' : b ≤ pointer := by
        obtain fixed | zero | above | upTo' := side
        · cases fixed
        all_goals omega
      rw [addressRank_rotating_upTo upTo, addressRank_rotating_upTo upTo']
      omega

/-- With the pointer between two addresses ROTATING order meets the higher one first. -/
theorem addressRank_lt_of_between {a b : Nat} (first : 1 ≤ a) (upTo : a ≤ pointer) (above : pointer < b)
    (last : b ≤ 30) :
    addressRank .rotating pointer b < addressRank .rotating pointer a := by
  rw [addressRank_rotating_above above last, addressRank_rotating_upTo upTo]
  omega

/-- The walk of an order parts any two addresses. -/
theorem addressRank_ne_of_lt {a b : Nat} (h : pointer ≤ 30) (first : 1 ≤ a) (lt : a < b) (last : b ≤ 30) :
    addressRank order pointer a ≠ addressRank order pointer b := by
  by_cases side : order = .fixed ∨ pointer = 0 ∨ pointer < a ∨ b ≤ pointer
  · exact (addressRank_lt_of_same_side h first lt last side).ne
  · cases order with
    | fixed => exact absurd (.inl rfl) side
    | rotating => exact (addressRank_lt_of_between first (by omega) (by omega) last).ne'

theorem addressRank_injective {a b : Nat} (h : pointer ≤ 30) (ha : 1 ≤ a ∧ a ≤ 30) (hb : 1 ≤ b ∧ b ≤ 30)
    (same : addressRank order pointer a = addressRank order pointer b) : a = b := by
  rcases Nat.lt_trichotomy a b with lt | eq | gt
  · exact absurd same (addressRank_ne_of_lt h ha.1 lt hb.2)
  · exact eq
  · exact absurd same.symm (addressRank_ne_of_lt h hb.1 gt ha.2)

/-! ## Precedence as an order of keys -/

/-- Where a channel stands in the third test. -/
def channelRank : Chan → Nat
  | .a => 0
  | .b => 1

theorem channelRank_lt_iff {c d : Chan} : channelRank c < channelRank d ↔ c = .a ∧ d = .b := by
  cases c <;> cases d <;> decide

theorem channelRank_inj {c d : Chan} : channelRank c = channelRank d ↔ c = d := by
  cases c <;> cases d <;> decide

/-- What the three tests compare, in their order: the request age with the greater one first, the place in the walk of
the order, and the channel (R115). -/
def Claim.key (order : Order) (pointer : Nat) (n : Word16) (x : Claim) : ℕᵒᵈ ×ₗ ℕ ×ₗ ℕ :=
  toLex (OrderDual.toDual (roundAge n x.round), toLex (addressRank order pointer x.address, channelRank x.channel))

theorem Claim.key_lt_iff :
    w.key order pointer n < x.key order pointer n ↔
      roundAge n x.round < roundAge n w.round ∨ roundAge n w.round = roundAge n x.round ∧
        (addressRank order pointer w.address < addressRank order pointer x.address ∨
          addressRank order pointer w.address = addressRank order pointer x.address ∧
            channelRank w.channel < channelRank x.channel) := by
  simp [key, Prod.Lex.toLex_lt_toLex]

/-- Where the walk parts the two addresses, a claim precedes another exactly if its key is the smaller one. -/
theorem precedes_iff_key_lt
    (parts : addressRank order pointer w.address = addressRank order pointer x.address → w.address = x.address) :
    precedes order pointer n w x = true ↔ w.key order pointer n < x.key order pointer n := by
  rw [Claim.key_lt_iff]
  by_cases age : roundAge n w.round = roundAge n x.round
  · by_cases address : w.address = x.address
    · rw [precedes_of_address_eq age address]
      simp [age, address, channelRank_lt_iff]
    · rw [precedes_of_address_ne age address]
      simp [age, mt parts address]
  · rw [precedes_of_age_ne age]
    simp [age]

/-- Claims of one key stand at one place of the walk and on one channel. -/
theorem Claim.key_eq (same : w.key order pointer n = x.key order pointer n) :
    addressRank order pointer w.address = addressRank order pointer x.address ∧ w.channel = x.channel := by
  simp only [key, EmbeddingLike.apply_eq_iff_eq, Prod.mk.injEq, channelRank_inj] at same
  exact same.2

/-- Settles O32: the first three clauses are the three tests, and the order laws are those of the keys, which the walk
of the order keeps apart. -/
theorem precedenceIsStrictOrder : Obligations.PrecedenceIsStrictOrder := by
  unfold Obligations.PrecedenceIsStrictOrder
  intro order pointer n hp valid before age
  have before_iff (x y : Claim) (hx : valid x) (hy : valid y) :
      before x y ↔ x.key order pointer n < y.key order pointer n :=
    precedes_iff_key_lt (addressRank_injective hp hx hy)
  refine ⟨fun x y older => ?age, fun x y same lower => ?address, fun x y same address => ?channel, fun x => ?irrefl,
    fun x y z hx hy hz xy yz => ?trans, fun x y hx hy differ => ?total⟩
  case age =>
    exact ⟨(precedes_of_age_ne older.ne').2 older, fun yx => older.asymm ((precedes_of_age_ne older.ne).1 yx)⟩
  case address =>
    refine ⟨fun side hx hy => ?_, fun rotating upTo above hx hy => ?_⟩
    · exact (precedes_of_address_ne same lower.ne).2 (addressRank_lt_of_same_side hp hx.1 lower hy.2 side)
    · subst rotating
      exact (precedes_of_address_ne same.symm lower.ne').2 (addressRank_lt_of_between hx.1 upTo above hy.2)
  case channel => exact precedes_of_address_eq same address
  case irrefl => exact fun xx => lt_irrefl _ ((precedes_iff_key_lt fun _ => rfl).1 xx)
  case trans =>
    rw [before_iff x y hx hy] at xy
    rw [before_iff y z hy hz] at yz
    exact (before_iff x z hx hz).2 (xy.trans yz)
  case total =>
    rw [before_iff x y hx hy, before_iff y x hy hx]
    have apart : x.key order pointer n ≠ y.key order pointer n := fun same => by
      obtain ⟨rank, channel⟩ := Claim.key_eq same
      exact differ.elim (· (addressRank_injective hp hx hy rank)) (· channel)
    exact ⟨lt_or_gt_of_ne apart, fun both => both.1.asymm both.2⟩

end Sys2Proof.Machine
end

