-- ==== Sys2Proof/Proofs/EngineMoves.lean ====
section
/-!
SUPPORT. What the point engines' operations do, as a walk of single moves of one channel: every law of the engines is
shown of the moves, once, and so holds of every command that works on an engine.
-/

namespace Sys2Proof.Machine

variable {s t : State} {c : Chan} {L : Prop}

/-! ## The moves -/

/-- An engine just before its current point ends: timer, request, count and lines may have been taken from it, its place
in the program not; FIRE and SCH are low unless it never had them. -/
structure Engine.Spent (e x : Engine) : Prop where
  same : x = { e with reach := x.reach, request := x.request, faults := x.faults, fire := x.fire, sch := x.sch }
  request : x.request = none ∨ x.request = e.request
  lines : (x.fire = false ∧ x.sch = 0) ∨ (e.state ≠ .firing ∧ x.fire = e.fire ∧ x.sch = e.sch)

/-- One move of a channel's engine, with the state in which it is made. An engine fires only where `L` lets it. -/
inductive Move (L : Prop) (c : Chan) : State → State → Prop
  | pulseEnded {s : State} (none : (s.eng c).pendingStrobe = none) :
      Move L c s (s.modEng c fun e => { e with pstb := .stopped })
  | strobeGiven {s : State} {k : Nat} (pending : (s.eng c).pendingStrobe = some k) : Move L c s (giveStrobe c k s)
  | gated {s : State} (positioning : (s.eng c).state = .positioning) (given : (s.eng c).pendingStrobe = none) :
      Move L c s (s.modEng c fun e => { e with state := .gated, reach := .stopped })
  | asked {s : State} (gated : (s.eng c).state = .gated) : Move L c s (enterRequesting c s)
  | unasked {s : State} (requesting : (s.eng c).state = .requesting) :
      Move L c s ((withdraw c s).modEng c fun e => { e with state := .gated })
  | fired {s : State} (allowed : L) (requesting : (s.eng c).state = .requesting) : Move L c s (enterFiring c s)
  | counted {s : State} (n : Word16) : Move L c s (s.modEng c (fillRequest n))
  | eventTaken {s : State} (w : Window) (window : (s.counter.window c).isSome = true) :
      Move L c s (s.setWindow c (some w))
  | held {s : State} (o : PointOutcome) (e : Engine) (point : (s.eng c).state.hasPoint = true)
      (spent : (s.eng c).Spent e) : Move L c s (holdPoint c o (s.setEng c e))
  | advanced {s : State} (o : PointOutcome) (e : Engine) (point : (s.eng c).state.hasPoint = true)
      (spent : (s.eng c).Spent e) : Move L c s (endPoint c o (s.setEng c e))
  | closed {s : State} : Move L c s (closeOut c s)

/-- A walk of moves of one channel's engine. -/
abbrev Moves (L : Prop) (c : Chan) : State → State → Prop := Relation.ReflTransGen (Move L c)

theorem Move.moves (h : Move L c s t) : Moves L c s t := .single h

/-- What every move keeps, the walk keeps. -/
theorem Moves.keeps {P : State → Prop} (move : ∀ {s t}, Move L c s t → P s → P t) (h : Moves L c s t) (start : P s) :
    P t := by
  induction h with
  | refl => exact start
  | tail _ last ih => exact move last ih

/-! ## The operations as walks -/

theorem Engine.Spent.dropFire (e : Engine) : e.Spent { e with fire := false, sch := 0 } :=
  ⟨rfl, .inr rfl, .inl ⟨rfl, rfl⟩⟩

theorem tryRequest_moves (c : Chan) (s : State) : Moves L c s (tryRequest c s) := by
  unfold tryRequest
  split
  · rename_i ready
    exact (Move.asked ready.1).moves
  · exact .refl

theorem reportExpiry_moves (c : Chan) (s : State) : Moves L c s (reportExpiry c s) := by
  unfold reportExpiry
  split
  · rename_i firing
    exact (Move.held .overrun _ (by rw [firing]; rfl) (.dropFire _)).moves
  · exact .refl

theorem reportAdmission_moves (allowed : L) (c : Chan) (number : Byte) (s : State) : Moves L c s (reportAdmission c number s) := by
  unfold reportAdmission
  split
  · rename_i admitted
    exact (Move.fired allowed admitted.1).moves
  · exact .refl

theorem reportLevel_moves (line : Fin 8) (active : Bool) (c : Chan) (s : State) :
    Moves L c s (reportLevel line active c s) := by
  unfold reportLevel
  split
  · split
    · exact tryRequest_moves c s
    · split
      · rename_i requesting
        exact (Move.unasked requesting).moves
      · exact .refl
  · exact .refl

theorem reportLatch_moves (line : Fin 8) (c : Chan) (s : State) : Moves L c s (reportLatch line c s) := by
  unfold reportLatch
  split
  · exact tryRequest_moves c s
  · exact .refl

/-! ## An outcome and the engine are apart -/

theorem takeOutcome_setEng (c d : Chan) (o : PointOutcome) (k : Nat) (s : State) (e : Engine)
    (running : e.running = (s.eng d).running) :
    takeOutcome c o k (s.setEng d e) = (takeOutcome c o k s).setEng d e := by
  have point : (s.setEng d e).pointRec c k = s.pointRec c k := by
    unfold State.pointRec
    by_cases same : c = d
    · subst same
      simp [running]
    · rw [State.eng_setEng_other _ _ _ _ same]
      simp
  have zone (z : Zone) : (s.setEng d e).setZone z = (s.setZone z).setEng d e := by cases d <;> rfl
  have place : (s.setEng d e).writePlace c k o = (s.writePlace c k o).setEng d e := by
    unfold State.writePlace
    rw [State.setEng_tracker]
    split
    · cases d <;> rfl
    · rfl
  have output (u : State) (l : Fin 8) (v : Bool) : (u.setEng d e).setOutput l v = (u.setOutput l v).setEng d e := by
    unfold State.setOutput
    rw [State.setEng_aux]
    split
    · rfl
    · cases d <;> rfl
  unfold takeOutcome
  rw [point, place]
  split
  · dsimp only
    split
    · exact output _ _ _
    · rfl
  · rfl

/-- The weld timer's answer ends the current point of an engine whose lines are down and whose fault count has followed
(R81, R82). -/
theorem weldAnswer_eq (c : Chan) (o : PointOutcome) (s : State) :
    weldAnswer c o s =
      (let n := if o = .welded then 0 else (s.eng c).faults + 1
       let down := s.setEng c { s.eng c with fire := false, sch := 0, faults := n }
       if 2 ≤ n then holdPoint c o down else endPoint c o down) := by
  have answered (n : Nat) : (takeOutcome c o (s.eng c).at (dropFire c s)).modEng c (fun e => { e with faults := n }) =
      takeOutcome c o (s.eng c).at (s.setEng c { s.eng c with fire := false, sch := 0, faults := n }) := by
    have outcome := takeOutcome_setEng c c o (s.eng c).at s
    unfold dropFire State.modEng
    rw [outcome, outcome]
    · cases c <;> simp [State.setEng]
    · rfl
    · rfl
  have cursor (n : Nat) : ((s.setEng c { s.eng c with fire := false, sch := 0, faults := n }).eng c).at = (s.eng c).at := by
    rw [State.eng_setEng]
    rfl
  unfold weldAnswer holdPoint endPoint
  dsimp only
  rw [answered, cursor]

theorem weldAnswer_moves (o : PointOutcome) (firing : (s.eng c).state = .firing) : Moves L c s (weldAnswer c o s) := by
  have point : (s.eng c).state.hasPoint = true := by rw [firing]; rfl
  have spent (n : Nat) : (s.eng c).Spent { s.eng c with fire := false, sch := 0, faults := n } :=
    ⟨rfl, .inr rfl, .inl ⟨rfl, rfl⟩⟩
  rw [weldAnswer_eq]
  dsimp only
  generalize (if o = PointOutcome.welded then 0 else (s.eng c).faults + 1) = n
  split
  · exact (Move.held o _ point (spent _)).moves
  · exact (Move.advanced o _ point (spent _)).moves

/-! ## The events of the channel lines -/

theorem execPstbPulseEnd_moves (c : Chan) (s : State) : AllNext (Moves L c s) (execPstbPulseEnd c s) := by
  unfold execPstbPulseEnd
  split
  · exact (allNext_next _ _).2 .refl
  · split
    · rename_i k pending
      exact (allNext_next _ _).2 (Move.strobeGiven pending).moves
    · rename_i none
      exact (allNext_next _ _).2 (Move.pulseEnded none).moves

theorem execAtPtRise_moves (c : Chan) (s : State) : AllNext (Moves L c s) (execAtPtRise c s) := by
  unfold execAtPtRise
  split
  · rename_i reached
    exact (allNext_next _ _).2 ((tryRequest_moves c _).head (.gated reached.1 reached.2))
  · exact (allNext_next _ _).2 .refl

theorem execReachExpiry_moves (c : Chan) (s : State) : AllNext (Moves L c s) (execReachExpiry c s) := by
  unfold execReachExpiry
  split
  · rename_i due
    refine (allNext_next _ _).2 (Move.held .stalled { s.eng c with reach := .stopped } (by rw [due.1]; rfl)
      ⟨rfl, .inr rfl, .inr ⟨?_, rfl, rfl⟩⟩).moves
    simp [due.1]
  · exact (allNext_next _ _).2 .refl

theorem execWindowOpen_moves (c : Chan) (s : State) : AllNext (Moves L c s) (execWindowOpen c s) := by
  unfold execWindowOpen
  split
  · rename_i window
    exact (allNext_next _ _).2 ((tryRequest_moves c _).head (.eventTaken _ (by rw [window]; rfl)))
  · exact (allNext_next _ _).2 .refl

theorem execWindowClose_moves (c : Chan) (s : State) : AllNext (Moves L c s) (execWindowClose c s) := by
  unfold execWindowClose
  split
  · rename_i w d window
    have taken : Move L c s (s.setWindow c (some { state := w, openDue := d, closeDue := false })) :=
      .eventTaken _ (by rw [window]; rfl)
    dsimp only
    cases state : (s.eng c).state with
    | positioning | gated =>
      refine (allNext_next _ _).2 (taken.moves.tail (.advanced .missed _ ?_ ⟨rfl, .inr rfl, .inr ⟨?_, rfl, rfl⟩⟩)) <;>
        simp [state, EngineState.hasPoint]
    | requesting =>
      refine (allNext_next _ _).2 (taken.moves.tail (.advanced .missed _ ?_ ⟨rfl, .inl rfl, .inr ⟨?_, rfl, rfl⟩⟩)) <;>
        simp [state, EngineState.hasPoint]
    | idle | firing | finished | held => exact (allNext_next _ _).2 taken.moves
  · exact (allNext_next _ _).2 .refl

theorem execWdoneRise_moves (c : Chan) (wfaultActive : Bool) (s : State) :
    AllNext (Moves L c s) (execWdoneRise c wfaultActive s) := by
  unfold execWdoneRise
  split
  · rename_i firing
    exact (allNext_next _ _).2 (weldAnswer_moves _ firing)
  · exact (allNext_next _ _).2 .refl

theorem execWfaultRise_moves (c : Chan) (s : State) : AllNext (Moves L c s) (execWfaultRise c s) := by
  unfold execWfaultRise
  split
  · rename_i firing
    exact (allNext_next _ _).2 (weldAnswer_moves _ firing)
  · exact (allNext_next _ _).2 .refl

end Sys2Proof.Machine
end

