-- ==== Sys2Proof/Proofs/EngineFrame.lean ====
section
/-!
SUPPORT. What a walk of one channel's engine can reach: that engine and its window, its own outcome places and event
latches, and the output levels. The frame of every operation of the point engines.
-/

namespace Sys2Proof.Machine

variable {s t u : State} {c : Chan} {L : Prop}

/-! ## The frame -/

/-- The zone record after outcomes of channel `c`: the same record, the part of `c` with its answer and its number of
places, and every written place as it was (R71). -/
def Zone.Grown (c : Chan) : Zone → Zone → Prop
  | .bound d b, z =>
    ∃ p, z = .bound d (b.setPart c p) ∧ p.answer = (b.part c).answer ∧ p.places.length = (b.part c).places.length
      ∧ ∀ (k : Nat) (o : PointOutcome), (b.part c).places[k]? = some (some o) → p.places[k]? = some (some o)
  | y, z => z = y

/-- All that work on the engine of channel `c` changes: `s` before, `t` after. -/
structure Apart (c : Chan) (s t : State) : Prop where
  store : t.store = s.store
  view : t.view = s.view
  line : t.line = s.line
  sticky : t.sticky = s.sticky
  pending : t.pending = s.pending
  engine : ∀ d, d ≠ c → t.eng d = s.eng d
  window : ∀ d, d ≠ c → t.counter.window d = s.counter.window d
  counter : t.counter = { s.counter with windowA := t.counter.windowA, windowB := t.counter.windowB }
  tracker : t.tracker = { s.tracker with zone := t.tracker.zone }
  zone : s.tracker.zone.Grown c t.tracker.zone
  inputs : ∀ l : Fin 8, ∃ v, t.aux.inputs[l] = s.aux.inputs[l].setLatch c v

/-! ## The zone record -/

theorem Body.setPart_part (b : Body) (c : Chan) : b.setPart c (b.part c) = b := by cases c <;> rfl

theorem Body.setPart_setPart (b : Body) (c : Chan) (p q : ChannelPart) : (b.setPart c p).setPart c q = b.setPart c q := by
  cases c <;> rfl

theorem Zone.Grown.refl (z : Zone) : z.Grown c z := by
  cases z with
  | bound d b => exact ⟨b.part c, by rw [Body.setPart_part], rfl, rfl, fun _ _ => id⟩
  | _ => rfl

theorem Zone.Grown.trans {x y z : Zone} (h : x.Grown c y) (g : y.Grown c z) : x.Grown c z := by
  cases x with
  | bound d b =>
    obtain ⟨p, rfl, answer, length, written⟩ := h
    obtain ⟨q, rfl, answer', length', written'⟩ := g
    rw [Body.part_setPart] at answer' length' written'
    exact ⟨q, by rw [Body.setPart_setPart], answer'.trans answer, length'.trans length,
      fun k o hk => written' k o (written k o hk)⟩
  | empty => cases h; exact g
  | pairing d => cases h; exact g
  | stray d => cases h; exact g

/-- A place written is new, or it stays as it was (R71). -/
theorem State.writePlace_grown (c : Chan) (k : Nat) (o : PointOutcome) (s : State) :
    s.tracker.zone.Grown c (s.writePlace c k o).tracker.zone := by
  unfold State.writePlace
  cases zone : s.tracker.zone with
  | bound d b =>
    refine ⟨_, rfl, rfl, by simp [ChannelPart.write], fun j x hj => ?_⟩
    simp only [ChannelPart.write, List.getElem?_modify, hj]
    split <;> rfl
  | empty | pairing d | stray d => exact zone

/-! ## The frame composes -/

theorem Apart.refl (c : Chan) (s : State) : Apart c s s where
  store := rfl
  view := rfl
  line := rfl
  sticky := rfl
  pending := rfl
  engine _ _ := rfl
  window _ _ := rfl
  counter := rfl
  tracker := rfl
  zone := .refl _
  inputs l := ⟨s.aux.inputs[l].latch c, by cases c <;> rfl⟩

theorem Apart.trans (h : Apart c s t) (g : Apart c t u) : Apart c s u where
  store := g.store.trans h.store
  view := g.view.trans h.view
  line := g.line.trans h.line
  sticky := g.sticky.trans h.sticky
  pending := g.pending.trans h.pending
  engine d hd := (g.engine d hd).trans (h.engine d hd)
  window d hd := (g.window d hd).trans (h.window d hd)
  counter := g.counter.trans (by rw [h.counter])
  tracker := g.tracker.trans (by rw [h.tracker])
  zone := h.zone.trans g.zone
  inputs l := by
    obtain ⟨v, hv⟩ := h.inputs l
    obtain ⟨w, hw⟩ := g.inputs l
    exact ⟨w, by rw [hw, hv]; cases c <;> rfl⟩

theorem State.modEng_apart (c : Chan) (s : State) (f : Engine → Engine) : Apart c s (s.modEng c f) :=
  { Apart.refl c s with
    store := by simp
    view := by simp
    line := by simp
    sticky := by simp
    pending := by simp
    engine := fun d hd => State.eng_modEng_other _ _ _ _ hd
    window := by simp
    counter := by simp
    tracker := by simp
    zone := by rw [State.modEng_tracker]; exact .refl _
    inputs := by rw [State.modEng_aux]; exact (Apart.refl c s).inputs }

theorem State.setEng_apart (c : Chan) (s : State) (e : Engine) : Apart c s (s.setEng c e) :=
  State.modEng_apart c s fun _ => e

theorem State.setWindow_apart (c : Chan) (s : State) (w : Option Window) : Apart c s (s.setWindow c w) :=
  { Apart.refl c s with
    store := by simp
    view := by simp
    line := by simp
    sticky := by simp
    pending := by simp
    engine := by simp
    window := fun d hd => State.window_setWindow_other _ _ _ _ hd
    counter := by cases c <;> rfl
    tracker := by simp
    zone := by rw [State.setWindow_tracker]; exact .refl _
    inputs := by rw [State.setWindow_aux]; exact (Apart.refl c s).inputs }

/-! ## The operations -/

/-- An outcome reaches the channel's places and the output levels alone. -/
theorem takeOutcome_apart (c : Chan) (o : PointOutcome) (k : Nat) (s : State) : Apart c s (takeOutcome c o k s) := by
  have written : Apart c s (s.writePlace c k o) :=
    { Apart.refl c s with
      store := by simp
      view := by simp
      line := by simp
      sticky := by simp
      pending := by simp
      engine := fun d _ => by cases d <;> simp
      window := by simp
      counter := by simp
      tracker := by unfold State.writePlace; split <;> rfl
      zone := State.writePlace_grown c k o s
      inputs := by rw [State.writePlace_aux]; exact (Apart.refl c s).inputs }
  have acted (x : State) (l : Fin 8) (v : Bool) : Apart c x (x.setOutput l v) :=
    { Apart.refl c x with
      store := by simp
      view := by simp
      line := by simp
      sticky := by simp
      pending := by simp
      engine := fun d _ => by cases d <;> simp
      window := by simp
      counter := by simp
      tracker := by simp
      zone := by rw [State.setOutput_tracker]; exact .refl _
      inputs := by rw [State.setOutput_inputs]; exact (Apart.refl c x).inputs }
  unfold takeOutcome
  dsimp only
  split
  · split
    · exact written.trans (acted _ _ _)
    · exact written
  · exact written

theorem takeOutcomes_apart (c : Chan) (o : PointOutcome) (n : Nat) :
    ∀ (k : Nat) (s : State), Apart c s (takeOutcomes c o n k s) := by
  induction n with
  | zero => exact fun _ s => .refl c s
  | succ n ih => exact fun k s => (takeOutcome_apart c o k s).trans (ih (k + 1) _)

/-- The latch that a strobe clears is its own channel's (R69, R159). -/
theorem giveStrobe_apart (c : Chan) (k : Nat) (s : State) : Apart c s (giveStrobe c k s) := by
  have cleared (x : State) (i : Fin 8) : Apart c x (x.modInput i fun y => y.setLatch c false) :=
    { Apart.refl c x with
      engine := fun d _ => by cases d <;> simp
      inputs := fun l => by
        by_cases same : l = i
        · subst same
          exact ⟨false, by simp [State.modInput]⟩
        · obtain ⟨v, hv⟩ := (Apart.refl c x).inputs l
          exact ⟨v, by
            refine Eq.trans ?_ hv
            show (x.aux.inputs.set i _)[(l : Nat)] = _
            rw [Vector.getElem_set_ne _ _ fun h => same (Fin.ext h.symm)]
            rfl⟩ }
  unfold giveStrobe
  dsimp only
  split
  · exact (State.modEng_apart c s _).trans (cleared _ _)
  · exact State.modEng_apart c s _

theorem strobe_apart (c : Chan) (k : Nat) (s : State) : Apart c s (strobe c k s) := by
  have positioned := State.modEng_apart c s fun e => { e with state := .positioning, reach := .stopped }
  unfold strobe
  dsimp only
  split
  · exact positioned.trans (State.modEng_apart c _ _)
  · exact positioned.trans (giveStrobe_apart c k _)

theorem enterFinished_apart (c : Chan) (s : State) : Apart c s (enterFinished c s) :=
  (State.modEng_apart c s _).trans (State.setWindow_apart c _ none)

theorem enterHeld_apart (c : Chan) (s : State) : Apart c s (enterHeld c s) :=
  (takeOutcomes_apart c _ _ _ s).trans ((State.modEng_apart c _ _).trans (State.setWindow_apart c _ none))

theorem enterIdle_apart (c : Chan) (s : State) : Apart c s (enterIdle c s) :=
  (State.modEng_apart c s _).trans (State.setWindow_apart c _ none)

theorem sendWindow_apart (c : Chan) (k : Nat) (s : State) : Apart c s (sendWindow c k s) :=
  State.setWindow_apart c s _

theorem sendPoints_apart (c : Chan) (n : Nat) : ∀ (k : Nat) (s : State), Apart c s (sendPoints c n k s) := by
  induction n with
  | zero => exact fun _ s => enterFinished_apart c s
  | succ n ih =>
    intro k s
    have cursor := State.modEng_apart c s fun e => { e with cursor := some k }
    unfold sendPoints
    dsimp only
    split
    · have sent := cursor.trans (sendWindow_apart c k _)
      split
      · exact sent.trans ((takeOutcome_apart c _ k _).trans (ih _ _))
      · exact sent.trans (strobe_apart c k _)
    · exact cursor.trans ((takeOutcome_apart c _ k _).trans (ih _ _))

theorem advance_apart (c : Chan) (s : State) : Apart c s (advance c s) := sendPoints_apart c _ _ s

theorem endPoint_apart (c : Chan) (o : PointOutcome) (s : State) : Apart c s (endPoint c o s) :=
  (takeOutcome_apart c o _ s).trans (advance_apart c _)

theorem holdPoint_apart (c : Chan) (o : PointOutcome) (s : State) : Apart c s (holdPoint c o s) :=
  (takeOutcome_apart c o _ s).trans (enterHeld_apart c _)

theorem startEngine_apart (c : Chan) (b : Body) (s : State) : Apart c s (startEngine c b s) := by
  unfold startEngine
  split
  · exact .refl c s
  · exact takeOutcomes_apart c _ _ _ s
  · split
    · exact takeOutcomes_apart c _ _ _ s
    · exact (State.modEng_apart c s _).trans (sendPoints_apart c _ _ _)

theorem closeOut_apart (c : Chan) (s : State) : Apart c s (closeOut c s) := by
  have rest (o : PointOutcome) (n k : Nat) (x : State) :
      Apart c x (enterIdle c (takeOutcomes c .missed n (k + 1) (takeOutcome c o k x))) :=
    (takeOutcome_apart c o k x).trans ((takeOutcomes_apart c _ _ _ _).trans (enterIdle_apart c _))
  unfold closeOut
  dsimp only
  cases (s.eng c).state with
  | idle | finished | held => exact enterIdle_apart c s
  | positioning | gated | requesting => exact rest _ _ _ s
  | firing => exact (State.modEng_apart c s _).trans (rest _ _ _ _)

theorem Move.apart (h : Move L c s t) : Apart c s t := by
  cases h with
  | pulseEnded _ => exact State.modEng_apart c s _
  | strobeGiven _ => exact giveStrobe_apart c _ s
  | gated _ _ => exact State.modEng_apart c s _
  | asked _ => unfold enterRequesting; exact State.modEng_apart c s _
  | unasked _ => exact (State.modEng_apart c s _).trans (State.modEng_apart c _ _)
  | fired _ _ => unfold enterFiring; exact State.modEng_apart c s _
  | counted n => exact State.modEng_apart c s _
  | eventTaken w _ => exact State.setWindow_apart c s _
  | held o e _ _ => exact (State.setEng_apart c s e).trans (holdPoint_apart c o _)
  | advanced o e _ _ => exact (State.setEng_apart c s e).trans (endPoint_apart c o _)
  | closed => exact closeOut_apart c s

theorem Moves.apart (h : Moves L c s t) : Apart c s t := by
  induction h with
  | refl => exact .refl c s
  | tail _ last ih => exact ih.trans last.apart

/-! ## The other channel -/

/-- The frame as one equation. -/
theorem Apart.eq (h : Apart c s t) :
    t = { (s.setEng c (t.eng c)).setWindow c (t.counter.window c) with
          tracker := { s.tracker with zone := t.tracker.zone }, aux := t.aux } := by
  obtain ⟨store, view, line, sticky, pending, engine, window, counter, tracker, -, -⟩ := h
  obtain ⟨st, k, r, a, b, v, l, x, y, p⟩ := t
  cases c with
  | a =>
    have engB : b = s.engB := engine .b (by decide)
    have windowB : k.windowB = s.counter.windowB := window .b (by decide)
    subst store view line sticky pending engB
    show State.mk _ _ _ _ _ _ _ _ _ _ = State.mk _ _ _ _ _ _ _ _ _ _
    congr 1
    exact counter.trans (by rw [windowB]; rfl)
  | b =>
    have engA : a = s.engA := engine .a (by decide)
    have windowA : k.windowA = s.counter.windowA := window .a (by decide)
    subst store view line sticky pending engA
    show State.mk _ _ _ _ _ _ _ _ _ _ = State.mk _ _ _ _ _ _ _ _ _ _
    congr 1
    exact counter.trans (by rw [windowA]; rfl)

/-- Settles O29: each event of a channel's lines is a walk of its engine, and the walk's frame leaves the other channel
apart. -/
theorem channelsApart : Obligations.ChannelsApart := by
  unfold Obligations.ChannelsApart
  intro i c d s t ne event next
  have moves : Moves True c s t := by
    simp only [List.mem_cons, List.not_mem_nil, or_false] at event
    rcases event with rfl | rfl | rfl | rfl | rfl | rfl | rfl | rfl
    · exact execPstbPulseEnd_moves c s t next
    · exact execAtPtRise_moves c s t next
    · exact execReachExpiry_moves c s t next
    · exact execWindowOpen_moves c s t next
    · exact execWindowClose_moves c s t next
    · exact execWdoneRise_moves c true s t next
    · exact execWdoneRise_moves c false s t next
    · exact execWfaultRise_moves c s t next
  have apart := moves.apart
  refine ⟨apart.engine d ne.symm, apart.window d ne.symm, fun x b bound => ?_, fun free => ?_, apart.inputs, apart.eq⟩
  · have grown := apart.zone
    rw [bound] at grown
    obtain ⟨p, zone, -⟩ := grown
    exact ⟨p, zone⟩
  · have grown := apart.zone
    cases zone : s.tracker.zone with
    | bound x b => exact absurd zone (free x b)
    | empty | pairing x | stray x =>
      rw [zone] at grown
      exact grown

end Sys2Proof.Machine
end

