-- ==== Sys2Proof/Proofs/EngineLaws.lean ====
section
/-!
SUPPORT. What each move leaves of the engine it is made on, and the laws of an engine, shown of the moves: the channel
lines of Table 20, the program and point it runs, FINISHED.
-/

namespace Sys2Proof.Machine

variable {s t : State} {c : Chan} {L : Prop}

/-! ## The engine after a move -/

/-- An engine that has been sent to point `j`: its strobe given, or pending behind a running pulse (R69). -/
def Engine.sentTo (e : Engine) (j reachLimit : Nat) : Engine :=
  match e.pstb with
  | .running _ =>
    { e with state := .positioning, cursor := some j, reach := .stopped, pendingStrobe := some j }
  | .stopped => ({ e with state := .positioning, cursor := some j, reach := .stopped } : Engine).strobed j reachLimit

@[simp] theorem Engine.sentTo_state (e : Engine) (j r : Nat) : (e.sentTo j r).state = .positioning := by
  unfold Engine.sentTo; split <;> rfl
@[simp] theorem Engine.sentTo_cursor (e : Engine) (j r : Nat) : (e.sentTo j r).cursor = some j := by
  unfold Engine.sentTo; split <;> rfl
@[simp] theorem Engine.sentTo_running (e : Engine) (j r : Nat) : (e.sentTo j r).running = e.running := by
  unfold Engine.sentTo; split <;> rfl
@[simp] theorem Engine.sentTo_request (e : Engine) (j r : Nat) : (e.sentTo j r).request = e.request := by
  unfold Engine.sentTo; split <;> rfl
@[simp] theorem Engine.sentTo_fire (e : Engine) (j r : Nat) : (e.sentTo j r).fire = e.fire := by
  unfold Engine.sentTo; split <;> rfl
@[simp] theorem Engine.sentTo_sch (e : Engine) (j r : Nat) : (e.sentTo j r).sch = e.sch := by
  unfold Engine.sentTo; split <;> rfl

@[simp] theorem giveStrobe_eng (c : Chan) (k : Nat) (s : State) :
    (giveStrobe c k s).eng c = (s.eng c).strobed k s.sc.reachLimit := by
  rw [giveStrobe_eq]
  cases c <;> rfl

theorem strobe_eng (c : Chan) (k : Nat) (s : State) (cursor : (s.eng c).cursor = some k) :
    (strobe c k s).eng c = (s.eng c).sentTo k s.sc.reachLimit := by
  have constants (f : Engine → Engine) : (s.modEng c f).sc = s.sc := by cases c <;> rfl
  unfold strobe Engine.sentTo
  dsimp only
  cases pstb : (s.eng c).pstb with
  | running n => simp [cursor, pstb]
  | stopped => simp [constants, cursor, pstb]

@[simp] theorem enterFinished_eng (c : Chan) (s : State) :
    (enterFinished c s).eng c = (s.eng c).homed .finished := by simp [enterFinished, Engine.homed, Engine.homeLines]

@[simp] theorem enterHeld_eng (c : Chan) (s : State) : (enterHeld c s).eng c = (s.eng c).homed .held := by
  simp [enterHeld, Engine.homed, Engine.homeLines]

@[simp] theorem holdPoint_eng (c : Chan) (o : PointOutcome) (s : State) :
    (holdPoint c o s).eng c = (s.eng c).homed .held := by simp [holdPoint]

/-- A closed-out engine keeps its request number alone (R91). -/
theorem closeOut_eng (c : Chan) (s : State) :
    (closeOut c s).eng c =
      { (s.eng c).homed .idle with cursor := none, running := none, options := 0, faults := 0 } := by
  have idle (x : State) : (enterIdle c x).eng c =
      { (x.eng c).homed .idle with cursor := none, running := none, options := 0, faults := 0 } := by
    simp [enterIdle, Engine.homed, Engine.homeLines]
  unfold closeOut
  dsimp only
  cases (s.eng c).state <;> simp [idle, dropFire, Engine.homed]

/-- Sending leaves the engine on one of the points sent, or FINISHED without a window (R69, R70, R90). -/
theorem sendPoints_eng (c : Chan) (n : Nat) :
    ∀ (k : Nat) (s : State),
      (∃ j, k ≤ j ∧ j < k + n ∧ (sendPoints c n k s).eng c = (s.eng c).sentTo j s.sc.reachLimit)
        ∨ ((sendPoints c n k s).eng c =
            { (s.eng c).homed .finished with cursor := if n = 0 then (s.eng c).cursor else some (k + n - 1) }
          ∧ (sendPoints c n k s).counter.window c = none) := by
  induction n with
  | zero => exact fun k s => .inr ⟨enterFinished_eng c s, by simp [sendPoints, enterFinished]⟩
  | succ n ih =>
    intro k s
    have sentTo (x : Option Nat) (j r : Nat) :
        ({ s.eng c with cursor := x } : Engine).sentTo j r = (s.eng c).sentTo j r := by
      unfold Engine.sentTo
      cases (s.eng c).pstb <;> rfl
    have goesOn (x : State) (eng : x.eng c = { s.eng c with cursor := some k }) (store : x.store = s.store) :
        (∃ j, k ≤ j ∧ j < k + (n + 1) ∧ (sendPoints c n (k + 1) x).eng c = (s.eng c).sentTo j s.sc.reachLimit)
          ∨ ((sendPoints c n (k + 1) x).eng c =
              { (s.eng c).homed .finished with
                cursor := if n + 1 = 0 then (s.eng c).cursor else some (k + (n + 1) - 1) }
            ∧ (sendPoints c n (k + 1) x).counter.window c = none) := by
      have constants : x.sc = s.sc := by rw [State.sc, State.sc, store]
      rcases ih (k + 1) x with ⟨j, above, below, sent⟩ | ⟨finished, window⟩
      · exact .inl ⟨j, by omega, by omega, by rw [sent, eng, constants, sentTo]⟩
      · refine .inr ⟨?_, window⟩
        rw [finished, eng]
        by_cases last : n = 0
        · simp [last, Engine.homed]
        · simp [last, Engine.homed, Nat.add_comm, Nat.add_left_comm]
    unfold sendPoints
    dsimp only
    split
    · split
      · exact goesOn _ (by simp [sendWindow]) (by simp)
      · refine .inl ⟨k, le_rfl, by omega, ?_⟩
        rw [strobe_eng _ _ _ (by simp [sendWindow])]
        have constants : (sendWindow c k (s.modEng c fun e => { e with cursor := some k })).sc = s.sc := by
          rw [State.sc, State.sc, sendWindow_store, State.modEng_store]
        rw [constants, sendWindow, State.eng_setWindow, State.eng_modEng, sentTo]
    · exact goesOn _ (by simp) (by simp)

/-- After its point's end an engine is on a later point, or FINISHED (R70). -/
theorem endPoint_eng (c : Chan) (o : PointOutcome) (s : State) :
    (∃ j, (s.eng c).at < j ∧ j ≤ (s.eng c).points ∧ (endPoint c o s).eng c = (s.eng c).sentTo j s.sc.reachLimit)
      ∨ ((endPoint c o s).eng c =
          { (s.eng c).homed .finished with
            cursor := if (s.eng c).points ≤ (s.eng c).at then (s.eng c).cursor else some (s.eng c).points }
        ∧ (endPoint c o s).counter.window c = none) := by
  have constants : (takeOutcome c o (s.eng c).at s).sc = s.sc := by rw [State.sc, State.sc, takeOutcome_store]
  unfold endPoint advance
  dsimp only
  rw [takeOutcome_eng]
  rcases sendPoints_eng c ((s.eng c).points - (s.eng c).at) ((s.eng c).at + 1) (takeOutcome c o (s.eng c).at s) with
    ⟨j, above, below, sent⟩ | ⟨finished, window⟩
  · exact .inl ⟨j, by omega, by omega, by rw [sent, takeOutcome_eng, constants]⟩
  · refine .inr ⟨?_, window⟩
    rw [finished, takeOutcome_eng]
    by_cases last : (s.eng c).points ≤ (s.eng c).at
    · rw [if_pos last, if_pos (by omega)]
    · rw [if_neg last, if_neg (by omega), show (s.eng c).at + 1 + ((s.eng c).points - (s.eng c).at) - 1 = (s.eng c).points by omega]

/-! ## The channel lines (Table 20) -/

/-- Table 20's law of one engine, `code` being the schedule code of its current point. -/
structure Engine.Lines (e : Engine) (code : BitVec 6) : Prop where
  home : e.state.hasPoint = false → e.Home
  low : e.state ≠ .firing → e.sch = 0 ∧ e.fire = false
  firing : e.state = .firing → e.fire = true ∧ e.sch = code ∧ e.pstb = .stopped
  strobe : ∀ k, e.pendingStrobe = some k → e.state = .positioning ∧ e.cursor = some k ∧ e.pstb ≠ .stopped
  point : e.state.hasPoint = true → e.pendingStrobe = none → e.pt = BitVec.ofNat 8 (e.cursor.getD 0)

/-- The schedule code of a channel's current point. -/
def State.code (s : State) (c : Chan) : BitVec 6 := BitVec.ofNat 6 (s.current c).schedule

theorem State.linesFollow_iff : s.LinesFollow ↔ ∀ c, (s.eng c).Lines (s.code c) :=
  ⟨fun h c => ⟨h.home c, h.low c, h.firing c, h.strobe c, h.point c⟩,
    fun h => ⟨fun c => (h c).home, fun c => (h c).low, fun c => (h c).firing, fun c => (h c).strobe, fun c => (h c).point⟩⟩

/-- Outside FIRING the code is not on the lines. -/
theorem Engine.Lines.of_not_firing {e : Engine} {x y : BitVec 6} (h : e.Lines x) (outside : e.state ≠ .firing) :
    e.Lines y := ⟨h.home, h.low, fun firing => absurd firing outside, h.strobe, h.point⟩

/-- IDLE, FINISHED and HELD have every line at home. -/
theorem Engine.Home.lines {e : Engine} (home : e.Home) (code : BitVec 6) (without : e.state.hasPoint = false) :
    e.Lines code where
  home _ := home
  low _ := ⟨home.sch, home.fire⟩
  firing h := by simp [h, EngineState.hasPoint] at without
  strobe k h := by simp [home.strobe] at h
  point h := by simp [without] at h

theorem Engine.homed_home (e : Engine) (st : EngineState) : (e.homed st).Home := ⟨rfl, rfl, rfl, rfl, rfl⟩

theorem Engine.sentTo_lines (e : Engine) (j r : Nat) (code : BitVec 6) (fire : e.fire = false) (sch : e.sch = 0) :
    (e.sentTo j r).Lines code where
  home h := by simp [EngineState.hasPoint] at h
  low _ := by simp [fire, sch]
  firing h := by simp at h
  strobe k h := by
    unfold Engine.sentTo at h ⊢
    cases pstb : e.pstb with
    | running n =>
      simp only [pstb, Option.some.injEq] at h
      simp [h]
    | stopped => simp [pstb, Engine.strobed] at h
  point _ h := by
    unfold Engine.sentTo at h ⊢
    cases pstb : e.pstb with
    | running n => simp [pstb] at h
    | stopped => simp [Engine.strobed]

/-- An engine whose FIRE and SCH are down before its point ends. -/
theorem Engine.Spent.down {e x : Engine} {code : BitVec 6} (h : e.Spent x) (lines : e.Lines code) :
    x.fire = false ∧ x.sch = 0 := by
  rcases h.lines with down | ⟨outside, fire, sch⟩
  · exact down
  · rw [fire, sch]
    exact (lines.low outside).symm

theorem endPoint_lines (o : PointOutcome) (code : BitVec 6) (fire : (s.eng c).fire = false) (sch : (s.eng c).sch = 0) :
    ((endPoint c o s).eng c).Lines code := by
  rcases endPoint_eng c o s with ⟨j, -, -, sent⟩ | ⟨finished, -⟩
  · rw [sent]
    exact Engine.sentTo_lines _ _ _ _ fire sch
  · rw [finished]
    exact Engine.Home.lines ⟨rfl, rfl, rfl, rfl, rfl⟩ _ rfl

/-- A move keeps Table 20's law of its own engine. -/
theorem Move.lines (move : Move L c s t) (h : (s.eng c).Lines (s.code c)) : (t.eng c).Lines (t.code c) := by
  cases move with
  | pulseEnded none =>
    have code : (s.modEng c fun e => { e with pstb := .stopped }).code c = s.code c := by cases c <;> rfl
    rw [State.eng_modEng, code]
    exact ⟨fun without => ⟨(h.home without).pt, rfl, none, (h.home without).sch, (h.home without).fire⟩,
      h.low,
      fun firing => ⟨(h.firing firing).1, (h.firing firing).2.1, rfl⟩, fun k pending => by simp [none] at pending,
      h.point⟩
  | strobeGiven pending =>
    obtain ⟨positioning, cursor, -⟩ := h.strobe _ pending
    rw [giveStrobe_eng]
    refine ⟨fun without => ?_, fun outside => h.low outside, fun firing => ?_, fun j given => (by cases given),
      fun _ _ => ?_⟩
    · simp [Engine.strobed, positioning, EngineState.hasPoint] at without
    · simp [Engine.strobed, positioning] at firing
    · simp [Engine.strobed, cursor]
  | gated positioning given =>
    rw [State.eng_modEng]
    exact ⟨fun without => (by cases without), fun _ => h.low (by simp [positioning]), fun firing => (by cases firing),
      fun k pending => by simp [given] at pending, fun _ _ => h.point (by rw [positioning]; rfl) given⟩
  | asked gated =>
    unfold enterRequesting
    rw [State.eng_modEng]
    exact ⟨fun without => (by cases without), fun _ => h.low (by simp [gated]), fun firing => (by cases firing),
      fun k pending => by simpa [gated] using h.strobe k pending, fun _ given => h.point (by rw [gated]; rfl) given⟩
  | unasked requesting =>
    unfold withdraw
    rw [State.eng_modEng, State.eng_modEng]
    exact ⟨fun without => (by cases without), fun _ => h.low (by simp [requesting]), fun firing => (by cases firing),
      fun k pending => by simpa [requesting] using h.strobe k pending,
      fun _ given => h.point (by rw [requesting]; rfl) given⟩
  | fired _ requesting =>
    have code : (enterFiring c s).code c = s.code c := by cases c <;> rfl
    have given : (s.eng c).pendingStrobe = none := by
      by_contra pending
      obtain ⟨k, pending⟩ := Option.ne_none_iff_exists'.1 pending
      simpa [requesting] using (h.strobe k pending).1
    rw [code]
    unfold enterFiring
    rw [State.eng_modEng]
    exact ⟨fun without => (by cases without), fun outside => absurd rfl outside, fun _ => ⟨rfl, rfl, rfl⟩,
      fun k pending => (by cases pending), fun _ _ => h.point (by rw [requesting]; rfl) given⟩
  | counted n =>
    have code : (s.modEng c (fillRequest n)).code c = s.code c := by cases c <;> rfl
    rw [State.eng_modEng, code]
    exact ⟨fun without => ⟨(h.home without).pt, (h.home without).pstb, (h.home without).strobe, (h.home without).sch,
      (h.home without).fire⟩, h.low, h.firing, h.strobe, h.point⟩
  | eventTaken w window =>
    have code : (s.setWindow c (some w)).code c = s.code c := by cases c <;> rfl
    rw [State.eng_setWindow, code]
    exact h
  | held o e point spent =>
    rw [holdPoint_eng]
    exact (Engine.homed_home _ _).lines _ rfl
  | advanced o e point spent =>
    obtain ⟨fire, sch⟩ := spent.down h
    exact endPoint_lines o _ (by simpa using fire) (by simpa using sch)
  | closed =>
    rw [closeOut_eng]
    exact Engine.Home.lines ⟨rfl, rfl, rfl, rfl, rfl⟩ _ rfl

/-- The other channel's current point is as it was. -/
theorem Apart.pointRec_other (h : Apart c s t) {d : Chan} (other : d ≠ c) (k : Nat) :
    t.pointRec d k = s.pointRec d k := by
  unfold State.pointRec
  rw [h.engine d other, h.store]

theorem Apart.current_other (h : Apart c s t) {d : Chan} (other : d ≠ c) : t.current d = s.current d := by
  unfold State.current
  rw [h.engine d other, h.pointRec_other other]

theorem Move.linesFollow (move : Move L c s t) (h : s.LinesFollow) : t.LinesFollow := by
  rw [State.linesFollow_iff] at h ⊢
  intro d
  by_cases same : d = c
  · subst same
    exact move.lines (h d)
  · rw [State.code, move.apart.engine d same, move.apart.current_other same]
    exact h d

/-! ## The program and point that an engine runs (R20, R65, R77) -/

/-- R20's law of one engine. -/
def Engine.Runs (e : Engine) (st : Store) : Prop :=
  e.state.hasPoint = true → ∃ p n k d, e.running = some { program := p, count := n } ∧ e.cursor = some k ∧ 1 ≤ k ∧ k ≤ n
    ∧ st.dirEntry p = some d ∧ d.count = n ∧ st.marked p = false

/-- R77's law of one engine: a standing request is within the checks of R14. -/
def Engine.Asks (e : Engine) (k : LineConsts) : Prop := ∀ q, e.request = some q → k.admits q.load q.hold

theorem State.programsGood_iff : s.ProgramsGood ↔ ∀ c, (s.eng c).Runs s.store ∧ (s.eng c).Asks s.lc :=
  ⟨fun h c => ⟨h.running c, h.request c⟩, fun h => ⟨fun c => (h c).1, fun c => (h c).2⟩⟩

/-- A point that passes is one a claim can be made for (R14). -/
theorem passing_point_admits {k : LineConsts} {c : StationConsts} {r : PointRec} (h : pointFault k c r = none) :
    k.admits r.load r.hold := by
  have checks := (pointFault_eq_none_iff k c r).1 h
  simp only [pointChecks, List.forall_mem_cons] at checks
  obtain ⟨-, load, budget, hold, ceiling, -⟩ := checks
  exact ⟨load.1, load.2, budget, Nat.one_le_iff_ne_zero.2 hold, ceiling⟩

/-- After LOADING a point of a program not marked passes. -/
theorem State.LibraryChecked.pointRec_passes (h : s.LibraryChecked) {p k : Nat} {d : DirEntry}
    (ended : s.store.phase = .ended) (entry : s.store.dirEntry p = some d) (unmarked : s.store.marked p = false)
    (h1 : 1 ≤ k) (hk : k ≤ d.count) : pointFault s.lc s.sc (s.store.pointRec p k) = none := by
  obtain ⟨r, hr, pass⟩ := h.points p d k entry unmarked (by rw [ended]; trivial) h1 hk
  rwa [show s.store.pointRec p k = r by simp [Store.pointRec, entry, hr]]

/-- The current point of an engine that runs a good program passes every check of R14. -/
theorem State.LibraryChecked.current_passes (h : s.LibraryChecked) (ended : s.store.phase = .ended)
    (runs : (s.eng c).Runs s.store) (point : (s.eng c).state.hasPoint = true) :
    pointFault s.lc s.sc (s.current c) = none := by
  obtain ⟨p, n, k, d, running, cursor, h1, hk, entry, count, unmarked⟩ := runs point
  have current : s.current c = s.store.pointRec p k := by simp [State.current, State.pointRec, running, cursor]
  rw [current]
  exact h.pointRec_passes ended entry unmarked h1 (by omega)

theorem Engine.Runs.of_none {e : Engine} {st : Store} (without : e.state.hasPoint = false) : e.Runs st :=
  fun point => by simp [without] at point

/-- An engine on another point of its program. -/
theorem Engine.Runs.sentTo {e x : Engine} {st : Store} (h : e.Runs st) (point : e.state.hasPoint = true)
    (running : x.running = e.running) {j r : Nat} (above : 1 ≤ j) (below : j ≤ e.points) : (x.sentTo j r).Runs st := by
  obtain ⟨p, n, k, d, run, -, -, -, entry, count, unmarked⟩ := h point
  have points : e.points = n := by simp [Engine.points, run]
  exact fun _ => ⟨p, n, j, d, by rw [Engine.sentTo_running, running, run], by simp, above, by omega, entry, count, unmarked⟩

theorem Engine.Spent.running {e x : Engine} (h : e.Spent x) : x.running = e.running := by rw [h.same]
theorem Engine.Spent.cursor {e x : Engine} (h : e.Spent x) : x.cursor = e.cursor := by rw [h.same]
theorem Engine.Spent.state {e x : Engine} (h : e.Spent x) : x.state = e.state := by rw [h.same]
theorem Engine.Spent.at {e x : Engine} (h : e.Spent x) : x.at = e.at := by rw [h.same]; rfl
theorem Engine.Spent.points {e x : Engine} (h : e.Spent x) : x.points = e.points := by rw [h.same]; rfl
theorem Engine.Spent.asks {e x : Engine} {k : LineConsts} (h : e.Spent x) (asks : e.Asks k) : x.Asks k := by
  rcases h.request with none | same
  · simp [Engine.Asks, none]
  · rwa [Engine.Asks, same]

/-- A move keeps R20's and R77's law of its own engine. -/
theorem Move.programs (move : Move L c s t) (lib : s.LibraryChecked) (ended : s.store.phase = .ended)
    (runs : (s.eng c).Runs s.store) (asks : (s.eng c).Asks s.lc) : (t.eng c).Runs s.store ∧ (t.eng c).Asks s.lc := by
  cases move with
  | pulseEnded _ => simpa using ⟨runs, asks⟩
  | strobeGiven _ => simpa using ⟨runs, asks⟩
  | gated positioning _ =>
    rw [State.eng_modEng]
    exact ⟨fun _ => runs (by rw [positioning]; rfl), asks⟩
  | asked gated =>
    have point : (s.eng c).state.hasPoint = true := by rw [gated]; rfl
    unfold enterRequesting
    rw [State.eng_modEng]
    refine ⟨fun _ => runs point, fun q hq => ?_⟩
    obtain rfl := Option.some.inj hq
    exact passing_point_admits (lib.current_passes ended runs point)
  | unasked requesting =>
    unfold withdraw
    rw [State.eng_modEng, State.eng_modEng]
    exact ⟨fun _ => runs (by rw [requesting]; rfl), fun q hq => by cases hq⟩
  | fired _ requesting =>
    unfold enterFiring
    rw [State.eng_modEng]
    exact ⟨fun _ => runs (by rw [requesting]; rfl), fun q hq => by cases hq⟩
  | counted n =>
    rw [State.eng_modEng]
    refine ⟨runs, fun q hq => ?_⟩
    obtain ⟨x, hx, rfl⟩ := Option.map_eq_some_iff.1 hq
    exact asks x hx
  | eventTaken w _ => rw [State.eng_setWindow]; exact ⟨runs, asks⟩
  | held o e _ _ => rw [holdPoint_eng]; exact ⟨.of_none rfl, fun q hq => by cases hq⟩
  | advanced o e point spent =>
    rcases endPoint_eng c o (s.setEng c e) with ⟨j, above, below, sent⟩ | ⟨finished, -⟩
    · rw [State.eng_setEng] at above below sent
      rw [spent.points] at below
      rw [sent]
      refine ⟨runs.sentTo point spent.running (by omega) below, fun q hq => spent.asks asks q ?_⟩
      rwa [Engine.sentTo_request] at hq
    · rw [finished]
      exact ⟨.of_none rfl, fun q hq => by cases hq⟩
  | closed => rw [closeOut_eng]; exact ⟨.of_none rfl, fun q hq => by cases hq⟩

theorem Move.programsGood (move : Move L c s t) (lib : s.LibraryChecked) (ended : s.store.phase = .ended)
    (h : s.ProgramsGood) : t.ProgramsGood := by
  rw [State.programsGood_iff] at h ⊢
  have constants : t.lc = s.lc := by rw [State.lc, State.lc, move.apart.store]
  intro d
  rw [move.apart.store, constants]
  by_cases same : d = c
  · subst same
    exact move.programs lib ended (h d).1 (h d).2
  · rw [move.apart.engine d same]
    exact h d

/-! ## A point of the program, and FINISHED (R65, R90) -/

/-- A standing engine is at one of its program's points, and a FINISHED one has left from the last, its lines at home and
its window gone. -/
structure State.EndsAt (s : State) (c : Chan) : Prop where
  point : (s.eng c).state.hasPoint = true → 1 ≤ (s.eng c).at ∧ (s.eng c).at ≤ (s.eng c).points
  finished : (s.eng c).state = .finished → 1 ≤ (s.eng c).points →
    (s.eng c).cursor = some (s.eng c).points ∧ (s.eng c).Home ∧ s.counter.window c = none

/-- Neither on a point nor FINISHED. -/
theorem State.EndsAt.of_out (point : (s.eng c).state.hasPoint = false) (finished : (s.eng c).state ≠ .finished) :
    s.EndsAt c := ⟨fun h => by simp [point] at h, fun h => absurd h finished⟩

/-- On a point, with the place in the program that an engine on a point had. -/
theorem State.EndsAt.of_place (h : s.EndsAt c) (was : (s.eng c).state.hasPoint = true)
    (point : (t.eng c).state.hasPoint = true) (cursor : (t.eng c).cursor = (s.eng c).cursor)
    (running : (t.eng c).running = (s.eng c).running) : t.EndsAt c where
  point _ := by
    rw [Engine.at, cursor, Engine.points, running]
    exact h.point was
  finished x := by simp [x, EngineState.hasPoint] at point

theorem Engine.cursor_eq {e : Engine} (h : 1 ≤ e.at) : e.cursor = some e.at := by
  unfold Engine.at at h ⊢
  cases cursor : e.cursor with
  | none => simp [cursor] at h
  | some k => rfl

/-- Whatever leads an engine on from a point of its program ends on one or in FINISHED. -/
theorem endPoint_endsAt (o : PointOutcome) (h1 : 1 ≤ (s.eng c).at) (h2 : (s.eng c).at ≤ (s.eng c).points) :
    (endPoint c o s).EndsAt c := by
  rcases endPoint_eng c o s with ⟨j, above, below, sent⟩ | ⟨finished, window⟩
  · refine ⟨fun _ => ?_, fun x => by simp [sent] at x⟩
    rw [sent]
    simp only [Engine.at, Engine.points, Engine.sentTo_cursor, Engine.sentTo_running, Option.getD_some] at below ⊢
    omega
  · refine ⟨fun x => by simp [finished, Engine.homed, EngineState.hasPoint] at x, fun _ _ => ⟨?_, ?_, window⟩⟩
    · rw [finished]
      show (if (s.eng c).points ≤ (s.eng c).at then (s.eng c).cursor else some (s.eng c).points) = some (s.eng c).points
      split
      · rw [Engine.cursor_eq h1, show (s.eng c).at = (s.eng c).points by omega]
      · rfl
    · rw [finished]
      exact ⟨rfl, rfl, rfl, rfl, rfl⟩

theorem Move.endsAt (move : Move L c s t) (h : s.EndsAt c) : t.EndsAt c := by
  cases move with
  | pulseEnded none =>
    refine ⟨by rw [State.eng_modEng]; exact h.point, fun x hx => ?_⟩
    rw [State.eng_modEng] at x hx
    obtain ⟨cursor, home, window⟩ := h.finished x hx
    rw [State.eng_modEng]
    exact ⟨cursor, ⟨home.pt, rfl, home.strobe, home.sch, home.fire⟩, by simpa using window⟩
  | strobeGiven pending =>
    refine ⟨by rw [giveStrobe_eng]; exact h.point, fun x hx => ?_⟩
    rw [giveStrobe_eng] at x hx
    obtain ⟨-, home, -⟩ := h.finished x hx
    simp [home.strobe] at pending
  | gated positioning _ => exact h.of_place (by rw [positioning]; rfl) (by simp [EngineState.hasPoint]) (by simp) (by simp)
  | asked gated =>
    exact h.of_place (by rw [gated]; rfl) (by simp [enterRequesting, EngineState.hasPoint]) (by simp [enterRequesting])
      (by simp [enterRequesting])
  | unasked requesting =>
    exact h.of_place (by rw [requesting]; rfl) (by simp [EngineState.hasPoint]) (by simp [withdraw]) (by simp [withdraw])
  | fired _ requesting =>
    exact h.of_place (by rw [requesting]; rfl) (by simp [enterFiring, EngineState.hasPoint]) (by simp [enterFiring])
      (by simp [enterFiring])
  | counted n =>
    refine ⟨by rw [State.eng_modEng]; exact h.point, fun x hx => ?_⟩
    rw [State.eng_modEng] at x hx ⊢
    obtain ⟨cursor, home, window⟩ := h.finished x hx
    exact ⟨cursor, ⟨home.pt, home.pstb, home.strobe, home.sch, home.fire⟩, by simpa using window⟩
  | eventTaken w window =>
    refine ⟨by simpa using h.point, fun x hx => ?_⟩
    rw [State.eng_setWindow] at x hx
    simp [(h.finished x hx).2.2] at window
  | held o e _ _ => exact .of_out (by rw [holdPoint_eng]; rfl) (by rw [holdPoint_eng]; simp [Engine.homed])
  | advanced o e point spent =>
    obtain ⟨h1, h2⟩ := h.point point
    exact endPoint_endsAt o (by rwa [State.eng_setEng, spent.at]) (by rwa [State.eng_setEng, spent.at, spent.points])
  | closed => exact .of_out (by rw [closeOut_eng]; rfl) (by rw [closeOut_eng]; simp [Engine.homed])

end Sys2Proof.Machine
end

