-- ==== Sys2Proof/Proofs/OutcomePlaces.lean ====
section
/-!
SUPPORT. R71's law of the outcome places: each is written once, in point order, by the moves of its channel's engine and
by the binding of a body.
-/

namespace Sys2Proof.Machine

variable {s t : State} {c : Chan} {L : Prop}

/-! ## Places written up to a point -/

/-- The places of the points below `m` are written and those from `m` on are not. -/
structure WrittenBelow (m : Nat) (places : List (Option PointOutcome)) : Prop where
  below : ∀ i (h : i < places.length), i + 1 < m → places[i] ≠ none
  above : ∀ i (h : i < places.length), m ≤ i + 1 → places[i] = none

/-- The places after the points take the outcomes `f` gives them: a place once written stays. -/
def placesTaken (f : Nat → Option PointOutcome) (places : List (Option PointOutcome)) : List (Option PointOutcome) :=
  places.zipIdx.map fun x => x.1.or (f (x.2 + 1))

@[simp] theorem placesTaken_length (f : Nat → Option PointOutcome) (places : List (Option PointOutcome)) :
    (placesTaken f places).length = places.length := by simp [placesTaken]

theorem writtenBelow_one (n : Nat) : WrittenBelow 1 (List.replicate n none) :=
  ⟨fun i _ h => absurd h (by omega), fun i _ _ => by simp⟩

/-- The points from `k` on below `m` take outcomes: the places are written up to `m`. -/
theorem WrittenBelow.taken {a k m : Nat} {places : List (Option PointOutcome)} (h : WrittenBelow k places)
    (first : a ≤ k) (le : k ≤ m) (f : Nat → Option PointOutcome)
    (given : ∀ j, k ≤ j → j < m → j ≤ places.length → f j ≠ none) :
    WrittenBelow m (placesTaken (fun j => if a ≤ j ∧ j < m then f j else none) places) where
  below i hi hm := by
    have hl : i < places.length := by simpa using hi
    by_cases hk : i + 1 < k
    · simp [placesTaken, h.below i hl hk]
    · simp [placesTaken, h.above i hl (by omega), hm, show a ≤ i + 1 by omega, given (i + 1) (by omega) hm hl]
  above i hi hm := by
    have hl : i < places.length := by simpa using hi
    simp [placesTaken, h.above i hl (by omega), show ¬i + 1 < m by omega]

theorem forall_mem_take_iff {α : Type} {l : List α} {n : Nat} {p : α → Prop} :
    (∀ x ∈ l.take n, p x) ↔ ∀ i (h : i < l.length), i < n → p l[i] := by
  simp only [List.mem_take_iff_getElem]
  constructor
  · exact fun h i hi hn => h _ ⟨i, by omega, rfl⟩
  · rintro h x ⟨i, hi, rfl⟩
    exact h i (by omega) (by omega)

theorem forall_mem_drop_iff {α : Type} {l : List α} {n : Nat} {p : α → Prop} :
    (∀ x ∈ l.drop n, p x) ↔ ∀ i (h : i < l.length), n ≤ i → p l[i] := by
  simp only [List.mem_drop_iff_getElem]
  constructor
  · exact fun h i hi hn => h _ ⟨i - n, by omega, by simp [Nat.add_sub_cancel' hn]⟩
  · rintro h x ⟨i, hi, rfl⟩
    exact h _ _ (by omega)

theorem writtenBelow_iff {k : Nat} {places : List (Option PointOutcome)} (h1 : 1 ≤ k) :
    WrittenBelow k places ↔ (∀ x ∈ places.take (k - 1), x ≠ none) ∧ ∀ x ∈ places.drop (k - 1), x = none := by
  rw [forall_mem_take_iff, forall_mem_drop_iff]
  constructor
  · exact fun h => ⟨fun i hi hk => h.below i hi (by omega), fun i hi hk => h.above i hi (by omega)⟩
  · exact fun h => ⟨fun i hi hk => h.1 i hi (by omega), fun i hi hk => h.2 i hi (by omega)⟩

/-- Every place is written. -/
theorem WrittenBelow.all {m : Nat} {places : List (Option PointOutcome)} (h : WrittenBelow m places)
    (last : places.length < m) : ∀ x ∈ places, x ≠ none := by
  intro x hx
  obtain ⟨i, hi, rfl⟩ := List.mem_iff_getElem.1 hx
  exact h.below i hi (by omega)

/-! ## One channel -/

/-- R71's law of one channel's part, `e` being its engine. -/
structure ChannelPart.Follows (p : ChannelPart) (e : Engine) : Prop where
  length : p.places.length = p.answer.count
  small : p.places.length ≤ 255
  done : e.state.hasPoint = false → ∀ x ∈ p.places, x ≠ none
  going : e.state.hasPoint = true → ∃ n k, e.running = some { program := n, count := p.places.length }
    ∧ e.cursor = some k ∧ 1 ≤ k ∧ k ≤ p.places.length ∧ WrittenBelow k p.places

theorem State.placesFollow_iff {b : Body} : s.placesFollow c b ↔ (b.part c).Follows (s.eng c) := by
  constructor
  · rintro ⟨length, small, done, going⟩
    refine ⟨length, small, done, fun point => ?_⟩
    obtain ⟨p, k, running, cursor, h1, h2, written⟩ := going point
    exact ⟨p, k, running, cursor, h1, h2, (writtenBelow_iff h1).2 written⟩
  · rintro ⟨length, small, done, going⟩
    refine ⟨length, small, done, fun point => ?_⟩
    obtain ⟨p, k, running, cursor, h1, h2, written⟩ := going point
    exact ⟨p, k, running, cursor, h1, h2, (writtenBelow_iff h1).1 written⟩

theorem State.PlacesFollow.part (h : s.PlacesFollow) {d : Word32} {b : Body} (zone : s.tracker.zone = .bound d b)
    (c : Chan) : (b.part c).Follows (s.eng c) := State.placesFollow_iff.1 (h d b c zone)

theorem State.placesFollow_of_parts
    (h : ∀ d b c, s.tracker.zone = .bound d b → (b.part c).Follows (s.eng c)) : s.PlacesFollow :=
  fun d b c zone => State.placesFollow_iff.2 (h d b c zone)

/-- The part reads of its engine whether it has a point, and its place in the program. -/
theorem ChannelPart.Follows.of_place {p : ChannelPart} {e x : Engine} (h : p.Follows e)
    (point : x.state.hasPoint = e.state.hasPoint) (running : x.running = e.running) (cursor : x.cursor = e.cursor) :
    p.Follows x := by
  refine ⟨h.length, h.small, fun without => h.done (point ▸ without), fun has => ?_⟩
  rw [running, cursor]
  exact h.going (point ▸ has)

/-- An engine on a point is at one of its program's points. -/
theorem ChannelPart.Follows.at_bounds {p : ChannelPart} {e : Engine} (h : p.Follows e) (point : e.state.hasPoint = true) :
    1 ≤ e.at ∧ e.at ≤ e.points ∧ e.points = p.places.length ∧ WrittenBelow e.at p.places := by
  obtain ⟨n, k, running, cursor, h1, h2, written⟩ := h.going point
  have cursorAt : e.at = k := by simp [Engine.at, cursor]
  have count : e.points = p.places.length := by simp [Engine.points, running]
  rw [cursorAt, count]
  exact ⟨h1, h2, rfl, written⟩

/-- The part after the points below `m` have their outcomes, and the engine has moved on: to point `m`, or to no point once
the last has one. -/
theorem ChannelPart.Follows.taken {p : ChannelPart} {x : Engine} (length : p.places.length = p.answer.count)
    (small : p.places.length ≤ 255) {i k m : Nat} (first : i ≤ k) (le : k ≤ m) (h1 : 1 ≤ k) (written : WrittenBelow k p.places)
    (f : Nat → Option PointOutcome) (given : ∀ j, k ≤ j → j < m → j ≤ p.places.length → f j ≠ none)
    (next : (x.state.hasPoint = false ∧ p.places.length < m)
      ∨ x.state.hasPoint = true ∧ (∃ n, x.running = some { program := n, count := p.places.length })
        ∧ x.cursor = some m ∧ m ≤ p.places.length) :
    ChannelPart.Follows { p with places := placesTaken (fun j => if i ≤ j ∧ j < m then f j else none) p.places } x := by
  have after := written.taken first le f given
  refine ⟨by simpa using length, by simpa using small, fun without => ?_, fun point => ?_⟩
  · rcases next with ⟨-, last⟩ | ⟨point, -⟩
    · exact after.all (by simpa using last)
    · simp [point] at without
  · rcases next with ⟨without, -⟩ | ⟨-, ⟨n, running⟩, cursor, last⟩
    · simp [without] at point
    · exact ⟨n, m, by simpa using running, cursor, by omega, by simpa using last, after⟩

/-! ## The moves -/

/-- The zone record of a bound body after outcomes. -/
theorem State.outcomesTaken_zone {d : Word32} {b : Body} (zone : s.tracker.zone = .bound d b) (k m : Nat)
    (f : Nat → Option PointOutcome) :
    (s.outcomesTaken c k m f).tracker.zone =
      .bound d (b.setPart c { b.part c with
        places := placesTaken (fun j => if k ≤ j ∧ j < m then f j else none) (b.part c).places }) := by
  unfold State.outcomesTaken
  rw [zone]
  rfl

@[simp] theorem State.sent_tracker (s : State) (c : Chan) (j : Nat) : (s.sent c j).tracker = s.tracker := by
  unfold State.sent
  dsimp only
  split <;> simp

theorem State.sent_eng (s : State) (c : Chan) (j : Nat) : (s.sent c j).eng c = (s.eng c).sentTo j s.sc.reachLimit := by
  unfold State.sent Engine.sentTo
  dsimp only
  split
  · rename_i pstb
    rw [State.eng_setEng, pstb]
  · rename_i pstb
    rw [pstb]
    cases c <;> rfl

/-- The engine's part after its current point took `o` and it advanced. -/
theorem advancedAfter_part {d : Word32} {b : Body} (zone : s.tracker.zone = .bound d b) (o : Option PointOutcome)
    {k : Nat} (length : (b.part c).places.length = (b.part c).answer.count) (small : (b.part c).places.length ≤ 255)
    {n : Nat} (running : (s.eng c).running = some { program := n, count := (b.part c).places.length })
    {m : Nat} (hm : m = k ∨ m = k + 1) (hm1 : 1 ≤ m) (le : k ≤ (b.part c).places.length)
    (written : WrittenBelow m (b.part c).places) (given : m = k → o ≠ none) :
    ∃ p, (s.advancedAfter c k o).tracker.zone = .bound d (b.setPart c p) ∧ p.Follows ((s.advancedAfter c k o).eng c) := by
  have count : (s.eng c).points = (b.part c).places.length := by simp [Engine.points, running]
  have outcome {i : Nat} (decided : ∀ j, k + 1 ≤ j → j < i → (!s.decided c j == none) = true) (j : Nat) (hj : m ≤ j)
      (hi : j < i) : (if j = k then o else s.decided c j) ≠ none := by
    split
    · exact given (by omega)
    · intro undecided
      simpa [undecided] using decided j (by omega) hi
  unfold State.advancedAfter
  dsimp only
  rw [count]
  cases found : (List.range' (k + 1) ((b.part c).places.length - k)).find? fun j => s.decided c j == none with
  | some j =>
    obtain ⟨-, range, decided⟩ := List.find?_range'_eq_some.1 found
    rw [List.mem_range'_1] at range
    dsimp only
    rw [State.sent_tracker, State.outcomesTaken_zone zone]
    refine ⟨_, rfl, .taken length small (by omega) (by omega) hm1 written _ (fun i h1 h2 _ => outcome decided i h1 h2)
      (.inr ⟨?_, ⟨n, ?_⟩, ?_, by omega⟩)⟩
    · simp [State.sent_eng, EngineState.hasPoint]
    · simpa [State.sent_eng] using running
    · simp [State.sent_eng]
  | none =>
    have decided := List.find?_range'_eq_none.1 found
    dsimp only
    rw [State.setWindow_tracker, State.setEng_tracker, State.outcomesTaken_zone zone]
    refine ⟨_, rfl, .taken length small (by omega) (by omega) hm1 written _
      (fun i h1 h2 _ => outcome (fun j h1 h2 => decided j h1 (by omega)) i h1 h2) (.inl ⟨?_, by omega⟩)⟩
    rw [State.eng_setWindow, State.eng_setEng]
    rfl

/-- A move keeps R71's law of its own channel. -/
theorem Move.part (move : Move L c s t) {d : Word32} {b : Body} (zone : s.tracker.zone = .bound d b)
    (h : (b.part c).Follows (s.eng c)) :
    ∃ p, t.tracker.zone = .bound d (b.setPart c p) ∧ p.Follows (t.eng c) := by
  have still {t : State} (tracker : t.tracker = s.tracker) (follows : (b.part c).Follows (t.eng c)) :
      ∃ p, t.tracker.zone = .bound d (b.setPart c p) ∧ p.Follows (t.eng c) :=
    ⟨b.part c, by rw [tracker, zone, Body.setPart_part], follows⟩
  cases move with
  | pulseEnded _ => exact still (by simp) (by rw [State.eng_modEng]; exact h.of_place rfl rfl rfl)
  | strobeGiven _ => exact still (by simp [giveStrobe_eq]) (by rw [giveStrobe_eng]; exact h.of_place rfl rfl rfl)
  | gated positioning _ =>
    exact still (by simp) (by rw [State.eng_modEng]; exact h.of_place (by rw [positioning]; rfl) rfl rfl)
  | asked gated =>
    refine still (by simp [enterRequesting]) ?_
    unfold enterRequesting
    rw [State.eng_modEng]
    exact h.of_place (by rw [gated]; rfl) rfl rfl
  | unasked requesting =>
    refine still (by simp [withdraw]) ?_
    unfold withdraw
    rw [State.eng_modEng, State.eng_modEng]
    exact h.of_place (by rw [requesting]; rfl) rfl rfl
  | fired _ requesting =>
    refine still (by simp [enterFiring]) ?_
    unfold enterFiring
    rw [State.eng_modEng]
    exact h.of_place (by rw [requesting]; rfl) rfl rfl
  | counted n => exact still (by simp) (by rw [State.eng_modEng]; exact h.of_place rfl rfl rfl)
  | eventTaken w _ => exact still (by simp) (by rw [State.eng_setWindow]; exact h)
  | held o e point spent =>
    obtain ⟨h1, h2, count, written⟩ := h.at_bounds point
    have place : ((s.setEng c e).eng c).at = (s.eng c).at ∧ ((s.setEng c e).eng c).points = (s.eng c).points := by
      rw [State.eng_setEng]
      exact ⟨spent.at, spent.points⟩
    rw [holdPoint_eq c o _ (by rw [place.1]; exact h1) (by rw [place.1, place.2]; exact h2)]
    unfold State.heldAfter
    dsimp only
    rw [State.setWindow_tracker, State.setEng_tracker, State.outcomesTaken_zone (by simpa using zone), place.1, place.2]
    refine ⟨_, rfl, .taken h.length h.small le_rfl (by omega) h1 written _ (fun _ _ _ _ => by simp) (.inl ⟨?_, by omega⟩)⟩
    rw [State.eng_setWindow, State.eng_setEng]
    rfl
  | advanced o e point spent =>
    obtain ⟨h1, h2, count, written⟩ := h.at_bounds point
    obtain ⟨n, -, running, -⟩ := h.going point
    have place : ((s.setEng c e).eng c).at = (s.eng c).at ∧ ((s.setEng c e).eng c).points = (s.eng c).points := by
      rw [State.eng_setEng]
      exact ⟨spent.at, spent.points⟩
    rw [endPoint_eq c o _ (by rw [place.1]; exact h1) (by rw [place.1, place.2]; exact h2), place.1]
    exact advancedAfter_part (by simpa using zone) (some o) h.length h.small
      (by rw [State.eng_setEng, spent.running, running]) (.inl rfl) h1 (by omega) written (by simp)
  | closed =>
    rw [closeOut_eq c s fun point => ⟨(h.at_bounds point).1, (h.at_bounds point).2.1⟩]
    unfold State.closedOut
    dsimp only
    rw [State.eng_setWindow, State.eng_setEng, State.setWindow_tracker, State.setEng_tracker]
    have missed (f : Nat → Option PointOutcome) (given : ∀ j, f j ≠ none) (point : (s.eng c).state.hasPoint = true)
        {x : Engine} (without : x.state.hasPoint = false) :
        ∃ p, (s.outcomesTaken c (s.eng c).at ((s.eng c).points + 1) f).tracker.zone = .bound d (b.setPart c p)
          ∧ p.Follows x := by
      obtain ⟨h1, h2, count, written⟩ := h.at_bounds point
      rw [State.outcomesTaken_zone zone]
      exact ⟨_, rfl, .taken h.length h.small le_rfl (by omega) h1 written f (fun j _ _ _ => given j)
        (.inl ⟨without, by omega⟩)⟩
    cases state : (s.eng c).state with
    | idle | finished | held =>
      refine ⟨b.part c, by rw [zone, Body.setPart_part], h.length, h.small, fun _ => h.done (by rw [state]; rfl), ?_⟩
      exact fun point => by cases point
    | positioning | gated | requesting => exact missed _ (by simp) (by rw [state]; rfl) rfl
    | firing => exact missed _ (by simp) (by rw [state]; rfl) rfl

/-- The part of the other channel is as it was. -/
theorem Body.part_setPart_other (b : Body) (p : ChannelPart) {d : Chan} (other : d ≠ c) :
    (b.setPart c p).part d = b.part d := by
  cases c <;> cases d
  · exact absurd rfl other
  · rfl
  · rfl
  · exact absurd rfl other

/-- A move keeps R71's law. -/
theorem Move.placesFollow (move : Move L c s t) (h : s.PlacesFollow) : t.PlacesFollow := by
  refine State.placesFollow_of_parts fun d' b' e zone' => ?_
  have grown := move.apart.zone
  cases zone : s.tracker.zone with
  | bound d b =>
    obtain ⟨p, after, follows⟩ := move.part zone (h.part zone c)
    obtain ⟨rfl, rfl⟩ := Zone.bound.inj (after.symm.trans zone')
    by_cases same : e = c
    · subst same
      rwa [Body.part_setPart]
    · rw [Body.part_setPart_other _ _ same, move.apart.engine e same]
      exact h.part zone e
  | empty | pairing x | stray x =>
    rw [zone] at grown
    cases grown.symm.trans zone'

end Sys2Proof.Machine
end

