-- ==== Sys2Proof/Proofs/Conveyor.lean ====
section
/-!
The conveyor counter (02): what a count change, the halt and an illegal transition do, the window states, the watches,
and R25's law of the tracked position.
-/

namespace Sys2Proof.Machine

variable {s t : State}

/-! ## The tracked position -/

theorem State.setTracked_kept (s : State) (x : Word32) :
    (s.setTracked x).counter.quad = s.counter.quad ∧ (s.setTracked x).counter.raw = s.counter.raw
      ∧ (s.setTracked x).counter.motion = s.counter.motion ∧ (s.setTracked x).counter.haltTimer = s.counter.haltTimer := by
  unfold State.setTracked
  split
  · exact ⟨rfl, rfl, rfl, rfl⟩
  · exact ⟨rfl, rfl, rfl, rfl⟩

/-- The law of the watches and windows reads of the states what they follow, and no more. -/
theorem followsTracked.of_beside {s' : State} (h : followsTracked s' t) (tracked : s'.counter.tracked = s.counter.tracked)
    (held : s'.counter.heldWatch = s.counter.heldWatch) (pair : s'.counter.pairWatch = s.counter.pairWatch)
    (zone : s'.counter.zoneWatch = s.counter.zoneWatch) (window : ∀ c, s'.counter.window c = s.counter.window c)
    (current : ∀ c, s'.current c = s.current c) : followsTracked s t := by
  unfold followsTracked at h ⊢
  simpa only [tracked, held, pair, zone, window, current] using h

theorem State.setReverse_eq (s : State) :
    s.setReverse = { s with sticky := { s.sticky with
      reverseTravel := s.sticky.reverseTravel || decide (s.line.state ≠ .offLine) } } := by
  unfold State.setReverse
  split
  · rename_i off
    simp [off]
  · rename_i running
    simp [running]

/-! ## COUNT_CHANGE and the halt -/

/-- The four changes that count up are those of the forward order of level pairs (Table 14). -/
theorem countsUp_iff (q : Bool × Bool) (l : EncLine) :
    countsUp q l = true ↔ (q, toggle q l) ∈
      [((false, false), (true, false)), ((true, false), (true, true)), ((true, true), (false, true)),
        ((false, true), (false, false))] := by
  obtain ⟨a, b⟩ := q
  cases l <;> cases a <;> cases b <;> decide

theorem nextRaw_eq (raw : Word32) (q : Bool × Bool) (l : EncLine) :
    nextRaw raw q l = raw + (if (q, toggle q l) ∈
      [((false, false), (true, false)), ((true, false), (true, true)), ((true, true), (false, true)),
        ((false, true), (false, false))] then 1 else -1) := by
  unfold nextRaw
  by_cases up : countsUp q l = true
  · rw [if_pos up, if_pos ((countsUp_iff q l).1 up)]
  · rw [if_neg up, if_neg (mt (countsUp_iff q l).2 up), sub_eq_add_neg]

theorem nextTracked_cases (raw tracked : Word32) (h : Nat) :
    if 0 < posDiff raw tracked then nextTracked raw tracked h = raw
    else if posDiff raw tracked < -(h : Int) then nextTracked raw tracked h = raw + BitVec.ofNat 32 h
    else nextTracked raw tracked h = tracked := by
  unfold nextTracked
  split
  · rfl
  · split <;> rfl

/-- The state in which a count change sets the tracked position. -/
def State.counted (s : State) (q : Bool × Bool) (l : EncLine) : State :=
  { s with
    counter :=
      { s.counter with
        quad := some (toggle q l)
        raw := nextRaw s.counter.raw q l
        motion := .moving
        haltTimer := .running (s.sc.haltTime * Config.haltStep) }
    sticky :=
      { s.sticky with
        reverseTravel := s.sticky.reverseTravel
          || (dragsBack (nextRaw s.counter.raw q l) s.counter.tracked s.sc.hysteresis && decide (s.line.state ≠ .offLine)) } }

theorem execCountChange_eq {q : Bool × Bool} (l : EncLine) (quad : s.counter.quad = some q) :
    execCountChange l s = .next ((s.counted q l).setTracked
      (nextTracked (nextRaw s.counter.raw q l) s.counter.tracked s.sc.hysteresis)) := by
  unfold execCountChange State.counted
  rw [quad]
  dsimp only
  cases drags : dragsBack (nextRaw s.counter.raw q l) s.counter.tracked s.sc.hysteresis
  · simp
  · simp [State.setReverse_eq]

/-- Settles O12: the counter at a count change is the counted one with the tracked position set by R25, which the watches
and windows follow. -/
theorem countChangeMovesPositions : Obligations.CountChangeMovesPositions := by
  intro l s q quad
  have raw := nextRaw_eq s.counter.raw q l
  dsimp only
  obtain ⟨tracked, follows, frame⟩ := State.setTracked_follows (s.counted q l)
    (nextTracked (nextRaw s.counter.raw q l) s.counter.tracked s.sc.hysteresis)
  obtain ⟨keptQuad, keptRaw, keptMotion, keptTimer⟩ := State.setTracked_kept (s.counted q l)
    (nextTracked (nextRaw s.counter.raw q l) s.counter.tracked s.sc.hysteresis)
  refine ⟨_, execCountChange_eq l quad, by rw [frame]; rfl, ?_, ?_, ?_, fun running => ?_, keptMotion, keptTimer,
    follows.of_beside rfl rfl rfl rfl (fun c => by cases c <;> rfl) (fun c => by cases c <;> rfl)⟩
  · rw [keptQuad]
    cases l <;> rfl
  · rw [keptRaw]
    cases l <;> exact raw
  · rw [keptRaw, tracked]
    exact nextTracked_cases _ _ _
  · rw [keptRaw, frame]
    show (_ || (dragsBack _ _ _ && _)) = _
    simp [dragsBack, running]
    rfl

/-- Settles O13. -/
theorem haltAndIllegalTransition : Obligations.HaltAndIllegalTransition := by
  refine ⟨fun s n timer => ?_, fun s q quad running => ?_⟩
  · obtain ⟨tracked, follows, frame⟩ := State.setTracked_follows
      ({ s with counter := { s.counter with motion := .halted, haltTimer := .stopped } }) s.counter.raw
    obtain ⟨keptQuad, keptRaw, keptMotion, keptTimer⟩ := State.setTracked_kept
      ({ s with counter := { s.counter with motion := .halted, haltTimer := .stopped } }) s.counter.raw
    have halts : exec .haltTimerExpiry s = .next (State.setTracked
        { s with counter := { s.counter with motion := .halted, haltTimer := .stopped } } s.counter.raw) := by
      show execHaltTimerExpiry s = _
      unfold execHaltTimerExpiry
      rw [timer]
    exact ⟨_, halts, by rw [frame], keptMotion, keptTimer, keptRaw, tracked, keptQuad,
      follows.of_beside rfl rfl rfl rfl (fun c => by cases c <;> rfl) (fun c => by cases c <;> rfl)⟩
  · show execIllegalTransition s = _
    unfold execIllegalTransition
    rw [quad]
    simp [running]

/-! ## Windows and watches -/

theorem State.relPos_of_datum {d : Word32} (h : s.tracker.zone.datum = some d) :
    s.relPos = some (clampPos (s.counter.tracked - d).toInt) := by
  simp [State.relPos, h, posDiff]

theorem clampPos_eq (x : Int) :
    (x < 0 → clampPos x = 0) ∧ (0 ≤ x → x ≤ 65535 → clampPos x = x.toNat) ∧ (65535 < x → clampPos x = 65535) := by
  unfold clampPos
  refine ⟨fun h => if_pos h, fun h0 h1 => ?_, fun h => ?_⟩
  · rw [if_neg (by omega)]
    omega
  · rw [if_neg (by omega)]
    omega

theorem PointRec.windowAt_eq (r : PointRec) (p : Nat) :
    (p < r.windowOpen → r.windowAt p = .notYet) ∧ (r.windowOpen ≤ p → p ≤ r.windowClose → r.windowAt p = .opened)
      ∧ (r.windowOpen ≤ p → r.windowClose < p → r.windowAt p = .closed) := by
  unfold PointRec.windowAt
  refine ⟨fun h => if_pos h, fun h1 h2 => ?_, fun h1 h2 => ?_⟩
  · rw [if_neg (by omega), if_pos h2]
  · rw [if_neg (by omega), if_neg (by omega)]

/-- A window at a change of P, by the state it had (R35). -/
theorem Window.after_eq (w : Window) (r : PointRec) (p : Nat) (order : r.windowOpen < r.windowClose) :
    (w.state = .notYet → p < r.windowOpen → w.after r p = w)
      ∧ (w.state = .notYet → r.windowOpen ≤ p → p ≤ r.windowClose → w.after r p = { w with state := .opened, openDue := true })
      ∧ (w.state ≠ .closed → r.windowClose < p → w.after r p = { w with state := .closed, closeDue := true })
      ∧ (w.state = .opened → p ≤ r.windowClose → w.after r p = w) ∧ (w.state = .closed → w.after r p = w) := by
  obtain ⟨before, within, beyond⟩ := PointRec.windowAt_eq r p
  unfold Window.after
  refine ⟨fun state h => ?_, fun state h1 h2 => ?_, fun state h => ?_, fun state h => ?_, fun state => ?_⟩
  · rw [state, before h]
  · rw [state, within h1 h2]
  · cases w' : w.state with
    | notYet => rw [beyond (by omega) h]
    | opened => simp [h]
    | closed => exact absurd w' state
  · rw [state]
    simp [show ¬r.windowClose < p by omega]
  · rw [state]

/-- Settles O14. -/
theorem windowsAndWatches : Obligations.WindowsAndWatches := by
  refine ⟨fun s => ⟨fun zone => ?_, fun d zone => ?_⟩, PointRec.windowAt_eq, fun c k p s rel => ?_, Window.after_eq,
    fun r T d => ⟨rfl, rfl, rfl⟩⟩
  · simp [State.relPos, zone, Zone.datum]
  · have datum : s.tracker.zone.datum = some d := by
      rcases zone with zone | zone | ⟨b, zone⟩ <;> rw [zone] <;> rfl
    obtain ⟨before, within, beyond⟩ := clampPos_eq (s.counter.tracked - d).toInt
    rw [State.relPos_of_datum datum]
    exact ⟨fun h => by rw [before h], fun h0 h1 => by rw [within h0 h1], fun h => by rw [beyond h]⟩
  · obtain ⟨before, within, beyond⟩ := PointRec.windowAt_eq (s.pointRec c k) p
    have window : (sendWindow c k s).counter.window c =
        some { state := (s.pointRec c k).windowAt p, openDue := (s.pointRec c k).windowAt p == .opened, closeDue := false } := by
      simp [sendWindow, rel]
    dsimp only
    rw [window]
    refine ⟨fun h => ?_, fun h1 h2 => ?_, fun h1 h2 => ?_⟩
    · rw [before h]
      rfl
    · rw [within h1 h2]
      rfl
    · rw [beyond h1 h2]
      rfl

/-! ## R25's law -/

/-- The tracked position that a count change gives lies within the hysteresis of the raw count (R25). -/
theorem nextTracked_within (raw tracked : Word32) (h : Nat) (small : h ≤ 255) :
    0 ≤ posDiff (nextTracked raw tracked h) raw ∧ posDiff (nextTracked raw tracked h) raw ≤ h := by
  unfold nextTracked posDiff
  split
  · simp
  · rename_i behind
    split
    · have shift : raw + BitVec.ofNat 32 h - raw = BitVec.ofNat 32 h := by rw [BitVec.add_comm, BitVec.add_sub_cancel]
      rw [shift, BitVec.toInt_ofNat']
      have := Int.bmod_eq_of_le (n := (h : Int)) (m := 2 ^ 32) (by omega) (by omega)
      omega
    · rename_i ahead
      have flip : (tracked - raw).toInt = -(raw - tracked).toInt := by
        rw [← neg_sub raw tracked, BitVec.toInt_neg_of_ne_intMin]
        intro least
        rw [least, BitVec.toInt_intMin] at ahead
        norm_num at ahead
        omega
      omega

/-- A state with the store's constants, whose positions are those a step of the conveyor gives. -/
theorem State.TrackedWithin.of_tracked (store : t.store = s.store) (hysteresis : s.sc.hysteresis ≤ 255)
    (within : 0 ≤ posDiff t.counter.tracked t.counter.raw ∧ posDiff t.counter.tracked t.counter.raw ≤ s.sc.hysteresis) :
    t.TrackedWithin := by
  have same : t.sc = s.sc := by rw [State.sc, State.sc, store]
  exact ⟨same ▸ hysteresis, within.1, same ▸ within.2⟩

theorem State.TrackedWithin.of_same (h : s.TrackedWithin) (store : t.store = s.store)
    (tracked : t.counter.tracked = s.counter.tracked) (raw : t.counter.raw = s.counter.raw) : t.TrackedWithin :=
  .of_tracked store h.hysteresis (by rw [tracked, raw]; exact ⟨h.notBehind, h.notAhead⟩)

theorem execCountChange_trackedWithin (l : EncLine) (h : s.TrackedWithin) :
    AllNext State.TrackedWithin (execCountChange l s) := by
  cases quad : s.counter.quad with
  | none =>
    unfold execCountChange
    rw [quad]
    exact (allNext_next _ _).2 h
  | some q =>
    rw [execCountChange_eq l quad, allNext_next]
    refine .of_tracked (s := s) (by rw [State.setTracked_store]; rfl) h.hysteresis ?_
    rw [(State.setTracked_follows _ _).1, (State.setTracked_kept _ _).2.1]
    exact nextTracked_within _ _ _ h.hysteresis

theorem execIllegalTransition_trackedWithin (h : s.TrackedWithin) :
    AllNext State.TrackedWithin (execIllegalTransition s) := by
  unfold execIllegalTransition
  split
  · exact (allNext_next _ _).2 h
  · dsimp only
    split
    · exact (allNext_next _ _).2 (h.of_same rfl rfl rfl)
    · exact (allNext_next _ _).2 (h.of_same rfl rfl rfl)

theorem execHaltTimerExpiry_trackedWithin (h : s.TrackedWithin) :
    AllNext State.TrackedWithin (execHaltTimerExpiry s) := by
  unfold execHaltTimerExpiry
  split
  · exact (allNext_next _ _).2 h
  · rw [allNext_next]
    refine .of_tracked (s := s) (by rw [State.setTracked_store]) h.hysteresis ?_
    rw [(State.setTracked_follows _ _).1, (State.setTracked_kept _ _).2.1]
    simp [posDiff]

end Sys2Proof.Machine
end

