-- ==== Sys2Proof/Proofs/PointEvents.lean ====
section
/-!
What the events of the channel lines do to their engine (04): the pulse end, the robot's arrival, the reach and window
events, the weld timer's answer, and the way into FINISHED.
-/

namespace Sys2Proof.Machine

variable {s : State} {c : Chan}

/-! ## Engine and window put back -/

theorem State.setEng_setEng (s : State) (c : Chan) (e x : Engine) : (s.setEng c e).setEng c x = s.setEng c x := by
  cases c <;> rfl

theorem State.setWindow_setEng (s : State) (c : Chan) (e : Engine) (w : Option Window) :
    (s.setEng c e).setWindow c w = (s.setWindow c w).setEng c e := by cases c <;> rfl

/-- The current point reads of the engine its program and its cursor. -/
theorem State.current_setEng (s : State) (c : Chan) (e : Engine) (running : e.running = (s.eng c).running)
    (cursor : e.cursor = (s.eng c).cursor) : (s.setEng c e).current c = s.current c := by
  unfold State.current State.pointRec
  rw [State.eng_setEng, running, cursor, State.setEng_store]

@[simp] theorem State.current_setWindow (s : State) (c d : Chan) (w : Option Window) :
    (s.setWindow c w).current d = s.current d := by
  unfold State.current State.pointRec
  rw [State.eng_setWindow, State.setWindow_store]

/-- Whether an engine may ask is a matter of its window's state, its current point and the inputs. -/
theorem State.mayAsk_congr {t : State} (window : (t.counter.window c).map Window.state = (s.counter.window c).map Window.state)
    (current : t.current c = s.current c) (aux : t.aux = s.aux) : t.mayAsk c ↔ s.mayAsk c := by
  have opened (u : State) : (∃ w, u.counter.window c = some w ∧ w.state = .opened) ↔
      (u.counter.window c).map Window.state = some .opened := by
    rw [Option.map_eq_some_iff]
  unfold State.mayAsk
  rw [opened, opened, window, current, aux]

/-! ## The events -/

/-- Settles O22. -/
theorem pulseEndGivesPendingStrobe : Obligations.PulseEndGivesPendingStrobe := by
  intro c s n pulse
  refine ⟨fun none => ?_, fun k pending => ?_⟩
  · show execPstbPulseEnd c s = _
    unfold execPstbPulseEnd
    rw [pulse, none]
    rfl
  · show execPstbPulseEnd c s = _
    unfold execPstbPulseEnd
    rw [pulse, pending]
    dsimp only
    rw [giveStrobe_eq]

/-- Settles O23: AT_PT and the window open event both come to the test of R75, in the states that `tryRequest_eq` gives. -/
theorem gatedEngineAsksWhenReady : Obligations.GatedEngineAsksWhenReady := by
  intro c s
  dsimp only
  refine ⟨fun positioning given => ?_, fun other => ?_, fun w d window => ?_⟩
  · have reached : exec (.atPtRise c) s = .next (tryRequest c (s.setEng c { s.eng c with state := .gated, reach := .stopped })) := by
      show execAtPtRise c s = _
      unfold execAtPtRise
      rw [if_pos ⟨positioning, given⟩]
      rfl
    have current := State.current_setEng s c { s.eng c with state := .gated, reach := .stopped } rfl rfl
    have asks : (s.setEng c { s.eng c with state := .gated, reach := .stopped }).mayAsk c ↔ s.mayAsk c :=
      State.mayAsk_congr (by rw [State.setEng_counter]) current (State.setEng_aux ..)
    obtain ⟨ask, stay⟩ := tryRequest_eq c (s.setEng c { s.eng c with state := .gated, reach := .stopped })
    rw [reached]
    refine ⟨fun may => ?_, fun maynt => ?_⟩
    · rw [ask (by simp) (asks.2 may), current, State.eng_setEng, State.setEng_setEng, State.setEng_line]
    · rw [stay fun h => maynt (asks.1 h.2)]
  · show execAtPtRise c s = _
    unfold execAtPtRise
    exact if_neg fun h => other.elim (· h.1) (· h.2)
  · have taken : exec (.windowOpen c) s =
        .next (tryRequest c (s.setWindow c (some { state := w, openDue := false, closeDue := d }))) := by
      show execWindowOpen c s = _
      unfold execWindowOpen
      rw [window]
    have asks : (s.setWindow c (some { state := w, openDue := false, closeDue := d })).mayAsk c ↔ s.mayAsk c :=
      State.mayAsk_congr (by rw [State.window_setWindow, window]; rfl) (State.current_setWindow _ _ _ _)
        (State.setWindow_aux ..)
    obtain ⟨ask, stay⟩ := tryRequest_eq c (s.setWindow c (some { state := w, openDue := false, closeDue := d }))
    rw [State.eng_setWindow, asks] at ask stay
    rw [taken]
    refine ⟨fun gated may => ?_, fun not => ?_⟩
    · rw [ask gated may, State.current_setWindow, State.setWindow_line]
    · rw [stay not]

/-- Ending the current point of an engine on a point of its program (R70, R86). -/
theorem endPoint_pointed (o : PointOutcome) (e : Engine) (pointed : 1 ≤ (s.eng c).at ∧ (s.eng c).at ≤ (s.eng c).points)
    (cursor : e.cursor = (s.eng c).cursor) (running : e.running = (s.eng c).running) :
    endPoint c o (s.setEng c e) = (s.setEng c e).advancedAfter c (s.eng c).at (some o) := by
  have place : ((s.setEng c e).eng c).at = (s.eng c).at := by rw [State.eng_setEng, Engine.at, cursor, Engine.at]
  have points : ((s.setEng c e).eng c).points = (s.eng c).points := by
    rw [State.eng_setEng, Engine.points, running, Engine.points]
  rw [endPoint_eq c o _ (by rw [place]; exact pointed.1) (by rw [place, points]; exact pointed.2), place]

theorem holdPoint_pointed (o : PointOutcome) (e : Engine) (pointed : 1 ≤ (s.eng c).at ∧ (s.eng c).at ≤ (s.eng c).points)
    (cursor : e.cursor = (s.eng c).cursor) (running : e.running = (s.eng c).running) :
    holdPoint c o (s.setEng c e) = (s.setEng c e).heldAfter c o := by
  have place : ((s.setEng c e).eng c).at = (s.eng c).at := by rw [State.eng_setEng, Engine.at, cursor, Engine.at]
  have points : ((s.setEng c e).eng c).points = (s.eng c).points := by
    rw [State.eng_setEng, Engine.points, running, Engine.points]
  rw [holdPoint_eq c o _ (by rw [place]; exact pointed.1) (by rw [place, points]; exact pointed.2)]

/-- The window close event in a state where the point still waits for its weld. -/
theorem execWindowClose_of_waiting {w : WindowState} {d : Bool} (pointed : s.Pointed)
    (window : s.counter.window c = some { state := w, openDue := d, closeDue := true }) :
    ((s.eng c).state = .positioning ∨ (s.eng c).state = .gated →
        execWindowClose c s = .next (((s.setWindow c (some { state := w, openDue := d, closeDue := false })).setEng c
          { s.eng c with reach := .stopped }).advancedAfter c (s.eng c).at (some .missed)))
      ∧ ((s.eng c).state = .requesting →
        execWindowClose c s = .next (((s.setWindow c (some { state := w, openDue := d, closeDue := false })).setEng c
          { s.eng c with request := none }).advancedAfter c (s.eng c).at (some .missed))) := by
  have ended (e : Engine) (cursor : e.cursor = (s.eng c).cursor) (running : e.running = (s.eng c).running)
      (point : (s.eng c).state.hasPoint = true) :=
    endPoint_pointed (s := s.setWindow c (some { state := w, openDue := d, closeDue := false })) (c := c) .missed e
      (by rw [State.eng_setWindow]; exact pointed c point) (by rw [State.eng_setWindow, cursor])
      (by rw [State.eng_setWindow, running])
  simp only [State.eng_setWindow] at ended
  unfold execWindowClose
  rw [window]
  refine ⟨fun waiting => ?_, fun requesting => ?_⟩
  · have point : (s.eng c).state.hasPoint = true := by rcases waiting with state | state <;> rw [state] <;> rfl
    rw [← ended { s.eng c with reach := .stopped } rfl rfl point]
    rcases waiting with state | state <;> rw [state] <;> simp only [State.modEng, State.eng_setWindow]
  · rw [← ended { s.eng c with request := none } rfl rfl (by rw [requesting]; rfl), requesting]
    simp only [withdraw, State.modEng, State.eng_setWindow]

/-- Settles O24. -/
theorem pointsEndWithoutAWeld : Obligations.PointsEndWithoutAWeld := by
  refine ⟨fun c s m pointed positioning timer => ?_, fun c s w d pointed window => ?_⟩
  · show execReachExpiry c s = _
    unfold execReachExpiry
    rw [if_pos ⟨positioning, by simp [timer]⟩]
    exact congrArg _ ((holdPoint_pointed .stalled { s.eng c with reach := .stopped }
      (pointed c (by rw [positioning]; rfl)) rfl rfl).trans (by cases c <;> rfl))
  · obtain ⟨waiting, requesting⟩ := execWindowClose_of_waiting pointed window
    refine ⟨waiting, requesting, fun through => ?_⟩
    show execWindowClose c s = _
    unfold execWindowClose
    rw [window]
    rcases through with firing | point
    · rw [firing]
    · cases state : (s.eng c).state with
      | idle | finished | held => rfl
      | _ => simp [state, EngineState.hasPoint] at point

/-- The weld timer's answer in FIRING, in the closed forms. -/
theorem weldAnswer_of_firing (o : PointOutcome) (pointed : s.Pointed) (firing : (s.eng c).state = .firing) :
    weldAnswer c o s =
      (let n := if o = .welded then 0 else (s.eng c).faults + 1
       let down := s.setEng c { s.eng c with fire := false, sch := 0, faults := n }
       if 2 ≤ n then down.heldAfter c o else down.advancedAfter c (s.eng c).at (some o)) := by
  have place := pointed c (by rw [firing]; rfl)
  rw [weldAnswer_eq]
  dsimp only
  rw [holdPoint_pointed, endPoint_pointed]
  exacts [place, rfl, rfl, place, rfl, rfl]

/-- Settles O25. -/
theorem weldTimerAnswers : Obligations.WeldTimerAnswers := by
  intro c s pointed firing
  have welded := weldAnswer_of_firing .welded pointed firing
  have faulted := weldAnswer_of_firing .faulted pointed firing
  refine ⟨?_, fun i answer => ?_⟩
  · show execWdoneRise c false s = _
    unfold execWdoneRise
    rw [if_pos firing, if_neg (by simp), welded]
    rfl
  · have answers : exec i s = .next (weldAnswer c .faulted s) := by
      rcases answer with rfl | rfl
      · exact if_pos firing
      · exact if_pos firing
    rw [answers, faulted]
    rfl

/-- Advancing from the last point of a program leads to FINISHED (R90). -/
theorem endPoint_last (o : PointOutcome) (h1 : 1 ≤ (s.eng c).at) (last : (s.eng c).at = (s.eng c).points) :
    ((endPoint c o s).eng c).state = .finished ∧ ((endPoint c o s).eng c).cursor = some (s.eng c).points
      ∧ ((endPoint c o s).eng c).Home ∧ (endPoint c o s).counter.window c = none := by
  rcases endPoint_eng c o s with ⟨j, above, below, -⟩ | ⟨finished, window⟩
  · omega
  · rw [finished, window]
    refine ⟨rfl, ?_, ⟨rfl, rfl, rfl, rfl, rfl⟩, rfl⟩
    show (if (s.eng c).points ≤ (s.eng c).at then (s.eng c).cursor else some (s.eng c).points) = _
    rw [if_pos (by omega), Engine.cursor_eq h1, last]

theorem endPoint_last_setEng (o : PointOutcome) (e : Engine) (cursor : e.cursor = (s.eng c).cursor)
    (running : e.running = (s.eng c).running) (h1 : 1 ≤ (s.eng c).at) (last : (s.eng c).at = (s.eng c).points) :
    ((endPoint c o (s.setEng c e)).eng c).state = .finished
      ∧ ((endPoint c o (s.setEng c e)).eng c).cursor = some (s.eng c).points
      ∧ ((endPoint c o (s.setEng c e)).eng c).Home ∧ (endPoint c o (s.setEng c e)).counter.window c = none := by
  have place : ((s.setEng c e).eng c).at = (s.eng c).at := by rw [State.eng_setEng, Engine.at, cursor, Engine.at]
  have points : ((s.setEng c e).eng c).points = (s.eng c).points := by
    rw [State.eng_setEng, Engine.points, running, Engine.points]
  rw [← points]
  exact endPoint_last o (by rw [place]; exact h1) (by rw [place, points]; exact last)

end Sys2Proof.Machine
end

