-- ==== Sys2Proof/Proofs/AuxInputs.lean ====
section
/-!
The auxiliary inputs (07): their filter, and what a filtered change tells the engines.
-/

namespace Sys2Proof.Machine

variable {s u : State} {c : Chan} {line : Fin 8}

/-! ## What an engine is told -/

/-- The window of a channel is OPEN. -/
def State.opened (s : State) (c : Chan) : Bool := (s.counter.window c).map Window.state == some .opened

/-- A GATED engine under an OPEN window asks. -/
def Engine.readied (e : Engine) (r : PointRec) (opened : Bool) (n : Option Word16) : Engine :=
  if e.state = .gated ∧ opened = true then e.asking r n else e

/-- An engine whose gate is the EVENT gate of a line, told of the latch that was set. -/
def Engine.latchTold (e : Engine) (r : PointRec) (line : Fin 8) (opened : Bool) (n : Option Word16) : Engine :=
  if r.gate = some { line := line, kind := .event } then e.readied r opened n else e

/-- A filtered change tells an engine of the level first, and then of the latch it has set. -/
theorem Engine.gateReported_latched (e : Engine) (r : PointRec) (active latched opened : Bool) (n : Option Word16) :
    e.gateReported r line active latched opened n =
      if latched then (e.gateReported r line active false opened n).latchTold r line opened n
      else e.gateReported r line active false opened n := by
  cases latched with
  | false => rfl
  | true =>
    unfold Engine.gateReported Engine.latchTold
    by_cases level : r.gate = some { line := line, kind := .level }
    · simp [level]
    · simp [level, Engine.readied]

theorem Engine.gateReported_place (e : Engine) (r : PointRec) (active latched opened : Bool) (n : Option Word16) :
    (e.gateReported r line active latched opened n).running = e.running
      ∧ (e.gateReported r line active latched opened n).cursor = e.cursor := by
  unfold Engine.gateReported
  repeat' split
  all_goals exact ⟨rfl, rfl⟩

theorem State.setEng_eng (s : State) (c : Chan) : s.setEng c (s.eng c) = s := by cases c <;> rfl

/-- An engine whose gate is satisfied makes the test of R75. -/
theorem tryRequest_satisfied (satisfied : u.gateSatisfied c (u.current c) = true) :
    tryRequest c u = u.setEng c ((u.eng c).readied (u.current c) (u.opened c) u.line.count) := by
  unfold tryRequest Engine.readied State.opened
  by_cases ready : (u.eng c).state = .gated ∧ (u.counter.window c).map Window.state = some .opened
  · rw [if_pos ⟨ready.1, ready.2, satisfied⟩, if_pos ⟨ready.1, by rw [ready.2]; rfl⟩]
    rfl
  · rw [if_neg fun h => ready ⟨h.1, h.2.1⟩, if_neg fun h => ready ⟨h.1, by simpa using h.2⟩, State.setEng_eng]

/-- The report of a level that the input has taken. -/
theorem reportLevel_eq (active : Bool) (level : u.aux.inputs[line].filtered = active) :
    reportLevel line active c u =
      u.setEng c ((u.eng c).gateReported (u.current c) line active false (u.opened c) u.line.count) := by
  unfold reportLevel Engine.gateReported
  by_cases gate : (u.current c).gate = some { line := line, kind := .level }
  · rw [if_pos gate]
    cases active with
    | true =>
      have satisfied : u.gateSatisfied c (u.current c) = true := by
        unfold State.gateSatisfied
        rw [gate]
        exact level
      by_cases point : (u.eng c).state.hasPoint = true
      · rw [if_pos ⟨point, gate⟩, if_pos rfl, tryRequest_satisfied satisfied]
        rfl
      · rw [if_neg fun h => point h.1, if_pos rfl, if_neg fun h => point (by rw [h.1]; rfl), State.setEng_eng]
    | false =>
      by_cases requesting : (u.eng c).state = .requesting
      · rw [if_pos ⟨by rw [requesting]; rfl, gate⟩, if_neg (by simp), if_pos requesting, if_neg (by simp), if_pos requesting]
        cases c <;> rfl
      · rw [if_neg (c := false = true) (by simp), if_neg requesting, if_neg (c := false = true) (by simp), if_neg requesting,
          State.setEng_eng, ite_self]
  · rw [if_neg fun h => gate h.2, if_neg gate]
    simp [State.setEng_eng]

/-- The report of a latch that has been set. -/
theorem reportLatch_eq (latched : u.aux.inputs[line].latch c = true) :
    reportLatch line c u = u.setEng c ((u.eng c).latchTold (u.current c) line (u.opened c) u.line.count) := by
  unfold reportLatch Engine.latchTold
  by_cases gate : (u.current c).gate = some { line := line, kind := .event }
  · have satisfied : u.gateSatisfied c (u.current c) = true := by
      unfold State.gateSatisfied
      rw [gate]
      exact latched
    rw [if_pos gate]
    by_cases point : (u.eng c).state.hasPoint = true
    · rw [if_pos ⟨point, gate⟩, tryRequest_satisfied satisfied]
    · rw [if_neg fun h => point h.1, Engine.readied, if_neg fun h => point (by rw [h.1]; rfl), State.setEng_eng]
  · rw [if_neg fun h => gate h.2, if_neg gate, State.setEng_eng]

/-! ## The filtered change -/

/-- The part with one input and both engines replaced. -/
def State.toldOf (s : State) (line : Fin 8) (x : AuxIn) (a b : Engine) : State :=
  { s with aux := { s.aux with inputs := s.aux.inputs.set line x }, engA := a, engB := b }

theorem setLatch_toldOf (x : AuxIn) (a b : Engine) :
    setLatch line c (s.toldOf line x a b) =
      if x.latch c then s.toldOf line x a b
      else reportLatch line c (s.toldOf line (x.setLatch c true) a b) := by
  have input : (s.toldOf line x a b).aux.inputs[line] = x := by simp [State.toldOf]
  unfold setLatch
  rw [input]
  split
  · rfl
  · simp [State.modInput, State.toldOf]

theorem State.current_toldOf (x : AuxIn) (a b : Engine) (placeA : a.running = s.engA.running ∧ a.cursor = s.engA.cursor)
    (placeB : b.running = s.engB.running ∧ b.cursor = s.engB.cursor) (c : Chan) :
    (s.toldOf line x a b).current c = s.current c := by
  unfold State.current State.pointRec
  cases c
  · simp only [State.eng_a, State.toldOf, placeA]
  · simp only [State.eng_b, State.toldOf, placeB]

/-- What the two latches of an input tell the engines (R158). -/
theorem latches_toldOf (x : AuxIn) (a b : Engine) (placeA : a.running = s.engA.running ∧ a.cursor = s.engA.cursor)
    (placeB : b.running = s.engB.running ∧ b.cursor = s.engB.cursor) :
    setLatch line .b (setLatch line .a (s.toldOf line x a b)) =
      s.toldOf line { x with latchA := true, latchB := true }
        (if x.latchA then a else a.latchTold (s.current .a) line (s.opened .a) s.line.count)
        (if x.latchB then b else b.latchTold (s.current .b) line (s.opened .b) s.line.count) := by
  have place (e : Engine) (r : PointRec) (o : Bool) (n : Option Word16) :
      (e.latchTold r line o n).running = e.running ∧ (e.latchTold r line o n).cursor = e.cursor := by
    unfold Engine.latchTold Engine.readied
    repeat' split
    all_goals exact ⟨rfl, rfl⟩
  have first : setLatch line .a (s.toldOf line x a b) = s.toldOf line { x with latchA := true }
      (if x.latchA then a else a.latchTold (s.current .a) line (s.opened .a) s.line.count) b := by
    rw [setLatch_toldOf]
    by_cases set : x.latchA = true
    · obtain ⟨raw, filtered, timer, latchA, latchB⟩ := x
      obtain rfl : latchA = true := set
      rfl
    · rw [if_neg (show ¬x.latch .a = true from set), if_neg set, reportLatch_eq (by simp [State.toldOf, AuxIn.setLatch, AuxIn.latch]),
        State.current_toldOf _ _ _ placeA placeB]
      rfl
  rw [first, setLatch_toldOf]
  by_cases set : x.latchB = true
  · obtain ⟨raw, filtered, timer, latchA, latchB⟩ := x
    obtain rfl : latchB = true := set
    rfl
  · rw [if_neg set, if_neg (show ¬({ x with latchA := true } : AuxIn).latch .b = true from set),
      reportLatch_eq (by simp [State.toldOf, AuxIn.setLatch, AuxIn.latch]), State.current_toldOf _ _ _ ?_ placeB]
    · rfl
    · split
      · exact placeA
      · exact ⟨(place ..).1.trans placeA.1, (place ..).2.trans placeA.2⟩

theorem State.filteredTo_eq (s : State) (line : Fin 8) (level : Bool) :
    s.filteredTo line level =
      (let x := s.aux.inputs[line]
       let hit := (s.sc.auxIn[line].edge).hit level
       s.toldOf line
         { raw := some level, filtered := level, timer := .stopped, latchA := x.latchA || hit, latchB := x.latchB || hit }
         (s.engA.gateReported (s.current .a) line level (hit && !x.latch .a) (s.opened .a) s.line.count)
         (s.engB.gateReported (s.current .b) line level (hit && !x.latch .b) (s.opened .b) s.line.count)) := by
  unfold State.filteredTo
  cases s.sc.auxIn[line].edge <;> rfl

/-- A filtered change in the closed form, the raw level having been taken (R156 to R158). -/
theorem filteredChange_eq (level : Bool) :
    filteredChange line level (s.modInput line fun x => { x with raw := some level }) = s.filteredTo line level := by
  have input : (s.modInput line fun x => { x with raw := some level }).modInput line
      (fun x => { x with filtered := level, timer := .stopped }) =
        s.toldOf line { s.aux.inputs[line] with raw := some level, filtered := level, timer := .stopped } s.engA s.engB := by
    simp [State.modInput, State.toldOf]
  have heard (c : Chan) := Engine.gateReported_place (line := line) (s.eng c) (s.current c) level false (s.opened c) s.line.count
  have levels : reportLevel line level .b (reportLevel line level .a
      (s.toldOf line { s.aux.inputs[line] with raw := some level, filtered := level, timer := .stopped } s.engA s.engB)) =
        s.toldOf line { s.aux.inputs[line] with raw := some level, filtered := level, timer := .stopped }
          (s.engA.gateReported (s.current .a) line level false (s.opened .a) s.line.count)
          (s.engB.gateReported (s.current .b) line level false (s.opened .b) s.line.count) := by
    rw [reportLevel_eq (c := .a) level (by simp [State.toldOf]), State.current_toldOf _ _ _ ⟨rfl, rfl⟩ ⟨rfl, rfl⟩,
      reportLevel_eq (c := .b) level (by simp [State.toldOf])]
    have other : ((s.toldOf line { s.aux.inputs[line] with raw := some level, filtered := level, timer := .stopped } s.engA
        s.engB).setEng .a (s.engA.gateReported (s.current .a) line level false (s.opened .a) s.line.count)).current .b
          = s.current .b := State.current_toldOf (line := line) _ _ _ (heard .a) ⟨rfl, rfl⟩ .b
    erw [other]
    rfl
  rw [State.filteredTo_eq]
  unfold filteredChange
  dsimp only
  rw [input, levels]
  show (if (s.sc.auxIn[line].edge).hit level = true then _ else _) = _
  cases (s.sc.auxIn[line].edge).hit level with
  | false => simp [State.toldOf]
  | true =>
    rw [if_pos rfl]
    refine (latches_toldOf _ _ _ (heard .a) (heard .b)).trans ?_
    rw [Engine.gateReported_latched s.engA, Engine.gateReported_latched s.engB]
    rcases s.aux.inputs[line] with ⟨_, _, _, latchA, latchB⟩
    cases latchA <;> cases latchB <;> rfl

/-- Settles O30: a change away from the filtered level waits for the filter, and a filtered change is
`filteredChange_eq`. -/
theorem auxInputsConditioned : Obligations.AuxInputsConditioned := by
  intro line s
  dsimp only
  refine ⟨fun pin running used differs => ?_, fun pin idle => ?_, fun n level timer raw => ?_⟩
  · have change : exec (.auxRawChange line pin) s =
        (let level := pin != s.sc.auxIn[line].activeLow
         let s1 := s.modInput line fun x => { x with raw := some level }
         if level = s.aux.inputs[line].filtered then .next (s1.modInput line fun x => { x with timer := .stopped })
         else if s.sc.auxIn[line].filter = 0 then .next (filteredChange line level s1)
         else .next (s1.modInput line fun x =>
           { x with timer := .running (s.sc.auxIn[line].filter * Config.filterStep) })) := by
      show execAuxRawChange line pin s = _
      unfold execAuxRawChange
      exact if_pos ⟨running, used, differs⟩
    rw [change]
    dsimp only
    refine ⟨fun back => ?_, fun away filter => ?_, fun away filter => ?_⟩
    · rw [if_pos back]
      simp [State.modInput]
    · rw [if_neg away, if_neg filter]
      simp [State.modInput, Config.filterStep]
    · rw [if_neg away, if_pos filter, filteredChange_eq]
  · show execAuxRawChange line pin s = _
    unfold execAuxRawChange
    exact if_neg fun h => idle.elim (fun i => by simp [i] at h) fun i => Bool.eq_false_iff.1 i h.2.1
  · have same : (s.modInput line fun x => { x with raw := some level }) = s := by
      have input : { s.aux.inputs[line] with raw := some level } = s.aux.inputs[line] := by rw [← raw]
      exact (congrArg (fun x => ({ s with aux := { s.aux with inputs := s.aux.inputs.set line x } } : State)) input).trans
        (by rw [Fin.getElem_fin, Vector.set_getElem_self])
    show execAuxFilterExpiry line s = _
    unfold execAuxFilterExpiry
    rw [timer, raw]
    dsimp only
    rw [← filteredChange_eq, same]

end Sys2Proof.Machine
end

