-- ==== Sys2Proof/Proofs/FeederView.lean ====
section
/-!
The feeder view (05): what its rows count, which of its slots refuse a claim, and what a claim list and an expiry change.
-/

namespace Sys2Proof.Machine

variable {v : View} {n : Word16}

/-! ## Rows -/

/-- The rows of a view in address order. -/
theorem View.rows_toList (v : View) : v.rows.toList = (List.range 30).map fun i => v.row (i + 1) := by
  refine List.ext_getElem (by simp) fun i h1 h2 => ?_
  have small : i < 30 := by simpa using h1
  simp [View.row, small]

theorem View.row_map (f : AddrRow → AddrRow) (blank : f AddrRow.blank = AddrRow.blank) (v : View) (a : Nat) :
    View.row { v with rows := v.rows.map f } a = f (v.row a) := by
  unfold View.row
  split
  · exact blank.symm
  · by_cases small : a - 1 < 30
    · simp [small]
    · simp [small, blank]

/-! ## The committed load -/

theorem liveAt_eq_false_iff (n r : Word16) (h : Nat) :
    liveAt n r h = false ↔ h ≤ (n - r).toNat ∧ (n - r).toNat ≤ 32767 := by
  unfold liveAt roundAge Config.roundsAhead
  rw [Bool.or_eq_false_iff, decide_eq_false_iff_not, decide_eq_false_iff_not]
  omega

/-- Settles O31. -/
theorem committedLoadCounts : Obligations.CommittedLoadCounts := by
  refine ⟨fun n r h _ => liveAt_eq_false_iff n r h, fun v n => ?_⟩
  have counted (x : Slot) : x.counted n =
      match x with
      | .active l r h => if liveAt n r h then l else 0
      | .empty | .waiting _ _ => 0 := by cases x <;> rfl
  unfold View.committed
  rw [View.rows_toList, List.map_map]
  refine congrArg (fun l : List Nat => l.sum + (v.orphans.map Orphan.load).sum) (List.map_congr_left fun i _ => ?_)
  exact congrArg₂ (· + ·) (counted _) (counted _)

/-! ## The policies -/

theorem Slot.mem_claim_iff {x : Slot} {a : Nat} {c : Chan} {w : Claim} :
    w ∈ x.claim a c ↔ w.address = a ∧ w.channel = c ∧ ∃ l, x = .waiting l w.round := by
  obtain ⟨a', c', r'⟩ := w
  cases x with
  | waiting l r =>
    simp only [Slot.claim, List.mem_singleton, Claim.mk.injEq, Slot.waiting.injEq]
    constructor
    · rintro ⟨rfl, rfl, rfl⟩
      exact ⟨rfl, rfl, l, rfl, rfl⟩
    · rintro ⟨rfl, rfl, -, -, rfl⟩
      exact ⟨rfl, rfl, rfl⟩
  | empty | active l r h => simp [Slot.claim]

/-- The WAITING slots of a view are its claims. -/
theorem View.mem_claims_iff {w : Claim} :
    w ∈ v.claims ↔ 1 ≤ w.address ∧ w.address ≤ 30 ∧ ∃ l, (v.row w.address).slot w.channel = .waiting l w.round := by
  have rows : v.rows.toList.zipIdx = (List.range 30).map fun i => (v.row (i + 1), i) := by
    rw [View.rows_toList]
    exact List.ext_getElem (by simp) fun i h1 h2 => by simp
  unfold View.claims
  rw [rows, List.mem_flatMap]
  simp only [List.mem_map, List.mem_range, List.mem_append, Slot.mem_claim_iff]
  constructor
  · rintro ⟨_, ⟨i, hi, rfl⟩, ⟨address, channel, waits⟩ | ⟨address, channel, waits⟩⟩ <;>
      exact ⟨by omega, by omega, by rw [address, channel]; exact waits⟩
  · rintro ⟨h1, h30, waits⟩
    refine ⟨_, ⟨w.address - 1, by omega, rfl⟩, ?_⟩
    have address : w.address = w.address - 1 + 1 := by omega
    cases channel : w.channel with
    | a => exact .inl ⟨address, rfl, by rw [← address]; rwa [channel] at waits⟩
    | b => exact .inr ⟨address, rfl, by rw [← address]; rwa [channel] at waits⟩

/-- Settles O33: a refusal names a claim of the view, and the claims are the WAITING slots. -/
theorem policiesRefuse : Obligations.PoliciesRefuse := by
  intro k v n x
  have policy (r : Word16) : (match k.policy with
      | .strict => true
      | .fill => decide (k.fillGuard ≤ roundAge n r)) = true ↔ k.policy = .strict ∨ k.fillGuard ≤ (n - r).toNat := by
    cases k.policy with
    | strict => simp
    | fill => exact decide_eq_true_iff.trans (by simp [roundAge])
  unfold policyRefuses
  simp only [List.any_eq_true, Bool.and_eq_true, View.mem_claims_iff]
  constructor
  · rintro ⟨⟨a, c, r⟩, ⟨h1, h30, l, slot⟩, before, refuses⟩
    exact ⟨a, c, l, r, h1, h30, slot, before, (policy r).1 refuses⟩
  · rintro ⟨a, c, l, r, h1, h30, slot, before, refuses⟩
    exact ⟨⟨a, c, r⟩, ⟨h1, h30, l, slot⟩, before, (policy r).2 refuses⟩

/-! ## Claim lists -/

/-- A frame slot is malformed by its kind (R102). -/
theorem RawSlot.malformed_iff (ceiling : Nat) (x : RawSlot) :
    x.malformed ceiling = true ↔
      (x.kind = 0 ∧ ¬(x.hold = 0 ∧ x.load = 0 ∧ x.round = 0))
        ∨ (x.kind = 1 ∧ (x.load.toNat = 0 ∨ 250 < x.load.toNat))
        ∨ (x.kind = 2 ∧ (x.load.toNat = 0 ∨ 250 < x.load.toNat ∨ x.hold.toNat = 0 ∨ ceiling < x.hold.toNat))
        ∨ x.kind = 3 := by
  have load : x.load = 0 ↔ x.load.toNat = 0 := BitVec.toNat_eq.trans (by simp)
  have hold : x.hold = 0 ↔ x.hold.toNat = 0 := BitVec.toNat_eq.trans (by simp)
  unfold RawSlot.malformed
  have kinds : x.kind = 0 ∨ x.kind = 1 ∨ x.kind = 2 ∨ x.kind = 3 := by
    generalize x.kind = k
    revert k
    decide
  rcases kinds with kind | kind | kind | kind <;> simp [kind, load, hold, or_assoc]
  all_goals tauto

/-- What a frame slot makes of its own channel's slot and mark, and that it leaves the other channel's (R101, R102). -/
theorem AddrRow.applySlot_eq (count : Word16) (ceiling : Nat) (c : Chan) (x : RawSlot) (w : AddrRow) :
    (w.applySlot count ceiling c x).slot c = (if x.malformed ceiling then w.slot c else x.published count)
      ∧ (w.applySlot count ceiling c x).retained c = (if x.malformed ceiling then w.retained c else false)
      ∧ (w.applySlot count ceiling c x).digestMark = w.digestMark
      ∧ ∀ d, d ≠ c → (w.applySlot count ceiling c x).slot d = w.slot d ∧ (w.applySlot count ceiling c x).retained d = w.retained d := by
  unfold AddrRow.applySlot
  split
  · exact ⟨rfl, rfl, rfl, fun d _ => ⟨rfl, rfl⟩⟩
  · refine ⟨by simp, by simp, by simp, fun d other => ?_⟩
    cases c <;> cases d
    · exact absurd rfl other
    · exact ⟨rfl, rfl⟩
    · exact ⟨rfl, rfl⟩
    · exact absurd rfl other

/-- The row of a sender after its claim list. -/
def AddrRow.claimed (count : Word16) (ceiling : Nat) (a b : RawSlot) (w : AddrRow) : AddrRow :=
  (w.applySlot count ceiling .a a).applySlot count ceiling .b b

theorem AddrRow.claimed_eq (count : Word16) (ceiling : Nat) (a b : RawSlot) (w : AddrRow) (c : Chan) :
    let x := match c with
      | .a => a
      | .b => b
    (w.claimed count ceiling a b).slot c = (if x.malformed ceiling then w.slot c else x.published count)
      ∧ (w.claimed count ceiling a b).retained c = (if x.malformed ceiling then w.retained c else false)
      ∧ (w.claimed count ceiling a b).digestMark = w.digestMark := by
  obtain ⟨slotA, retainedA, markA, otherA⟩ := AddrRow.applySlot_eq count ceiling .a a w
  obtain ⟨slotB, retainedB, markB, otherB⟩ := AddrRow.applySlot_eq count ceiling .b b (w.applySlot count ceiling .a a)
  unfold AddrRow.claimed
  cases c with
  | a => exact ⟨(otherB .a (by decide)).1.trans slotA, (otherB .a (by decide)).2.trans retainedA, markB.trans markA⟩
  | b =>
    obtain ⟨slot, retained⟩ := otherA .b (by decide)
    rw [slot] at slotB
    rw [retained] at retainedB
    exact ⟨slotB, retainedB, markB.trans markA⟩

/-- The published slot of a well-formed frame slot, by its kind (R101). -/
theorem RawSlot.published_eq (count : Word16) (x : RawSlot) :
    (x.kind = 0 → x.published count = .empty) ∧ (x.kind = 1 → x.published count = .waiting x.load.toNat x.round)
      ∧ (x.kind = 2 → x.published count =
          if liveAt count x.round x.hold.toNat then .active x.load.toNat x.round x.hold.toNat else .empty) := by
  unfold RawSlot.published
  refine ⟨fun kind => ?_, fun kind => ?_, fun kind => ?_⟩ <;> simp [kind]

/-- A slot is a new admission when it is ACTIVE since a round that the slot before did not show (R103). -/
theorem newlyActive_iff (old new : AddrRow) (c : Chan) :
    newlyActive old new c = true ↔ ∃ l r h, new.slot c = .active l r h ∧ ∀ l' h', old.slot c ≠ .active l' r h' := by
  unfold newlyActive
  cases new.slot c with
  | active l r h =>
    constructor
    · refine fun fresh => ⟨l, r, h, rfl, fun l' h' same => ?_⟩
      simp [same, Slot.activeSince] at fresh
    · rintro ⟨l', r', h', slot, fresh⟩
      obtain ⟨rfl, rfl, rfl⟩ := Slot.active.inj slot
      cases before : old.slot c with
      | active l' r' h' =>
        have other : r' ≠ r := fun same => fresh l' h' (same ▸ before)
        simp [Slot.activeSince, other]
      | _ => rfl
  | _ => simp

theorem View.setRow_eq (v : View) (a : Nat) (w : AddrRow) : v.setRow a w = { v with rows := (v.setRow a w).rows } := by
  unfold View.setRow
  split <;> rfl

theorem View.row_of_rows {v w : View} (h : w.rows = v.rows) (a : Nat) : w.row a = v.row a := by
  unfold View.row
  rw [h]

/-- The view after a claim list: the sender's row, the miss cause, and the pointer of a new admission. -/
theorem View.applyClaims_eq (count : Word16) (ceiling u : Nat) (a b : RawSlot) (v : View) :
    v.applyClaims count ceiling u a b =
      (let new := (v.row u).claimed count ceiling a b
       let bad := a.malformed ceiling || b.malformed ceiling
       let admits := newlyActive (v.row u) new .a || newlyActive (v.row u) new .b
       { v.setRow u new with
         miss := v.miss || bad, missThisRound := v.missThisRound || bad, pointer := if admits then u else v.pointer }) := by
  unfold View.applyClaims AddrRow.claimed
  dsimp only
  rw [View.setRow_eq]
  split <;> split <;> rename_i bad admits <;> simp [bad, admits, View.setMiss]

/-- Settles O34. -/
theorem claimListApplied : Obligations.ClaimListApplied := by
  intro n ceiling u a b v h1 h30
  have claimed := AddrRow.claimed_eq n ceiling a b (v.row u)
  have closed := View.applyClaims_eq n ceiling u a b v
  dsimp only at closed ⊢
  simp only [← RawSlot.malformed_iff]
  have row : (v.applyClaims n ceiling u a b).row u = (v.row u).claimed n ceiling a b := by
    rw [closed]
    exact (View.row_of_rows rfl u).trans (View.row_setRow _ _ _ h1 h30)
  have admits (c : Chan) : (∃ l r h, ((v.applyClaims n ceiling u a b).row u).slot c = .active l r h
      ∧ ∀ l' h', (v.row u).slot c ≠ .active l' r h') ↔
        newlyActive (v.row u) ((v.row u).claimed n ceiling a b) c = true := by rw [row, newlyActive_iff]
  rw [admits, admits, row]
  refine ⟨fun c => ?_, (claimed .a).2.2, fun x other => ?_, fun bad => ?_, fun sound => ?_, fun new => ?_, fun old => ?_, ?_⟩
  · obtain ⟨slot, retained, -⟩ := claimed c
    refine ⟨fun bad => ?_, fun sound => ?_⟩
    · rw [slot, retained]
      exact ⟨if_pos bad, if_pos bad⟩
    · obtain ⟨empty, waiting, active⟩ := RawSlot.published_eq n (match (generalizing := false) c with | .a => a | .b => b)
      rw [slot, retained]
      exact ⟨if_neg sound, fun kind => (if_neg sound).trans (empty kind), fun kind => (if_neg sound).trans (waiting kind),
        fun kind => (if_neg sound).trans (active kind)⟩
  · rw [closed]
    exact (View.row_of_rows rfl x).trans (View.row_setRow_other _ _ _ _ other)
  · rw [closed]
    rcases bad with bad | bad <;> simp [bad]
  · rw [closed]
    simp [not_or.1 sound]
  · rw [closed]
    rcases new with new | new <;> simp [new]
  · rw [closed]
    simp [not_or.1 old]
  · rw [closed, View.setRow_eq]

/-! ## Expiry -/

theorem Orphan.reached_iff (m : Word16) (o : Orphan) : o.reached m = true ↔ (m - o.expire).toNat < 32768 :=
  decide_eq_true_iff

/-- Settles O35. -/
theorem claimExpiryExpires : Obligations.ClaimExpiryExpires := by
  refine ⟨fun s m pointed running count => ?_, fun s m => ?_⟩
  · show execClaimExpiry s = _
    unfold execClaimExpiry
    rw [if_pos running, expireClaims_eq s m pointed count]
  · have row (a : Nat) : (s.expiredAt m).view.row a = (s.view.row a).expire m :=
      (View.row_of_rows (v := { s.view with rows := s.view.rows.map (AddrRow.expire m) }) rfl a).trans
        (View.row_map _ rfl _ _)
    have expired (w : AddrRow) (c : Chan) : (w.expire m).slot c = (if (w.slot c).expired m then .empty else w.slot c)
        ∧ (w.expire m).retained c = (w.retained c && !(w.slot c).expired m) := by cases c <;> exact ⟨rfl, rfl⟩
    dsimp only
    refine ⟨fun a c _ _ => ?_, ?_⟩
    · rw [row, (expired _ c).1, (expired _ c).2]
      refine ⟨fun l r h slot dead => ?_, fun kept => ?_⟩
      · simp [slot, Slot.expired, dead]
      · have alive : ((s.view.row a).slot c).expired m = false := by
          cases slot : (s.view.row a).slot c with
          | active l r h =>
            by_contra dead
            exact kept ⟨l, r, h, slot, by simpa [Slot.expired] using dead⟩
          | _ => rfl
        simp [alive]
    · show s.view.orphans.filter _ = _
      refine List.filter_congr fun o _ => ?_
      rw [Bool.eq_iff_iff, Bool.not_eq_true', ← Bool.not_eq_true, Orphan.reached_iff, decide_eq_true_iff]
      omega

end Sys2Proof.Machine
end

