-- ==== Sys2Proof/Proofs/FramesHeard.lean ====
section
/-!
SUPPORT. What a frame does to the part, in the closed forms: its header, its items, and both frames' application.
-/

namespace Sys2Proof.Machine

variable {s t : State} {c : Chan}

/-! ## Engines at a point of their program -/

theorem State.Pointed.of_eng (h : s.Pointed) (same : ∀ c, t.eng c = s.eng c) : t.Pointed := fun c point => by
  rw [same] at point ⊢
  exact h c point

theorem State.expiredAt_eng (s : State) (m : Word16) (c : Chan) :
    (s.expiredAt m).eng c = (s.overrunAt m .b (s.overrunAt m .a s)).eng c := by cases c <;> rfl

theorem State.expiredAt_pointed (m : Word16) (h : s.Pointed) : (s.expiredAt m).Pointed :=
  State.Pointed.of_eng (State.overrunAt_pointed s m .b _ (State.overrunAt_pointed s m .a s h)) (State.expiredAt_eng s m)

theorem State.roundClosed_pointed (n : Word16) (h : s.Pointed) : (s.roundClosed n).Pointed :=
  State.Pointed.of_eng (State.expiredAt_pointed (n + 1) h) fun c => by cases c <;> rfl

theorem State.movedOn_pointed (a : Nat) (ref : RefPoint) (h : s.Pointed) : (s.movedOn a ref).Pointed := by
  unfold State.movedOn
  split
  · cases s.line.count with
    | none => exact State.Pointed.of_eng h fun c => by cases c <;> rfl
    | some n => exact State.Pointed.of_eng (State.roundClosed_pointed n h) fun c => by cases c <;> rfl
  · exact State.Pointed.of_eng h fun c => by cases c <;> rfl

theorem State.rounded_pointed (u : Nat) (m : Word16) (h : s.Pointed) : (s.rounded u m).Pointed := by
  unfold State.rounded
  cases s.line.count with
  | none =>
    intro c point
    cases c
    · exact State.expiredAt_pointed m h .a point
    · exact State.expiredAt_pointed m h .b point
  | some n =>
    dsimp only
    split
    · exact h
    · split
      · have missed : s.setMiss.Pointed := State.Pointed.of_eng h fun c => by cases c <;> rfl
        exact State.Pointed.of_eng (State.expiredAt_pointed m missed) fun c => by cases c <;> rfl
      · exact State.Pointed.of_eng h fun c => by cases c <;> rfl

theorem State.headed_pointed (f : Frame) (d : Bool) (h : s.Pointed) : (s.headed f d).Pointed :=
  State.Pointed.of_eng h fun c => by cases c <;> rfl

theorem State.itemsTaken_pointed (f : Frame) (h : s.Pointed) : (s.itemsTaken f).Pointed :=
  State.Pointed.of_eng h fun c => by cases c <;> rfl

theorem State.heard_pointed (f : Frame) (h : s.Pointed) : (s.heard f).Pointed := by
  have headed := State.headed_pointed f (s.line.count.any fun n => n != f.round)
    (State.rounded_pointed f.sender.toNat f.round h)
  exact State.itemsTaken_pointed f (State.Pointed.of_eng headed fun c => by cases c <;> rfl)

theorem State.realigned_pointed (p u : Nat) (n : Word16) (h : s.Pointed) : (s.realigned p u n).Pointed := by
  unfold State.realigned
  dsimp only
  split
  · exact State.Pointed.of_eng (State.roundClosed_pointed n
      (s := { s with line := { s.line with record := { s.line.record with clean := false } } })
      (State.Pointed.of_eng h fun c => by cases c <;> rfl)) fun c => by cases c <;> rfl
  · exact State.Pointed.of_eng h fun c => by cases c <;> rfl

/-! ## Items -/

/-- An item changes the tracker and the sticky bits alone (R39). -/
theorem applyItem_frame (sender : Nat) (exitFlag : Bool) (s : State) (i : Item) :
    applyItem sender exitFlag s i =
      { s with tracker := (applyItem sender exitFlag s i).tracker, sticky := (applyItem sender exitFlag s i).sticky } := by
  cases i with
  | announce n y o =>
    unfold applyItem applyAnnounce evictIfFull
    dsimp only
    repeat' split
    all_goals rfl
  | dispute n y o =>
    unfold applyItem applyDispute
    dsimp only
    split <;> rfl
  | resync n =>
    unfold applyItem applyResync
    dsimp only
    split <;> rfl
  | depart n =>
    unfold applyItem applyDepart
    dsimp only
    repeat' split
    all_goals rfl
  | result r => rfl

/-- An item reads of the state the tracker, the sticky bits and the own address. -/
theorem applyItem_congr (sender : Nat) (exitFlag : Bool) (i : Item) (tracker : t.tracker = s.tracker)
    (sticky : t.sticky = s.sticky) (own : t.own = s.own) :
    (applyItem sender exitFlag t i).tracker = (applyItem sender exitFlag s i).tracker
      ∧ (applyItem sender exitFlag t i).sticky = (applyItem sender exitFlag s i).sticky := by
  cases i with
  | announce n y o =>
    unfold applyItem applyAnnounce evictIfFull
    dsimp only
    rw [tracker, own]
    repeat' split
    all_goals simp only [tracker, sticky, and_self]
  | dispute n y o =>
    unfold applyItem applyDispute
    dsimp only
    split <;> simp only [tracker, sticky, and_self]
  | resync n =>
    unfold applyItem applyResync
    dsimp only
    split <;> simp only [tracker, sticky, and_self]
  | depart n =>
    unfold applyItem applyDepart
    dsimp only
    repeat' split
    all_goals simp only [tracker, sticky, and_self]
  | result r => exact ⟨tracker, sticky⟩

theorem applyItem_own (sender : Nat) (exitFlag : Bool) (s : State) (i : Item) :
    (applyItem sender exitFlag s i).own = s.own := by
  rw [applyItem_frame]
  rfl

theorem applyItems_cons (sender : Nat) (exitFlag : Bool) (i : Item) (items : List Item) (s : State) :
    applyItems sender exitFlag (i :: items) s = applyItems sender exitFlag items (applyItem sender exitFlag s i) := rfl

theorem applyItems_frame (sender : Nat) (exitFlag : Bool) (items : List Item) :
    ∀ s : State, applyItems sender exitFlag items s =
      { s with
        tracker := (applyItems sender exitFlag items s).tracker, sticky := (applyItems sender exitFlag items s).sticky } := by
  induction items with
  | nil => exact fun _ => rfl
  | cons i items ih =>
    intro s
    rw [applyItems_cons, ih, applyItem_frame]

theorem applyItems_congr (sender : Nat) (exitFlag : Bool) (items : List Item) :
    ∀ {s t : State}, t.tracker = s.tracker → t.sticky = s.sticky → t.own = s.own →
      (applyItems sender exitFlag items t).tracker = (applyItems sender exitFlag items s).tracker
        ∧ (applyItems sender exitFlag items t).sticky = (applyItems sender exitFlag items s).sticky := by
  induction items with
  | nil => exact fun tracker sticky _ => ⟨tracker, sticky⟩
  | cons i items ih =>
    intro s t tracker sticky own
    obtain ⟨tracker', sticky'⟩ := applyItem_congr sender exitFlag i tracker sticky own
    exact ih tracker' sticky' (by rw [applyItem_own, applyItem_own, own])

theorem applyItems_eq (f : Frame) (s : State) : applyItems f.sender.toNat f.exit f.items s = s.itemsTaken f :=
  applyItems_frame _ _ _ _

/-- The items of a frame beside another line controller with the same straps. -/
theorem State.itemsTaken_line (f : Frame) (s : State) (l : LineCtl) (straps : l.straps = s.line.straps) :
    ({ s with line := l } : State).itemsTaken f = { s.itemsTaken f with line := l } := by
  obtain ⟨tracker, sticky⟩ := applyItems_congr f.sender.toNat f.exit f.items (s := s) (t := { s with line := l }) rfl rfl
    (by rw [State.own, State.own, straps])
  unfold State.itemsTaken
  dsimp only
  rw [tracker, sticky]

/-! ## The header -/

/-- The part with other miss flags and another line controller. -/
def State.besides (s : State) (p q : Bool) (l : LineCtl) : State :=
  { s with view := { s.view with miss := p, missThisRound := q }, line := l }

theorem State.overrunAt_besides (s u : State) (p q : Bool) (l : LineCtl) (m : Word16) (c : Chan)
    (straps : l.straps = s.line.straps) :
    (s.besides p q l).overrunAt m c (u.besides p q l) = (s.overrunAt m c u).besides p q l := by
  have own : (s.besides p q l).own = s.own := by
    unfold State.own
    exact congrArg BitVec.toNat straps
  have slot : ((s.besides p q l).view.row (s.besides p q l).own).slot c = (s.view.row s.own).slot c := by rw [own]; rfl
  have eng : (s.besides p q l).eng c = s.eng c := by cases c <;> rfl
  unfold State.overrunAt
  rw [slot, eng]
  split
  · cases c <;> rfl
  · rfl

theorem State.expiredAt_besides (s : State) (p q : Bool) (l : LineCtl) (m : Word16) (straps : l.straps = s.line.straps) :
    (s.besides p q l).expiredAt m = (s.expiredAt m).besides p q l := by
  unfold State.expiredAt
  rw [State.overrunAt_besides _ _ _ _ _ _ _ straps, State.overrunAt_besides _ _ _ _ _ _ _ straps]
  rfl

theorem LineCtl.setRoster_counted (l : LineCtl) (a : Nat) (x : Option (Fin 3)) (n : Option Word16) :
    ({ l.setRoster a x with count := n } : LineCtl) = ({ l with count := n } : LineCtl).setRoster a x := by
  unfold LineCtl.setRoster
  split <;> rfl

/-- The round of a header is compared beside the roster and the miss flags. -/
theorem State.rounded_besides (s : State) (u : Nat) (m : Word16) (a : Nat) (x : Option (Fin 3)) (b : Bool) :
    (s.besides (s.view.miss || b) (s.view.missThisRound || b) (s.line.setRoster a x)).rounded u m =
      (s.rounded u m).besides ((s.rounded u m).view.miss || b) ((s.rounded u m).view.missThisRound || b)
        ((s.rounded u m).line.setRoster a x) := by
  have expired (p q : Bool) : (s.besides p q (s.line.setRoster a x)).expiredAt m =
      (s.expiredAt m).besides p q (s.line.setRoster a x) :=
    State.expiredAt_besides _ _ _ _ _ (LineCtl.setRoster_straps ..)
  have count : (s.besides (s.view.miss || b) (s.view.missThisRound || b) (s.line.setRoster a x)).line.count = s.line.count :=
    LineCtl.setRoster_count ..
  have last : (s.besides (s.view.miss || b) (s.view.missThisRound || b) (s.line.setRoster a x)).line.lastValid =
      s.line.lastValid := LineCtl.setRoster_lastValid ..
  unfold State.rounded
  rw [count, last]
  cases s.line.count with
  | none =>
    dsimp only
    rw [expired]
    unfold State.besides LineCtl.setRoster
    split <;> rfl
  | some n =>
    dsimp only
    split
    · rfl
    · split
      · have missed := State.expiredAt_besides s true true s.line m rfl
        refine Eq.trans ?_ (b := ((s.expiredAt m).besides true true { s.line.setRoster a x with count := some m })) ?_
        · exact congrArg (fun y : State => ({ y with line := { s.line.setRoster a x with count := some m } } : State))
            (expired true true)
        · rw [LineCtl.setRoster_counted]
          refine Eq.symm ?_
          unfold State.besides at missed ⊢
          rw [missed]
          rfl
      · rfl

/-- The header of a frame in the closed form (R153, part 1). -/
theorem applyHeader_eq (f : Frame) (s : State) (h : s.Pointed) :
    applyHeader f s =
      (s.rounded f.sender.toNat f.round).headed f (s.line.count.any fun n => n != f.round) := by
  have known : (let s1 := if s.line.onRoster f.sender.toNat then s else s.setMiss
      ({ s1 with line := s1.line.setRoster f.sender.toNat (some 0) } : State)) =
        s.besides (s.view.miss || !s.line.onRoster f.sender.toNat) (s.view.missThisRound || !s.line.onRoster f.sender.toNat)
          (s.line.setRoster f.sender.toNat (some 0)) := by
    cases s.line.onRoster f.sender.toNat <;> simp [State.besides, State.setMiss, View.setMiss]
  obtain ⟨roster, straps, store, -, -⟩ := State.rounded_frame s f.sender.toNat f.round
  have onRoster : (s.rounded f.sender.toNat f.round).line.onRoster f.sender.toNat = s.line.onRoster f.sender.toNat := by
    unfold LineCtl.onRoster LineCtl.lapses
    rw [roster]
  have own : (s.rounded f.sender.toNat f.round).own = s.own := by rw [State.own, State.own, straps]
  have lc : (s.rounded f.sender.toNat f.round).lc = s.lc := by rw [State.lc, State.lc, store]
  have headed := takeRound_eq f.sender.toNat f.round _ (State.Pointed.of_eng (t := s.besides
    (s.view.miss || !s.line.onRoster f.sender.toNat) (s.view.missThisRound || !s.line.onRoster f.sender.toNat)
    (s.line.setRoster f.sender.toNat (some 0))) h fun c => by cases c <;> rfl)
  rw [State.rounded_besides] at headed
  unfold applyHeader State.headed
  dsimp only at known ⊢
  rw [known, headed, onRoster, own, lc]
  generalize s.rounded f.sender.toNat f.round = r
  generalize (!s.line.onRoster f.sender.toNat) = unknown
  have adoption : r.view.adoptPending = true ∧ f.sender.toNat ≠ s.own ↔
      (r.view.adoptPending && f.sender.toNat != s.own) = true := by simp
  have row (p q : Bool) (l : LineCtl) :
      (r.besides p q l).view.row f.sender.toNat = r.view.row f.sender.toNat := rfl
  rw [row]
  unfold State.besides View.setRow
  cases s.line.count <;> split <;> simp only [adoption] <;>
    cases (r.view.adoptPending && f.sender.toNat != s.own) <;> simp

theorem State.rounded_count (s : State) (u : Nat) (m : Word16) : (s.rounded u m).line.count ≠ none := by
  unfold State.rounded
  cases count : s.line.count with
  | none => simp
  | some n =>
    dsimp only
    split
    · simp [count]
    · split
      · simp
      · simp [count]

theorem State.headed_count (s : State) (f : Frame) (d : Bool) : (s.headed f d).line.count = s.line.count :=
  LineCtl.setRoster_count ..

/-- A frame of another station in the closed form (R153). -/
theorem applyFrame_eq (f : Frame) (s : State) (h : s.Pointed) : applyFrame f s = s.heard f := by
  have store : ((s.rounded f.sender.toNat f.round).headed f (s.line.count.any fun n => n != f.round)).lc = s.lc := by
    rw [State.lc, State.lc]
    exact congrArg (fun st : Store => st.line.getD LineConsts.unloaded) (State.rounded_frame s f.sender.toNat f.round).2.2.1
  unfold applyFrame State.heard
  rw [applyItems_eq, applyHeader_eq f s h]
  dsimp only
  congr 1
  unfold applyClaimList
  rw [State.headed_count, store]
  cases count : (s.rounded f.sender.toNat f.round).line.count with
  | none => exact absurd count (State.rounded_count s _ _)
  | some n => rfl

/-! ## The own frame -/

/-- An admission reported to an engine (R79, R80). -/
theorem reportAdmission_eq (c : Chan) (o : Offer) (s : State) :
    reportAdmission c o.number s = s.setEng c ((s.eng c).admittedTo (some o) (s.current c).schedule) := by
  unfold reportAdmission Engine.admittedTo
  rw [Option.map_some]
  by_cases stands : (s.eng c).state = .requesting ∧ (s.eng c).request.map Request.number = some o.number
  · rw [if_pos stands, if_pos stands]
    rfl
  · rw [if_neg stands, if_neg stands]
    cases c <;> rfl

/-- The feeder table at a good echo (R123). -/
theorem feederGoodEcho_eq (s : State) :
    feederGoodEcho s =
      { s with
        engA := if s.view.offerA.isSome then s.engA.admittedTo s.view.offerA (s.current .a).schedule else s.engA
        engB := if s.view.offerB.isSome then s.engB.admittedTo s.view.offerB (s.current .b).schedule else s.engB
        view :=
          { s.view with
            pointer := if s.view.offerA.isSome || s.view.offerB.isSome then s.own else s.view.pointer
            offerA := none
            offerB := none } } := by
  unfold feederGoodEcho
  cases offerA : s.view.offerA with
  | none =>
    cases offerB : s.view.offerB with
    | none => simp
    | some b =>
      simp only [reportAdmission_eq]
      rfl
  | some a =>
    cases offerB : s.view.offerB with
    | none =>
      simp only [reportAdmission_eq]
      rfl
    | some b =>
      simp only [reportAdmission_eq]
      rfl

theorem enterOnLine_eq (s : State) :
    enterOnLine s =
      { s with
        line := if s.line.state = .joining then { s.line.setRoster s.own (some 0) with state := .onLine } else s.line } := by
  unfold enterOnLine
  split <;> rfl

/-- The part after the end of a good echo, before the own frame is applied: ON LINE when it was JOINING (R141, R150). -/
def State.afterEcho (s : State) : State :=
  { s with
    line :=
      { (if s.line.state = .joining then { s.line.setRoster s.own (some 0) with state := .onLine } else s.line) with
        jabber := 0, inFlight := none } }

/-- The part after the header of the own frame and the feeder table's own turn end (R123, R153). -/
def State.echoedBy (s : State) (f : Frame) : State :=
  { s.afterEcho.headed f false with
    engA := if s.view.offerA.isSome then s.engA.admittedTo s.view.offerA (s.current .a).schedule else s.engA
    engB := if s.view.offerB.isSome then s.engB.admittedTo s.view.offerB (s.current .b).schedule else s.engB
    view :=
      { (s.afterEcho.headed f false).view with
        pointer := if s.view.offerA.isSome || s.view.offerB.isSome then s.own else (s.afterEcho.headed f false).view.pointer
        offerA := none
        offerB := none } }

theorem Engine.admittedTo_place (e : Engine) (o : Option Offer) (code : Nat) :
    (e.admittedTo o code).at = e.at ∧ (e.admittedTo o code).points = e.points
      ∧ ((e.admittedTo o code).state.hasPoint = true → e.state.hasPoint = true) := by
  unfold Engine.admittedTo
  split
  · rename_i admitted
    exact ⟨rfl, rfl, fun _ => by rw [admitted.1]; rfl⟩
  · exact ⟨rfl, rfl, id⟩

theorem State.echoGood_pointed (f : Frame) (k : Nat) (h : s.Pointed) : (s.echoGood f k).Pointed := by
  have told (c : Chan) (o : Option Offer) (code : Nat) :
      let e := if o.isSome then (s.eng c).admittedTo o code else s.eng c
      e.state.hasPoint = true → 1 ≤ e.at ∧ e.at ≤ e.points := by
    dsimp only
    split
    · obtain ⟨place, points, had⟩ := Engine.admittedTo_place (s.eng c) o code
      rw [place, points]
      exact fun point => h c (had point)
    · exact h c
  refine State.itemsTaken_pointed f fun c => ?_
  cases c
  · exact told .a s.view.offerA (s.current .a).schedule
  · exact told .b s.view.offerB (s.current .b).schedule

theorem State.afterEcho_kept :
    s.afterEcho.line.count = s.line.count ∧ s.afterEcho.line.straps = s.line.straps
      ∧ s.afterEcho.line.outbox = s.line.outbox ∧ s.afterEcho.line.record = s.line.record := by
  unfold State.afterEcho
  split <;> simp

theorem enterOnLine_ended (s : State) : enterOnLine { s with line := { s.line with jabber := 0, inFlight := none } } = s.afterEcho := by
  rw [enterOnLine_eq]
  unfold State.afterEcho LineCtl.setRoster State.own
  dsimp only
  split
  · split <;> rfl
  · rfl

/-- Own turn end with a good echo in the closed form (R123, R141, R150). -/
theorem ownTurnGood_eq (f : Frame) (k : Nat) (s : State) (h : s.Pointed) (round : s.line.count = some f.round) :
    ownTurnGood f k s = (s.echoGood f k).movedOn s.own .frameEnd := by
  have rounded : s.afterEcho.rounded f.sender.toNat f.round = s.afterEcho := by
    unfold State.rounded
    rw [State.afterEcho_kept.1, round]
    exact if_pos rfl
  have header : applyHeader f s.afterEcho = s.afterEcho.headed f false := by
    rw [applyHeader_eq f _ (State.Pointed.of_eng h fun c => by cases c <;> rfl), rounded, State.afterEcho_kept.1, round]
    simp
  have offers : (s.afterEcho.headed f false).view.offerA = s.view.offerA
      ∧ (s.afterEcho.headed f false).view.offerB = s.view.offerB := ⟨View.setRow_offerA .., View.setRow_offerB ..⟩
  have own : (s.afterEcho.headed f false).own = s.own := by
    unfold State.own
    exact congrArg BitVec.toNat ((LineCtl.setRoster_straps ..).trans State.afterEcho_kept.2.1)
  have outbox : (s.afterEcho.headed f false).line.outbox = s.line.outbox :=
    (LineCtl.setRoster_outbox ..).trans State.afterEcho_kept.2.2.1
  have record : (s.afterEcho.headed f false).line.record = s.line.record :=
    (LineCtl.setRoster_record ..).trans State.afterEcho_kept.2.2.2
  have good : s.echoGood f k = { (s.echoedBy f).itemsTaken f with
      line := { (s.echoedBy f).line with
        outbox := s.line.outbox.drop k, record := { s.line.record with goodEcho := true } } } :=
    State.itemsTaken_line f (s.echoedBy f) { (s.echoedBy f).line with
      outbox := s.line.outbox.drop k, record := { s.line.record with goodEcho := true } } rfl
  have turned : ownTurnGood f k s = moveOn (s.echoGood f k).own .frameEnd (s.echoGood f k) := by
    rw [good, ← outbox, ← record]
    unfold ownTurnGood applyOwnFrame
    dsimp only
    rw [enterOnLine_ended, header, feederGoodEcho_eq, applyItems_eq, offers.1, offers.2, own]
    rfl
  rw [turned, show (s.echoGood f k).own = s.own from own]
  exact moveOn_eq _ _ _ (State.echoGood_pointed f k h)

end Sys2Proof.Machine
end

