-- ==== Sys2Proof/Proofs/StationLine.lean ====
section
/-!
The events of the station line (06) in the closed forms: carriers and what they end, the own turn, positions without a
carrier, and the way OFF LINE.
-/

namespace Sys2Proof.Machine

variable {s t : State} {c : Chan}

/-! ## Carriers and the transmitter -/

/-- Settles O36. -/
theorem joinHoldEnds : Obligations.JoinHoldEnds := by
  intro s n count
  have enters : exec .joinHoldEnd s = .next (joinHoldEnd s) := rfl
  refine ⟨fun listening full => ?_, fun short => ?_⟩
  · rw [enters, joinHoldEnd, if_pos ⟨listening, by rw [count]; rfl, full⟩]
  · rw [enters, joinHoldEnd, if_neg fun h => short.elim (· h.1) fun below => by
      have := h.2.2
      simp only [Config.joinMargin] at this
      omega]

/-- With no carrier being taken, CARRIER_END ends one that was not taken. -/
theorem execCarrierEnd_of_none (bytes : List Byte) (e : Bool) (none : s.line.carrier = none) :
    exec (.carrierEnd bytes e) s = .next (endUntaken s) := by
  show execCarrierEnd bytes e s = _
  unfold execCarrierEnd
  rw [none]

/-- Settles O37. -/
theorem carrierAndTransmitter : Obligations.CarrierAndTransmitter := by
  refine fun s => ⟨fun running none absent => ?_, fun busy => ?_, fun bytes e none => ?_, rfl⟩
  · exact if_pos ⟨running, (LineCtl.rxIdle_iff _).2 ⟨none, absent⟩⟩
  · refine if_neg fun h => ?_
    obtain ⟨none, absent⟩ := (LineCtl.rxIdle_iff _).1 h.2
    rcases busy with idle | carrier | untaken
    · simp [idle] at h
    · exact carrier none
    · exact untaken absent
  · rw [execCarrierEnd_of_none bytes e none]
    obtain ⟨absent, present, -⟩ := endUntaken_eq s
    exact ⟨fun h => by rw [absent h], fun h => by rw [present h]⟩

/-! ## Frames of other stations -/

/-- The part with the carrier being taken gone. -/
def State.carrierGone (s : State) : State := { s with line := { s.line with carrier := none } }

theorem State.carrierGone_pointed (h : s.Pointed) : s.carrierGone.Pointed := State.Pointed.of_eng h fun c => by cases c <;> rfl

/-- A carrier that is no echo is classified by what was received (R135). -/
theorem execCarrierEnd_of_heard (bytes : List Byte) (e : Bool) {k : Carrier} (carrier : s.line.carrier = some k)
    (quiet : s.line.inFlight = none) :
    exec (.carrierEnd bytes e) s = .next (endHeard (if e then none else Frame.parse bytes) k s.carrierGone) := by
  show execCarrierEnd bytes e s = _
  unfold execCarrierEnd
  rw [carrier, quiet]
  rfl

/-- A valid frame of another station is heard (R135). -/
theorem execCarrierEnd_of_frame {bytes : List Byte} {f : Frame} {k : Carrier} (valid : Frame.parse bytes = some f)
    (other : f.sender.toNat ≠ s.own) (carrier : s.line.carrier = some k) (quiet : s.line.inFlight = none) :
    exec (.carrierEnd bytes false) s = .next (hearFrame f k.began s.carrierGone) := by
  rw [execCarrierEnd_of_heard bytes false carrier quiet, if_neg (by simp), valid]
  exact congrArg _ (if_neg other)

/-- A frame heard in its sender's position, or with no position held (R135, R153). -/
theorem hearFrame_in_turn (f : Frame) {began : Option Position} (h : s.Pointed)
    (turn : ∀ q, began = some q → q.address = f.sender.toNat) :
    hearFrame f began s = (s.heard f).movedOn f.sender.toNat .frameEnd := by
  unfold hearFrame
  dsimp only
  rw [← moveOn_eq _ _ _ (State.heard_pointed f h), applyFrame_eq f s h]
  split
  · rfl
  · rename_i p
    rw [if_pos (turn p rfl).symm]

/-- A frame heard out of turn realigns the rotation first (R136). -/
theorem hearFrame_out_of_turn (f : Frame) {q p : Position} {n : Word16} (h : s.Pointed) (other : q.address ≠ f.sender.toNat)
    (position : s.line.position = some p) (count : s.line.count = some n) :
    hearFrame f (some q) s =
      ((s.realigned p.address f.sender.toNat n).heard f).movedOn f.sender.toNat .frameEnd := by
  have realigned := State.realigned_pointed p.address f.sender.toNat n h
  unfold hearFrame
  dsimp only
  rw [if_neg other.symm, realign_eq s p _ n h position count, applyFrame_eq f _ realigned,
    moveOn_eq _ _ _ (State.heard_pointed f realigned)]

/-- Settles O38. -/
theorem heardFramesAreApplied : Obligations.HeardFramesAreApplied := by
  intro bytes f k s pointed valid other carrier quiet
  have heard := execCarrierEnd_of_frame valid other carrier quiet
  have gone := State.carrierGone_pointed pointed
  refine ⟨fun turn => ?_, fun q p n began out position count => ?_⟩
  · rw [heard, hearFrame_in_turn f gone turn]
    rfl
  · rw [heard, began, hearFrame_out_of_turn f gone out position count]
    rfl

/-- Below address 30 the rotation moves on without a boundary (R132). -/
theorem State.movedOn_below (s : State) {a : Nat} (ref : RefPoint) (below : a ≠ 30) :
    (∃ p, (s.movedOn a ref).line = { s.line with position := some p }) ∧ (s.movedOn a ref).view = s.view
      ∧ ∀ c, (s.movedOn a ref).eng c = s.eng c := by
  unfold State.movedOn
  simp only [if_neg below]
  exact ⟨⟨_, rfl⟩, trivial, fun c => by cases c <;> rfl⟩

theorem State.expiredAt_eng_of_not_firing (m : Word16) (still : ∀ c, (s.eng c).state ≠ .firing) (c : Chan) :
    (s.expiredAt m).eng c = s.eng c := by
  rw [State.expiredAt_eng]
  unfold State.overrunAt
  rw [if_neg fun h => still .b h.2, if_neg fun h => still .a h.2]

/-- The engines, requests and round count that a compared round leaves. -/
theorem State.heard_line (s : State) (f : Frame) :
    (s.heard f).line.count = (s.rounded f.sender.toNat f.round).line.count
      ∧ (s.heard f).line.joinHold = (s.rounded f.sender.toNat f.round).line.joinHold
      ∧ (s.heard f).line.lastValid =
          some { sender := f.sender.toNat, round := f.round, disagreed := s.line.count.any fun n => n != f.round, since := .zero }
      ∧ ∀ c, (s.heard f).eng c = (s.rounded f.sender.toNat f.round).eng c :=
  ⟨LineCtl.setRoster_count .., LineCtl.setRoster_joinHold .., rfl, fun c => by cases c <;> rfl⟩

/-- A miss that stands when the header is applied stands after the frame (R153). -/
theorem State.heard_miss (s : State) (f : Frame) (miss : (s.rounded f.sender.toNat f.round).view.miss = true)
    (round : (s.rounded f.sender.toNat f.round).view.missThisRound = true) :
    (s.heard f).view.miss = true ∧ (s.heard f).view.missThisRound = true := by
  unfold State.heard State.itemsTaken
  dsimp only
  rw [View.applyClaims_eq]
  simp [State.headed, miss, round]

/-- A round compared by a part without a count is its count from then on (R149). -/
theorem State.rounded_of_none (u : Nat) (m : Word16) (none : s.line.count = none) :
    (s.rounded u m).line.count = some m ∧ (s.rounded u m).line.joinHold = 0
      ∧ ∀ c, (s.rounded u m).eng c = ((s.expiredAt m).eng c).counted m := by
  unfold State.rounded
  rw [none]
  exact ⟨rfl, rfl, fun c => by cases c <;> rfl⟩

theorem State.rounded_of_same (u : Nat) {m : Word16} (same : s.line.count = some m) : s.rounded u m = s := by
  unfold State.rounded
  rw [same]
  exact if_pos rfl

/-- A round that disagrees sets the miss cause, and is adopted when the last valid frame agrees (R147). -/
theorem State.rounded_of_other (u : Nat) {m n : Word16} (held : s.line.count = some n) (differs : n ≠ m) :
    s.rounded u m =
      if s.line.lastValid.any fun g => g.agrees u m then
        { s.setMiss.expiredAt m with line := { s.line with count := some m } }
      else s.setMiss := by
  unfold State.rounded
  rw [held]
  exact if_neg differs.symm

theorem LastValid.agrees_iff (g : LastValid) (u : Nat) (m : Word16) :
    g.agrees u m = true ↔
      g.disagreed = true ∧ g.sender ≠ u ∧ ((g.since = .zero ∧ m = g.round) ∨ (g.since = .one ∧ m = g.round + 1)) := by
  unfold LastValid.agrees
  simp [and_assoc]

/-- Settles O39. -/
theorem roundTakenFromFrames : Obligations.RoundTakenFromFrames := by
  intro bytes f k s pointed valid other carrier quiet turn below
  obtain ⟨⟨p, line⟩, view, eng⟩ := State.movedOn_below (s.carrierGone.heard f) .frameEnd (Nat.ne_of_lt below)
  obtain ⟨count, joinHold, last, engines⟩ := State.heard_line s.carrierGone f
  have gone (c : Chan) : s.carrierGone.eng c = s.eng c := by cases c <;> rfl
  refine ⟨_, (execCarrierEnd_of_frame valid other carrier quiet).trans (congrArg _ (hearFrame_in_turn f
    (State.carrierGone_pointed pointed) turn)), ?_, fun none still => ?_, fun same => ?_, fun n held differs => ?_⟩
  · have disagreed : (s.carrierGone.line.count.any fun n => n != f.round) =
        decide (s.line.count ≠ none ∧ s.line.count ≠ some f.round) := by
      show (s.line.count.any fun n => n != f.round) = _
      cases s.line.count with
      | none => rfl
      | some n => exact Bool.eq_iff_iff.2 (by simp)
    rw [line]
    exact last.trans (by rw [disagreed])
  · obtain ⟨given, hold, asked⟩ := State.rounded_of_none (s := s.carrierGone) f.sender.toNat f.round none
    rw [line]
    refine ⟨count.trans given, joinHold.trans hold, fun c => ?_⟩
    have firesNot (d : Chan) : (s.carrierGone.eng d).state ≠ .firing := by
      rw [gone]
      exact still d
    rw [eng, engines, asked, State.expiredAt_eng_of_not_firing f.round firesNot, gone]
    rfl
  · have kept := State.rounded_of_same (s := s.carrierGone) f.sender.toNat same
    rw [kept] at count engines
    rw [line]
    exact ⟨count.trans same, fun c => by rw [eng, engines, gone]⟩
  · have compared := State.rounded_of_other (s := s.carrierGone) f.sender.toNat held differs
    have agreed : (s.carrierGone.line.lastValid.any fun g => g.agrees f.sender.toNat f.round) = true ↔
        ∃ g, s.line.lastValid = some g ∧ g.disagreed = true ∧ g.sender ≠ f.sender.toNat
          ∧ ((g.since = .zero ∧ f.round = g.round) ∨ (g.since = .one ∧ f.round = g.round + 1)) := by
      rw [Option.any_eq_true]
      exact exists_congr fun g => and_congr_right fun _ => LastValid.agrees_iff g _ _
    have missed : (s.carrierGone.rounded f.sender.toNat f.round).view.miss = true
        ∧ (s.carrierGone.rounded f.sender.toNat f.round).view.missThisRound = true := by
      rw [compared]
      split <;> exact ⟨rfl, rfl⟩
    obtain ⟨miss, missThisRound⟩ := State.heard_miss s.carrierGone f missed.1 missed.2
    rw [view, line]
    refine ⟨miss, missThisRound, fun adopts => ?_, fun adoptsNot => ?_⟩
    · rw [if_pos (agreed.2 adopts)] at compared
      exact count.trans (by rw [compared])
    · rw [if_neg (mt agreed.1 adoptsNot)] at compared
      exact ⟨count.trans (by rw [compared]; exact held), fun c => by rw [eng, engines, compared]; cases c <;> rfl⟩

/-! ## Garbled carriers -/

/-- The part with the carrier being taken gone and LINE_RX as `busy` says. -/
def State.carrierEnded (s : State) (busy : Untaken) : State :=
  { s with line := { s.line with carrier := none, untaken := busy } }

theorem State.carrierEnded_pointed (busy : Untaken) (h : s.Pointed) : (s.carrierEnded busy).Pointed :=
  State.Pointed.of_eng h fun c => by cases c <;> rfl

/-- A carrier missed: the miss cause, its round's clean flag, and the founding silence as `timer` gives it (R110, R146). -/
def State.missedCarrier (s : State) (timer : Timer) (clean : Bool) (position : Option Position) : State :=
  { s with
    view := { s.view with miss := true, missThisRound := true }
    line := { s.line with
      foundingTimer := timer, position := position, record := { s.line.record with clean := clean } } }

theorem restartFounding_of_counted {n : Word16} (count : s.line.count = some n) : restartFounding s = s :=
  if_neg fun h => by simp [count] at h

theorem State.movedOn_count (s : State) (a : Nat) (ref : RefPoint) {n : Word16} (count : s.line.count = some n) :
    ∃ m, (s.movedOn a ref).line.count = some m := by
  unfold State.movedOn
  rw [count]
  split
  · exact ⟨n + 1, rfl⟩
  · exact ⟨n, count⟩

/-- A garbled carrier begun in no position: the miss cause, and the founding silence of a LISTENING station without a count
restarts (R135, R148). -/
theorem garbled_of_none (s : State) :
    restartFounding (hearGarbled none s) =
      s.missedCarrier (if s.line.state = .listening ∧ s.line.count = none then .running (2000 + s.own * 100)
        else s.line.foundingTimer) s.line.record.clean s.line.position := by
  unfold restartFounding hearGarbled State.missedCarrier
  by_cases silent : s.line.state = .listening ∧ s.line.count = none
  · rw [if_pos silent, if_pos (show s.setMiss.line.state = .listening ∧ s.setMiss.line.count = none from silent)]
    rfl
  · rw [if_neg silent, if_neg (show ¬(s.setMiss.line.state = .listening ∧ s.setMiss.line.count = none) from silent)]
    rfl

/-- A garbled carrier begun in a position: the rotation moves on from there, unless it has been moved on (R132, R135). -/
theorem garbled_of_some (p : Position) {n : Word16} (h : s.Pointed) (count : s.line.count = some n) :
    (s.line.position = some p →
        restartFounding (hearGarbled (some p) s) =
          (s.missedCarrier s.line.foundingTimer (s.line.record.clean && p.kind == .window) s.line.position).movedOn p.address
            .frameEnd)
      ∧ (s.line.position ≠ some p →
        restartFounding (hearGarbled (some p) s) =
          s.missedCarrier s.line.foundingTimer (s.line.record.clean && p.kind == .window)
            (s.line.position.map fun q => { q with ref := .frameEnd })) := by
  have missed : hearGarbled (some p) s =
      moveOnFrom p (s.missedCarrier s.line.foundingTimer (s.line.record.clean && p.kind == .window) s.line.position) := by
    unfold hearGarbled
    dsimp only
    cases p.kind with
    | turn => rw [show (s.line.record.clean && PosKind.turn == PosKind.window) = false from Bool.and_false _]; rfl
    | window => rw [show (s.line.record.clean && PosKind.window == PosKind.window) = s.line.record.clean from Bool.and_true _]; rfl
  have pointed : (s.missedCarrier s.line.foundingTimer (s.line.record.clean && p.kind == .window) s.line.position).Pointed :=
    State.Pointed.of_eng h fun c => by cases c <;> rfl
  obtain ⟨here, past⟩ := moveOnFrom_eq _ p pointed
  rw [missed]
  refine ⟨fun position => ?_, fun position => ?_⟩
  · rw [here position]
    obtain ⟨m, counted⟩ := State.movedOn_count
      (s.missedCarrier s.line.foundingTimer (s.line.record.clean && p.kind == .window) s.line.position) p.address .frameEnd count
    exact restartFounding_of_counted counted
  · rw [past position]
    exact restartFounding_of_counted (n := n) count

/-- The end of a carrier that is no valid frame, and a carrier timeout, apart from the echo (R129, R135). -/
theorem exec_of_garbled {i : Instr} {k : Carrier} (carrier : s.line.carrier = some k) (quiet : s.line.inFlight = none)
    (garbled : i = .carrierTimeout
      ∨ ∃ bytes e, i = .carrierEnd bytes e
          ∧ (e = true ∨ Frame.parse bytes = none
              ∨ k.deHigh = true ∧ ∃ f, Frame.parse bytes = some f ∧ f.sender.toNat = s.own)) :
    exec i s = .next (restartFounding (hearGarbled k.began
      (s.carrierEnded (if i = .carrierTimeout then .present else s.line.untaken)))) := by
  rcases garbled with rfl | ⟨bytes, e, rfl, reason⟩
  · show execCarrierTimeout s = _
    unfold execCarrierTimeout
    rw [carrier, quiet]
    rfl
  · rw [execCarrierEnd_of_heard bytes e carrier quiet,
      if_neg (show ¬Instr.carrierEnd bytes e = .carrierTimeout from fun h => by cases h)]
    cases e with
    | true => rfl
    | false =>
      rcases reason with bad | unread | ⟨deHigh, f, valid, own⟩
      · cases bad
      · rw [if_neg (by simp), unread]
        rfl
      · rw [if_neg (by simp), valid]
        show Host.Outcome.next (if f.sender.toNat = s.own then if k.deHigh then _ else _ else _) = _
        rw [if_pos own, if_pos deHigh]
        rfl

/-- Settles O40. -/
theorem garbledCarrierMissed : Obligations.GarbledCarrierMissed := by
  refine ⟨fun i k s pointed carrier quiet garbled => ?_, fun bytes e s p n pointed none forgone position count => ?_⟩
  · have ends := exec_of_garbled carrier quiet garbled
    dsimp only
    refine ⟨fun began => ?_, fun p n began count => ?_⟩
    · rw [ends, began, garbled_of_none]
      rfl
    · obtain ⟨here, past⟩ := garbled_of_some p (State.carrierEnded_pointed
        (if i = .carrierTimeout then .present else s.line.untaken) pointed) (n := n) count
      refine ⟨fun position => ?_, fun position => ?_⟩
      · rw [ends, began, here position]
        rfl
      · rw [ends, began, past position]
        rfl
  · rw [execCarrierEnd_of_none bytes e none, (endUntaken_eq s).2.2 forgone p position pointed]

/-! ## OFF LINE -/

theorem LineCtl.onRoster_setRoster_none (l : LineCtl) (a : Nat) : (l.setRoster a none).onRoster a = false := by
  unfold LineCtl.onRoster LineCtl.lapses LineCtl.setRoster
  split
  · rfl
  · rw [Vector.getElem?_setIfInBounds_self]
    split <;> rfl

theorem State.closedOut_eng (s : State) (c : Chan) :
    (s.closedOut c).eng c =
      { (s.eng c).homed .idle with cursor := none, running := none, options := 0, faults := 0 } := by
  unfold State.closedOut
  dsimp only
  rw [State.eng_setWindow, State.eng_setEng]

theorem State.closedOut_window (s : State) (c : Chan) : (s.closedOut c).counter.window c = none := by
  unfold State.closedOut
  rw [State.window_setWindow]

theorem State.closedOut_other (s : State) {c d : Chan} (other : d ≠ c) :
    (s.closedOut c).eng d = s.eng d ∧ (s.closedOut c).counter.window d = s.counter.window d := by
  unfold State.closedOut
  dsimp only
  rw [State.eng_setWindow, State.eng_setEng_other _ _ _ _ other, State.window_setWindow_other _ _ _ _ other, State.setEng_counter]
  cases (s.eng c).state
  all_goals exact ⟨rfl, rfl⟩

/-- Both engines closed out (R91). -/
theorem State.closedOut_idle (s : State) (c : Chan) :
    (((s.closedOut .a).closedOut .b).eng c).state = .idle ∧ (((s.closedOut .a).closedOut .b).eng c).Home
      ∧ ((s.closedOut .a).closedOut .b).counter.window c = none := by
  cases c with
  | a =>
    obtain ⟨eng, window⟩ := State.closedOut_other (s.closedOut .a) (c := .b) (d := .a) (by decide)
    rw [eng, window, State.closedOut_eng, State.closedOut_window]
    exact ⟨rfl, ⟨rfl, rfl, rfl, rfl, rfl⟩, rfl⟩
  | b =>
    rw [State.closedOut_eng, State.closedOut_window]
    exact ⟨rfl, ⟨rfl, rfl, rfl, rfl, rfl⟩, rfl⟩

theorem State.goneOffLine_atRest (s : State) : s.goneOffLine.AtRest where
  engines c := by
    obtain ⟨idle, home, -⟩ := State.closedOut_idle s c
    have eng : s.goneOffLine.eng c = ((s.closedOut .a).closedOut .b).eng c := by cases c <;> rfl
    rw [eng]
    exact ⟨idle, home, by cases c <;> rfl⟩
  watches := ⟨rfl, rfl, rfl⟩
  tags := ⟨rfl, rfl⟩
  offers := ⟨rfl, rfl⟩
  line := ⟨rfl, rfl, rfl, rfl, rfl, rfl⟩
  filters x hx := by
    have stopped : x ∈ (s.aux.inputs.map fun x => { x with timer := .stopped }).toList := hx
    obtain ⟨y, -, rfl⟩ : ∃ y ∈ s.aux.inputs, { y with timer := .stopped } = x := by simpa using stopped
    rfl

theorem State.closedOut_carrierGone (s : State) (c : Chan) : s.carrierGone.closedOut c = (s.closedOut c).carrierGone := by
  have eng : s.carrierGone.eng c = s.eng c := by cases c <;> rfl
  unfold State.closedOut
  dsimp only
  rw [eng]
  cases (s.eng c).state <;> cases c <;> rfl

theorem State.carrierGone_goneOffLine (s : State) : s.carrierGone.goneOffLine = s.goneOffLine := by
  unfold State.goneOffLine
  rw [State.closedOut_carrierGone, State.closedOut_carrierGone]
  unfold LineCtl.setRoster
  split
  · rename_i none
    rw [if_pos (show s.own = 0 from none)]
    rfl
  · rename_i some
    rw [if_neg (show ¬s.own = 0 from some)]
    rfl

theorem State.faultActive_of_offLine (h : s.line.state = .offLine) : s.faultActive = true := by
  simp [State.faultActive, h]

theorem LineCtl.onRoster_of_roster {l m : LineCtl} (h : m.roster = l.roster) (a : Nat) : m.onRoster a = l.onRoster a := by
  unfold LineCtl.onRoster LineCtl.lapses
  rw [h]

theorem State.goneOffLine_own (s : State) : s.goneOffLine.own = s.own := by
  have straps : s.goneOffLine.line.straps = s.line.straps := LineCtl.setRoster_straps ..
  rw [State.own, straps, State.own]

theorem State.goneOffLine_onRoster (s : State) : s.goneOffLine.line.onRoster s.goneOffLine.own = false := by
  rw [State.goneOffLine_own, LineCtl.onRoster_of_roster (m := s.goneOffLine.line) (l := s.line.setRoster s.own none) rfl,
    LineCtl.onRoster_setRoster_none]

/-- Settles O41. -/
theorem addressConflictGoesOffLine : Obligations.AddressConflictGoesOffLine := by
  intro bytes f k s pointed valid own carrier deLow quiet
  have ends : exec (.carrierEnd bytes false) s = .next s.goneOffLine := by
    rw [execCarrierEnd_of_heard bytes false carrier quiet, if_neg (by simp), valid, ← State.carrierGone_goneOffLine,
      ← enterOffLine_eq _ (State.carrierGone_pointed pointed)]
    show Host.Outcome.next (if f.sender.toNat = s.own then if k.deHigh then _ else _ else _) = _
    rw [if_pos own, if_neg (by simp [deLow])]
  have row : s.goneOffLine.view.row = s.view.row := funext fun a => View.row_of_rows rfl a
  have outbox : s.goneOffLine.line.outbox = s.line.outbox := LineCtl.setRoster_outbox ..
  exact ⟨_, ends, rfl, State.goneOffLine_atRest s, State.faultActive_of_offLine rfl, State.goneOffLine_onRoster s, row, outbox⟩

/-! ## Own turn ends -/

/-- Settles O42. -/
theorem goodEchoEndsTheTurn : Obligations.GoodEchoEndsTheTurn := by
  intro bytes f carried k s pointed valid own round carrier deHigh flight
  have ends : exec (.carrierEnd bytes false) s = .next (ownTurnGood f carried s.carrierGone) := by
    show execCarrierEnd bytes false s = _
    unfold execCarrierEnd
    rw [carrier, flight, valid]
    dsimp only
    rw [if_pos deHigh, if_neg (by simp)]
    exact if_pos rfl
  rw [ends, ownTurnGood_eq f carried _ (State.carrierGone_pointed pointed) round]
  rfl

/-- The part with no carrier being taken, LINE_DE at `de` and LINE_RX as `busy` says. -/
def State.released (s : State) (de : Bool) (busy : Untaken) : State :=
  { s with line := { s.line with carrier := none, de := de, untaken := busy } }

theorem State.released_pointed (de : Bool) (busy : Untaken) (h : s.Pointed) : (s.released de busy).Pointed :=
  State.Pointed.of_eng h fun c => by cases c <;> rfl

theorem State.echoFailed_pointed (k jabber : Nat) (h : s.Pointed) : (s.echoFailed k jabber).Pointed :=
  State.Pointed.of_eng h fun c => by cases c <;> rfl

theorem State.movedOn_jabber (s : State) (a : Nat) (ref : RefPoint) : (s.movedOn a ref).line.jabber = s.line.jabber := by
  unfold State.movedOn
  split
  · cases s.line.count <;> rfl
  · rfl

/-- The end of the echo as a damaged frame, or as another one (R141). -/
theorem execCarrierEnd_of_damaged {bytes : List Byte} {e : Bool} {k : Carrier} {own : InFlight}
    (carrier : s.line.carrier = some k) (deHigh : k.deHigh = true) (flight : s.line.inFlight = some own)
    (damaged : e = true ∨ Frame.parse bytes = none ∨ bytes ≠ own.bytes) :
    exec (.carrierEnd bytes e) s =
      .next (ownTurnFailed own.carried 0 .frameEnd (s.released s.line.de s.line.untaken)) := by
  show execCarrierEnd bytes e s = _
  unfold execCarrierEnd
  rw [carrier, flight]
  dsimp only
  rw [if_pos deHigh]
  cases e with
  | true => rfl
  | false =>
    rw [if_neg (by simp)]
    cases valid : Frame.parse bytes with
    | none => rfl
    | some f => exact if_neg ((damaged.resolve_left (by simp)).resolve_left (by simp [valid]))

/-- The echo is not being received: no carrier, or one begun with LINE_DE low. -/
theorem LineCtl.echoing_eq_false {l : LineCtl} (h : ∀ k, l.carrier = some k → k.deHigh = false) : l.echoing = false := by
  unfold LineCtl.echoing
  cases carrier : l.carrier with
  | none => rfl
  | some k => exact h k carrier

/-- A count of jabber cuts takes the part OFF LINE at its third (R142). -/
theorem offLineAtLimit_eq (pointed : s.Pointed) {n : Nat} (jabber : s.line.jabber = n) :
    offLineAtLimit s = if 3 ≤ n then s.goneOffLine else s := by
  unfold offLineAtLimit
  rw [jabber, enterOffLine_eq s pointed]
  rfl

/-- Settles O43: the four causes lead to `ownTurnFailed`, which has its closed form. -/
theorem failedEchoEndsTheTurn : Obligations.FailedEchoEndsTheTurn := by
  intro s pointed
  have failed (k jabber : Nat) (ref : RefPoint) (de : Bool) (busy : Untaken) :=
    ownTurnFailed_eq k jabber ref (s.released de busy) (State.released_pointed de busy pointed)
  dsimp only
  refine ⟨fun own flight => ⟨fun k carrier deHigh => ⟨fun bytes e damaged => ?_, ?_⟩, fun low quiet => ?_, fun high => ?_⟩,
    fun flight high => ?_, fun low => ?_⟩
  · rw [execCarrierEnd_of_damaged carrier deHigh flight damaged, failed]
    rfl
  · have ends : exec .carrierTimeout s = .next (ownTurnFailed own.carried (if s.line.de then s.line.jabber else 0) .frameEnd
        (s.released s.line.de .present)) := by
      show execCarrierTimeout s = _
      unfold execCarrierTimeout
      rw [carrier, flight]
      exact if_pos deHigh
    rw [ends, failed]
    rfl
  · have ends : exec .noEchoTimeout s = .next (ownTurnFailed own.carried 0 .echoWaitEnd s) := by
      show execNoEchoTimeout s = _
      unfold execNoEchoTimeout
      rw [flight]
      exact if_pos ⟨low, LineCtl.echoing_eq_false quiet⟩
    rw [ends, ownTurnFailed_eq _ _ _ s pointed]
  · have ends : exec .jabberCut s = .next (offLineAtLimit (ownTurnFailed own.carried (s.line.jabber + 1) .frameEnd
        (s.released false (if s.line.carrier = none then s.line.untaken else .present)))) := by
      show execJabberCut s = _
      unfold execJabberCut
      rw [if_neg (by simp [high]), flight]
      cases s.line.carrier <;> rfl
    rw [ends, failed, offLineAtLimit_eq (State.movedOn_pointed _ _ (State.echoFailed_pointed _ _
      (State.released_pointed _ _ pointed))) (State.movedOn_jabber ..)]
    rfl
  · have ends : exec .jabberCut s =
        .next (offLineAtLimit { s with line := { s.line with de := false, jabber := s.line.jabber + 1 } }) := by
      show execJabberCut s = _
      unfold execJabberCut
      rw [if_neg (by simp [high]), flight]
    rw [ends, offLineAtLimit_eq (State.Pointed.of_eng pointed fun c => by cases c <;> rfl) rfl]
  · show execJabberCut s = _
    unfold execJabberCut
    exact if_pos low

/-! ## Positions without a carrier -/

/-- One slot of a dropped station (R106, R107). -/
theorem View.dropSlot_dropped (n : Word16) (a : Nat) (c : Chan) (v : View) : slotDropped n a c v (v.dropSlot n a c) := by
  unfold slotDropped View.dropSlot
  dsimp only
  cases (v.row a).slot c with
  | empty => rfl
  | waiting l r => rfl
  | active l r h =>
    intro live
    dsimp only
    rw [if_neg (show ¬liveAt n r h = false by simp [live])]
    split
    · rename_i room
      rw [if_pos (show v.orphans.length < Config.orphanCapacity from room)]
      unfold View.setRow
      split <;> rfl
    · rename_i full
      rw [if_neg (show ¬v.orphans.length < Config.orphanCapacity from full)]

/-- Settles O45. -/
theorem positionsEndWithoutACarrier : Obligations.PositionsEndWithoutACarrier := by
  refine ⟨fun s p n pointed running count position turn other carrier quiet => ?_, fun s p pointed running position window carrier quiet => ?_⟩
  · have lapses : exec .lapse s = .next (moveOn p.address .lapsePoint (countLapse p.address s.setMiss.unclean)) := by
      show execLapse s = _
      unfold execLapse
      rw [position]
      exact if_pos ⟨running, turn, other, carrier, quiet⟩
    have missed : s.setMiss.unclean.Pointed := State.Pointed.of_eng pointed fun c => by cases c <;> rfl
    have counted : s.setMiss.unclean.line.lapses p.address = s.line.lapses p.address := rfl
    dsimp only
    rw [lapses]
    unfold countLapse
    rw [counted]
    refine ⟨fun unlisted => ?_, fun x listed below => ?_, fun listed => ?_⟩
    · rw [unlisted]
      dsimp only
      rw [moveOn_eq _ _ _ missed]
      rfl
    · rw [listed]
      dsimp only
      rw [if_neg (show ¬x = 2 from fun last => by simp [last] at below),
        moveOn_eq _ _ _ (State.Pointed.of_eng missed fun c => by cases c <;> rfl)]
      rfl
    · rw [listed]
      dsimp only
      rw [if_pos rfl, show s.setMiss.unclean.line.count = some n from count]
      dsimp only
      rw [moveOn_eq _ _ _ (State.Pointed.of_eng missed fun c => by cases c <;> rfl)]
      exact ⟨_, _, View.dropSlot_dropped n p.address .a _, View.dropSlot_dropped n p.address .b _, rfl⟩
  · show execVacancyWindowEnd s = _
    unfold execVacancyWindowEnd
    rw [position]
    dsimp only
    rw [if_pos ⟨running, window, carrier, quiet⟩, moveOn_eq _ _ _ pointed]

/-! ## The queue and the sensors -/

/-- Settles O1. -/
theorem stepRunsFront : Obligations.StepRunsFront := by
  refine ⟨fun c rest s front => ?_, fun s empty => ?_⟩
  · rw [step, front]
  · rw [step, empty]

/-- Settles O20. -/
theorem sensorsFiltered : Obligations.SensorsFiltered := by
  refine fun l s running => ⟨fun level differs => ?_, fun falling => ?_⟩
  · refine (if_pos ⟨running, differs⟩).trans ?_
    cases l <;> rfl
  · refine (if_pos ?_).trans ?_
    · rw [falling]
      exact ⟨running, rfl, rfl, by simp⟩
    · rw [falling]
      cases l <;> rfl

end Sys2Proof.Machine
end

