-- ==== Sys2Proof/Proofs/OwnTurn.lean ====
section
/-!
The own turn's beginning (05, 06): the own slots set and judged, and the frame that shows the result.
-/

namespace Sys2Proof.Machine

variable {s t : State} {c : Chan} {v w : View} {n : Word16}

/-! ## Rows written -/

/-- Beyond the addresses 1..30 no row is written. -/
theorem View.setRow_out (v : View) {a : Nat} (w : AddrRow) (out : ¬(1 ≤ a ∧ a ≤ 30)) : v.setRow a w = v := by
  unfold View.setRow
  split
  · rfl
  · rw [Vector.setIfInBounds_eq_of_size_le (by omega)]

theorem View.row_out (v : View) {a : Nat} (out : ¬(1 ≤ a ∧ a ≤ 30)) : v.row a = AddrRow.blank := by
  unfold View.row
  split
  · rfl
  · rw [Vector.getElem?_eq_none (by omega)]
    rfl

theorem View.setRow_setRow (v : View) (a : Nat) (w x : AddrRow) : (v.setRow a w).setRow a x = v.setRow a x := by
  unfold View.setRow
  split
  · rfl
  · rw [Vector.setIfInBounds_setIfInBounds]

/-! ## Sight beside other slots -/

/-- Two views that differ in slots, offers, pointer and pending adoption alone: sight is the same (R109). -/
structure View.SameSight (v w : View) : Prop where
  miss : w.miss = v.miss
  fresh : w.fresh = v.fresh
  orphans : w.orphans = v.orphans
  retained : ∀ a c, (w.row a).retained c = (v.row a).retained c
  digests : ∀ a, (w.row a).digestMark = (v.row a).digestMark

theorem View.SameSight.refl (v : View) : v.SameSight v := ⟨rfl, rfl, rfl, fun _ _ => rfl, fun _ => rfl⟩

theorem View.SameSight.trans {x : View} (h : v.SameSight w) (g : w.SameSight x) : v.SameSight x :=
  ⟨g.miss.trans h.miss, g.fresh.trans h.fresh, g.orphans.trans h.orphans,
    fun a c => (g.retained a c).trans (h.retained a c), fun a => (g.digests a).trans (h.digests a)⟩

theorem View.anyRetained_iff : v.anyRetained = true ↔ ∃ i < 30, ∃ c, (v.row (i + 1)).retained c = true := by
  unfold View.anyRetained
  rw [View.rows_toList, List.any_map]
  simp only [List.any_eq_true, List.mem_range, Function.comp_apply, Bool.or_eq_true]
  constructor
  · rintro ⟨i, small, held | held⟩
    · exact ⟨i, small, .a, held⟩
    · exact ⟨i, small, .b, held⟩
  · rintro ⟨i, small, c, held⟩
    cases c
    · exact ⟨i, small, .inl held⟩
    · exact ⟨i, small, .inr held⟩

theorem View.SameSight.blind (h : v.SameSight w) (s : State) :
    ({ s with view := w } : State).blind = ({ s with view := v } : State).blind := by
  have retained : w.anyRetained = v.anyRetained := by
    rw [Bool.eq_iff_iff, View.anyRetained_iff, View.anyRetained_iff]
    simp only [h.retained]
  unfold State.blind View.orphansFull State.constantsDisagree
  simp only [h.miss, h.fresh, h.orphans, retained, h.digests]

/-- A row with its retained marks and digest mark leaves sight. -/
theorem View.setRow_sameSight (v : View) (a : Nat) (w : AddrRow) (retained : ∀ c, w.retained c = (v.row a).retained c)
    (digest : w.digestMark = (v.row a).digestMark) : v.SameSight (v.setRow a w) := by
  by_cases place : 1 ≤ a ∧ a ≤ 30
  · have row (b : Nat) : (∀ c, ((v.setRow a w).row b).retained c = (v.row b).retained c)
        ∧ ((v.setRow a w).row b).digestMark = (v.row b).digestMark := by
      by_cases same : b = a
      · rw [same, View.row_setRow v a w place.1 place.2]
        exact ⟨retained, digest⟩
      · rw [View.row_setRow_other v a b w same]
        exact ⟨fun _ => rfl, rfl⟩
    exact ⟨View.setRow_miss .., View.setRow_fresh .., View.setRow_orphans .., fun b => (row b).1, fun b => (row b).2⟩
  · rw [View.setRow_out v w place]
    exact .refl v

theorem View.setOffer_sameSight (v : View) (c : Chan) (o : Option Offer) : v.SameSight (v.setOffer c o) := by
  cases c <;> exact ⟨rfl, rfl, rfl, fun _ _ => rfl, fun _ => rfl⟩

/-! ## The own slots set -/

theorem ownSlot_wanted (s : State) (n : Word16) (c : Chan) :
    s.ownSlotWanted n c (ownSlot n (s.eng c) ((s.view.row s.own).slot c)) := by
  unfold State.ownSlotWanted ownSlot
  dsimp only
  refine ⟨fun q requesting request => ?_, fun firing => ?_, fun calm none => ?_⟩
  · rw [requesting, request]
  · rw [firing]
  · cases state : (s.eng c).state with
    | requesting => rw [none state]
    | firing => exact absurd state calm
    | _ => rfl

/-- The view with both own slots set (R117). -/
def State.slotsSet (s : State) (x y : Slot) : View :=
  s.view.setRow s.own { s.view.row s.own with slotA := x, slotB := y }

theorem setOwnSlots_eq (n : Word16) (s : State) :
    setOwnSlots n s = { s with
      view := s.slotsSet (ownSlot n s.engA ((s.view.row s.own).slot .a)) (ownSlot n s.engB ((s.view.row s.own).slot .b)) } := by
  unfold setOwnSlots State.slotsSet View.setSlot
  dsimp only
  by_cases place : 1 ≤ s.own ∧ s.own ≤ 30
  · rw [View.row_setRow _ _ _ place.1 place.2, View.setRow_setRow]
    rfl
  · simp only [View.setRow_out _ _ place]

theorem State.slotsSet_sameSight (s : State) (x y : Slot) : s.view.SameSight (s.slotsSet x y) :=
  View.setRow_sameSight _ _ _ (fun c => by cases c <;> rfl) rfl

/-! ## The own slots judged -/

/-- One own slot judged, with the view as it then stands (R118, R121). -/
theorem judgeSlot_judged (s : State) (n : Word16) (c : Chan) (sight : s.view.SameSight v) :
    ∃ w, judgeSlot n c { s with view := v } = { s with view := w } ∧ slotJudged s n c v w ∧ s.view.SameSight w
      ∧ (s.blind = true → w = v) := by
  have eng : ({ s with view := v } : State).eng c = s.eng c := by cases c <;> rfl
  have blind : ({ s with view := v } : State).blind = s.blind := sight.blind s
  unfold judgeSlot slotJudged
  rw [eng]
  dsimp only
  cases slot : (v.row s.own).slot c with
  | waiting l r =>
    rw [show (({ s with view := v } : State).view.row ({ s with view := v } : State).own).slot c = .waiting l r from slot]
    cases request : (s.eng c).request with
    | none => exact ⟨v, rfl, rfl, sight, fun _ => rfl⟩
    | some q =>
      dsimp only
      rw [blind]
      by_cases refused : s.blind = true ∨ s.lc.budget < v.committed n + l
          ∨ policyRefuses s.lc v n { address := s.own, channel := c, round := r } = true
      · exact ⟨v, if_pos refused, ⟨fun _ => rfl, fun taken => absurd refused taken⟩, sight, fun _ => rfl⟩
      · refine ⟨_, if_neg refused, ⟨fun blocked => absurd blocked refused, fun _ => rfl⟩, ?_,
          fun isBlind => absurd (.inl isBlind) refused⟩
        exact (sight.trans (View.setRow_sameSight _ _ _ (fun d => AddrRow.retained_setSlot ..)
          (AddrRow.setSlot_digestMark ..))).trans (View.setOffer_sameSight _ _ _)
  | _ =>
    rw [show (({ s with view := v } : State).view.row ({ s with view := v } : State).own).slot c = _ from slot]
    exact ⟨v, rfl, rfl, sight, fun _ => rfl⟩

theorem judgesBFirst_iff (n : Word16) (x : AddrRow) :
    judgesBFirst n x = true ↔ ∃ l r m q, x.slotA = .waiting l r ∧ x.slotB = .waiting m q ∧ roundAge n r < roundAge n q := by
  unfold judgesBFirst
  cases x.slotA <;> cases x.slotB <;> simp

/-- Both own slots judged, in the order of precedence between them (R118). -/
theorem judgeOwnSlots_judged (s : State) (n : Word16) (x y : Slot) :
    ∃ v w, judgeOwnSlots n { s with view := s.slotsSet x y } = { s with view := w } ∧ s.view.SameSight w
      ∧ (s.blind = true → w = s.slotsSet x y)
      ∧ (let bFirst := ∃ l r m q, x = .waiting l r ∧ y = .waiting m q ∧ roundAge n r < roundAge n q
         (bFirst → slotJudged s n .b (s.slotsSet x y) v ∧ slotJudged s n .a v w)
           ∧ (¬bFirst → slotJudged s n .a (s.slotsSet x y) v ∧ slotJudged s n .b v w)) := by
  have sight := State.slotsSet_sameSight s x y
  have judged (c d : Chan) : ∃ v w, judgeSlot n d (judgeSlot n c { s with view := s.slotsSet x y }) = { s with view := w }
      ∧ s.view.SameSight w ∧ (s.blind = true → w = s.slotsSet x y)
      ∧ slotJudged s n c (s.slotsSet x y) v ∧ slotJudged s n d v w := by
    obtain ⟨v, first, firstJudged, firstSight, firstBlind⟩ := judgeSlot_judged s n c sight
    obtain ⟨w, second, secondJudged, secondSight, secondBlind⟩ := judgeSlot_judged s n d firstSight
    exact ⟨v, w, by rw [first, second], secondSight, fun blind => (secondBlind blind).trans (firstBlind blind), firstJudged,
      secondJudged⟩
  unfold judgeOwnSlots
  by_cases place : 1 ≤ s.own ∧ s.own ≤ 30
  · have row : (s.slotsSet x y).row s.own = { s.view.row s.own with slotA := x, slotB := y } :=
      View.row_setRow _ _ _ place.1 place.2
    have order := judgesBFirst_iff n ((s.slotsSet x y).row s.own)
    rw [congrArg AddrRow.slotA row, congrArg AddrRow.slotB row] at order
    by_cases bFirst : ∃ l r m q, x = .waiting l r ∧ y = .waiting m q ∧ roundAge n r < roundAge n q
    · have first : judgesBFirst n ((s.slotsSet x y).row s.own) = true := order.2 bFirst
      obtain ⟨v, w, result, sight, blind, judgedB, judgedA⟩ := judged .b .a
      exact ⟨v, w, (if_pos first).trans result, sight, blind,
        fun _ => ⟨judgedB, judgedA⟩, fun not => absurd bFirst not⟩
    · have behind : ¬judgesBFirst n ((s.slotsSet x y).row s.own) = true := mt order.1 bFirst
      obtain ⟨v, w, result, sight, blind, judgedA, judgedB⟩ := judged .a .b
      exact ⟨v, w, (if_neg behind).trans result, sight, blind,
        fun first => absurd first bFirst, fun _ => ⟨judgedA, judgedB⟩⟩
  · have row : (s.slotsSet x y).row s.own = AddrRow.blank := View.row_out _ place
    have still (c : Chan) : slotJudged s n c (s.slotsSet x y) (s.slotsSet x y) := by
      unfold slotJudged
      rw [row]
      cases c <;> rfl
    have kept (c : Chan) : judgeSlot n c { s with view := s.slotsSet x y } = { s with view := s.slotsSet x y } := by
      unfold judgeSlot
      rw [show ({ s with view := s.slotsSet x y } : State).view.row ({ s with view := s.slotsSet x y } : State).own =
        AddrRow.blank from row]
      cases c <;> rfl
    exact ⟨_, _, by simp only [kept, ite_self], sight, fun _ => rfl, fun _ => ⟨still .b, still .a⟩, fun _ => ⟨still .a, still .b⟩⟩

/-! ## The turn begun -/

/-- The frame built shows the part in round `n`. -/
theorem buildFrame_shows_getD (s : State) : (buildFrame s).Shows s (s.line.count.getD 0) where
  sender := rfl
  flags := ⟨rfl, rfl, rfl, rfl, by unfold buildFrame; dsimp only; cases s.counter.motion <;> rfl,
    by unfold buildFrame; dsimp only; exact Bool.eq_iff_iff.2 (by simp)⟩
  round := rfl
  pointer := rfl
  digest := rfl
  tag := rfl
  status := rfl
  slots := ⟨rfl, rfl⟩
  items := rfl

theorem buildFrame_shows (count : s.line.count = some n) : (buildFrame s).Shows s n := by
  have shows := buildFrame_shows_getD s
  rwa [count] at shows

/-- Own turn start: the slots judged in a view `w`, and the frame that shows it in flight (R117 to R122, R138). -/
theorem ownTurnStart_judged (n : Word16) (s : State) :
    ∃ v w, ownTurnStart n s = { s with
        view := w
        line := { s.line with
          de := true
          inFlight := some ⟨(buildFrame { s with view := w }).encode, (buildFrame { s with view := w }).items.length⟩ } }
      ∧ s.view.SameSight w
      ∧ (let x := ownSlot n s.engA ((s.view.row s.own).slot .a)
         let y := ownSlot n s.engB ((s.view.row s.own).slot .b)
         let bFirst := ∃ l r m q, x = .waiting l r ∧ y = .waiting m q ∧ roundAge n r < roundAge n q
         (s.blind = true → w = s.slotsSet x y)
           ∧ (bFirst → slotJudged s n .b (s.slotsSet x y) v ∧ slotJudged s n .a v w)
           ∧ (¬bFirst → slotJudged s n .a (s.slotsSet x y) v ∧ slotJudged s n .b v w)) := by
  obtain ⟨v, w, judged, sight, blind, order⟩ := judgeOwnSlots_judged s n (ownSlot n s.engA ((s.view.row s.own).slot .a))
    (ownSlot n s.engB ((s.view.row s.own).slot .b))
  refine ⟨v, w, ?_, sight, blind, order⟩
  unfold ownTurnStart
  rw [setOwnSlots_eq, judged]

/-- Own turn start in the closed form, and that a BLIND station admits nothing (R117 to R122, R138). -/
theorem ownTurnStart_begun (count : s.line.count = some n) :
    turnBegun n s (ownTurnStart n s)
      ∧ s.view.SameSight (ownTurnStart n s).view
      ∧ (s.blind = true → (ownTurnStart n s).view.offerA = s.view.offerA ∧ (ownTurnStart n s).view.offerB = s.view.offerB) := by
  obtain ⟨v, w, begun, sight, blind, order⟩ := ownTurnStart_judged n s
  rw [begun]
  refine ⟨⟨_, _, v, w, buildFrame { s with view := w }, ownSlot_wanted s n .a, ownSlot_wanted s n .b, order,
    buildFrame_shows count, rfl⟩, sight, fun isBlind => ?_⟩
  have set := blind isBlind
  exact ⟨(congrArg View.offerA set).trans (View.setRow_offerA ..), (congrArg View.offerB set).trans (View.setRow_offerB ..)⟩

theorem LineCtl.atPosition_of {l : LineCtl} {a : Nat} {k : PosKind} {ref : RefPoint}
    (position : l.position = some { address := a, kind := k, ref := ref }) : l.atPosition a k = true := by
  unfold LineCtl.atPosition
  rw [position]
  cases k <;> simp

theorem LineCtl.rxIdle_of_busy {l : LineCtl} (busy : l.carrier ≠ none ∨ l.untaken ≠ .absent) : l.rxIdle = false := by
  rw [← Bool.not_eq_true, LineCtl.rxIdle_iff]
  exact fun idle => busy.elim (· idle.1) (· idle.2)

theorem execOwnTurnStart_of_turn {ref : RefPoint} (onLine : s.line.state = .onLine) (count : s.line.count = some n)
    (position : s.line.position = some { address := s.own, kind := .turn, ref := ref }) (quiet : s.line.inFlight = none) :
    exec .ownTurnStart s =
      if s.line.rxIdle = false then .next (forgoTurn s)
      else if s.line.de then .next s
      else .next (ownTurnStart n s) := by
  show execOwnTurnStart s = _
  unfold execOwnTurnStart
  rw [count]
  exact if_pos ⟨onLine, LineCtl.atPosition_of position, quiet⟩

theorem execJoinFrameStart_of_window {ref : RefPoint} (joining : s.line.state = .joining) (count : s.line.count = some n)
    (position : s.line.position = some { address := s.own, kind := .window, ref := ref }) (quiet : s.line.inFlight = none) :
    exec .joinFrameStart s =
      if s.line.de = false ∧ s.line.rxIdle = true then .next (ownTurnStart n s) else .next s := by
  show execJoinFrameStart s = _
  unfold execJoinFrameStart
  rw [count]
  dsimp only
  simp only [joining, LineCtl.atPosition_of position, quiet, true_and]

/-- With a frame in flight, or on an idle LINE_RX with LINE_DE still high, neither own turn nor join frame starts (log 3,
log 28). -/
theorem noTurn_of_sending (sending : s.line.inFlight ≠ none
      ∨ (s.line.de = true ∧ s.line.carrier = none ∧ s.line.untaken = .absent)) :
    exec .ownTurnStart s = .next s ∧ exec .joinFrameStart s = .next s := by
  refine ⟨?_, ?_⟩
  · show execOwnTurnStart s = _
    unfold execOwnTurnStart
    split
    · rfl
    · split
      · rename_i turn
        obtain ⟨high, free, absent⟩ := sending.resolve_left (not_not.2 turn.2.2)
        rw [if_neg (by rw [(LineCtl.rxIdle_iff _).2 ⟨free, absent⟩]; simp), if_pos high]
      · rfl
  · show execJoinFrameStart s = _
    unfold execJoinFrameStart
    split
    · rfl
    · refine if_neg fun window => ?_
      obtain ⟨high, -⟩ := sending.resolve_left (not_not.2 window.2.2.1)
      simp [high] at window

/-- Settles O44. -/
theorem ownTurnsBegin : Obligations.OwnTurnsBegin := by
  refine ⟨fun s n ref onLine count position quiet => ?_, fun s n ref startUp joining count position quiet => ?_,
    fun s => noTurn_of_sending, fun s m listening uncounted timer free absent => ?_⟩
  · have turn := execOwnTurnStart_of_turn onLine count position quiet
    refine ⟨fun low free absent => ⟨_, ?_, (ownTurnStart_begun count).1⟩, fun busy => ?_⟩
    · rw [turn, if_neg (by rw [(LineCtl.rxIdle_iff _).2 ⟨free, absent⟩]; simp), if_neg (by simp [low])]
    · rw [turn, if_pos (LineCtl.rxIdle_of_busy busy), forgoTurn_eq]
  · have window := execJoinFrameStart_of_window joining count position quiet
    refine ⟨fun low free absent => ?_, fun busy => ?_⟩
    · obtain ⟨begun, sight, unadmitted⟩ := ownTurnStart_begun count
      have fresh := (startUp.fresh (.inr joining)).1
      obtain ⟨offerA, offerB⟩ := unadmitted (by simp [State.blind, fresh])
      have offers : s.view.offerA = none ∧ s.view.offerB = none := by
        by_contra offered
        exact startUp.offers (by tauto) quiet
      refine ⟨_, by rw [window, if_pos ⟨low, (LineCtl.rxIdle_iff _).2 ⟨free, absent⟩⟩], begun, offerA.trans offers.1,
        offerB.trans offers.2, sight.fresh.trans fresh, ?_⟩
      simp [State.blind, sight.fresh, fresh]
    · rw [window, if_neg fun h => by simp [LineCtl.rxIdle_of_busy busy] at h]
  · refine ⟨_, if_pos ⟨listening, uncounted, by simp [timer], (LineCtl.rxIdle_iff _).2 ⟨free, absent⟩⟩, ?_⟩
    exact (ownTurnStart_begun rfl).1

end Sys2Proof.Machine
end

