-- ==== Sys2Proof/Proofs/Binding.lean ====
section
/-!
The tracker's bindings in one closed form (03): resolution, the bodies bound by order and by a tag record, arrivals. A
binding reads neither watches, register, sensors, outbox nor sticky bits, so it is made once, beside any of them.
-/

namespace Sys2Proof.Machine

variable {s t : State} {c : Chan}

/-! ## Resolution (R19) -/

/-- The first entry that meets a test is the one found. -/
theorem find?_of_first {α : Type} {p : α → Bool} {l before after : List α} {e : α} (split : l = before ++ e :: after)
    (meets : p e = true) (first : ∀ x ∈ before, p x = false) : l.find? p = some e := by
  rw [List.find?_eq_some_iff_append]
  exact ⟨meets, before, after, split, fun x hx => by rw [first x hx]; rfl⟩

/-- Settles O11. -/
theorem resolutionByFirstRow : Obligations.ResolutionByFirstRow := by
  unfold Obligations.ResolutionByFirstRow
  intro k st c style
  refine ⟨fun disabled => by simp [resolve, disabled], fun enabled absent => ?_,
    fun before e after enabled split same first => ?_⟩
  · have unlisted : st.styles.find? (fun e => e.style == style.toNat) = none :=
      List.find?_eq_none.2 fun e he => by simpa using absent e he
    simp [resolve, enabled, unlisted]
  · have entry : st.styles.find? (fun e => e.style == style.toNat) = some e :=
      find?_of_first split (by simpa using same) fun x hx => by simpa using first x hx
    exact ⟨fun empty => by simp [resolve, enabled, entry, empty],
      fun p d prog dir marked => by simp [resolve, enabled, entry, prog, dir, marked],
      fun p prog dir marked => by simp [resolve, enabled, entry, prog, dir, marked],
      fun p d prog dir good => by simp [resolve, enabled, entry, prog, dir, good]⟩

/-! ## Engines that take a body (R68) -/

/-- A point that takes nothing is no point of the run. -/
theorem State.outcomesTaken_from_one (s : State) (c : Chan) {m : Nat} (f : Nat → Option PointOutcome) (h : 1 ≤ m) :
    (s.outcomesTaken c 0 m fun j => if j = 0 then none else f j) = s.outcomesTaken c 1 m f := by
  have before : s.outcomesTaken c 0 1 (fun j => if j = 0 then none else f j) = s := by
    unfold State.outcomesTaken State.actedOver
    have places : (fun j => if 0 ≤ j ∧ j < 1 then (if j = 0 then none else f j) else none) = fun _ => none := by
      funext j
      by_cases zero : j = 0
      · simp [zero]
      · rw [if_neg (by omega)]
    rw [places, Zone.placed_none]
    rfl
  have whole := State.outcomesTaken_append s c 0 1 m (fun j => if j = 0 then none else f j) f (by omega) h
  rw [before] at whole
  rw [whole]
  exact State.outcomesTaken_congr _ _ _ _ _ _ fun j _ _ => by
    by_cases zero : j = 0
    · simp [zero]
    · rw [if_neg zero, if_neg (by omega)]

theorem startEngine_eq (c : Chan) (b : Body) (s : State) : startEngine c b s = s.took c b := by
  have withheld (n : Nat) : takeOutcomes c .withheld n 1 s = s.outcomesTaken c 1 (n + 1) fun _ => some .withheld := by
    rw [takeOutcomes_eq _ _ _ _ _ le_rfl, Nat.add_comm]
  unfold startEngine State.took
  cases (b.part c).answer with
  | absent => rfl
  | failed p n => exact withheld n
  | good p n =>
    dsimp only
    split
    · exact withheld n
    · generalize loaded : s.setEng c { s.eng c with
        running := some { program := p, count := n }, options := b.options, faults := 0, cursor := some 1 } = u
      have points : (u.eng c).points = n := by rw [← loaded, State.eng_setEng]; rfl
      have cursor : (u.eng c).cursor = some 1 := by rw [← loaded, State.eng_setEng]
      have aside : u = u.aside c (some 1) (u.counter.window c) := by rw [← loaded]; cases c <;> rfl
      have sent := sendPoints_eq c n 0 u (some 1) (u.counter.window c)
      rw [← aside] at sent
      rw [show (s.modEng c fun e => { e with
        running := some { program := p, count := n }, options := b.options, faults := 0, cursor := some 1 }) = u from loaded,
        sent]
      unfold State.advancedAfter
      rw [points, cursor]
      dsimp only
      rw [Nat.sub_zero]
      cases found : (List.range' (0 + 1) n).find? fun j => u.decided c j == none with
      | some j =>
        have range := List.mem_range'_1.1 (List.mem_of_find?_eq_some found)
        dsimp only
        rw [State.outcomesTaken_from_one _ _ _ (by omega)]
      | none =>
        dsimp only
        rw [State.outcomesTaken_from_one _ _ _ (by omega)]
        simp only [Nat.zero_add]

theorem bindZone_eq (datum : Word32) (serial : Word24) (style : Byte) (options : Word16) (disputed listed : Bool)
    (s : State) :
    bindZone datum serial style options disputed listed s = s.boundAs datum serial style options disputed listed := by
  unfold bindZone State.boundAs
  dsimp only
  rw [startEngine_eq, startEngine_eq]
  rfl

/-- What a binding leaves as it was. -/
theorem State.boundAs_frame (s : State) (datum : Word32) (serial : Word24) (style : Byte) (options : Word16)
    (disputed listed : Bool) :
    let u := s.boundAs datum serial style options disputed listed
    u.store = s.store ∧ u.view = s.view ∧ u.line = s.line ∧ u.sticky = s.sticky ∧ u.pending = s.pending
      ∧ u.counter = { s.counter with windowA := u.counter.windowA, windowB := u.counter.windowB }
      ∧ u.tracker = { s.tracker with zone := u.tracker.zone } := by
  dsimp only
  rw [← bindZone_eq]
  unfold bindZone
  dsimp only
  generalize bodyEq : Body.mk serial style options disputed listed _ _ = b
  have first := startEngine_apart .a b (s.setZone (.bound datum b))
  have second := startEngine_apart .b b (startEngine .a b (s.setZone (.bound datum b)))
  refine ⟨second.store.trans first.store, second.view.trans first.view, second.line.trans first.line,
    second.sticky.trans first.sticky, second.pending.trans first.pending, ?_, ?_⟩
  · rw [second.counter, first.counter]
    rfl
  · rw [second.tracker, first.tracker]
    rfl

/-! ## Beside what a binding does not read -/

/-- The part with other watches, another tracker under the same zone record, and another outbox and status bits. -/
def State.dressed (s : State) (h p z : Watch) (r : Tracker) (o : List Item) (k : Sticky) : State :=
  { s with
    counter := { s.counter with heldWatch := h, pairWatch := p, zoneWatch := z }
    tracker := { r with zone := s.tracker.zone }
    line := { s.line with outbox := o }
    sticky := k }

section
variable (h p z : Watch) (r : Tracker) (o : List Item) (k : Sticky)

theorem State.dressed_outcomesTaken (s : State) (c : Chan) (i n : Nat) (f : Nat → Option PointOutcome) :
    (s.dressed h p z r o k).outcomesTaken c i n f = (s.outcomesTaken c i n f).dressed h p z r o k := by cases c <;> rfl

theorem State.dressed_sent (s : State) (c : Chan) (j : Nat) :
    (s.dressed h p z r o k).sent c j = (s.sent c j).dressed h p z r o k := by
  have pointRec : (s.dressed h p z r o k).pointRec c j = s.pointRec c j := by cases c <;> rfl
  have eng : (s.dressed h p z r o k).eng c = s.eng c := by cases c <;> rfl
  unfold State.sent
  rw [pointRec, eng]
  cases pstb : (s.eng c).pstb <;> cases c <;> simp only [pstb] <;> rfl

theorem State.dressed_decided (s : State) (c : Chan) (j : Nat) : (s.dressed h p z r o k).decided c j = s.decided c j := by
  cases c <;> rfl

theorem State.dressed_advancedAfter (s : State) (c : Chan) (i : Nat) (x : Option PointOutcome) :
    (s.dressed h p z r o k).advancedAfter c i x = (s.advancedAfter c i x).dressed h p z r o k := by
  have eng : (s.dressed h p z r o k).eng c = s.eng c := by cases c <;> rfl
  unfold State.advancedAfter
  simp only [eng, State.dressed_decided, State.dressed_outcomesTaken]
  split
  · rw [State.dressed_sent]
  · cases c <;> rfl

theorem State.dressed_took (s : State) (c : Chan) (b : Body) :
    (s.dressed h p z r o k).took c b = (s.took c b).dressed h p z r o k := by
  have setEng (e : Engine) : (s.dressed h p z r o k).setEng c e = (s.setEng c e).dressed h p z r o k := by cases c <;> rfl
  have eng : (s.dressed h p z r o k).eng c = s.eng c := by cases c <;> rfl
  unfold State.took
  simp only [State.dressed_outcomesTaken, setEng, eng, State.dressed_advancedAfter]
  split
  · rfl
  · rfl
  · split <;> rfl

theorem State.dressed_boundAs (s : State) (datum : Word32) (serial : Word24) (style : Byte) (options : Word16)
    (disputed listed : Bool) :
    (s.dressed h p z r o k).boundAs datum serial style options disputed listed =
      (s.boundAs datum serial style options disputed listed).dressed h p z r o k := by
  have zone (x : Zone) : ({ s.dressed h p z r o k with tracker := { (s.dressed h p z r o k).tracker with zone := x } } : State) =
      ({ s with tracker := { s.tracker with zone := x } } : State).dressed h p z r o k := rfl
  unfold State.boundAs
  dsimp only
  rw [zone, State.dressed_took, State.dressed_took]
  rfl

end

/-! ## The outbox (R137) -/

theorem pushed_nil (s : State) (within : s.line.outbox.length ≤ 16) : pushed [] s s := by
  refine ⟨by rw [List.append_nil, List.take_of_length_le within], ?_⟩
  rw [List.append_nil, show decide (16 < s.line.outbox.length) = false from decide_eq_false (by omega), Bool.or_false]

/-- An outbox that has taken items is within its capacity. -/
theorem pushed.length_le {items : List Item} (h : pushed items s t) : t.line.outbox.length ≤ 16 := by
  rw [h.1]
  exact List.length_take_le _ _

/-- Items handed over one after the other. -/
theorem pushed.append {u : State} {xs ys : List Item} (h : pushed xs s t) (g : pushed ys t u) :
    pushed (xs ++ ys) s u := by
  obtain ⟨outbox, overflow⟩ := h
  obtain ⟨outbox', overflow'⟩ := g
  refine ⟨?_, ?_⟩
  · rw [outbox', outbox, ← List.append_assoc]
    by_cases full : (s.line.outbox ++ xs).length ≤ 16
    · rw [List.take_of_length_le full]
    · have more : 16 ≤ (s.line.outbox ++ xs).length := by omega
      rw [List.take_append_of_le_length (l₁ := (s.line.outbox ++ xs).take 16) (by rw [List.length_take]; omega),
        List.take_take, Nat.min_self, List.take_append_of_le_length more]
  · rw [overflow', overflow, outbox, Bool.or_assoc]
    congr 1
    rw [← Bool.decide_or, decide_eq_decide]
    simp only [List.length_append, List.length_take]
    omega

/-! ## Bindings by order and by a tag record (R52, R55) -/

/-- All that a binding made beside watches `h`, `p`, `z`, tracker `r` and status bits `k` leaves to be said. -/
structure BindsBeside (s : State) (h p z : Watch) (r : Tracker) (k : Sticky) (t : State) : Prop where
  store : t.store = s.store
  view : t.view = s.view
  pending : t.pending = s.pending
  counter : t.counter =
    { s.counter with
      heldWatch := h, pairWatch := p, zoneWatch := z, windowA := t.counter.windowA, windowB := t.counter.windowB }
  tracker : t.tracker = { r with zone := t.tracker.zone, register := t.tracker.register }
  line : t.line = { s.line with outbox := t.line.outbox }
  sticky : t.sticky = { k with outboxOverflow := t.sticky.outboxOverflow, strayBody := t.sticky.strayBody }

theorem BindsBeside.bindingFrame {h p z : Watch} {r : Tracker} {k : Sticky} (b : BindsBeside s h p z r k t)
    (bits : k = { s.sticky with tagMissing := k.tagMissing }) : bindingFrame s t := by
  obtain ⟨st, kt, tr, a, e, v, l, x, y, q⟩ := t
  obtain ⟨store, view, pending, counter, -, line, sticky⟩ := b
  dsimp only at store view pending counter line sticky
  subst store view pending
  unfold Machine.bindingFrame
  dsimp only
  congr 1
  · rw [counter]
  · rw [sticky, bits]

section
variable {h p z : Watch} {r : Tracker} {o : List Item} {k : Sticky}

/-- A binding in the closed form, and beside another register, outbox and overflow bit. -/
theorem State.boundAs_bindsBeside (datum : Word32) (serial : Word24) (style : Byte) (options : Word16)
    (disputed listed : Bool) (reg : List Entry) (full : Bool) :
    BindsBeside s h p z r k
      ((s.boundAs datum serial style options disputed listed).dressed h p z { r with register := reg } o
        { k with outboxOverflow := full }) := by
  obtain ⟨store, view, line, -, pending, counter, -⟩ :=
    State.boundAs_frame s datum serial style options disputed listed
  refine ⟨store, view, pending, ?_, rfl, ?_, rfl⟩
  · unfold State.dressed
    dsimp only
    rw [counter]
  · unfold State.dressed
    dsimp only
    rw [line]

theorem State.boundAs_boundTo (datum : Word32) (serial : Word24) (style : Byte) (options : Word16)
    (disputed listed : Bool) :
    boundTo datum serial style options disputed listed s
      ((s.boundAs datum serial style options disputed listed).dressed h p z r o k) :=
  ⟨rfl, rfl, fun c => by cases c <;> exact ⟨rfl, rfl⟩⟩

/-- The oldest AHEAD entry is bound and HERE, or the body is a stray one (R52). -/
theorem orderBind_dressed (datum : Word32) :
    orderBind datum (s.dressed h p z r o k) =
      match r.register.find? (fun e => e.mark == .ahead) with
      | some e =>
        (s.boundAs datum e.serial e.style e.options e.disputed true).dressed h p z
          { r with register := markSerial r.register e.serial .here } o k
      | none => (s.setZone (.stray datum)).dressed h p z r o { k with strayBody := true } := by
  have register : (s.dressed h p z r o k).tracker.register = r.register := rfl
  have marked (n : Word24) : (s.dressed h p z r o k).markEntry n .here =
      s.dressed h p z { r with register := markSerial r.register n .here } o k := rfl
  unfold orderBind
  rw [register]
  cases r.register.find? (fun e => e.mark == .ahead) with
  | some e =>
    dsimp only
    rw [bindZone_eq, marked, State.dressed_boundAs]
  | none => rfl

theorem orderBind_bindsBeside (datum : Word32) : BindsBeside s h p z r k (orderBind datum (s.dressed h p z r o k)) := by
  rw [orderBind_dressed]
  split
  · exact State.boundAs_bindsBeside _ _ _ _ _ _ _ k.outboxOverflow
  · exact ⟨rfl, rfl, rfl, rfl, rfl, rfl, rfl⟩

theorem orderBind_boundByOrder (datum : Word32) (register : r.register = s.tracker.register)
    (stray : k.strayBody = s.sticky.strayBody) (overflow : k.outboxOverflow = s.sticky.outboxOverflow) :
    boundByOrder datum s (orderBind datum (s.dressed h p z r s.line.outbox k)) := by
  rw [orderBind_dressed, register]
  refine ⟨fun before e after split ahead first => ?_, fun none => ?_, ?_⟩
  · have found : s.tracker.register.find? (fun e => e.mark == .ahead) = some e :=
      find?_of_first split (by simpa using ahead) fun x hx => by simpa using first x hx
    rw [found]
    exact ⟨State.boundAs_boundTo .., rfl, stray⟩
  · have unfound : s.tracker.register.find? (fun e => e.mark == .ahead) = Option.none :=
      List.find?_eq_none.2 fun e he => by simpa using none e he
    rw [unfound]
    exact ⟨rfl, rfl, register, rfl, fun c => by cases c <;> exact ⟨rfl, rfl⟩⟩
  · split <;> exact ⟨rfl, overflow⟩

end

/-- The entries older than the first with a serial (R43, R55). -/
theorem olderThan_of_split {reg older newer : List Entry} {e : Entry} {n : Word24} (split : reg = older ++ e :: newer)
    (serial : e.serial = n) (first : ∀ x ∈ older, x.serial ≠ n) : olderThan reg n = older := by
  unfold olderThan
  rw [split, List.takeWhile_append_of_pos (fun x hx => by simpa using first x hx), List.takeWhile_cons_of_neg (by simp [serial]),
    List.append_nil]

section
variable {h p z : Watch} {r : Tracker} {o : List Item} {k : Sticky}

theorem BindsBeside.pushItem {u : State} (b : BindsBeside s h p z r k u) (i : Item) :
    BindsBeside s h p z r k (u.pushItem i) := by
  obtain ⟨store, view, pending, counter, tracker, line, sticky⟩ := b
  unfold State.pushItem
  split
  · exact ⟨store, view, pending, counter, tracker, by dsimp only; rw [line], sticky⟩
  · exact ⟨store, view, pending, counter, tracker, line, by dsimp only; rw [sticky]⟩

theorem State.dressed_pushItem (i : Item) :
    (s.dressed h p z r o k).pushItem i =
      if o.length < 16 then s.dressed h p z r (o ++ [i]) k else s.dressed h p z r o { k with outboxOverflow := true } := rfl

/-- An item handed over before a binding is handed over beside it. -/
theorem State.pushItem_boundAs (i : Item) (datum : Word32) (serial : Word24) (style : Byte) (options : Word16)
    (disputed listed : Bool) :
    ((s.dressed h p z r o k).pushItem i).boundAs datum serial style options disputed listed =
      ((s.boundAs datum serial style options disputed listed).dressed h p z r o k).pushItem i := by
  rw [State.dressed_pushItem, State.dressed_pushItem]
  split <;> exact State.dressed_boundAs ..

/-- The three rows of R55. -/
theorem tagBind_dressed (datum : Word32) (n : Word24) (y : Byte) (x : Word16) :
    tagBind datum n y x (s.dressed h p z r o k) =
      match r.register.find? (fun e => e.serial == n) with
      | none => ((s.boundAs datum n y x false false).dressed h .disarmed z r o k).pushItem (.announce n y x)
      | some e =>
        let here : Tracker := { r with register := markSerial r.register n .here }
        if e.style = y ∧ e.options = x then
          let u := (s.boundAs datum n e.style e.options e.disputed true).dressed h .disarmed z here o k
          if (olderThan r.register n).any fun o => o.mark == .ahead && o.announcer ≤ s.own then u.pushItem (.resync n) else u
        else
          ((s.boundAs datum n e.style e.options true true).dressed h .disarmed z here o k).pushItem (.dispute n y x) := by
  have disarmed : ({ s.dressed h p z r o k with
      counter := { (s.dressed h p z r o k).counter with pairWatch := .disarmed } } : State) =
      s.dressed h .disarmed z r o k := rfl
  have marked : (s.dressed h .disarmed z r o k).markEntry n .here =
      s.dressed h .disarmed z { r with register := markSerial r.register n .here } o k := rfl
  have register : (s.dressed h p z r o k).tracker.register = r.register := rfl
  unfold tagBind
  dsimp only
  rw [disarmed, register]
  cases r.register.find? (fun e => e.serial == n) with
  | none =>
    dsimp only
    rw [bindZone_eq, State.pushItem_boundAs]
  | some e =>
    dsimp only
    rw [marked]
    simp only [bindZone_eq]
    split
    · have own : (s.dressed h p z r o k).own = s.own := rfl
      rw [own]
      split
      · rw [State.pushItem_boundAs]
      · rw [State.dressed_boundAs]
    · rw [State.pushItem_boundAs]

theorem tagBind_bindsBeside (datum : Word32) (n : Word24) (y : Byte) (x : Word16) :
    BindsBeside s h .disarmed z r k (tagBind datum n y x (s.dressed h p z r o k)) := by
  have bound := fun (d : Word32) (n : Word24) (y : Byte) (x : Word16) (disputed listed : Bool) (reg : List Entry) =>
    State.boundAs_bindsBeside (s := s) (h := h) (p := .disarmed) (z := z) (r := r) (o := o) (k := k) d n y x disputed
      listed reg k.outboxOverflow
  rw [tagBind_dressed]
  split
  · exact (bound _ _ _ _ _ _ r.register).pushItem _
  · dsimp only
    split
    · split
      · exact (bound _ _ _ _ _ _ _).pushItem _
      · exact bound _ _ _ _ _ _ _
    · exact (bound _ _ _ _ _ _ _).pushItem _

/-- An item handed over beside a binding. -/
theorem State.boundAs_pushed (i : Item) (u : State) (within : s.line.outbox.length ≤ 16) :
    pushed [i] s ((u.dressed h p z r s.line.outbox s.sticky).pushItem i) :=
  (State.pushItem_pushed (u.dressed h p z r s.line.outbox s.sticky) i within).1

@[simp] theorem State.pushItem_strayBody (i : Item) : (s.pushItem i).sticky.strayBody = s.sticky.strayBody := by
  unfold State.pushItem; split <;> rfl

@[simp] theorem State.pushItem_tagMissing (i : Item) : (s.pushItem i).sticky.tagMissing = s.sticky.tagMissing := by
  unfold State.pushItem; split <;> rfl

theorem boundTo.pushItem {u : State} {datum : Word32} {n : Word24} {y : Byte} {x : Word16} {disputed listed : Bool}
    (b : boundTo datum n y x disputed listed s u) (i : Item) : boundTo datum n y x disputed listed s (u.pushItem i) := by
  obtain ⟨zone, aux, engines⟩ := b
  exact ⟨by simpa using zone, by simpa using aux, fun c => by simpa using engines c⟩

theorem tagBind_boundByTag (datum : Word32) (n : Word24) (y : Byte) (x : Word16)
    (register : r.register = s.tracker.register) (within : s.line.outbox.length ≤ 16) :
    boundByTag datum n y x s (tagBind datum n y x (s.dressed h p z r s.line.outbox s.sticky)) := by
  rw [tagBind_dressed, register]
  refine ⟨?_, ?_, fun none => ?_, fun older e newer split serial first => ?_⟩
  · split
    · exact State.pushItem_strayBody ..
    · dsimp only
      split
      · split
        · exact State.pushItem_strayBody ..
        · rfl
      · exact State.pushItem_strayBody ..
  · split
    · exact State.pushItem_tagMissing ..
    · dsimp only
      split
      · split
        · exact State.pushItem_tagMissing ..
        · rfl
      · exact State.pushItem_tagMissing ..
  · have unfound : s.tracker.register.find? (fun e => e.serial == n) = Option.none :=
      List.find?_eq_none.2 fun e he => by simpa using none e he
    rw [unfound]
    exact ⟨(State.boundAs_boundTo ..).pushItem _, (congrArg Tracker.register (State.pushItem_tracker _ _)).trans register, State.boundAs_pushed _ _ within⟩
  · have found : s.tracker.register.find? (fun e => e.serial == n) = some e :=
      find?_of_first split (by simpa using serial) fun x hx => by simpa using first x hx
    rw [found, olderThan_of_split split serial first]
    dsimp only
    refine ⟨?_, fun agrees => ?_, fun differs => ?_⟩
    · unfold marked
      split
      · split
        · exact congrArg Tracker.register (State.pushItem_tracker _ _)
        · rfl
      · exact congrArg Tracker.register (State.pushItem_tracker _ _)
    · rw [if_pos agrees, ← agrees.1, ← agrees.2]
      by_cases behind : ∃ x ∈ older, x.mark = .ahead ∧ x.announcer ≤ s.own
      · rw [if_pos (by simpa using behind), if_pos behind]
        exact ⟨(State.boundAs_boundTo ..).pushItem _, State.boundAs_pushed _ _ within⟩
      · rw [if_neg (by simpa using behind), if_neg behind]
        exact ⟨State.boundAs_boundTo .., pushed_nil s within⟩
    · rw [if_neg differs]
      exact ⟨(State.boundAs_boundTo ..).pushItem _, State.boundAs_pushed _ _ within⟩

end

/-! ## The waits of the tag port, and arrivals -/

theorem execPairingWaitExpiry_of_pairing {d : Word32} (due : s.counter.pairWatch = .due) (pairing : s.tracker.zone = .pairing d) :
    exec .pairingWaitExpiry s =
      .next (orderBind d (s.dressed s.counter.heldWatch .disarmed s.counter.zoneWatch s.tracker s.line.outbox
        { s.sticky with tagMissing := true })) := by
  show execPairingWaitExpiry s = _
  unfold execPairingWaitExpiry
  rw [if_pos due, pairing]
  rfl

/-- Settles O15. -/
theorem tagWaitsEnd : Obligations.TagWaitsEnd := by
  unfold Obligations.TagWaitsEnd
  refine ⟨fun s due => if_pos due, fun s d due pairing => ⟨_, execPairingWaitExpiry_of_pairing due pairing, ?_⟩⟩
  have beside := orderBind_bindsBeside (s := s) (h := s.counter.heldWatch) (p := .disarmed) (z := s.counter.zoneWatch)
    (r := s.tracker) (o := s.line.outbox) (k := { s.sticky with tagMissing := true }) d
  exact ⟨by rw [beside.sticky], by rw [beside.counter], by rw [beside.counter], by rw [beside.counter], beside.tracker,
    orderBind_boundByOrder d rfl rfl rfl, beside.bindingFrame rfl⟩

/-- The tracker once the rise of BODY_IN is taken. -/
def Tracker.arrived (r : Tracker) : Tracker := { r with bodyIn := { raw := true, filtered := true, wait := .stopped } }

/-- An arrival into an empty zone arms the zone length watch at the datum, and binds or pairs (R50). -/
theorem execArrival_of_empty (running : s.isRunning = true)
    (rise : s.tracker.bodyIn = { raw := true, filtered := false, wait := .running 2000 }) (empty : s.tracker.zone = .empty) :
    let T := s.counter.tracked
    let z := Watch.arm T (s.sc.zoneLength - 1)
    exec .arrival s =
      .next (if s.sc.reader then
          match s.tracker.held with
          | some r =>
            tagBind T r.serial r.style r.options
              (s.dressed .disarmed s.counter.pairWatch z { s.tracker.arrived with held := none } s.line.outbox s.sticky)
          | none =>
            (s.dressed s.counter.heldWatch (Watch.arm T s.sc.tagWait) z s.tracker.arrived s.line.outbox s.sticky).setZone
              (.pairing T)
        else
          orderBind T (s.dressed s.counter.heldWatch s.counter.pairWatch z s.tracker.arrived s.line.outbox s.sticky)) := by
  dsimp only
  have taken : s.setSensor .bodyIn s.tracker.bodyIn.settle =
      s.dressed s.counter.heldWatch s.counter.pairWatch s.counter.zoneWatch s.tracker.arrived s.line.outbox s.sticky := by
    rw [rise]
    rfl
  have unended : zoneEnd (s.setSensor .bodyIn s.tracker.bodyIn.settle) = s.setSensor .bodyIn s.tracker.bodyIn.settle := by
    unfold zoneEnd
    rw [State.setSensor_zone, empty]
  refine (if_pos ⟨running, by rw [rise]; rfl⟩).trans (congrArg _ ?_)
  unfold takeArrival
  dsimp only
  rw [unended, taken]
  rfl

/-- The close-outs read neither BODY_IN nor the zone length watch. -/
theorem takeOutcome_dressed (h p z : Watch) (r : Tracker) (o : List Item) (k : Sticky) (c : Chan) (x : PointOutcome) (j : Nat)
    (s : State) : takeOutcome c x j (s.dressed h p z r o k) = (takeOutcome c x j s).dressed h p z r o k := by
  have place : (s.dressed h p z r o k).writePlace c j x = (s.writePlace c j x).dressed h p z r o k := by
    obtain ⟨st, kt, ⟨reg, zone, held, b, e, tb, tt⟩, a, b', v, l, ax, y, q⟩ := s
    cases zone <;> rfl
  have output (u : State) (i : Fin 8) (v : Bool) :
      (u.dressed h p z r o k).setOutput i v = (u.setOutput i v).dressed h p z r o k := by
    unfold State.setOutput
    rw [show (u.dressed h p z r o k).aux = u.aux from rfl]
    split <;> rfl
  have record : (s.dressed h p z r o k).pointRec c j = s.pointRec c j := by cases c <;> rfl
  unfold takeOutcome
  rw [record, place]
  split
  · dsimp only
    split
    · exact output _ _ _
    · rfl
  · rfl

theorem takeOutcomes_dressed (h p z : Watch) (r : Tracker) (o : List Item) (k : Sticky) (c : Chan) (x : PointOutcome) (n : Nat) :
    ∀ (j : Nat) (s : State),
      takeOutcomes c x n j (s.dressed h p z r o k) = (takeOutcomes c x n j s).dressed h p z r o k := by
  induction n with
  | zero => exact fun _ _ => rfl
  | succ n ih =>
    intro j s
    show takeOutcomes c x n (j + 1) (takeOutcome c x j (s.dressed h p z r o k)) = _
    rw [takeOutcome_dressed, ih]
    rfl

theorem closeOut_dressed (h p z : Watch) (r : Tracker) (o : List Item) (k : Sticky) (c : Chan) (s : State) :
    closeOut c (s.dressed h p z r o k) = (closeOut c s).dressed h p z r o k := by
  have eng : (s.dressed h p z r o k).eng c = s.eng c := by cases c <;> rfl
  have idle (u : State) : enterIdle c (u.dressed h p z r o k) = (enterIdle c u).dressed h p z r o k := by cases c <;> rfl
  have down : dropFire c (s.dressed h p z r o k) = (dropFire c s).dressed h p z r o k := by cases c <;> rfl
  unfold closeOut
  dsimp only
  rw [eng]
  split <;> simp only [down, takeOutcome_dressed, takeOutcomes_dressed, idle]

end Sys2Proof.Machine
end

