-- ==== Sys2Proof/Proofs/ZoneEnds.lean ====
section
/-!
Zone ends in one closed form (03, 08), arrivals, the tag port, and the items that act on the register.
-/

namespace Sys2Proof.Machine

variable {s t u : State} {c : Chan}

/-! ## The items of a zone end -/

/-- The items of a body that leaves the zone (R60, steps 2 and 3). -/
def Body.zoneItems (exit : Bool) (b : Body) : List Item :=
  (if b.partA.answer = .absent then [] else [.result (formResult .a b)])
    ++ (if b.partB.answer = .absent then [] else [.result (formResult .b b)])
    ++ (if exit then [.depart b.serial] else [])

/-- Items are handed over in their order. -/
def State.pushItems (s : State) (items : List Item) : State := items.foldl State.pushItem s

theorem State.pushItems_append (s : State) (xs ys : List Item) :
    s.pushItems (xs ++ ys) = (s.pushItems xs).pushItems ys := List.foldl_append

theorem State.pushItems_pushed (items : List Item) :
    ∀ s : State, s.line.outbox.length ≤ 16 → pushed items s (s.pushItems items) := by
  induction items with
  | nil => exact pushed_nil
  | cons i rest ih =>
    intro s within
    have first := (State.pushItem_pushed s i within).1
    exact first.append (ih _ first.length_le)

/-- What items handed over leave of the part, beside any watches and tracker. -/
theorem State.dressed_pushItems (items : List Item) :
    ∀ (o : List Item) (k : Sticky), ∃ o' full, ∀ (s : State) (h p z : Watch) (r : Tracker),
      (s.dressed h p z r o k).pushItems items = s.dressed h p z r o' { k with outboxOverflow := full } := by
  induction items with
  | nil => exact fun o k => ⟨o, k.outboxOverflow, fun _ _ _ _ _ => rfl⟩
  | cons i rest ih =>
    intro o k
    by_cases room : o.length < 16
    · obtain ⟨o', full, same⟩ := ih (o ++ [i]) k
      exact ⟨o', full, fun s h p z r => by rw [← same s]; exact congrArg (State.pushItems · rest) (if_pos room)⟩
    · obtain ⟨o', full, same⟩ := ih o { k with outboxOverflow := true }
      exact ⟨o', full, fun s h p z r => (congrArg (State.pushItems · rest) (if_neg room)).trans (same s h p z r)⟩

theorem pushResult_eq (c : Chan) (b : Body) (s : State) :
    pushResult c b s = s.pushItems (if (b.part c).answer = .absent then [] else [.result (formResult c b)]) := by
  unfold pushResult
  cases (b.part c).answer <;> rfl

theorem finishZone_eq {d : Word32} {b : Body} (zone : s.tracker.zone = .bound d b) :
    finishZone s =
      (((s.pushItems (b.zoneItems s.sc.exit)).markEntry b.serial .passed).endWatches).setZone .empty := by
  have kept : (pushResult .b b (pushResult .a b s)).sc = s.sc := by
    rw [State.sc, State.sc, pushResult_store, pushResult_store]
  unfold finishZone
  rw [zone]
  dsimp only
  unfold Body.zoneItems
  rw [State.pushItems_append, State.pushItems_append]
  rw [show s.pushItems (if b.partA.answer = .absent then [] else [.result (formResult .a b)]) = pushResult .a b s from
    (pushResult_eq .a b s).symm]
  rw [show (pushResult .a b s).pushItems (if b.partB.answer = .absent then [] else [.result (formResult .b b)]) =
    pushResult .b b (pushResult .a b s) from (pushResult_eq .b b _).symm]
  cases s.sc.exit <;> rfl

/-! ## The end of a zone (R59 to R61) -/

/-- The zone record of a body after both engines closed out. -/
theorem closeOutBoth_zone {d : Word32} {b : Body} (zone : s.tracker.zone = .bound d b) :
    ∃ b', (closeOut .b (closeOut .a s)).tracker.zone = .bound d b' ∧ b'.serial = b.serial := by
  have first := (closeOut_apart .a s).zone
  rw [zone] at first
  obtain ⟨p, first, -⟩ := first
  have second := (closeOut_apart .b (closeOut .a s)).zone
  rw [first] at second
  obtain ⟨q, second, -⟩ := second
  exact ⟨_, second, by simp⟩

theorem zoneEnd_zone (s : State) : (zoneEnd s).tracker.zone = .empty := by
  unfold zoneEnd
  split
  · assumption
  · rename_i zone
    obtain ⟨b, bound, -⟩ := closeOutBoth_zone zone
    rw [finishZone_eq bound]
    rfl
  · rfl
  · rfl

/-- The end of a zone that is not EMPTY reads neither BODY_IN nor the zone length watch. -/
theorem zoneEnd_setSensor (full : s.tracker.zone ≠ .empty) (x : Sensor) (w : Watch) :
    zoneEnd (s.setSensor .bodyIn x) =
      (zoneEnd { s with counter := { s.counter with zoneWatch := w } }).setSensor .bodyIn x := by
  have left : s.setSensor .bodyIn x = s.dressed s.counter.heldWatch s.counter.pairWatch s.counter.zoneWatch
      { s.tracker with bodyIn := x } s.line.outbox s.sticky := rfl
  have right : ({ s with counter := { s.counter with zoneWatch := w } } : State) =
      s.dressed s.counter.heldWatch s.counter.pairWatch w s.tracker s.line.outbox s.sticky := rfl
  have zoneOf (h p z : Watch) (r : Tracker) (o : List Item) (k : Sticky) (v : State) :
      (v.dressed h p z r o k).tracker.zone = v.tracker.zone := rfl
  rw [left, right]
  unfold zoneEnd
  rw [zoneOf, zoneOf]
  cases zone : s.tracker.zone with
  | empty => exact absurd zone full
  | pairing d => rfl
  | stray d => rfl
  | bound d b =>
    obtain ⟨b', bound, -⟩ := closeOutBoth_zone zone
    obtain ⟨o, overflow, items⟩ := State.dressed_pushItems (b'.zoneItems (closeOut .b (closeOut .a s)).sc.exit)
      s.line.outbox s.sticky
    have sc (h p z : Watch) (r : Tracker) (o : List Item) (k : Sticky) (v : State) : (v.dressed h p z r o k).sc = v.sc := rfl
    simp only [closeOut_dressed]
    rw [finishZone_eq (d := d) (b := b') (by rw [zoneOf]; exact bound),
      finishZone_eq (d := d) (b := b') (by rw [zoneOf]; exact bound), sc, sc, items, items]
    rfl

/-- The end of a zone leaves BODY_IN, the line state and the store. -/
theorem zoneEnd_kept (s : State) :
    (zoneEnd s).tracker.bodyIn = s.tracker.bodyIn ∧ (zoneEnd s).isRunning = s.isRunning := by
  unfold zoneEnd
  split
  · exact ⟨rfl, rfl⟩
  · rename_i zone
    obtain ⟨b, bound, -⟩ := closeOutBoth_zone zone
    have first := closeOut_apart .a s
    have second := closeOut_apart .b (closeOut .a s)
    rw [finishZone_eq bound]
    have pushed (items : List Item) : ∀ v : State, (v.pushItems items).tracker = v.tracker ∧
        (v.pushItems items).line.state = v.line.state := by
      induction items with
      | nil => exact fun _ => ⟨rfl, rfl⟩
      | cons i rest ih => exact fun v => ⟨(ih _).1.trans (by simp), (ih _).2.trans (by simp)⟩
    refine ⟨?_, ?_⟩
    · show ((State.pushItems _ _).tracker).bodyIn = _
      rw [(pushed _ _).1, second.tracker, first.tracker]
    · show ((State.pushItems _ _).line.state).running = _
      rw [(pushed _ _).2, second.line, first.line]
      rfl
  · exact ⟨rfl, rfl⟩
  · exact ⟨rfl, rfl⟩

/-- An arrival at a zone that is not EMPTY is the same arrival at the zone ended before it (R50). -/
theorem takeArrival_of_full (full : s.tracker.zone ≠ .empty) (x : Sensor) (w : Watch) :
    takeArrival (s.setSensor .bodyIn x) =
      takeArrival ((zoneEnd { s with counter := { s.counter with zoneWatch := w } }).setSensor .bodyIn x) := by
  have ended : zoneEnd ((zoneEnd { s with counter := { s.counter with zoneWatch := w } }).setSensor .bodyIn x) =
      (zoneEnd { s with counter := { s.counter with zoneWatch := w } }).setSensor .bodyIn x := by
    generalize before : (zoneEnd { s with counter := { s.counter with zoneWatch := w } }).setSensor .bodyIn x = v
    have empty : v.tracker.zone = .empty := by rw [← before, State.setSensor_zone, zoneEnd_zone]
    unfold zoneEnd
    rw [empty]
  have constants : ((zoneEnd { s with counter := { s.counter with zoneWatch := w } }).setSensor .bodyIn x).sc =
      (s.setSensor .bodyIn x).sc := by rw [State.sc, State.sc, State.setSensor_store, State.setSensor_store, zoneEnd_store]
  unfold takeArrival
  rw [ended, zoneEnd_setSensor full x w, constants]

theorem execZoneLengthEvent_of_due (due : s.counter.zoneWatch = .due) :
    exec .zoneLengthEvent s = .next (zoneEnd { s with counter := { s.counter with zoneWatch := .disarmed } }) := if_pos due

/-- Settles O16: the empty zone by the cases of R50, and any other zone by its end. -/
theorem arrivalTakesBody : Obligations.ArrivalTakesBody := by
  unfold Obligations.ArrivalTakesBody
  refine ⟨fun s running rise empty within => ?_, fun s running rises full => ?_⟩
  · have arrival := execArrival_of_empty running rise empty
    dsimp only at arrival ⊢
    rw [arrival]
    refine ⟨_, rfl, ?_⟩
    generalize hz : Watch.arm s.counter.tracked (s.sc.zoneLength - 1) = z
    cases reader : s.sc.reader with
    | false =>
      rw [if_neg (by simp)]
      have beside := orderBind_bindsBeside (s := s) (h := s.counter.heldWatch) (p := s.counter.pairWatch) (z := z)
        (r := s.tracker.arrived) (o := s.line.outbox) (k := s.sticky) s.counter.tracked
      refine ⟨beside.bindingFrame rfl, ?_, by rw [beside.counter, ← hz]; rfl, by rw [beside.sticky], fun _ => ⟨?_, ?_, ?_, ?_⟩,
        fun h => absurd h (by simp), fun _ h => absurd h (by simp)⟩
      · rw [beside.tracker]; rfl
      · exact orderBind_boundByOrder _ rfl rfl rfl
      · rw [beside.tracker]; rfl
      · rw [beside.counter]
      · rw [beside.counter]
    | true =>
      rw [if_pos rfl]
      cases held : s.tracker.held with
      | none =>
        refine ⟨?_, ?_, by rw [← hz]; rfl, rfl, fun h => absurd h (by simp), fun _ _ => ?_, fun _ _ h => absurd h (by simp)⟩
        · rfl
        · rfl
        · dsimp only
          rw [← held]
          rfl
      | some r =>
        have beside := tagBind_bindsBeside (s := s) (h := .disarmed) (p := s.counter.pairWatch) (z := z)
          (r := { s.tracker.arrived with held := none }) (o := s.line.outbox) (k := s.sticky) s.counter.tracked r.serial r.style
          r.options
        refine ⟨beside.bindingFrame rfl, ?_, by rw [beside.counter, ← hz]; rfl, by rw [beside.sticky], fun h => absurd h (by simp),
          fun _ h => absurd h (by simp), fun r' _ same => ?_⟩
        · rw [beside.tracker]; rfl
        · obtain rfl := Option.some.inj same
          refine ⟨tagBind_boundByTag _ _ _ _ rfl within, ?_, ?_, ?_⟩
          · rw [beside.tracker]
          · rw [beside.counter]
          · rw [beside.counter]
  · refine ⟨_, execZoneLengthEvent_of_due rfl, zoneEnd_zone _, ?_⟩
    obtain ⟨bodyIn, runs⟩ := zoneEnd_kept { s with counter := { s.counter with zoneWatch := .disarmed } }
    refine (if_pos ⟨running, rises⟩).trans ((congrArg _ ?_).trans (if_pos ⟨runs.trans running, ?_⟩).symm)
    · rw [bodyIn]
      exact takeArrival_of_full full _ _
    · rw [bodyIn]
      exact rises

/-! ## Zone length and ZONE_OUT (R33, R59) -/

/-- On a bound body each engine with a point stands at one of its program's points (R71). -/
theorem State.PlacesFollow.pointed (h : s.PlacesFollow) {d : Word32} {b : Body} (zone : s.tracker.zone = .bound d b) :
    s.Pointed := fun c point => ⟨((h.part zone c).at_bounds point).1, ((h.part zone c).at_bounds point).2.1⟩

/-- The part beside which a zone ends: the sensor taken, or the zone length watch disarmed. -/
def State.ending (s : State) (i : Instr) : State :=
  s.dressed s.counter.heldWatch s.counter.pairWatch (if i = .zoneExit then s.counter.zoneWatch else .disarmed)
    { s.tracker with zoneOut := if i = .zoneExit then { raw := true, filtered := true, wait := .stopped } else s.tracker.zoneOut }
    s.line.outbox s.sticky

theorem exec_of_ending {i : Instr} (ends : (i = .zoneLengthEvent ∧ s.counter.zoneWatch = .due)
      ∨ (i = .zoneExit ∧ s.isRunning = true ∧ s.tracker.zoneOut = { raw := true, filtered := false, wait := .running 2000 })) :
    exec i s = .next (zoneEnd (s.ending i)) := by
  rcases ends with ⟨rfl, due⟩ | ⟨rfl, running, rise⟩
  · exact execZoneLengthEvent_of_due due
  · refine (if_pos ⟨running, by rw [rise]; rfl⟩).trans (congrArg (fun x => Host.Outcome.next (zoneEnd x)) ?_)
    rw [rise]
    rfl

theorem zoneEnd_of_bound {d : Word32} {b : Body} (zone : s.tracker.zone = .bound d b) :
    zoneEnd s = finishZone (closeOut .b (closeOut .a s)) := by
  unfold zoneEnd
  rw [zone]

/-- The end of a bound zone beside any watches and ZONE_OUT (R60). -/
theorem zoneEnd_dressed {d : Word32} {b : Body} (h p z : Watch) (r : Tracker) (zone : s.tracker.zone = .bound d b)
    (pointed : s.Pointed) :
    ∃ o full, (s.line.outbox.length ≤ 16 → pushed (zoneEndItems s) s (s.dressed h p z r o { s.sticky with outboxOverflow := full }))
      ∧ zoneEnd (s.dressed h p z r s.line.outbox s.sticky) =
        (((((s.closedOut .a).closedOut .b).dressed h p z r o { s.sticky with outboxOverflow := full }).markEntry b.serial
          .passed).endWatches).setZone .empty := by
  have zoneOf (o : List Item) (k : Sticky) (v : State) : (v.dressed h p z r o k).tracker.zone = v.tracker.zone := rfl
  have both := closeOutBoth_eq s pointed
  obtain ⟨b', bound, serial⟩ := closeOutBoth_zone zone
  rw [both] at bound
  have exit : ((s.closedOut .a).closedOut .b).sc = s.sc := by
    rw [State.sc, State.sc, (State.closedOut_frame _ .b).1, (State.closedOut_frame _ .a).1]
  have items : zoneEndItems s = b'.zoneItems s.sc.exit := by
    unfold zoneEndItems
    rw [bound]
    rfl
  obtain ⟨o, full, pushes⟩ := State.dressed_pushItems (zoneEndItems s) s.line.outbox s.sticky
  refine ⟨o, full, fun within => ?_, ?_⟩
  · have taken := State.pushItems_pushed (zoneEndItems s) (s.dressed h p z r s.line.outbox s.sticky) within
    rwa [pushes] at taken
  · rw [zoneEnd_of_bound (s := s.dressed h p z r s.line.outbox s.sticky) zone, closeOut_dressed, closeOut_dressed, both,
      finishZone_eq (s := ((s.closedOut .a).closedOut .b).dressed h p z r s.line.outbox s.sticky) bound,
      show (((s.closedOut .a).closedOut .b).dressed h p z r s.line.outbox s.sticky).sc = s.sc from exit, ← items, pushes, serial]

/-- Settles O17. -/
theorem zoneEnds : Obligations.ZoneEnds := by
  unfold Obligations.ZoneEnds
  intro i s ends
  have next := exec_of_ending ends
  dsimp only
  rw [next]
  have zoneOf : (s.ending i).tracker.zone = s.tracker.zone := rfl
  refine ⟨fun empty => ?_, fun d stray => ?_, fun d pairing => ?_, fun d b bound places within => ?_⟩
  · have unended : zoneEnd (s.ending i) = s.ending i := by
      unfold zoneEnd
      rw [zoneOf, empty]
    rw [unended]
    rfl
  · unfold zoneEnd
    rw [zoneOf, stray]
    rfl
  · unfold zoneEnd
    rw [zoneOf, pairing]
    rfl
  · obtain ⟨o, full, pushes, ended⟩ := zoneEnd_dressed s.counter.heldWatch s.counter.pairWatch
      (if i = .zoneExit then s.counter.zoneWatch else .disarmed)
      { s.tracker with
        zoneOut := if i = .zoneExit then { raw := true, filtered := true, wait := .stopped } else s.tracker.zoneOut }
      bound (places.pointed bound)
    obtain ⟨store, view, line, -, pending, inputs, -, counter⟩ := State.closedOut_frame (s.closedOut .a) .b
    obtain ⟨storeA, viewA, lineA, -, pendingA, inputsA, -, counterA⟩ := State.closedOut_frame s .a
    refine ⟨_, congrArg _ ended, rfl, pushes within, ?_⟩
    unfold State.dressed State.markEntry State.endWatches State.setZone
    dsimp only
    rw [store, storeA, view, viewA, line, lineA, pending, pendingA, counter, counterA]

/-! ## The tag port (R54 to R56) -/

/-- The tag receiver is empty. -/
def State.tagIdle (s : State) : State :=
  s.dressed s.counter.heldWatch s.counter.pairWatch s.counter.zoneWatch
    { s.tracker with tagBytes := [], tagTimer := .stopped } s.line.outbox s.sticky

theorem execTagByte_of_running (running : s.isRunning = true) (reader : s.sc.reader = true) (x : Byte) (stopHigh : Bool) :
    exec (.tagByte x stopHigh) s = .next (if stopHigh then takeTagByte x s else tagError s) := if_pos ⟨running, reader⟩

theorem execTagByteTimeout_of_begun (running : s.isRunning = true) (begun : s.tracker.tagBytes ≠ []) :
    exec .tagByteTimeout s = .next (tagError s) := if_pos ⟨running, begun⟩

/-- The byte that fills the record (R54). -/
theorem takeTagByte_eighth {b0 b1 b2 b3 b4 b5 b6 x : Byte} (bytes : s.tracker.tagBytes = [b0, b1, b2, b3, b4, b5, b6]) :
    takeTagByte x s =
      if x = b1 ^^^ b2 ^^^ b3 ^^^ b4 ^^^ b5 ^^^ b6 ∧ be24 b1 b2 b3 ≠ 0 then
        takeTagRecord (be24 b1 b2 b3) b4 (be16 b5 b6) s.tagIdle
      else tagError s := by
  unfold takeTagByte
  rw [bytes]
  rfl

/-- A byte within the record (R54). -/
theorem takeTagByte_within {x : Byte} (first : 1 ≤ s.tracker.tagBytes.length) (last : s.tracker.tagBytes.length ≤ 6) :
    takeTagByte x s =
      { s with tracker := { s.tracker with tagBytes := s.tracker.tagBytes ++ [x], tagTimer := .running 2000 } } := by
  have some : s.tracker.tagBytes ≠ [] := List.ne_nil_of_length_pos first
  unfold takeTagByte
  dsimp only
  rw [if_neg fun h => some h.1, if_neg (by simp; omega)]
  rfl

/-- A good record that neither binds nor repeats the bound body's is held (R56). -/
theorem takeTagRecord_of_held {n : Word24} {y : Byte} {o : Word16} (free : ∀ d, s.tracker.zone ≠ .pairing d)
    (differs : ∀ d b, s.tracker.zone = .bound d b → b.serial ≠ n) :
    takeTagRecord n y o s.tagIdle =
      { s.tagIdle with
        tracker := { s.tagIdle.tracker with held := some { serial := n, style := y, options := o, position := s.counter.tracked } }
        counter := { s.tagIdle.counter with heldWatch := Watch.arm s.counter.tracked s.sc.tagWait } } := by
  have zoneOf : s.tagIdle.tracker.zone = s.tracker.zone := rfl
  unfold takeTagRecord
  split
  · rename_i d zone
    exact absurd (zoneOf.symm.trans zone) (free d)
  · rename_i d b zone
    exact if_neg (differs d b (zoneOf.symm.trans zone))
  · rfl
  · rfl

/-- Settles O19. -/
theorem tagPort : Obligations.TagPort := by
  unfold Obligations.TagPort
  intro s running reader
  have byte := execTagByte_of_running running reader
  refine ⟨fun x => byte x false, fun begun => execTagByteTimeout_of_begun running begun, fun idle => ⟨?_, fun x other => ?_⟩,
    fun x first last => ?_, fun b0 b1 b2 b3 b4 b5 b6 x bytes => ?_⟩
  · rw [byte]
    unfold takeTagByte
    rw [idle]
    rfl
  · rw [byte]
    exact congrArg _ (if_pos (c := s.tracker.tagBytes = [] ∧ x ≠ 0x5B) ⟨idle, other⟩)
  · rw [byte]
    exact congrArg _ (takeTagByte_within first last)
  · have eighth := takeTagByte_eighth (x := x) bytes
    dsimp only
    rw [byte, if_pos rfl, eighth]
    refine ⟨fun bad => by rw [if_neg bad]; rfl, fun good d pairing within => ?_, fun good same => ?_, fun good free differs => ?_⟩
    · rw [if_pos good]
      have beside := tagBind_bindsBeside (s := s) (h := s.counter.heldWatch) (p := s.counter.pairWatch) (z := s.counter.zoneWatch)
        (r := { s.tracker with tagBytes := [], tagTimer := .stopped }) (o := s.line.outbox) (k := s.sticky) d (be24 b1 b2 b3) b4
        (be16 b5 b6)
      have bound := tagBind_boundByTag (s := s) (h := s.counter.heldWatch) (p := s.counter.pairWatch) (z := s.counter.zoneWatch)
        (r := { s.tracker with tagBytes := [], tagTimer := .stopped }) d (be24 b1 b2 b3) b4 (be16 b5 b6) rfl within
      have taken : takeTagRecord (be24 b1 b2 b3) b4 (be16 b5 b6) s.tagIdle = tagBind d (be24 b1 b2 b3) b4 (be16 b5 b6) s.tagIdle := by
        unfold takeTagRecord
        rw [show s.tagIdle.tracker.zone = .pairing d from pairing]
      refine ⟨_, congrArg _ taken, bound, ?_, ?_, ?_, ?_, beside.tracker, beside.bindingFrame rfl⟩
      · exact (congrArg Counter.pairWatch beside.counter :)
      · exact (congrArg Counter.zoneWatch beside.counter :)
      · exact (congrArg Counter.heldWatch beside.counter :)
      · exact (congrArg Sticky.tagMissing beside.sticky :)
    · obtain ⟨d, b, zone, serial⟩ := same
      rw [if_pos good]
      unfold takeTagRecord
      rw [show s.tagIdle.tracker.zone = .bound d b from zone]
      exact congrArg _ (if_pos serial)
    · rw [if_pos good, takeTagRecord_of_held free differs]
      rfl

/-! ## Items applied to the register (R39 to R45) -/

theorem any_serial_iff {reg : List Entry} {n : Word24} : (reg.any fun e => e.serial == n) = true ↔ ∃ e ∈ reg, e.serial = n := by
  simp

theorem Zone.unlistedWith_iff {z : Zone} {n : Word24} :
    z.unlistedWith n = true ↔ ∃ d b, z = .bound d b ∧ b.listed = false ∧ b.serial = n := by
  cases z <;> simp [Zone.unlistedWith]

theorem evictIfFull_eq (within : s.tracker.register.length ≤ 24) :
    evictIfFull s = { s with
      tracker := { s.tracker with
        register := if s.tracker.register.length = 24 then s.tracker.register.drop 1 else s.tracker.register }
      sticky := { s.sticky with
        registerEviction := s.sticky.registerEviction || decide (s.tracker.register.length = 24) } } := by
  unfold evictIfFull
  by_cases full : s.tracker.register.length = 24
  · rw [if_neg (by simp [Config.registerCapacity, full]), if_pos full, decide_eq_true full, Bool.or_true]
  · rw [if_pos (by unfold Config.registerCapacity; omega), if_neg full, decide_eq_false full, Bool.or_false]

/-- The mark of a new entry (R40, step 4). -/
theorem announceMark_eq (own sender : Nat) :
    (sender = own → announceMark own sender = .passed) ∧ (sender < own → announceMark own sender = .ahead)
      ∧ (own < sender → announceMark own sender = .notMine) := by
  unfold announceMark
  refine ⟨fun h => if_pos h, fun h => ?_, fun h => ?_⟩
  · rw [if_neg (by omega), if_pos h]
  · rw [if_neg (by omega), if_neg (by omega)]

/-- An ANNOUNCE of a serial that the register does not hold (R40, R41). -/
theorem applyAnnounce_new (sender : Nat) {n : Word24} (y : Byte) (o : Word16)
    (new : ∀ e ∈ s.tracker.register, e.serial ≠ n) (within : s.tracker.register.length ≤ 24) :
    applyAnnounce sender n y o s = { s with
      tracker := { s.tracker with
        register := (if s.tracker.register.length = 24 then s.tracker.register.drop 1 else s.tracker.register)
          ++ [{ serial := n, style := y, options := o, announcer := sender, disputed := false,
                mark := if s.tracker.zone.unlistedWith n then .here else announceMark s.own sender }]
        zone := if s.tracker.zone.unlistedWith n then s.tracker.zone.makeListed else s.tracker.zone }
      sticky := { s.sticky with
        registerEviction := s.sticky.registerEviction || decide (s.tracker.register.length = 24) } } := by
  unfold applyAnnounce
  rw [if_neg (by simpa using new), evictIfFull_eq within]

/-- A RESYNC of a serial that the register holds (R43). -/
theorem resyncRegister_of_split (sender : Nat) {reg older newer : List Entry} {e : Entry} {n : Word24}
    (split : reg = older ++ e :: newer) (serial : e.serial = n) (first : ∀ x ∈ older, x.serial ≠ n) :
    resyncRegister sender n reg = (older.filter fun x => sender < x.announcer) ++ e :: newer := by
  have held : (reg.any fun e => e.serial == n) = true := any_serial_iff.2 ⟨e, by simp [split], serial⟩
  have rest : reg.dropWhile (fun e => e.serial != n) = e :: newer := by
    rw [split, List.dropWhile_append_of_pos (fun x hx => by simpa using first x hx),
      List.dropWhile_cons_of_neg (by simp [serial])]
  unfold resyncRegister
  rw [if_pos held, olderThan_of_split split serial first, rest]

/-- Settles O21. -/
theorem registerItemsApplied : Obligations.RegisterItemsApplied := by
  unfold Obligations.RegisterItemsApplied
  intro sender exit s
  refine ⟨rfl, fun _ _ => rfl, fun _ => rfl, fun _ _ => ⟨rfl, rfl, rfl, rfl⟩, fun n y o known => ?_,
    fun n y o nonzero new within => ?_, fun n y o nonzero => if_neg nonzero, fun n new => ?_,
    fun n older e newer nonzero split serial first => ?_, fun n nonzero => ?_⟩
  · show (if n = 0 then s else applyAnnounce sender n y o s) = s
    unfold applyAnnounce
    rw [if_pos (any_serial_iff.2 known), ite_self]
  · have announced : applyItem sender exit s (.announce n y o) = applyAnnounce sender n y o s := if_neg nonzero
    obtain ⟨own, below, above⟩ := announceMark_eq s.own sender
    refine ⟨_, rfl, ?_⟩
    dsimp only
    rw [announced, applyAnnounce_new sender y o new within]
    have listed := Zone.unlistedWith_iff (z := s.tracker.zone) (n := n)
    refine ⟨rfl, ⟨_, rfl, fun unlisted => if_pos (listed.2 unlisted), fun known eq => ?_, fun known lt => ?_, fun known gt => ?_⟩,
      fun known => if_neg (mt listed.1 known), fun d b zone same => ?_⟩
    · rw [if_neg (mt listed.1 known), own eq]
    · rw [if_neg (mt listed.1 known), below lt]
    · rw [if_neg (mt listed.1 known), above gt]
    · obtain ⟨serial, style, options, disputed, l, pa, pb⟩ := b
      cases l with
      | false =>
        dsimp only
        rw [if_pos (listed.2 ⟨d, _, zone, rfl, same⟩), zone]
        rfl
      | true =>
        have known : ¬s.tracker.zone.unlistedWith n = true := fun h => by
          obtain ⟨d', b', zone', free, -⟩ := listed.1 h
          obtain ⟨rfl, rfl⟩ := Zone.bound.inj (zone.symm.trans zone')
          cases free
        dsimp only
        rw [if_neg known, zone]
  · have free : (s.tracker.register.any fun e => e.serial == n) = false := by simpa using new
    refine ⟨?_, ?_⟩
    · show (if n = 0 then s else applyResync sender n s) = s
      unfold applyResync resyncRegister
      rw [free]
      exact ite_self _
    · have kept : s.tracker.register.filter (fun e => e.serial != n) = s.tracker.register :=
        List.filter_eq_self.2 fun e he => by simpa using new e he
      show (if n = 0 then s else applyDepart exit n s) = s
      unfold applyDepart
      rw [kept]
      cases exit <;> exact ite_self _
  · have resynced (u : State) : applyItem sender exit u (.resync n) = applyResync sender n u := if_neg nonzero
    have once := resyncRegister_of_split sender split serial first
    have again := resyncRegister_of_split (reg := (older.filter fun x => sender < x.announcer) ++ e :: newer) sender rfl serial
      fun x hx => first x (List.mem_of_mem_filter hx)
    rw [List.filter_filter] at again
    simp only [Bool.and_self] at again
    dsimp only
    refine ⟨?_, ?_⟩
    · rw [resynced, applyResync, once]
    · rw [resynced, resynced, applyResync, applyResync]
      dsimp only
      rw [once, again]
  · have departed : applyItem sender exit s (.depart n) = applyDepart exit n s := if_neg nonzero
    dsimp only
    have tests : (fun e : Entry => e.serial != n) = fun e => decide (e.serial ≠ n) := funext fun e => by
      simp [bne, Bool.beq_eq_decide_eq]
    rw [departed, applyDepart, tests]

end Sys2Proof.Machine
end

