-- ==== Sys2Proof/Proofs/Results.lean ====
section
/-!
SUPPORT. The RESULT of a channel whose places are all written (08): the counts and the defect list.
-/

namespace Sys2Proof.Machine

/-! ## Lists of outcomes -/

/-- Places all written are outcomes. -/
theorem exists_map_some {places : List (Option PointOutcome)} (written : ∀ x ∈ places, x ≠ none) :
    ∃ os : List PointOutcome, places = os.map some := by
  refine ⟨places.reduceOption, ?_⟩
  induction places with
  | nil => rfl
  | cons x rest ih =>
    obtain ⟨first, others⟩ := List.forall_mem_cons.1 written
    obtain ⟨o, rfl⟩ := Option.ne_none_iff_exists'.1 first
    rw [List.reduceOption_cons_of_some, List.map_cons, ← ih others]

theorem countPlaces_map_some (p : PointOutcome → Bool) (os : List PointOutcome) :
    countPlaces p (os.map some) = os.countP p := by
  unfold countPlaces
  rw [List.countP_map]
  rfl

/-- Every outcome is counted under one heading of R168. -/
theorem count_outcomes (os : List PointOutcome) :
    os.countP (· == .welded) + os.countP (· == .skipped) + os.countP (· == .missed) + os.countP PointOutcome.defective
      + os.countP (· == .withheld) = os.length := by
  induction os with
  | nil => rfl
  | cons o rest ih =>
    cases o <;> simp +decide only [List.countP_cons, List.length_cons, if_true, if_false] <;> omega

/-- The outcomes named in a defect list are those counted as missed or defective. -/
theorem count_listed (os : List PointOutcome) :
    os.countP PointOutcome.listed = os.countP (· == .missed) + os.countP PointOutcome.defective := by
  induction os with
  | nil => rfl
  | cons o rest ih =>
    cases o <;> simp +decide only [List.countP_cons, if_true, if_false] <;> omega

/-! ## The defect list (R169) -/

/-- The defect entry of an outcome at a place, if it is named. -/
def defectAt (x : Option PointOutcome × Nat) : Option Defect :=
  match x.1 with
  | some o => if o.listed then some { point := BitVec.ofNat 8 (x.2 + 1), kind := BitVec.ofNat 8 o.code } else none
  | none => none

theorem allDefects_eq (places : List (Option PointOutcome)) : allDefects places = places.zipIdx.filterMap defectAt := rfl

theorem defectAt_eq_some {x : Option PointOutcome × Nat} {d : Defect} :
    defectAt x = some d ↔ ∃ o, x.1 = some o ∧ o.listed = true ∧ d.point = BitVec.ofNat 8 (x.2 + 1)
      ∧ d.kind = BitVec.ofNat 8 o.code := by
  obtain ⟨place, i⟩ := x
  obtain ⟨point, kind⟩ := d
  unfold defectAt
  cases place with
  | none => simp
  | some o =>
    by_cases listed : o.listed = true
    · simp only [listed, if_true, Option.some.injEq, Defect.mk.injEq]
      constructor
      · rintro ⟨rfl, rfl⟩
        exact ⟨o, rfl, listed, rfl, rfl⟩
      · rintro ⟨x, rfl, -, rfl, rfl⟩
        exact ⟨rfl, rfl⟩
    · simp only [listed, if_false, Bool.false_eq_true, Option.some.injEq]
      exact ⟨fun h => (nomatch h), fun ⟨x, same, isListed, _⟩ => absurd (same ▸ isListed) listed⟩

theorem mem_allDefects {places : List (Option PointOutcome)} {d : Defect} :
    d ∈ allDefects places ↔ ∃ i o, places[i]? = some (some o) ∧ o.listed = true ∧ d.point = BitVec.ofNat 8 (i + 1)
      ∧ d.kind = BitVec.ofNat 8 o.code := by
  rw [allDefects_eq, List.mem_filterMap]
  simp only [defectAt_eq_some, Prod.exists, List.mem_zipIdx_iff_getElem?]
  constructor
  · rintro ⟨x, i, hi, o, rfl, rest⟩
    exact ⟨i, o, hi, rest⟩
  · rintro ⟨i, o, hi, rest⟩
    exact ⟨_, i, hi, o, rfl, rest⟩

theorem length_allDefects (os : List PointOutcome) : (allDefects (os.map some)).length = os.countP PointOutcome.listed := by
  have counted (k : Nat) : (((os.map some).zipIdx k).filterMap defectAt).length = os.countP PointOutcome.listed := by
    induction os generalizing k with
    | nil => rfl
    | cons o rest ih =>
      have rest := ih (k + 1)
      cases listed : o.listed <;> simp [defectAt, listed, rest]
  exact counted 0

/-- The defects stand in point order. -/
theorem allDefects_sorted {places : List (Option PointOutcome)} (small : places.length ≤ 255) :
    (allDefects places).Pairwise fun d e => d.point.toNat < e.point.toNat := by
  rw [allDefects_eq, List.pairwise_filterMap]
  have indexed : places.zipIdx.Pairwise fun x y => x.2 < y.2 ∧ y.2 < places.length := by
    rw [List.pairwise_iff_getElem]
    intro i j hi hj lt
    simp only [List.getElem_zipIdx, Nat.zero_add, List.length_zipIdx] at hj ⊢
    exact ⟨lt, hj⟩
  refine indexed.imp fun {x y} h d hd e he => ?_
  obtain ⟨-, -, -, point, -⟩ := defectAt_eq_some.1 hd
  obtain ⟨-, -, -, point', -⟩ := defectAt_eq_some.1 he
  rw [point, point', BitVec.toNat_ofNat, BitVec.toNat_ofNat, Nat.mod_eq_of_lt (by omega), Nat.mod_eq_of_lt (by omega)]
  omega

/-- Of a list in strict order, what stands before a member of a first part is in that part. -/
theorem mem_take_of_lt {α : Type} {f : α → Nat} {l : List α} (sorted : l.Pairwise fun x y => f x < f y) {n : Nat} {x y : α}
    (hx : x ∈ l.take n) (hy : y ∈ l) (lt : f y < f x) : y ∈ l.take n := by
  rw [← List.take_append_drop n l, List.mem_append] at hy
  rw [← List.take_append_drop n l, List.pairwise_append] at sorted
  obtain ⟨-, -, across⟩ := sorted
  exact hy.resolve_right fun later => absurd (across x hx y later) (by omega)

/-- A listed outcome with its code of Table 52. -/
theorem listed_code {o : PointOutcome} (listed : o.listed = true) :
    (o, (BitVec.ofNat 8 o.code).toNat) ∈ [(PointOutcome.missed, 3), (.faulted, 4), (.overrun, 5), (.cut, 6), (.stalled, 7)] := by
  cases o <;> simp +decide at listed ⊢

theorem listed_iff {o : PointOutcome} :
    o.listed = true ↔ o ∈ [PointOutcome.missed, .faulted, .overrun, .cut, .stalled] := by cases o <;> decide

/-! ## The RESULT -/

/-- A RESULT accounts for every point of its channel (R168, R169). -/
theorem formResult_accounts (c : Chan) (b : Body) (written : ∀ x ∈ (b.part c).places, x ≠ none)
    (small : (b.part c).places.length ≤ 255) :
    let places := (b.part c).places
    let number := fun os : List PointOutcome => (places.filter fun x => ∃ o ∈ os, x = some o).length
    let r := formResult c b
    r.serial = b.serial ∧ r.channel = c ∧ r.rpt = false ∧ r.unlisted = !b.listed
      ∧ r.welded.toNat = number [.welded] ∧ r.skipped.toNat = number [.skipped] ∧ r.missed.toNat = number [.missed]
      ∧ r.defective.toNat = number [.faulted, .overrun, .cut, .stalled] ∧ r.withheld.toNat = number [.withheld]
      ∧ r.welded.toNat + r.skipped.toNat + r.missed.toNat + r.defective.toNat + r.withheld.toNat = places.length
      ∧ r.defects.length = min 16 (r.missed.toNat + r.defective.toNat)
      ∧ (r.more = true ↔ 16 < r.missed.toNat + r.defective.toNat)
      ∧ (∀ d ∈ r.defects, ∃ o, places[d.point.toNat - 1]? = some (some o) ∧ 1 ≤ d.point.toNat
          ∧ (o, d.kind.toNat) ∈ [(PointOutcome.missed, 3), (.faulted, 4), (.overrun, 5), (.cut, 6), (.stalled, 7)])
      ∧ (r.defects.Pairwise fun d e => d.point.toNat < e.point.toNat)
      ∧ ∀ d ∈ r.defects, ∀ k o, 1 ≤ k → k < d.point.toNat → places[k - 1]? = some (some o) →
          o ∈ [PointOutcome.missed, .faulted, .overrun, .cut, .stalled] → ∃ e ∈ r.defects, e.point.toNat = k := by
  obtain ⟨os, outcomes⟩ := exists_map_some written
  have length : (b.part c).places.length = os.length := by rw [outcomes, List.length_map]
  have count (p : PointOutcome → Bool) : (BitVec.ofNat 8 (countPlaces p (b.part c).places)).toNat = os.countP p := by
    have le := List.countP_le_length (p := p) (l := os)
    rw [outcomes, countPlaces_map_some, BitVec.toNat_ofNat, Nat.mod_eq_of_lt (by omega)]
  have number (p : PointOutcome → Bool) (qs : List PointOutcome) (same : ∀ o, p o = true ↔ o ∈ qs) :
      os.countP p = ((b.part c).places.filter fun x => ∃ o ∈ qs, x = some o).length := by
    rw [← List.countP_eq_length_filter, outcomes, List.countP_map]
    refine List.countP_congr fun o _ => ?_
    simp [same]
  have welded := count (· == .welded)
  have skipped := count (· == .skipped)
  have missed := count (· == .missed)
  have defective := count PointOutcome.defective
  have withheld := count (· == .withheld)
  have defects : (allDefects (b.part c).places).length = os.countP (· == .missed) + os.countP PointOutcome.defective := by
    rw [outcomes, length_allDefects, count_listed]
  have sorted := allDefects_sorted small
  refine ⟨rfl, rfl, rfl, rfl, welded.trans (number _ _ fun o => by simp), skipped.trans (number _ _ fun o => by simp),
    missed.trans (number _ _ fun o => by simp), defective.trans (number _ _ fun o => by cases o <;> decide),
    withheld.trans (number _ _ fun o => by simp), ?_, ?_, ?_, fun d hd => ?_, sorted.sublist (List.take_sublist _ _),
    fun d hd k o h1 lt place listed => ?_⟩
  · unfold formResult
    dsimp only
    rw [welded, skipped, missed, defective, withheld, count_outcomes, length]
  · unfold formResult
    dsimp only
    rw [missed, defective, List.length_take, defects]
    rfl
  · unfold formResult
    dsimp only
    rw [missed, defective, defects, decide_eq_true_iff]
    rfl
  · obtain ⟨i, o, place, listed, point, kind⟩ := mem_allDefects.1 (List.mem_of_mem_take hd)
    obtain ⟨hi, -⟩ := List.getElem?_eq_some_iff.1 place
    have at' : d.point.toNat = i + 1 := by rw [point, BitVec.toNat_ofNat, Nat.mod_eq_of_lt (by omega)]
    exact ⟨o, by rw [at']; exact place, by omega, kind ▸ listed_code listed⟩
  · obtain ⟨hk, -⟩ := List.getElem?_eq_some_iff.1 place
    have at' : (BitVec.ofNat 8 k).toNat = k := by rw [BitVec.toNat_ofNat, Nat.mod_eq_of_lt (by omega)]
    have named : { point := BitVec.ofNat 8 k, kind := BitVec.ofNat 8 o.code } ∈ allDefects (b.part c).places :=
      mem_allDefects.2 ⟨k - 1, o, place, listed_iff.2 listed, by rw [Nat.sub_add_cancel h1], rfl⟩
    exact ⟨_, mem_take_of_lt (f := fun d : Defect => d.point.toNat) sorted hd named (by simpa only [at'] using lt), at'⟩

end Sys2Proof.Machine
end

