-- ==== Sys2Proof/Proofs/FrameBytes.lean ====
section
/-!
The turn frame both ways (10): where each field stands in the bytes, and what is read from them. O48.
-/

namespace Sys2Proof.Machine

/-! ## Words and their bytes -/

/-- Two words side by side, as numbers. -/
theorem toNat_append_eq {m n : Nat} (x : BitVec m) (y : BitVec n) : (x ++ y).toNat = x.toNat * 2 ^ n + y.toNat := by
  rw [BitVec.toNat_append, ← Nat.shiftLeft_add_eq_or_of_lt y.isLt, Nat.shiftLeft_eq]

theorem byteOf_eq {w : Nat} (n : Nat) (x : BitVec w) : byteOf n x = BitVec.ofNat 8 (x.toNat / 2 ^ (8 * n)) := by
  rw [← Nat.shiftRight_eq_div_pow]
  rfl

theorem bytes16_eq (x : Word16) : bytes16 x = [BitVec.ofNat 8 (x.toNat / 256), BitVec.ofNat 8 x.toNat] := by
  simp [bytes16, byteOf_eq]

theorem bytes24_eq (x : Word24) :
    bytes24 x = [BitVec.ofNat 8 (x.toNat / 65536), BitVec.ofNat 8 (x.toNat / 256), BitVec.ofNat 8 x.toNat] := by
  simp [bytes24, byteOf_eq]

theorem bytes32_eq (x : Word32) :
    bytes32 x = [BitVec.ofNat 8 (x.toNat / 16777216), BitVec.ofNat 8 (x.toNat / 65536), BitVec.ofNat 8 (x.toNat / 256),
      BitVec.ofNat 8 x.toNat] := by
  simp [bytes32, byteOf_eq]

theorem be16_toNat (a b : Byte) : (be16 a b).toNat = 256 * a.toNat + b.toNat := by
  rw [be16, toNat_append_eq]
  omega

theorem be24_toNat (a b c : Byte) : (be24 a b c).toNat = 65536 * a.toNat + 256 * b.toNat + c.toNat := by
  rw [be24, toNat_append_eq, toNat_append_eq]
  omega

theorem be32_toNat (a b c d : Byte) :
    (be32 a b c d).toNat = 16777216 * a.toNat + 65536 * b.toNat + 256 * c.toNat + d.toNat := by
  rw [be32, toNat_append_eq, toNat_append_eq, toNat_append_eq]
  omega

@[simp] theorem be16_bytes (x : Word16) : be16 (byteOf 1 x) (byteOf 0 x) = x := by
  have := x.isLt
  apply BitVec.eq_of_toNat_eq
  rw [be16_toNat, byteOf_eq, byteOf_eq, BitVec.toNat_ofNat, BitVec.toNat_ofNat]
  omega

@[simp] theorem be24_bytes (x : Word24) : be24 (byteOf 2 x) (byteOf 1 x) (byteOf 0 x) = x := by
  have := x.isLt
  apply BitVec.eq_of_toNat_eq
  simp only [be24_toNat, byteOf_eq, BitVec.toNat_ofNat]
  omega

@[simp] theorem be32_bytes (x : Word32) : be32 (byteOf 3 x) (byteOf 2 x) (byteOf 1 x) (byteOf 0 x) = x := by
  have := x.isLt
  apply BitVec.eq_of_toNat_eq
  simp only [be32_toNat, byteOf_eq, BitVec.toNat_ofNat]
  omega

/-! ## Flags and slots -/

/-- Six flags in a byte (Table 48). -/
theorem sixFlags_eq : ∀ a b c d e f : Bool,
    (bitAt a 0 ||| bitAt b 1 ||| bitAt c 2 ||| bitAt d 3 ||| bitAt e 4 ||| bitAt f 5 : Byte) =
        BitVec.ofNat 8 (a.toNat + 2 * b.toNat + 4 * c.toNat + 8 * d.toNat + 16 * e.toNat + 32 * f.toNat)
      ∧ (let x : Byte := bitAt a 0 ||| bitAt b 1 ||| bitAt c 2 ||| bitAt d 3 ||| bitAt e 4 ||| bitAt f 5
         x.getLsbD 0 = a ∧ x.getLsbD 1 = b ∧ x.getLsbD 2 = c ∧ x.getLsbD 3 = d ∧ x.getLsbD 4 = e ∧ x.getLsbD 5 = f) := by
  decide

/-- Four flags in a byte (10.1). -/
theorem fourFlags_eq : ∀ a b c d : Bool,
    (bitAt a 0 ||| bitAt b 1 ||| bitAt c 2 ||| bitAt d 3 : Byte) =
        BitVec.ofNat 8 (a.toNat + 2 * b.toNat + 4 * c.toNat + 8 * d.toNat)
      ∧ (let x : Byte := bitAt a 0 ||| bitAt b 1 ||| bitAt c 2 ||| bitAt d 3
         x.getLsbD 0 = a ∧ x.getLsbD 1 = b ∧ x.getLsbD 2 = c ∧ x.getLsbD 3 = d) := by
  decide

/-- The first byte of a claim slot: the kind above four undefined bits and the hold's upper two (Table 50). -/
theorem slotByte_toNat (kind : BitVec 2) (hold : BitVec 10) :
    ((kind ++ (0 : BitVec 4) ++ hold.extractLsb' 8 2 : Byte)).toNat = 64 * kind.toNat + hold.toNat / 256 := by
  have := hold.isLt
  have upper : (hold.extractLsb' 8 2).toNat = hold.toNat / 256 := by
    rw [BitVec.extractLsb'_toNat, Nat.shiftRight_eq_div_pow]
    omega
  rw [toNat_append_eq, toNat_append_eq, upper]
  have zero : (0 : BitVec 4).toNat = 0 := rfl
  rw [zero]
  omega

theorem RawSlot.encode_eq (x : RawSlot) :
    x.encode = [BitVec.ofNat 8 (64 * x.kind.toNat + x.hold.toNat / 256), BitVec.ofNat 8 x.hold.toNat, x.load]
      ++ bytes16 x.round := by
  have first : (x.kind ++ (0 : BitVec 4) ++ x.hold.extractLsb' 8 2 : Byte) =
      BitVec.ofNat 8 (64 * x.kind.toNat + x.hold.toNat / 256) := by
    rw [← slotByte_toNat, BitVec.ofNat_toNat, BitVec.setWidth_eq]
  have second : (x.hold.extractLsb' 0 8 : Byte) = BitVec.ofNat 8 x.hold.toNat := rfl
  rw [RawSlot.encode, first, second]

theorem parseSlot_encode (x : RawSlot) :
    parseSlot (x.kind ++ (0 : BitVec 4) ++ x.hold.extractLsb' 8 2) (x.hold.extractLsb' 0 8) x.load (byteOf 1 x.round)
      (byteOf 0 x.round) = x := by
  obtain ⟨kind, hold, load, round⟩ := x
  have hk := kind.isLt
  have hh := hold.isLt
  have first := slotByte_toNat kind hold
  unfold parseSlot
  congr
  · apply BitVec.eq_of_toNat_eq
    rw [BitVec.extractLsb'_toNat, first, Nat.shiftRight_eq_div_pow]
    omega
  · apply BitVec.eq_of_toNat_eq
    have upper : (64 * kind.toNat + hold.toNat / 256) % 4 = hold.toNat / 256 := by omega
    rw [toNat_append_eq, BitVec.extractLsb'_toNat, BitVec.extractLsb'_toNat, first, Nat.shiftRight_zero, Nat.shiftRight_zero,
      show 2 ^ 2 = 4 from rfl, upper]
    dsimp only
    omega
  · exact be16_bytes round

/-! ## Items -/

theorem Item.encode_length (i : Item) : i.encode.length = i.size := by
  cases i with
  | result r =>
    have pairs : (r.defects.flatMap fun d => [d.point, d.kind]).length = 2 * r.defects.length := by
      rw [List.length_flatMap]
      simp [Nat.mul_comm]
    simp only [Item.encode, Item.size, List.length_cons, List.length_append, pairs, bytes24, List.length_nil]
  | _ => rfl

theorem items_encode_length (items : List Item) : (items.flatMap Item.encode).length = itemsSize items := by
  rw [List.length_flatMap, itemsSize]
  congr 1
  exact List.map_congr_left fun i _ => i.encode_length

theorem parseDefects_encode (defects : List Defect) (rest : List Byte) :
    parseDefects defects.length ((defects.flatMap fun d => [d.point, d.kind]) ++ rest) = some (defects, rest) := by
  induction defects with
  | nil => rfl
  | cons d others ih =>
    show (parseDefects others.length ((others.flatMap fun d => [d.point, d.kind]) ++ rest)).map _ = _
    rw [ih]
    rfl

theorem parseItem_encode (i : Item) (rest : List Byte) (within : i.defectsWithin = true) :
    parseItem (i.encode ++ rest) = some (i, rest) := by
  cases i with
  | result r =>
    have few : r.defects.length ≤ 16 := of_decide_eq_true within
    have count : (BitVec.ofNat 8 r.defects.length).toNat = r.defects.length := by
      rw [BitVec.toNat_ofNat, Nat.mod_eq_of_lt (by omega)]
    obtain ⟨-, channel, rpt, more, unlisted⟩ := fourFlags_eq (r.channel == .b) r.rpt r.more r.unlisted
    have channelOf : (if (r.channel == .b) = true then Chan.b else .a) = r.channel := by cases r.channel <;> rfl
    have read : parseItem ((Item.result r).encode ++ rest) =
        if (BitVec.ofNat 8 r.defects.length).toNat ≤ 16 then
          (parseDefects (BitVec.ofNat 8 r.defects.length).toNat ((r.defects.flatMap fun d => [d.point, d.kind]) ++ rest)).map
            fun x => (Item.result
              { serial := be24 (byteOf 2 r.serial) (byteOf 1 r.serial) (byteOf 0 r.serial)
                channel := if r.flags.getLsbD 0 then .b else .a, rpt := r.flags.getLsbD 1, more := r.flags.getLsbD 2,
                unlisted := r.flags.getLsbD 3, welded := r.welded, skipped := r.skipped, missed := r.missed,
                defective := r.defective, withheld := r.withheld, defects := x.1 }, x.2)
        else none := rfl
    rw [read, count, if_pos few, parseDefects_encode, be24_bytes]
    unfold Result.flags
    rw [channel, rpt, more, unlisted, channelOf]
    rfl
  | announce n y o =>
    show some (Item.announce (be24 (byteOf 2 n) (byteOf 1 n) (byteOf 0 n)) y (be16 (byteOf 1 o) (byteOf 0 o)), rest) = _
    rw [be24_bytes, be16_bytes]
  | dispute n y o =>
    show some (Item.dispute (be24 (byteOf 2 n) (byteOf 1 n) (byteOf 0 n)) y (be16 (byteOf 1 o) (byteOf 0 o)), rest) = _
    rw [be24_bytes, be16_bytes]
  | resync n =>
    show some (Item.resync (be24 (byteOf 2 n) (byteOf 1 n) (byteOf 0 n)), rest) = _
    rw [be24_bytes]
  | depart n =>
    show some (Item.depart (be24 (byteOf 2 n) (byteOf 1 n) (byteOf 0 n)), rest) = _
    rw [be24_bytes]

theorem parseItems_encode (items : List Item) (rest : List Byte) (within : ∀ i ∈ items, i.defectsWithin = true) :
    parseItems items.length (items.flatMap Item.encode ++ rest) = some (items, rest) := by
  induction items with
  | nil => rfl
  | cons i others ih =>
    obtain ⟨first, later⟩ := List.forall_mem_cons.1 within
    rw [List.flatMap_cons, List.append_assoc, List.length_cons, parseItems, parseItem_encode i _ first]
    dsimp only
    rw [ih later]
    rfl

/-! ## The frame -/

/-- The bytes the frame check covers, one by one up to the items (Tables 47, 48, 50). -/
theorem Frame.checked_eq (f : Frame) : f.checked =
    f.sender :: f.flags :: byteOf 1 f.round :: byteOf 0 f.round :: f.pointer :: byteOf 1 f.digest :: byteOf 0 f.digest
      :: byteOf 3 f.tag :: byteOf 2 f.tag :: byteOf 1 f.tag :: byteOf 0 f.tag :: byteOf 1 f.status :: byteOf 0 f.status
      :: BitVec.ofNat 8 f.items.length
      :: (f.slotA.kind ++ (0 : BitVec 4) ++ f.slotA.hold.extractLsb' 8 2) :: f.slotA.hold.extractLsb' 0 8 :: f.slotA.load
      :: byteOf 1 f.slotA.round :: byteOf 0 f.slotA.round
      :: (f.slotB.kind ++ (0 : BitVec 4) ++ f.slotB.hold.extractLsb' 8 2) :: f.slotB.hold.extractLsb' 0 8 :: f.slotB.load
      :: byteOf 1 f.slotB.round :: byteOf 0 f.slotB.round :: f.items.flatMap Item.encode := rfl

theorem Frame.checked_length (f : Frame) : f.checked.length = 24 + itemsSize f.items := by
  rw [checked_eq, ← items_encode_length]
  simp only [List.length_cons]
  omega

theorem Frame.encode_length (f : Frame) : f.encode.length = 27 + itemsSize f.items := by
  simp only [encode, List.length_append, List.length_cons, checked_length, bytes16, List.length_nil]
  omega

/-- A well-formed frame passes every test of R130 and is read back (R130, R184). -/
theorem Frame.parse_encode {f : Frame} (wf : f.WellFormed) : parse f.encode = some f := by
  obtain ⟨⟨senderLow, senderHigh⟩, pointer, items, size, defects⟩ := wf
  have count : (BitVec.ofNat 8 f.items.length).toNat = f.items.length := by
    rw [BitVec.toNat_ofNat, Nat.mod_eq_of_lt (by omega)]
  have bodyLength : (f.checked ++ bytes16 (crc16 f.checked)).length - 2 = f.checked.length := by
    rw [List.length_append]
    exact Nat.add_sub_cancel ..
  have length : (f.checked ++ bytes16 (crc16 f.checked)).length = 26 + itemsSize f.items := by
    rw [List.length_append, checked_length, bytes16, List.length_cons, List.length_cons, List.length_nil]
    omega
  have rest : f.checked.drop 24 = f.items.flatMap Item.encode := rfl
  obtain ⟨-, fresh, blind, reader, exit, halted, occupied⟩ := sixFlags_eq f.fresh f.blind f.reader f.exit f.halted f.occupied
  have read : parseItems (BitVec.ofNat 8 f.items.length).toNat (f.checked.drop 24) = some (f.items, []) := by
    rw [count, rest]
    simpa using parseItems_encode f.items [] defects
  show parse (0xA6 :: (f.checked ++ bytes16 (crc16 f.checked))) = _
  unfold parse
  split
  case h_2 other => exact absurd rfl (other _)
  next rest' same =>
  obtain rfl := List.tail_eq_of_cons_eq same
  dsimp only
  rw [if_pos]
  · rw [bodyLength, List.take_left]
    have get13 : (f.checked ++ bytes16 (crc16 f.checked)).getD 13 0 = BitVec.ofNat 8 f.items.length := rfl
    have header : f.checked ++ bytes16 (crc16 f.checked) = _ := congrArg (· ++ bytes16 (crc16 f.checked)) f.checked_eq
    rw [get13, read, header]
    dsimp only
    congr
    · exact be16_bytes f.round
    · exact be16_bytes f.digest
    · exact be32_bytes f.tag
    · exact be16_bytes f.status
    · exact parseSlot_encode f.slotA
    · exact parseSlot_encode f.slotB
  · rw [bodyLength, List.take_left, List.drop_left, length]
    refine ⟨by omega, senderLow, senderHigh, pointer, ?_, by simp [Config.frameItemBytes]; omega, rfl⟩
    show (BitVec.ofNat 8 f.items.length).toNat ≤ 32
    rwa [count]

/-- Settles O48: the fields are at their places byte for byte, and a frame within the formats is read back from them. -/
theorem framesReadBack : Obligations.FramesReadBack := by
  unfold Obligations.FramesReadBack
  refine ⟨fun f => ?_, fun n y o r => ?_, fun l h r => ⟨rfl, rfl, rfl⟩, fun f wf =>
    ⟨Frame.parse_encode wf, f.encode_length, ?_⟩⟩
  · dsimp only
    rw [← (sixFlags_eq f.fresh f.blind f.reader f.exit f.halted f.occupied).1]
    simp only [Frame.encode, Frame.checked, Frame.header, Frame.flags, RawSlot.encode_eq, bytes16_eq, bytes32_eq]
    rfl
  · dsimp only
    rw [← (fourFlags_eq (r.channel == .b) r.rpt r.more r.unlisted).1]
    simp only [Item.encode, Result.flags, bytes24_eq, bytes16_eq]
    exact ⟨rfl, rfl, rfl, rfl, rfl⟩
  · rw [f.encode_length]
    have := wf.size
    omega

end Sys2Proof.Machine
end

