-- ==== Sys2Proof/Proofs/ValidFrames.lean ====
section
/-!
The frame check bit by bit, and that only valid frames are taken from the line (R130, R184). O49.
-/

namespace Sys2Proof.Machine

/-! ## The check register -/

/-- A bit enters the check register: it shifts, and takes the generator when its top bit and the bit differ (R184). -/
def crcEnter (r : Word16) (bit : Bool) : Word16 := if r.getLsbD 15 = bit then r <<< 1 else (r <<< 1) ^^^ 0x1021

/-- The bits that stand above the register's data enter it one at a time. -/
theorem crcShift_xor (r x : Word16) : crcShift (r ^^^ x) = crcEnter r (x.getLsbD 15) ^^^ (x <<< 1) := by
  have top : (r ^^^ x).msb = (r.getLsbD 15 ^^ x.getLsbD 15) := by rw [BitVec.msb_xor]; rfl
  have shifted : (r ^^^ x) <<< 1 = (r <<< 1) ^^^ (x <<< 1) := BitVec.shiftLeft_xor_distrib ..
  unfold crcShift crcEnter
  rw [top, shifted]
  cases r.getLsbD 15 <;> cases x.getLsbD 15 <;> simp [BitVec.xor_assoc, BitVec.xor_comm (x <<< 1)]

theorem crcShift_iterate (r : Word16) : ∀ (n : Nat) (x : Word16),
    crcShift^[n] (r ^^^ x) = ((List.range n).map fun i => (x <<< i).getLsbD 15).foldl crcEnter r ^^^ (x <<< n) := by
  intro n
  induction n with
  | zero => intro x; simp
  | succ n ih =>
    intro x
    rw [Function.iterate_succ_apply', ih, crcShift_xor, List.range_succ, List.map_append, List.foldl_append,
      ← BitVec.shiftLeft_add]
    rfl

/-- A byte enters the register bit by bit, the most significant first (R184). -/
theorem crcByte_eq (r : Word16) (b : Byte) :
    crcByte r b = ([7, 6, 5, 4, 3, 2, 1, 0].map b.getLsbD).foldl crcEnter r := by
  have gone : (b ++ (0 : Byte) : Word16) <<< 8 = 0#16 := by
    apply BitVec.eq_of_toNat_eq
    rw [BitVec.toNat_shiftLeft, toNat_append_eq, Nat.shiftLeft_eq]
    show (b.toNat * 256 + 0) * 256 % 65536 = 0
    omega
  unfold crcByte
  rw [crcShift_iterate, gone, BitVec.xor_zero]
  have bits : ∀ i ∈ List.range 8, ((b ++ (0 : Byte) : Word16) <<< i).getLsbD 15 = b.getLsbD (7 - i) := by
    intro i at_
    have small := List.mem_range.1 at_
    rw [BitVec.getLsbD_shiftLeft, BitVec.getLsbD_append, if_neg (by omega), show 15 - i - 8 = 7 - i by omega]
    simp only [show 15 < 16 by omega, show ¬15 < i by omega, decide_true, decide_false, Bool.not_false, Bool.true_and]
  rw [List.map_congr_left bits]
  rfl

/-! ## What is read is valid -/

theorem parseDefects_length : ∀ (n : Nat) {bytes rest : List Byte} {defects : List Defect},
    parseDefects n bytes = some (defects, rest) → defects.length = n ∧ bytes.length = 2 * n + rest.length := by
  intro n
  induction n with
  | zero =>
    rintro bytes rest defects ⟨⟩
    exact ⟨rfl, by simp⟩
  | succ n ih =>
    intro bytes rest defects read
    match bytes with
    | [] | [_] => exact absurd read (by simp [parseDefects])
    | p :: k :: more =>
      obtain ⟨⟨others, rest'⟩, readMore, ⟨⟩⟩ := Option.map_eq_some_iff.1 read
      obtain ⟨count, length⟩ := ih readMore
      refine ⟨by rw [List.length_cons, count], ?_⟩
      rw [List.length_cons, List.length_cons, length]
      dsimp only
      omega

theorem parseItem_length {bytes rest : List Byte} {i : Item} (read : parseItem bytes = some (i, rest)) :
    i.defectsWithin = true ∧ bytes.length = i.size + rest.length := by
  unfold parseItem at read
  split at read
  case h_2 => exact nomatch read
  next t s2 s1 s0 after =>
  dsimp only at read
  split at read
  · split at read
    · cases read
      exact ⟨rfl, by simp [Item.size]; omega⟩
    · exact nomatch read
  split at read
  · split at read
    · cases read
      exact ⟨rfl, by simp [Item.size]; omega⟩
    · exact nomatch read
  split at read
  · cases read
    exact ⟨rfl, by simp [Item.size]; omega⟩
  split at read
  · cases read
    exact ⟨rfl, by simp [Item.size]; omega⟩
  split at read
  · split at read
    · split at read
      next few =>
        obtain ⟨⟨defects, rest'⟩, readDefects, ⟨⟩⟩ := Option.map_eq_some_iff.1 read
        obtain ⟨count, length⟩ := parseDefects_length _ readDefects
        refine ⟨decide_eq_true (count ▸ few), ?_⟩
        simp only [Item.size, List.length_cons, count, length]
        omega
      · exact nomatch read
    · exact nomatch read
  · exact nomatch read

theorem parseItems_length : ∀ (n : Nat) {bytes rest : List Byte} {items : List Item},
    parseItems n bytes = some (items, rest) →
      items.length = n ∧ (∀ i ∈ items, i.defectsWithin = true) ∧ bytes.length = itemsSize items + rest.length := by
  intro n
  induction n with
  | zero =>
    rintro bytes rest items ⟨⟩
    exact ⟨rfl, by simp, by simp [itemsSize]⟩
  | succ n ih =>
    intro bytes rest items read
    rw [parseItems] at read
    split at read
    case h_1 => exact nomatch read
    next i after first =>
    obtain ⟨⟨others, rest'⟩, readMore, ⟨⟩⟩ := Option.map_eq_some_iff.1 read
    obtain ⟨within, size⟩ := parseItem_length first
    obtain ⟨count, withinOthers, length⟩ := ih readMore
    refine ⟨by rw [List.length_cons, count], List.forall_mem_cons.2 ⟨within, withinOthers⟩, ?_⟩
    rw [size, length, itemsSize, itemsSize, List.map_cons, List.sum_cons, Nat.add_assoc]

/-- What is read as a frame has passed every test of R130. -/
theorem Frame.valid_of_parse {bytes : List Byte} {f : Frame} (read : Frame.parse bytes = some f) :
    f.WellFormed ∧ bytes.head? = some 0xA6 ∧ bytes.length = 27 + itemsSize f.items
      ∧ bytes16 (crc16 ((bytes.drop 1).take (bytes.length - 3))) = bytes.drop (bytes.length - 2) := by
  unfold Frame.parse at read
  split at read
  case h_2 => exact nomatch read
  next rest =>
  dsimp only at read
  split at read
  case isFalse => exact nomatch read
  next tests =>
  obtain ⟨long, senderLow, senderHigh, pointer, count, size, check⟩ := tests
  split at read
  case h_2 => exact nomatch read
  next items readItems =>
  cases read
  obtain ⟨counted, within, length⟩ := parseItems_length _ readItems
  rw [List.length_drop, List.length_take, List.length_nil] at length
  have total : rest.length = 26 + itemsSize items := by omega
  have checkAt : rest.length + 1 - 2 = rest.length - 2 + 1 := by omega
  refine ⟨⟨⟨senderLow, senderHigh⟩, pointer, counted ▸ count, ?_, within⟩, rfl, ?_, ?_⟩
  · have : rest.length - 26 ≤ 229 := size
    show itemsSize items ≤ 229
    omega
  · show rest.length + 1 = 27 + itemsSize items
    omega
  · rw [List.length_cons, List.drop_one, List.tail_cons, checkAt, List.drop_succ_cons]
    exact check

/-- Settles O49. -/
theorem onlyValidFramesAreTaken : Obligations.OnlyValidFramesAreTaken := by
  unfold Obligations.OnlyValidFramesAreTaken
  refine ⟨fun bytes b => ⟨rfl, ?_⟩, fun bytes f => Frame.valid_of_parse⟩
  rw [crc16, List.foldl_append]
  exact crcByte_eq _ b

/-! ## The own frame -/

/-- The items taken are the longest run of the oldest ones that fits in bytes and in number (R138). -/
theorem takeItems_longest : ∀ (size n : Nat) (items : List Item), size ≤ 229 → n + items.length ≤ 32 →
    ∃ k, takeItems size n items = items.take k ∧ k ≤ items.length ∧ size + itemsSize (takeItems size n items) ≤ 229
      ∧ ∀ i, items[k]? = some i → 229 < size + itemsSize (takeItems size n items) + i.size := by
  intro size n items
  induction items generalizing size n with
  | nil => exact fun within _ => ⟨0, rfl, Nat.le_refl _, by simpa [takeItems, itemsSize] using within, fun i at0 => nomatch at0⟩
  | cons i others ih =>
    intro within room
    rw [List.length_cons] at room
    rw [takeItems]
    split
    next fits =>
      obtain ⟨k, taken, short, total, last⟩ := ih (size + i.size) (n + 1) fits.1 (by omega)
      have sizes (l : List Item) : itemsSize (i :: l) = i.size + itemsSize l := by
        rw [itemsSize, itemsSize, List.map_cons, List.sum_cons]
      refine ⟨k + 1, by rw [taken, List.take_succ_cons], Nat.succ_le_succ short, ?_, fun j at_ => ?_⟩
      · rw [sizes]
        omega
      · have := last j (by simpa using at_)
        rw [sizes]
        omega
    next full =>
      refine ⟨0, rfl, Nat.zero_le _, by simpa [itemsSize] using within, fun j first => ?_⟩
      obtain rfl : i = j := by simpa using first
      have : ¬(size + i.size ≤ 229 ∧ n < 32) := full
      simp only [itemsSize, List.map_nil, List.sum_nil]
      omega

/-- Settles O50: with at most 16 items in the outbox the count never binds, so the byte limit alone ends the run. -/
theorem ownFrameIsValid : Obligations.OwnFrameIsValid := by
  unfold Obligations.OwnFrameIsValid
  intro s bounded view low high
  have outbox := bounded.outbox
  obtain ⟨k, taken, short, total, last⟩ := takeItems_longest 0 0 s.line.outbox (by omega) (by omega)
  have items : (buildFrame s).items = s.line.outbox.take k := taken
  have size : itemsSize (takeItems 0 0 s.line.outbox) = itemsSize (buildFrame s).items := rfl
  rw [size, Nat.zero_add] at total last
  have wf : (buildFrame s).WellFormed := by
    refine ⟨?_, ?_, ?_, total, fun i at_ => bounded.defects i (List.mem_of_mem_take (items ▸ at_))⟩
    · show 1 ≤ (BitVec.ofNat 8 s.own).toNat ∧ (BitVec.ofNat 8 s.own).toNat ≤ 30
      rw [BitVec.toNat_ofNat]
      omega
    · show (BitVec.ofNat 8 s.view.pointer).toNat ≤ 30
      have := view.pointer
      rw [BitVec.toNat_ofNat]
      omega
    · rw [items, List.length_take]
      omega
  exact ⟨buildFrame_shows_getD s, wf, Frame.parse_encode wf, k, items, short, total, by omega, last⟩

end Sys2Proof.Machine
end

