-- ==== Sys2Proof/Proofs/Status.lean ====
section
/-!
What the part shows of its state: the status word, FAULT_N, sight and the pins (7.3, 7.4, 8.4). O51.
-/

namespace Sys2Proof.Machine

variable (s : State)

/-- A bit of one place reads set at that place alone. -/
theorem getLsbD_bitAt {w : Nat} (b : Bool) (i j : Nat) :
    (bitAt b i : BitVec w).getLsbD j = (b && decide (j < w) && decide (i = j)) := by
  cases b
  · simp [bitAt]
  · rw [bitAt, if_pos rfl, BitVec.getLsbD_twoPow, Bool.true_and]
    by_cases same : i = j
    · rw [same]
    · simp [same]

/-- The status word bit by bit (Table 49). -/
theorem statusWord_getLsbD (j : Nat) : s.statusWord.getLsbD j =
    [s.heldBit .a, s.heldBit .b, s.store.anyMark, s.constantsDisagree, s.view.orphansFull, false, false, false,
      s.sticky.outboxOverflow, s.sticky.encoderError, s.sticky.strayBody, s.sticky.tagMissing, s.sticky.tagRecordError,
      s.sticky.registerEviction, s.sticky.reverseTravel].getD j false := by
  unfold State.statusWord
  simp only [BitVec.getLsbD_or, getLsbD_bitAt]
  match j with
  | 0 | 1 | 2 | 3 | 4 | 5 | 6 | 7 | 8 | 9 | 10 | 11 | 12 | 13 | 14 => simp
  | j + 15 => simp

theorem heldBit_iff (c : Chan) : s.heldBit c = true ↔ (s.eng c).state = .held := by
  unfold State.heldBit
  exact beq_iff_eq

theorem Store.anyMark_iff (st : Store) : st.anyMark = true ↔ ∃ p, st.marked p = true := by
  unfold Store.anyMark
  rw [List.any_eq_true]
  constructor
  · rintro ⟨b, at_, set⟩
    obtain ⟨i, small, get⟩ := List.getElem_of_mem at_
    refine ⟨i + 1, ?_⟩
    rw [Vector.getElem_toList] at get
    have inside : i < 128 := by simpa using small
    rw [Store.marked, if_neg (Nat.succ_ne_zero i), Nat.add_sub_cancel, Vector.getElem?_eq_getElem inside, Option.getD_some,
      get]
    exact set
  · rintro ⟨p, set⟩
    unfold Store.marked at set
    split at set
    · exact nomatch set
    cases get : st.marks[p - 1]? with
    | none =>
      rw [get] at set
      exact nomatch set
    | some b =>
      rw [get, Option.getD_some] at set
      exact ⟨b, Vector.mem_toList_iff.2 (Vector.mem_of_getElem? get), set⟩

theorem constantsDisagree_iff : s.constantsDisagree = true ↔
    ∃ a, 1 ≤ a ∧ a ≤ 30 ∧ s.line.onRoster a = true ∧ (s.view.row a).digestMark = true := by
  unfold State.constantsDisagree
  simp only [List.any_eq_true, List.mem_range, Bool.and_eq_true, Config.lastAddress]
  constructor
  · rintro ⟨i, small, both⟩
    exact ⟨i + 1, by omega, by omega, both⟩
  · rintro ⟨a, low, high, both⟩
    refine ⟨a - 1, by omega, ?_⟩
    rwa [Nat.sub_add_cancel low]

theorem View.orphansFull_iff (v : View) :
    v.orphansFull = true ↔ 8 ≤ v.orphans.length ∨ ∃ a c, (v.row a).retained c = true := by
  unfold View.orphansFull
  rw [Bool.or_eq_true, decide_eq_true_iff, View.anyRetained_iff]
  refine or_congr Iff.rfl ⟨fun ⟨i, _, c, held⟩ => ⟨i + 1, c, held⟩, fun ⟨a, c, held⟩ => ?_⟩
  by_cases place : 1 ≤ a ∧ a ≤ 30
  · exact ⟨a - 1, by omega, c, by rwa [Nat.sub_add_cancel place.1]⟩
  · rw [View.row_out v place] at held
    cases c <;> exact nomatch held

theorem faultActive_iff : s.faultActive = true ↔ s.line.state = .offLine ∨ s.engA.state = .held ∨ s.engB.state = .held
    ∨ (∃ a, 1 ≤ a ∧ a ≤ 30 ∧ s.line.onRoster a = true ∧ (s.view.row a).digestMark = true)
    ∨ ∃ p, s.store.marked p = true := by
  unfold State.faultActive
  simp only [Bool.or_eq_true, beq_iff_eq, heldBit_iff, constantsDisagree_iff, Store.anyMark_iff, State.eng, or_assoc]

theorem blind_iff : s.blind = true ↔ s.view.miss = true ∨ s.view.fresh = true
    ∨ (8 ≤ s.view.orphans.length ∨ ∃ a c, (s.view.row a).retained c = true)
    ∨ ∃ a, 1 ≤ a ∧ a ≤ 30 ∧ s.line.onRoster a = true ∧ (s.view.row a).digestMark = true := by
  unfold State.blind
  simp only [Bool.or_eq_true, constantsDisagree_iff, View.orphansFull_iff, or_assoc]

/-! ## The pins -/

variable {s}

/-- While the first-fault record is presented, the channel's lines show it and drive nothing (R17). -/
theorem pins_of_presents {c : Chan} (shown : s.presents c = true) :
    s.ptPins c = (if c = .a then BitVec.ofNat 8 s.store.firstFault.kind.code else BitVec.ofNat 8 s.store.firstFault.program)
      ∧ s.schPins c =
          (if c = .a then BitVec.ofNat 6 s.store.firstFault.point else BitVec.ofNat 6 (s.store.firstFault.point / 64 % 4))
      ∧ s.firePin c = false ∧ s.pstbPin c = false := by
  unfold State.ptPins State.schPins State.firePin State.pstbPin
  rw [shown]
  cases c <;> exact ⟨rfl, rfl, rfl, rfl⟩

/-- With no presentation the lines are the engine's (R17, R66). -/
theorem pins_of_not_presents {c : Chan} (hidden : s.presents c = false) :
    s.ptPins c = (s.eng c).pt ∧ s.schPins c = (s.eng c).sch ∧ s.firePin c = (s.eng c).fire
      ∧ (s.pstbPin c = true ↔ (s.eng c).pstb ≠ .stopped) := by
  unfold State.ptPins State.schPins State.firePin State.pstbPin
  rw [hidden]
  exact ⟨rfl, rfl, rfl, by simp⟩

theorem FaultKind.fatal_iff (k : FaultKind) : k.fatal = true ↔ 1 ≤ k.code ∧ k.code ≤ 6 := by
  simp [fatal]

theorem FaultKind.not_fatal_of {k : FaultKind} (code : k.code = 0 ∨ 16 ≤ k.code) : k.fatal = false := by
  rw [← Bool.not_eq_true, fatal_iff]
  omega

theorem FaultKind.noFault_not_fatal : noFault.fatal = false := rfl

/-- The pin of a driven output: high exactly when its level and its polarity say so, and what the drive then does (Table
35). -/
theorem AuxOutCfg.pin_of_driven (k : AuxOutCfg) {l : OutLevel} (driven : l ≠ .released) :
    k.pin l =
      if l = (if k.activeLow then .inactive else .active) then
        (match k.drive with | .pushPull => .high | .openDrainLow => .undriven | .openDrainHigh => .high)
      else (match k.drive with | .pushPull => .low | .openDrainLow => .low | .openDrainHigh => .undriven) := by
  obtain ⟨used, drive, activeLow, initial⟩ := k
  cases l
  case released => exact absurd rfl driven
  all_goals cases activeLow <;> cases drive <;> rfl

/-- Settles O51: the word bit by bit, then each shown line from the condition that shows it. -/
theorem statusShowsTheState : Obligations.StatusShowsTheState := by
  unfold Obligations.StatusShowsTheState
  intro s
  dsimp only
  simp only [statusWord_getLsbD]
  refine ⟨heldBit_iff s .a, heldBit_iff s .b, s.store.anyMark_iff, constantsDisagree_iff s, s.view.orphansFull_iff, rfl, rfl,
    rfl, rfl, rfl, rfl, rfl, rfl, rfl, rfl, rfl, faultActive_iff s, blind_iff s, by decide, fun c => ?_, fun i => ?_⟩
  · refine ⟨fun offLine low high => pins_of_presents ?_, fun offLine code => pins_of_not_presents ?_,
      fun listening fault idle => pins_of_presents ?_, fun listening busy => pins_of_not_presents ?_,
      fun other => pins_of_not_presents ?_⟩
    · rw [State.presents, offLine]
      exact (FaultKind.fatal_iff _).2 ⟨low, high⟩
    · rw [State.presents, offLine]
      exact FaultKind.not_fatal_of code
    · simp [State.presents, listening, fault, idle]
    · simp [State.presents, listening, busy]
    · rcases other with noFault | loading | joining | onLine
      · unfold State.presents
        rw [noFault]
        cases s.line.state <;> rfl
      all_goals simp [State.presents, *]
  · constructor
    · intro released
      unfold State.auxPin
      rw [released]
      rfl
    · intro driven
      have pin : s.auxPin i = _ := AuxOutCfg.pin_of_driven s.sc.auxOut[i] driven
      refine ⟨fun drive high => ?_, fun drive low => ?_, fun drive high => ?_, fun drive low => ?_, fun drive high => ?_,
        fun drive low => ?_⟩
      all_goals rw [pin, drive]
      exacts [if_pos high, if_neg low, if_pos high, if_neg low, if_pos high, if_neg low]

end Sys2Proof.Machine
end

