-- ==== Sys2Proof/Proofs/StartUpHeader.lean ====
section
/-!
Reset, strap reading and the header pass (01, 09). O3, O4, O5.
-/

namespace Sys2Proof.Machine

theorem View.row_afterReset (a : Nat) : View.afterReset.row a = AddrRow.blank := by
  unfold View.row View.afterReset
  split
  · rfl
  · rw [Vector.getElem?_replicate]
    split <;> rfl

theorem LineCtl.onRoster_afterReset (a : Nat) : LineCtl.afterReset.onRoster a = false := by
  unfold LineCtl.onRoster LineCtl.lapses LineCtl.afterReset
  split
  · rfl
  · rw [Vector.getElem?_replicate]
    split <;> rfl

/-- Settles O3. -/
theorem resetLeavesNothing : Obligations.ResetLeavesNothing := by
  unfold Obligations.ResetLeavesNothing
  intro s
  have marked (p : Nat) : Store.afterReset.marked p = false := by
    unfold Store.marked Store.afterReset
    split
    · rfl
    · rw [Vector.getElem?_replicate]
      split <;> rfl
  have word : State.reset.statusWord = 0 := by decide
  refine ⟨{ State.reset with pending := s.pending }, rfl, rfl, ⟨rfl, rfl, rfl, rfl, rfl, rfl, marked, rfl⟩,
    ⟨rfl, rfl, rfl, rfl, rfl, rfl, rfl, rfl⟩, ⟨rfl, rfl, rfl, rfl⟩, fun c => ?_,
    ⟨View.row_afterReset, rfl, rfl, rfl, rfl, rfl, rfl, rfl, rfl, rfl⟩, ⟨LineCtl.onRoster_afterReset, rfl, rfl, rfl, rfl, rfl, rfl, rfl, rfl, rfl, rfl⟩,
    fun i => ?_, rfl, word, rfl, rfl⟩
  · cases c <;> exact ⟨rfl, rfl, rfl, rfl, rfl, rfl, rfl, rfl, ⟨rfl, rfl, rfl, rfl, rfl⟩, rfl, rfl, rfl, rfl, rfl⟩
  · have input : AuxUnit.afterReset.inputs[i] = AuxIn.afterReset := Vector.getElem_replicate ..
    have output : AuxUnit.afterReset.outputs[i] = .released := Vector.getElem_replicate ..
    refine ⟨input, output, ?_⟩
    show AuxOutCfg.pin _ AuxUnit.afterReset.outputs[i] = _
    rw [output]
    rfl

/-- Settles O4: a five-bit strap value is 0, 31 or an address. -/
theorem strapsGiveAddress : Obligations.StrapsGiveAddress := by
  unfold Obligations.StrapsGiveAddress
  intro straps s
  refine ⟨fun release => ?_, fun taken => if_neg taken⟩
  have small := straps.isLt
  by_cases address : 1 ≤ straps.toNat ∧ straps.toNat ≤ Config.lastAddress
  · have upper : straps.toNat ≤ 30 := address.2
    refine ⟨_, (if_pos release).trans (if_pos address), rfl, rfl, ?_⟩
    rw [if_neg (by omega)]
    exact ⟨rfl, rfl, rfl⟩
  · have ends : straps.toNat = 0 ∨ straps.toNat = 31 := by
      have : ¬(1 ≤ straps.toNat ∧ straps.toNat ≤ 30) := address
      omega
    refine ⟨_, (if_pos release).trans (if_neg address), rfl, rfl, ?_⟩
    rw [if_pos ends]
    exact ⟨rfl, rfl, rfl, rfl⟩

/-! ## Bytes of the image -/

theorem imageRange_length (image : List Byte) (i n : Nat) : (imageRange image i n).length = n := by
  simp [imageRange]

theorem imageRange_getElem? (image : List Byte) (i : Nat) {n j : Nat} (inside : j < n) :
    (imageRange image i n)[j]? = some (imageByte image (i + j)) := by
  simp [imageRange, inside]

theorem decodeAuxIn_eq (x : Byte) :
    (decodeAuxIn x).activeLow = x.getLsbD 7 ∧ (decodeAuxIn x).used = x.getLsbD 6 ∧ (decodeAuxIn x).filter = x.toNat % 16
      ∧ (decodeAuxIn x).edge =
          (if x.getLsbD 5 then (if x.getLsbD 4 then .both else .onInactive)
            else (if x.getLsbD 4 then .onActive else .never)) := by
  refine ⟨rfl, rfl, ?_, ?_⟩
  · show (x.extractLsb' 0 4).toNat = _
    rw [BitVec.extractLsb'_toNat, Nat.shiftRight_zero]
  · unfold decodeAuxIn
    cases x.getLsbD 5 <;> cases x.getLsbD 4 <;> rfl

theorem decodeAuxOut_eq (x : Byte) :
    (decodeAuxOut x).used = x.getLsbD 7 ∧ (decodeAuxOut x).activeLow = x.getLsbD 1
      ∧ (decodeAuxOut x).initialActive = x.getLsbD 0
      ∧ (decodeAuxOut x).drive =
          (if x.getLsbD 5 then .openDrainHigh else if x.getLsbD 4 then .openDrainLow else .pushPull) := by
  refine ⟨rfl, rfl, rfl, ?_⟩
  unfold decodeAuxOut
  cases x.getLsbD 5 <;> cases x.getLsbD 4 <;> rfl

/-- Drive code 11 (R185). -/
theorem driveCode_eq_three (x : Byte) : x.extractLsb' 4 2 = 3 ↔ x.getLsbD 5 = true ∧ x.getLsbD 4 = true := by
  constructor
  · intro code
    have upper := congrArg (·.getLsbD 1) code
    have lower := congrArg (·.getLsbD 0) code
    simp only [BitVec.getLsbD_extractLsb'] at upper lower
    exact ⟨by simpa using upper, by simpa using lower⟩
  · rintro ⟨upper, lower⟩
    apply BitVec.eq_of_getLsbD_eq
    intro i small
    match i, small with
    | 0, _ => simpa [BitVec.getLsbD_extractLsb'] using lower
    | 1, _ => simpa [BitVec.getLsbD_extractLsb'] using upper

/-! ## The header checks (R9) -/

/-- Check 5 of R9 constant by constant. -/
theorem headerInRange_iff (image : List Byte) : headerInRange image = true ↔
    1 ≤ (image16 image 8).toNat ∧ (image16 image 8).toNat ≤ 1000 ∧ (imageByte image 10).toNat ≤ 1
      ∧ (imageByte image 11).toNat ≤ 1 ∧ 1 ≤ (imageByte image 12).toNat ∧ 16 ≤ (image16 image 13).toNat
      ∧ (image16 image 13).toNat ≤ 1023 ∧ 1 ≤ (image16 image 17).toNat ∧ 1 ≤ (imageByte image 20).toNat
      ∧ 1 ≤ (imageByte image 21).toNat ∧ 1 ≤ (image16 image 22).toNat
      ∧ (∀ i < 8, ¬((imageByte image (32 + i)).getLsbD 5 = true ∧ (imageByte image (32 + i)).getLsbD 4 = true))
      ∧ (imageByte image 40).toNat ≤ 64 ∧ (imageByte image 41).toNat ≤ 128 ∧ (image16 image 42).toNat ≤ 4096 := by
  have drives : (((imageRange image 32 8).all fun b => b.extractLsb' 4 2 != 3) = true) ↔
      ∀ i < 8, ¬((imageByte image (32 + i)).getLsbD 5 = true ∧ (imageByte image (32 + i)).getLsbD 4 = true) := by
    simp only [imageRange, List.all_map, List.all_eq_true, List.mem_range, Function.comp_apply, bne_iff_ne, ne_eq,
      driveCode_eq_three]
  unfold headerInRange
  simp only [Bool.and_eq_true, decide_eq_true_eq, drives, and_assoc]
  exact Iff.rfl

/-- A fatal fault at a pass: the record as R16 gives it, OFF LINE, FAULT_N active, and nothing else (R11, R16, R17). -/
theorem fatalFault_shows (k : FaultKind) (point : Nat) (s : State) :
    (fatalFault k point s).line.state = .offLine ∧ (fatalFault k point s).faultActive = true
      ∧ (fatalFault k point s).store.firstFault =
          (if s.store.firstFault.kind = .noFault then { kind := k, program := 0, point := point } else s.store.firstFault)
      ∧ (k.fatal = true → s.store.firstFault.kind = .noFault →
          (fatalFault k point s).presents .a = true ∧ (fatalFault k point s).presents .b = true)
      ∧ fatalFault k point s =
          { s with store := { s.store with firstFault := (fatalFault k point s).store.firstFault, phase := .ended },
                   line := { s.line with state := .offLine } } := by
  have record : (s.store.recordFault k 0 point).firstFault =
      if s.store.firstFault.kind = .noFault then { kind := k, program := 0, point := point } else s.store.firstFault := by
    unfold Store.recordFault
    split <;> rfl
  refine ⟨rfl, rfl, record, fun fatal noFault => ?_, ?_⟩
  · have shown : (s.store.recordFault k 0 point).firstFault.kind.fatal = true := by
      rw [record, if_pos noFault]
      exact fatal
    exact ⟨shown, shown⟩
  · unfold fatalFault
    rw [Store.recordFault_frame]

theorem execHeaderPass_of_fault {image : List Byte} {s : State} {k : FaultKind} (phase : s.store.phase = .header)
    (fault : headerFault image = some k) : exec (.headerPass image) s = .next (fatalFault k 0 s) := by
  show execHeaderPass image s = _
  unfold execHeaderPass
  rw [if_pos phase, fault]

/-- Settles O5: the bytes and their codes, the good header taken in, then the checks in their order. -/
theorem headerPass : Obligations.HeaderPass := by
  unfold Obligations.HeaderPass
  refine ⟨fun image i n => ?_, fun x => ?_, fun x => ?_, fun image s phase good => ?_, fun image s phase => ?_⟩
  · refine ⟨fun x get => ?_, fun get => ?_, be16_toNat _ _, be32_toNat _ _ _ _, imageRange_length .., fun j inside =>
      imageRange_getElem? image i inside⟩ <;> rw [imageByte, List.getD_eq_getElem?_getD, get] <;> rfl
  · obtain ⟨activeLow, used, filter, edge⟩ := decodeAuxIn_eq x
    exact ⟨activeLow, used, filter, fun h5 h4 => by rw [edge, h5, h4]; rfl, fun h5 h4 => by rw [edge, h5, h4]; rfl,
      fun h5 h4 => by rw [edge, h5, h4]; rfl, fun h5 h4 => by rw [edge, h5, h4]; rfl⟩
  · obtain ⟨used, activeLow, initial, drive⟩ := decodeAuxOut_eq x
    exact ⟨used, activeLow, initial, fun h5 h4 => by rw [drive, h5, h4]; rfl, fun h5 h4 => by rw [drive, h5, h4]; rfl,
      fun h5 h4 => by simp only [drive, h5, if_true]⟩
  · have taken : exec (.headerPass image) s = .next
        { s with
          store :=
            { s.store with
              line := some (decodeLineConsts image)
              station := some (decodeStationConsts image)
              tag := be32 (imageByte image 4) (imageByte image 5) (imageByte image 6) (imageByte image 7)
              styleCount := (imageByte image 40).toNat
              programCount := (imageByte image 41).toNat
              totalPoints := (image16 image 42).toNat
              phase := .styles }
          aux := { s.aux with outputs := initialOutputs (decodeStationConsts image).auxOut } } := by
      show execHeaderPass image s = _
      unfold execHeaderPass
      rw [if_pos phase, good]
    have digest : (decodeLineConsts image).digest = image16 image 15 := by
      by_contra wrong
      unfold headerFault at good
      simp only [if_pos wrong] at good
      split_ifs at good
    refine ⟨_, taken, rfl, ⟨nofun, rfl, ?_, ?_, rfl, rfl, rfl, digest⟩, ⟨nofun, rfl, rfl, rfl, rfl, rfl, rfl, rfl, rfl, rfl⟩,
      rfl, rfl, rfl, rfl, fun i => ?_⟩
    · show (if imageByte image 10 = 0 then Policy.strict else .fill) = .strict ↔ _
      split
      next zero => exact iff_of_true rfl zero
      next other => exact iff_of_false nofun other
    · show (if imageByte image 11 = 0 then Order.fixed else .rotating) = .fixed ↔ _
      split
      next zero => exact iff_of_true rfl zero
      next other => exact iff_of_false nofun other
    · fin_cases i <;> exact ⟨rfl, rfl, rfl⟩
  · intro marker version check digest range fatal
    have fault {k : FaultKind} (isFatal : k.fatal = true) (found : headerFault image = some k) : fatal k := by
      obtain ⟨offLine, active, record, shown, same⟩ := fatalFault_shows k 0 s
      exact ⟨_, execHeaderPass_of_fault phase found, offLine, active, record, shown isFatal, same⟩
    have first (h : ¬marker) : fatal .marker := fault rfl (if_pos h)
    refine ⟨first, fun h1 h2 => fault rfl ?_, fun h1 h2 h3 => fault rfl ?_, fun h1 h2 h3 h4 => fault rfl ?_,
      fun h1 h2 h3 h4 h5 => fault rfl ?_, fun h1 h2 h3 h4 h5 => ?_, fun none => first ?_⟩
    · exact (if_neg (not_not.2 h1)).trans (if_pos h2)
    · exact (if_neg (not_not.2 h1)).trans ((if_neg (not_not.2 h2)).trans (if_pos h3))
    · exact (if_neg (not_not.2 h1)).trans ((if_neg (not_not.2 h2)).trans ((if_neg (not_not.2 h3)).trans (if_pos h4)))
    · have out : headerInRange image = false := Bool.eq_false_iff.2 fun inside => h5 ((headerInRange_iff image).1 inside)
      exact (if_neg (not_not.2 h1)).trans
        ((if_neg (not_not.2 h2)).trans ((if_neg (not_not.2 h3)).trans ((if_neg (not_not.2 h4)).trans (if_pos out))))
    · have inside : headerInRange image ≠ false := by simp [(headerInRange_iff image).2 h5]
      exact (if_neg (not_not.2 h1)).trans
        ((if_neg (not_not.2 h2)).trans ((if_neg (not_not.2 h3)).trans ((if_neg (not_not.2 h4)).trans (if_neg inside))))
    · subst none
      exact fun both => absurd both.1 (by decide)

end Sys2Proof.Machine
end

