-- ==== Sys2Proof/Proofs/StartUpPasses.lean ====
section
/-!
The passes over the style table, the directory and the programs (R10 to R18). O6, O7, O8.
-/

namespace Sys2Proof.Machine

/-! ## Marks in a row -/

/-- The record after one mark (R16). -/
theorem Store.mark_firstFault (st : Store) (k : FaultKind) (p i : Nat) :
    (st.mark k p i).firstFault =
      if st.firstFault.kind = .noFault then { kind := k, program := p, point := i } else st.firstFault := by
  have same : (st.mark k p i).firstFault = (st.recordFault k p i).firstFault := by
    unfold Store.mark
    dsimp only
    split <;> rfl
  rw [same]
  unfold Store.recordFault
  split <;> rfl

/-- The faults of one kind that a pass finds, in its order: the program marked and the place (R15, R16). -/
def Store.markAll (k : FaultKind) (faults : List (Nat × Nat)) (st : Store) : Store :=
  faults.foldl (fun st x => st.mark k x.1 x.2) st

theorem Store.markAll_marked (k : FaultKind) (q : Nat) : ∀ (faults : List (Nat × Nat)) (st : Store),
    (∀ x ∈ faults, 1 ≤ x.1 ∧ x.1 ≤ 128) →
      ((st.markAll k faults).marked q = true ↔ st.marked q = true ∨ ∃ x ∈ faults, x.1 = q) := by
  intro faults
  induction faults with
  | nil => exact fun st _ => by simp [markAll]
  | cons x rest ih =>
    intro st numbers
    obtain ⟨low, high⟩ := numbers x List.mem_cons_self
    show (Store.markAll k rest (st.mark k x.1 x.2)).marked q = true ↔ _
    rw [ih _ fun y at_ => numbers y (List.mem_cons_of_mem _ at_), Store.marked_mark st k x.1 x.2 q low high,
      Bool.or_eq_true, decide_eq_true_iff]
    simp only [List.mem_cons, exists_eq_or_imp]
    grind

/-- The record is written once: by the first fault found, where none stood (R16). -/
theorem Store.markAll_firstFault (k : FaultKind) (fault : k ≠ .noFault) : ∀ (faults : List (Nat × Nat)) (st : Store),
    (st.markAll k faults).firstFault =
      match faults with
      | [] => st.firstFault
      | x :: _ =>
        if st.firstFault.kind = .noFault then { kind := k, program := x.1, point := x.2 } else st.firstFault := by
  have kept (faults : List (Nat × Nat)) : ∀ st : Store, st.firstFault.kind ≠ .noFault →
      (st.markAll k faults).firstFault = st.firstFault := by
    induction faults with
    | nil => exact fun _ _ => rfl
    | cons x rest ih =>
      intro st stands
      have same : (st.mark k x.1 x.2).firstFault = st.firstFault := by rw [mark_firstFault, if_neg stands]
      exact (ih _ (same ▸ stands)).trans same
  intro faults st
  cases faults with
  | nil => rfl
  | cons x rest =>
    show (Store.markAll k rest (st.mark k x.1 x.2)).firstFault = _
    rw [kept rest, mark_firstFault]
    rw [mark_firstFault]
    split
    · exact fault
    · assumption

/-! ## Where the fourth pass goes on -/

/-- After a pass that examined program `p` and changed the store alone, LOADING goes on with the next program not marked or
ends (R13, R18). -/
theorem continuePoints_goesOn (p : Nat) (pins : PinSample) (s : State) (st : Store)
    (count : st.programCount = s.store.programCount) (station : st.station = s.store.station) :
    passGoesOn p pins s (continuePoints (p + 1) pins { s with store := st }) := by
  have reach : p + 1 + (s.store.programCount + 1 - (p + 1)) = max (p + 1) (s.store.programCount + 1) := by omega
  cases found : st.nextUnmarked (s.store.programCount + 1 - (p + 1)) (p + 1) with
  | some q =>
    have next : continuePoints (p + 1) pins { s with store := st } = { s with store := { st with phase := .points q } } := by
      unfold continuePoints
      dsimp only
      rw [count, found]
    rw [next]
    obtain ⟨above, below, unmarked, between⟩ := Store.nextUnmarked_eq_some _ found
    refine ⟨fun r low high free first => ⟨?_, rfl⟩, fun all => ?_⟩
    · have same : q = r := by
        rcases Nat.lt_trichotomy q r with less | same | more
        · exact absurd ((first q above less).symm.trans unmarked) (by simp)
        · exact same
        · exact absurd ((between r low more).symm.trans free) (by simp)
      rw [same]
    · exact absurd ((all q above (by omega)).symm.trans unmarked) (by simp)
  | none =>
    have next : continuePoints (p + 1) pins { s with store := st } = loadingEnd pins { s with store := st } := by
      unfold continuePoints
      dsimp only
      rw [count, found]
    rw [next]
    have all := Store.nextUnmarked_eq_none _ found
    refine ⟨fun r low high free _ => ?_, fun _ => ⟨rfl, rfl, rfl, rfl, rfl, fun i => ?_, rfl⟩⟩
    · have set : st.marked r = true := all r low (by omega)
      exact absurd (set.symm.trans free) (by simp)
    · have sc : ({ s with store := st } : State).sc = s.sc := by rw [State.sc, station]; rfl
      show (sampleInputs ({ s with store := st } : State).sc.auxIn s.aux.inputs pins.aux)[i] = _
      rw [sc]
      fin_cases i <;> rfl

/-! ## The style table (R10) -/

/-- What the structure check asks of the entry `j` of a table (R10). -/
def StyleEntry.SoundAt (e : Nat → StyleEntry) (j : Nat) : Prop :=
  (e j).style ≤ 63 ∧ (∀ k < j, (e k).style ≠ (e j).style) ∧ ∀ c p, (e j).prog c = some p → p ≤ 128

theorem StyleEntry.faulty_iff (e : Nat → StyleEntry) (j : Nat) :
    (e j).faulty ((List.range j).map fun k => (e k).style) = false ↔ SoundAt e j := by
  unfold faulty SoundAt
  simp only [Bool.or_eq_false_iff, decide_eq_false_iff_not, List.contains_eq_mem, List.mem_map, List.mem_range,
    Option.any_eq_false]
  constructor
  · rintro ⟨⟨⟨style, fresh⟩, a⟩, b⟩
    refine ⟨by omega, fun k less same => fresh ⟨k, less, same⟩, fun c p named => ?_⟩
    cases c
    · simpa using a p named
    · simpa using b p named
  · rintro ⟨style, fresh, programs⟩
    exact ⟨⟨⟨by omega, fun ⟨k, less, same⟩ => fresh k less same⟩, fun p named => by simpa using programs .a p named⟩,
      fun p named => by simpa using programs .b p named⟩

/-- The structure check walks the table from entry `i` on. -/
theorem firstStyleFault_from (e : Nat → StyleEntry) : ∀ (n i : Nat),
    firstStyleFault (i + 1) ((List.range i).map fun k => (e k).style) ((List.range' i n).map e) =
      ((List.range' i n).find? fun j => (e j).faulty ((List.range j).map fun k => (e k).style)).map (· + 1) := by
  intro n
  induction n with
  | zero => exact fun i => rfl
  | succ n ih =>
    intro i
    have before : (List.range i).map (fun k => (e k).style) ++ [(e i).style] =
        (List.range (i + 1)).map fun k => (e k).style := by
      rw [List.range_succ, List.map_append, List.map_singleton]
    rw [List.range'_succ, List.map_cons, firstStyleFault, List.find?_cons, before, ih (i + 1)]
    cases (e i).faulty ((List.range i).map fun k => (e k).style) <;> rfl

theorem firstStyleFault_of_sound {e : Nat → StyleEntry} {n : Nat} (sound : ∀ j < n, StyleEntry.SoundAt e j) :
    firstStyleFault 1 [] ((List.range n).map e) = none := by
  have walk := firstStyleFault_from e n 0
  rw [← List.range_eq_range'] at walk
  refine walk.trans (Option.map_eq_none_iff.2 (List.find?_eq_none.2 fun j at_ => ?_))
  rw [(StyleEntry.faulty_iff e j).2 (sound j (List.mem_range.1 at_))]
  simp

theorem firstStyleFault_of_first {e : Nat → StyleEntry} {n i : Nat} (inside : i < n)
    (sound : ∀ j < i, StyleEntry.SoundAt e j) (faulty : ¬StyleEntry.SoundAt e i) :
    firstStyleFault 1 [] ((List.range n).map e) = some (i + 1) := by
  have walk := firstStyleFault_from e n 0
  rw [← List.range_eq_range'] at walk
  have bad : (e i).faulty ((List.range i).map fun k => (e k).style) = true := by
    rw [← Bool.not_eq_false, StyleEntry.faulty_iff]
    exact faulty
  have found : (List.range n).find? (fun j => (e j).faulty ((List.range j).map fun k => (e k).style)) = some i := by
    rw [List.find?_range_eq_some]
    refine ⟨bad, List.mem_range.2 inside, fun j less => ?_⟩
    rw [(StyleEntry.faulty_iff e j).2 (sound j less)]
    rfl
  exact walk.trans (congrArg (Option.map (· + 1)) found)

/-- The program fields of an entry that name a program above the program count, channel A before channel B, with the
entry's table position (R10). -/
def StyleEntry.undefinedFields (count i : Nat) (e : StyleEntry) : List (Nat × Nat) :=
  ((e.progA.toList ++ e.progB.toList).filter (count < ·)).map fun p => (p, i)

theorem StyleEntry.mem_undefinedFields {count i : Nat} {e : StyleEntry} {x : Nat × Nat} :
    x ∈ e.undefinedFields count i ↔ x.2 = i ∧ ∃ c, e.prog c = some x.1 ∧ count < x.1 := by
  obtain ⟨p, k⟩ := x
  simp only [undefinedFields, List.mem_map, List.mem_filter, List.mem_append, Option.mem_toList, decide_eq_true_eq,
    Prod.mk.injEq]
  constructor
  · rintro ⟨q, ⟨named | named, above⟩, rfl, rfl⟩
    · exact ⟨rfl, .a, named, above⟩
    · exact ⟨rfl, .b, named, above⟩
  · rintro ⟨rfl, c, named, above⟩
    cases c
    · exact ⟨p, ⟨.inl named, above⟩, rfl, rfl⟩
    · exact ⟨p, ⟨.inr named, above⟩, rfl, rfl⟩

theorem StyleEntry.undefinedFields_head {count i p : Nat} {e : StyleEntry} {c : Chan} (named : e.prog c = some p)
    (above : count < p) (first : c = .b → ∀ q, e.prog .a = some q → q ≤ count) :
    ∃ rest, e.undefinedFields count i = (p, i) :: rest := by
  unfold undefinedFields
  cases c with
  | a =>
    have isA : e.progA = some p := named
    rw [isA, Option.toList_some, List.cons_append, List.filter_cons, if_pos (decide_eq_true above)]
    exact ⟨_, rfl⟩
  | b =>
    have isB : e.progB = some p := named
    have noA : e.progA.toList.filter (count < ·) = [] := by
      rw [List.filter_eq_nil_iff]
      intro q isA beyond
      have := first rfl q (Option.mem_toList.1 isA)
      have := of_decide_eq_true beyond
      omega
    rw [isB, List.filter_append, noA, List.nil_append, Option.toList_some, List.filter_cons, if_pos (decide_eq_true above)]
    exact ⟨_, rfl⟩

/-- The link check marks the undefined fields in table order (R10). -/
theorem linkCheck_eq (e : Nat → StyleEntry) : ∀ (n i : Nat) (st : Store),
    linkCheck (i + 1) ((List.range' i n).map e) st =
      st.markAll .undefinedProgram ((List.range' i n).flatMap fun j => (e j).undefinedFields st.programCount (j + 1)) := by
  have field (st : Store) (i : Nat) (p : Option Nat) :
      st.linkField i p = st.markAll .undefinedProgram ((p.toList.filter (st.programCount < ·)).map fun p => (p, i)) := by
    cases p with
    | none => rfl
    | some p =>
      unfold Store.linkField
      by_cases above : st.programCount < p
      · simp [above, Store.markAll]
      · simp [above, Store.markAll]
  have count (k : FaultKind) (faults : List (Nat × Nat)) : ∀ st : Store, (st.markAll k faults).programCount = st.programCount := by
    induction faults with
    | nil => exact fun _ => rfl
    | cons x rest ih =>
      intro st
      refine (ih _).trans ?_
      show (st.mark k x.1 x.2).programCount = _
      rw [Store.mark_frame]
  have append (k : FaultKind) (l m : List (Nat × Nat)) (st : Store) : (st.markAll k l).markAll k m = st.markAll k (l ++ m) :=
    List.foldl_append.symm
  intro n
  induction n with
  | zero => exact fun i st => rfl
  | succ n ih =>
    intro i st
    rw [List.range'_succ, List.map_cons, linkCheck, ih (i + 1), field st, field, count, count, append, append,
      List.flatMap_cons, StyleEntry.undefinedFields, List.filter_append, List.map_append, List.append_assoc]

/-! ## The directory (R12) -/

/-- The directory check marks the faulty entries in program order (R12). -/
theorem directoryCheck_eq (d : Nat → DirEntry) : ∀ (n p : Nat) (st : Store),
    directoryCheck (p + 1) ((List.range' p n).map d) st =
      st.markAll .directoryRange
        ((List.range' p n).flatMap fun j => if (d j).faulty st.totalPoints then [(j + 1, 0)] else []) := by
  intro n
  induction n with
  | zero => exact fun p st => rfl
  | succ n ih =>
    intro p st
    rw [List.range'_succ, List.map_cons, directoryCheck, ih (p + 1), List.flatMap_cons]
    have total : (st.mark .directoryRange (p + 1) 0).totalPoints = st.totalPoints := by rw [Store.mark_frame]
    cases (d p).faulty st.totalPoints
    · rfl
    · rw [if_pos rfl, if_pos rfl, total]
      rfl

/-- The first fault a pass finds heads the list of its faults. -/
theorem flatMap_head_of_first {α : Type} {f : Nat → List α} {n i : Nat} {x : α} {rest : List α} (inside : i < n)
    (before : ∀ j < i, f j = []) (here : f i = x :: rest) : ∃ more, (List.range n).flatMap f = x :: more := by
  obtain ⟨m, rfl⟩ : ∃ m, n = i + (m + 1) := ⟨n - i - 1, by omega⟩
  have none : (List.range i).flatMap f = [] := List.flatMap_eq_nil_iff.2 fun j at_ => before j (List.mem_range.1 at_)
  rw [List.range_eq_range', ← List.range'_append_1, ← List.range_eq_range', List.flatMap_append, none, List.nil_append,
    Nat.zero_add, List.range'_succ, List.flatMap_cons, here]
  exact ⟨_, rfl⟩

/-- Settles O6: the structure check by its first failing entry, the link check by the list of its undefined fields. -/
theorem stylePass : Obligations.StylePass := by
  unfold Obligations.StylePass
  refine ⟨fun image i => ⟨rfl, rfl, rfl⟩, fun image s phase => ?_, fun image s i phase inside => ?_⟩
  · intro n e undefinedAt sound
    let st : Store := { s.store with styles := (List.range n).map e, phase := .directory }
    have taken : exec (.stylePass image) s = .next { s with store := linkCheck 1 ((List.range n).map e) st } := by
      show execStylePass image s = _
      unfold execStylePass
      dsimp only
      rw [if_pos phase, firstStyleFault_of_sound sound]
    let fields := fun j => (e j).undefinedFields s.store.programCount (j + 1)
    have marks : linkCheck 1 ((List.range n).map e) st = st.markAll .undefinedProgram ((List.range n).flatMap fields) := by
      rw [List.range_eq_range']
      exact linkCheck_eq e n 0 st
    have fields_iff (i p : Nat) : (p, i + 1) ∈ fields i ↔ ∃ c, (e i).prog c = some p ∧ s.store.programCount < p := by
      rw [StyleEntry.mem_undefinedFields]
      exact and_iff_right rfl
    have numbers : ∀ x ∈ (List.range n).flatMap fields, 1 ≤ x.1 ∧ x.1 ≤ 128 := by
      intro x at_
      obtain ⟨i, inside, named⟩ := List.mem_flatMap.1 at_
      obtain ⟨-, c, named, above⟩ := StyleEntry.mem_undefinedFields.1 named
      exact ⟨by omega, (sound i (List.mem_range.1 inside)).2.2 c _ named⟩
    have record := Store.markAll_firstFault .undefinedProgram nofun ((List.range n).flatMap fields) st
    refine ⟨_, taken, congrArg (fun st => { s with store := st }) (linkCheck_frame ((List.range n).map e) 1 st),
      fun p _ _ => ?_, fun nothing => ?_, fun i c p noFault named first onB => ?_⟩
    · show (linkCheck 1 ((List.range n).map e) st).marked p = true ↔ _
      rw [marks, Store.markAll_marked _ _ _ _ numbers]
      refine or_congr Iff.rfl ⟨fun ⟨x, at_, same⟩ => ?_, fun ⟨i, c, inside, named⟩ => ?_⟩
      · obtain ⟨i, inside, named⟩ := List.mem_flatMap.1 at_
        obtain ⟨-, c, named⟩ := StyleEntry.mem_undefinedFields.1 named
        exact ⟨i, c, List.mem_range.1 inside, same ▸ named⟩
      · exact ⟨(p, i + 1), List.mem_flatMap.2 ⟨i, List.mem_range.2 inside, (fields_iff i p).2 ⟨c, named⟩⟩, rfl⟩
    · show (linkCheck 1 ((List.range n).map e) st).firstFault = _
      rw [marks, record]
      split
      · rfl
      next x rest found =>
        refine if_neg (nothing.resolve_right fun none => ?_)
        have at_ : x ∈ (List.range n).flatMap fields := found ▸ List.mem_cons_self
        obtain ⟨i, inside, named⟩ := List.mem_flatMap.1 at_
        obtain ⟨-, c, named⟩ := StyleEntry.mem_undefinedFields.1 named
        exact none i c x.1 ⟨List.mem_range.1 inside, named⟩
    · obtain ⟨inside, isNamed, above⟩ := named
      have before : ∀ j < i, fields j = [] := by
        intro j less
        rw [List.eq_nil_iff_forall_not_mem]
        intro x at_
        obtain ⟨-, d, other⟩ := StyleEntry.mem_undefinedFields.1 at_
        exact first j d x.1 less ⟨by omega, other⟩
      have head : ∃ rest, fields i = (p, i + 1) :: rest := by
        refine StyleEntry.undefinedFields_head isNamed above fun isB q isA => ?_
        by_contra beyond
        exact onB isB q ⟨inside, isA, by omega⟩
      obtain ⟨rest, here⟩ := head
      obtain ⟨more, head⟩ := flatMap_head_of_first inside before here
      show (linkCheck 1 ((List.range n).map e) st).firstFault = _
      rw [marks, record, head]
      exact if_pos noFault
  · intro e sound earlier faulty
    have taken : exec (.stylePass image) s = .next (fatalFault .styleEntry (i + 1) s) := by
      show execStylePass image s = _
      unfold execStylePass
      dsimp only
      rw [if_pos phase, firstStyleFault_of_first inside earlier faulty]
    obtain ⟨offLine, active, record, -, same⟩ := fatalFault_shows .styleEntry (i + 1) s
    exact ⟨_, taken, offLine, active, record, same⟩

/-- Settles O7. -/
theorem directoryPass : Obligations.DirectoryPass := by
  unfold Obligations.DirectoryPass
  refine ⟨fun image i => ⟨be16_toNat _ _, rfl, be16_toNat _ _⟩, fun image pins s phase few => ?_⟩
  intro d faulty
  let dir := (List.range s.store.programCount).map (decodeDir image)
  let st : Store := { s.store with directory := dir }
  let faults := fun j => if (decodeDir image j).faulty s.store.totalPoints then [(j + 1, 0)] else []
  have taken : exec (.directoryPass image pins) s = .next (continuePoints 1 pins { s with store := directoryCheck 1 dir st }) :=
    if_pos phase
  have marks : directoryCheck 1 dir st = st.markAll .directoryRange ((List.range s.store.programCount).flatMap faults) := by
    show directoryCheck 1 ((List.range s.store.programCount).map (decodeDir image)) st = _
    rw [List.range_eq_range']
    exact directoryCheck_eq (decodeDir image) s.store.programCount 0 st
  have frame := directoryCheck_frame dir 1 st
  obtain ⟨newPhase, store, -, -⟩ := continuePoints_store 1 pins { s with store := directoryCheck 1 dir st }
  have faulty_iff (j : Nat) : (decodeDir image j).faulty s.store.totalPoints = true ∧ j < s.store.programCount ↔ faulty (j + 1) := by
    simp only [DirEntry.faulty, Bool.or_eq_true, beq_iff_eq, decide_eq_true_eq, faulty, d, Nat.add_sub_cancel]
    constructor
    · rintro ⟨bad, inside⟩
      exact ⟨by omega, inside, bad⟩
    · rintro ⟨-, inside, bad⟩
      exact ⟨bad, inside⟩
  have mem_faults (x : Nat × Nat) : x ∈ (List.range s.store.programCount).flatMap faults ↔ x.2 = 0 ∧ faulty x.1 := by
    rw [List.mem_flatMap]
    constructor
    · rintro ⟨j, inside, at_⟩
      have bad : (decodeDir image j).faulty s.store.totalPoints = true := by
        by_contra sound
        simp only [faults, if_neg sound, List.not_mem_nil] at at_
      simp only [faults, if_pos bad, List.mem_singleton] at at_
      subst at_
      exact ⟨rfl, (faulty_iff j).1 ⟨bad, List.mem_range.1 inside⟩⟩
    · obtain ⟨p, k⟩ := x
      rintro ⟨rfl, bad⟩
      obtain ⟨j, rfl⟩ : ∃ j, p = j + 1 := ⟨p - 1, by have := bad.1; omega⟩
      obtain ⟨isFaulty, inside⟩ := (faulty_iff j).2 bad
      refine ⟨j, List.mem_range.2 inside, ?_⟩
      simp only [faults, if_pos isFaulty, List.mem_singleton]
  have numbers : ∀ x ∈ (List.range s.store.programCount).flatMap faults, 1 ≤ x.1 ∧ x.1 ≤ 128 := by
    intro x at_
    obtain ⟨-, low, high, -⟩ := (mem_faults x).1 at_
    exact ⟨low, high.trans few⟩
  have record := Store.markAll_firstFault .directoryRange nofun ((List.range s.store.programCount).flatMap faults) st
  refine ⟨_, taken, ?_, fun p => ?_, fun p _ _ => ?_, fun nothing => ?_, fun p noFault bad first => ?_, ?_⟩
  · rw [store]
    dsimp only
    rw [frame]
  · have same : (continuePoints 1 pins { s with store := directoryCheck 1 dir st }).store.directory = dir := by
      rw [store]
      dsimp only
      rw [frame]
    unfold Store.dirEntry
    rw [same]
    by_cases zero : p = 0
    · rw [if_pos zero, if_neg (by omega)]
    · rw [if_neg zero]
      by_cases high : p ≤ s.store.programCount
      · rw [if_pos ⟨by omega, high⟩]
        simp only [dir, List.getElem?_map, List.getElem?_range (show p - 1 < s.store.programCount by omega), Option.map_some, d]
      · rw [if_neg (fun both => high both.2)]
        exact List.getElem?_eq_none (by simp [dir]; omega)
  · have same : (continuePoints 1 pins { s with store := directoryCheck 1 dir st }).store.marked p =
        (directoryCheck 1 dir st).marked p := by rw [store]; rfl
    rw [same, marks, Store.markAll_marked _ _ _ _ numbers]
    refine or_congr Iff.rfl ⟨fun ⟨x, at_, same⟩ => same ▸ ((mem_faults x).1 at_).2, fun bad =>
      ⟨(p, 0), (mem_faults _).2 ⟨rfl, bad⟩, rfl⟩⟩
  · rw [store]
    show (directoryCheck 1 dir st).firstFault = _
    rw [marks, record]
    split
    · rfl
    next x rest found =>
      exact if_neg (nothing.resolve_right fun none => none x.1 ((mem_faults x).1 (found ▸ List.mem_cons_self)).2)
  · obtain ⟨j, rfl⟩ : ∃ j, p = j + 1 := ⟨p - 1, by have := bad.1; omega⟩
    obtain ⟨isFaulty, inside⟩ := (faulty_iff j).2 bad
    have before : ∀ k < j, faults k = [] := by
      intro k less
      refine if_neg fun isBad => ?_
      exact first (k + 1) (by omega) ((faulty_iff k).1 ⟨isBad, by omega⟩)
    obtain ⟨more, head⟩ := flatMap_head_of_first inside before (if_pos isFaulty)
    rw [store]
    show (directoryCheck 1 dir st).firstFault = _
    rw [marks, record, head]
    exact if_pos noFault
  · exact continuePoints_goesOn 0 pins s (directoryCheck 1 dir st) (by rw [frame]) (by rw [frame])

/-! ## The programs (R13, R14) -/

/-- The first point that fails a check, counted from `k` on (R13). -/
theorem firstPointFault_of_first {l : LineConsts} {c : StationConsts} {r : PointRec} {f : FaultKind}
    (fails : pointFault l c r = some f) : ∀ (recs : List PointRec) (k m : Nat), recs[m]? = some r →
      (∀ j < m, ∀ x, recs[j]? = some x → pointFault l c x = none) → firstPointFault l c k recs = some (f, k + m) := by
  intro recs
  induction recs with
  | nil => exact fun k m get => nomatch get
  | cons x rest ih =>
    intro k m get sound
    rw [firstPointFault]
    cases m with
    | zero =>
      obtain rfl : x = r := by simpa using get
      rw [fails]
      rfl
    | succ m =>
      rw [sound 0 (by omega) x rfl]
      dsimp only
      rw [ih (k + 1) m (by simpa using get) fun j less y at_ => sound (j + 1) (by omega) y (by simpa using at_)]
      congr 2
      omega

theorem firstPointFault_of_sound {l : LineConsts} {c : StationConsts} : ∀ (recs : List PointRec) (k : Nat),
    (∀ r ∈ recs, pointFault l c r = none) → firstPointFault l c k recs = none := by
  intro recs
  induction recs with
  | nil => exact fun _ _ => rfl
  | cons x rest ih =>
    intro k sound
    obtain ⟨first, later⟩ := List.forall_mem_cons.1 sound
    rw [firstPointFault, first]
    exact ih (k + 1) later

/-- The records that the pass over a program reads (R13). -/
def DirEntry.records (d : DirEntry) (image : List Byte) : List PointRec := (List.range d.count).map (decodePoint image)

theorem DirEntry.records_getElem? (d : DirEntry) (image : List Byte) {k : Nat} (inside : k < d.count) :
    (d.records image)[k]? = some (decodePoint image k) := by
  rw [records, List.getElem?_map, List.getElem?_range inside]
  rfl

theorem DirEntry.mem_records {d : DirEntry} {image : List Byte} {r : PointRec} :
    r ∈ d.records image ↔ ∃ k < d.count, decodePoint image k = r := by
  rw [records, List.mem_map]
  simp only [List.mem_range]

section
variable {image : List Byte} {pins : PinSample} {s : State} {p : Nat} {d : DirEntry}

/-- The store with a program's records at their positions: anew, or only where no record stands (log 19). -/
def State.recorded (s : State) (anew : Bool) (d : DirEntry) (image : List Byte) : Store :=
  { s.store with points := insertPoints anew d.first (d.records image) s.store.points }

theorem execProgramPass_of_fault {f : FaultKind} {k : Nat} (phase : s.store.phase = .points p)
    (entry : s.store.dirEntry p = some d) (found : programFault s.lc s.sc d image (d.records image) = some (f, k)) :
    exec (.programPass image pins) s =
      .next (continuePoints (p + 1) pins { s with store := (s.recorded false d image).mark f p k }) := by
  unfold DirEntry.records at found
  show execProgramPass image pins s = _
  unfold execProgramPass
  rw [phase]
  dsimp only
  rw [entry]
  dsimp only
  rw [found]
  rfl

theorem execProgramPass_of_good (phase : s.store.phase = .points p) (entry : s.store.dirEntry p = some d)
    (good : programFault s.lc s.sc d image (d.records image) = none) :
    exec (.programPass image pins) s = .next (continuePoints (p + 1) pins { s with store := s.recorded true d image }) := by
  unfold DirEntry.records at good
  show execProgramPass image pins s = _
  unfold execProgramPass
  rw [phase]
  dsimp only
  rw [entry]
  dsimp only
  rw [good]
  rfl

/-- A program with a fault: the mark, the record where none stood, and LOADING goes on (R13, R15, R16). -/
theorem programPass_of_fault {f : FaultKind} {k : Nat} (phase : s.store.phase = .points p)
    (entry : s.store.dirEntry p = some d) (found : programFault s.lc s.sc d image (d.records image) = some (f, k)) (low : 1 ≤ p) (high : p ≤ 128) :
    ∃ t, exec (.programPass image pins) s = .next t
      ∧ t.store = { s.store with points := t.store.points, marks := t.store.marks, firstFault := t.store.firstFault,
                                 phase := t.store.phase }
      ∧ ((∀ q, t.store.marked q = (s.store.marked q || q == p))
        ∧ t.store.firstFault =
            (if s.store.firstFault.kind = .noFault then { kind := f, program := p, point := k } else s.store.firstFault))
      ∧ passGoesOn p pins s t := by
  have frame := Store.mark_frame (s.recorded false d image) f p k
  obtain ⟨newPhase, store, -, -⟩ :=
    continuePoints_store (p + 1) pins { s with store := (s.recorded false d image).mark f p k }
  have same (q : Nat) :
      (continuePoints (p + 1) pins { s with store := (s.recorded false d image).mark f p k }).store.marked q =
        ((s.recorded false d image).mark f p k).marked q := by
    rw [store]
    rfl
  refine ⟨_, execProgramPass_of_fault phase entry found, ?_, ⟨fun q => ?_, ?_⟩,
    continuePoints_goesOn p pins s _ (by rw [frame]; rfl) (by rw [frame]; rfl)⟩
  · rw [store]
    dsimp only
    rw [frame]
    rfl
  · rw [same, Store.marked_mark _ f p k q low high, Bool.or_comm]
    rfl
  · rw [store]
    exact Store.mark_firstFault ..

end

theorem decodePoint_cond (image : List Byte) (i : Nat) :
    (decodePoint image i).cond = decodeCond (imageByte image (11 * i + 8)) := rfl

theorem decodeCond_index {b : Byte} (h5 : b.getLsbD 5 = false) (h4 : b.getLsbD 4 = false) :
    (b.extractLsb' 0 6).toNat = b.toNat % 16 := by
  apply Nat.eq_of_testBit_eq
  intro j
  rw [show b.toNat % 16 = b.toNat % 2 ^ 4 from rfl, Nat.testBit_mod_two_pow, BitVec.testBit_toNat, BitVec.testBit_toNat,
    BitVec.getLsbD_extractLsb', Nat.zero_add]
  match j with
  | 0 | 1 | 2 | 3 => rfl
  | 4 => rw [h4]; rfl
  | 5 => rw [h5]; rfl
  | j + 6 => simp [show ¬j + 6 < 6 by omega, show ¬j + 6 < 4 by omega]

/-- Settles O8: by the program's first fault, the check before the points. -/
theorem programPass : Obligations.ProgramPass := by
  unfold Obligations.ProgramPass
  refine ⟨fun image i => ?_, fun image pins s p d phase low high entry => ?_⟩
  · refine ⟨rfl, rfl, be16_toNat _ _, be16_toNat _ _, be16_toNat _ _, fun absent => if_neg (Bool.eq_false_iff.1 absent),
      fun present => ⟨_, if_pos present, rfl, decodeCond_index⟩, fun absent => if_neg (Bool.eq_false_iff.1 absent),
      fun present => ⟨_, if_pos present, ?_, rfl⟩, fun absent => if_neg (Bool.eq_false_iff.1 absent),
      fun present => ⟨_, if_pos present, ?_, rfl, rfl⟩⟩
    all_goals
      show ((imageByte image _).extractLsb' 0 3).toNat % 8 = _
      rw [BitVec.extractLsb'_toNat, Nat.shiftRight_zero]
      exact Nat.mod_mod ..
  intro matching fails marks
  by_cases agrees : matching
  · have points : programFault s.lc s.sc d image (d.records image) = firstPointFault s.lc s.sc 1 (d.records image) :=
      if_neg (not_not.2 agrees)
    have first {k : Nat} {f : FaultKind} (one : 1 ≤ k) (last : k ≤ d.count)
        (before : ∀ j, 1 ≤ j → j < k → fails j = none) (fault : fails k = some f) :
        firstPointFault s.lc s.sc 1 (d.records image) = some (f, k) := by
      have least : ∀ j < k - 1, ∀ x, (d.records image)[j]? = some x → pointFault s.lc s.sc x = none := by
        intro j less x get
        rw [d.records_getElem? image (by omega), Option.some.injEq] at get
        rw [← get]
        exact before (j + 1) (by omega) (by omega)
      have found := firstPointFault_of_first fault (d.records image) 1 (k - 1) (d.records_getElem? image (by omega)) least
      rwa [Nat.add_sub_cancel' one] at found
    cases found : firstPointFault s.lc s.sc 1 (d.records image) with
    | some x =>
      obtain ⟨t, run, frame, marked, goesOn⟩ := programPass_of_fault phase entry (points.trans found) low high
      refine ⟨t, run, frame, fun differs => absurd agrees differs, fun k f _ one last before fault => ?_, fun _ sound => ?_,
        goesOn⟩
      · obtain rfl : x = (f, k) := Option.some.inj (found.symm.trans (first one last before fault))
        exact marked
      · have none := firstPointFault_of_sound (l := s.lc) (c := s.sc) (d.records image) 1 fun r at_ => by
          obtain ⟨k, inside, rfl⟩ := DirEntry.mem_records.1 at_
          exact sound (k + 1) (by omega) inside
        exact absurd (found.symm.trans none) (by simp)
    | none =>
      obtain ⟨newPhase, store, -, -⟩ := continuePoints_store (p + 1) pins { s with store := s.recorded true d image }
      refine ⟨_, execProgramPass_of_good phase entry (points.trans found), by rw [store]; rfl,
        fun differs => absurd agrees differs, fun k f _ one last before fault => ?_, fun _ _ => ?_,
        continuePoints_goesOn p pins s _ rfl rfl⟩
      · exact absurd (found.symm.trans (first one last before fault)) (by simp)
      · refine ⟨by rw [store]; rfl, by rw [store]; rfl, fun k one last => ?_⟩
        rw [Store.pointAt_eq_some, store, show d.first + k - 1 = d.first + (k - 1) by omega]
        exact insertPoints_find_anew (d.records image) _ d.first (k - 1) s.store.points
          (d.records_getElem? image (by omega))
  · obtain ⟨t, run, frame, marked, goesOn⟩ := programPass_of_fault phase entry (if_pos agrees) low high
    exact ⟨t, run, frame, fun _ => marked, fun _ _ holds => absurd holds agrees, fun holds => absurd holds agrees, goesOn⟩

end Sys2Proof.Machine
end

