-- ==== Sys2Proof/Proofs/Deeds.lean ====
section
/-!
SUPPORT. What one command does, as a walk of single deeds: moves of the engines, changes of one block, items handed to the
outbox, and at the end at most one binding. A law of the whole part is shown of the deeds, once.
-/

namespace Sys2Proof.Machine

variable {s t u : State} {L W B : Prop}

/-! ## What the changes of one block keep -/

/-- Sticky bits are only ever set (R173). -/
structure Sticky.Grows (x y : Sticky) : Prop where
  outboxOverflow : x.outboxOverflow = true → y.outboxOverflow = true
  encoderError : x.encoderError = true → y.encoderError = true
  strayBody : x.strayBody = true → y.strayBody = true
  tagMissing : x.tagMissing = true → y.tagMissing = true
  tagRecordError : x.tagRecordError = true → y.tagRecordError = true
  registerEviction : x.registerEviction = true → y.registerEviction = true
  reverseTravel : x.reverseTravel = true → y.reverseTravel = true

theorem Sticky.Grows.refl (x : Sticky) : x.Grows x := ⟨id, id, id, id, id, id, id⟩

theorem Sticky.Grows.trans {x y z : Sticky} (h : x.Grows y) (g : y.Grows z) : x.Grows z :=
  ⟨g.1 ∘ h.1, g.2 ∘ h.2, g.3 ∘ h.3, g.4 ∘ h.4, g.5 ∘ h.5, g.6 ∘ h.6, g.7 ∘ h.7⟩

/-- The capacities of the body tracker (R37, R54). -/
structure Tracker.Bounded (r : Tracker) : Prop where
  register : r.register.length ≤ 24
  serials : (r.register.map Entry.serial).Nodup
  entries : ∀ e ∈ r.register, e.serial ≠ 0 ∧ 1 ≤ e.announcer ∧ e.announcer ≤ 30
  tagBytes : r.tagBytes.length ≤ 7

/-- The zone record's body, if it has one now, was there before, but for its being listed. -/
def Zone.Relisted (y z : Zone) : Prop := ∀ d b, z = .bound d b → ∃ x, y = .bound d { b with listed := x }

theorem Zone.Relisted.refl (z : Zone) : z.Relisted z := fun _ b same => ⟨b.listed, same⟩

theorem Zone.Relisted.of_free {y z : Zone} (free : z.isBound = false) : y.Relisted z := fun d b same => by
  rw [same] at free
  exact nomatch free

/-- The outbox after a change that hands it nothing: items of before, RESULT items perhaps as repeats (R137, R139). -/
structure OutboxFrom (x y : List Item) : Prop where
  length : x.length ≤ 16 → y.length ≤ 16
  items : ∀ i ∈ y, i ∈ x ∨ ∃ j ∈ x, i = j.repeated

theorem OutboxFrom.refl (x : List Item) : OutboxFrom x x := ⟨id, fun _ => .inl⟩

/-- A RESULT of the bound body, once its engine has left its last point. -/
def State.Forms (s : State) (r : Result) : Prop :=
  ∃ c d b, s.tracker.zone = .bound d b ∧ (s.eng c).state.hasPoint = false ∧ r = formResult c b

/-! ## Deeds -/

/-- One deed of a command. Only where `L` lets it does it change the view or the line, or fire an engine. -/
inductive Deed (L : Prop) : State → State → Prop
  | move {s t : State} {c : Chan} (move : Move L c s t) : Deed L s t
  | line {s : State} (allowed : L) (v : View) (l : LineCtl) (straps : l.straps = s.line.straps)
      (orphans : s.view.orphans.length ≤ 8 → v.orphans.length ≤ 8) (outbox : OutboxFrom s.line.outbox l.outbox) :
      Deed L s { s with view := v, line := l }
  | pushed {s : State} (i : Item) (formed : ∀ r, i = .result r → s.Forms r) : Deed L s (s.pushItem i)
  | body {s : State} (k : Counter) (r : Tracker) (y : Sticky) (windows : ∀ c, s.counter.window c = none → k.window c = none)
      (within : s.TrackedWithin → State.TrackedWithin { s with counter := k, tracker := r, sticky := y })
      (bounded : s.tracker.Bounded → r.Bounded) (zone : s.tracker.zone.Relisted r.zone) (grows : s.sticky.Grows y) :
      Deed L s { s with counter := k, tracker := r, sticky := y }
  | aux {s : State} (x : AuxUnit) : Deed L s { s with aux := x }

/-- A walk of deeds. -/
abbrev Deeds (L : Prop) : State → State → Prop := Relation.ReflTransGen (Deed L)

theorem Deeds.trans (h : Deeds L s t) (g : Deeds L t u) : Deeds L s u := Relation.ReflTransGen.trans h g

theorem Deed.deeds (h : Deed L s t) : Deeds L s t := .single h

/-- What every deed keeps, the walk keeps. -/
theorem Deeds.keeps {P : State → Prop} (deed : ∀ {s t}, Deed L s t → P s → P t) (h : Deeds L s t) (start : P s) : P t := by
  induction h with
  | refl => exact start
  | tail _ last ih => exact deed last ih

/-- The zone is bound, with nothing in it before and, where `W` holds, no engine on a point. -/
inductive Binds (W : Prop) (u : State) : State → Prop
  | mk (datum : Word32) (serial : Word24) (style : Byte) (options : Word16) (disputed listed : Bool)
      (free : u.tracker.zone.isBound = false) (idle : W → ∀ c, (u.eng c).state.hasPoint = false) :
      Binds W u (bindZone datum serial style options disputed listed u)

/-- A whole command: deeds, and where `B` lets it a binding at the end. -/
def Passes (L W B : Prop) (s t : State) : Prop := ∃ u, Deeds L s u ∧ (t = u ∨ (B ∧ Binds W u t))

theorem Deeds.passes (h : Deeds L s t) : Passes L W B s t := ⟨t, h, .inl rfl⟩

theorem Passes.after (h : Passes L W B t u) (first : Deeds L s t) : Passes L W B s u := by
  obtain ⟨v, deeds, last⟩ := h
  exact ⟨v, first.trans deeds, last⟩

/-- A law that the deeds and a binding keep. -/
theorem Passes.keeps {P : State → Prop} (deed : ∀ {s t}, Deed L s t → P s → P t) (binds : ∀ {u t}, Binds W u t → P u → P t)
    (h : Passes L W B s t) (start : P s) : P t := by
  obtain ⟨u, deeds, rfl | ⟨-, last⟩⟩ := h
  · exact deeds.keeps deed start
  · exact binds last (deeds.keeps deed start)

/-! ## Walks step by step -/

theorem Moves.deeds {c : Chan} (h : Moves L c s t) : Deeds L s t :=
  h.keeps (P := Deeds L s) (fun move walk => walk.tail (.move move)) .refl

theorem Deeds.moves {c : Chan} (h : Deeds L s t) (next : Moves L c t u) : Deeds L s u := h.trans next.deeds

/-- The view and the line change. -/
theorem Deeds.toBoth (h : Deeds L s t) (allowed : L) {v : View} {l : LineCtl} (straps : l.straps = t.line.straps)
    (orphans : t.view.orphans.length ≤ 8 → v.orphans.length ≤ 8)
    (outbox : OutboxFrom t.line.outbox l.outbox) :
    Deeds L s { t with view := v, line := l } := h.tail (.line allowed v l straps orphans outbox)

/-- The line changes, its straps and outbox apart. -/
theorem Deeds.toLine (h : Deeds L s t) (allowed : L) {l : LineCtl} (straps : l.straps = t.line.straps)
    (outbox : OutboxFrom t.line.outbox l.outbox) : Deeds L s { t with line := l } :=
  h.tail (.line allowed t.view l straps id outbox)

/-- The view changes, with no more orphans than before or than there is room for. -/
theorem Deeds.toView (h : Deeds L s t) (allowed : L) {v : View}
    (orphans : t.view.orphans.length ≤ 8 → v.orphans.length ≤ 8) : Deeds L s { t with view := v } :=
  h.tail (.line allowed v t.line rfl orphans (.refl _))

theorem Counter.window_none_of_same {k l : Counter} (a : l.windowA = k.windowA) (b : l.windowB = k.windowB) (c : Chan)
    (none : k.window c = none) : l.window c = Option.none := by
  cases c
  · exact a.trans none
  · exact b.trans none

theorem Tracker.Bounded.of_same {x r : Tracker} (register : r.register = x.register) (tagBytes : r.tagBytes = x.tagBytes)
    (h : x.Bounded) : r.Bounded :=
  ⟨by rw [register]; exact h.register, by rw [register]; exact h.serials, by rw [register]; exact h.entries,
    by rw [tagBytes]; exact h.tagBytes⟩

/-- The counter, the tracker and the sticky bits change, T and C apart. -/
theorem Deeds.toBody (h : Deeds L s t) {k : Counter} {r : Tracker} {y : Sticky}
    (tracked : k.tracked = t.counter.tracked) (raw : k.raw = t.counter.raw)
    (windows : ∀ c, t.counter.window c = none → k.window c = none) (bounded : t.tracker.Bounded → r.Bounded)
    (zone : t.tracker.zone.Relisted r.zone) (grows : t.sticky.Grows y) :
    Deeds L s { t with counter := k, tracker := r, sticky := y } :=
  h.tail (.body k r y windows (fun within => within.of_same rfl tracked raw) bounded zone grows)

/-- The same, with the windows, the register and the tag bytes as they were. -/
theorem Deeds.toBeside (h : Deeds L s t) {k : Counter} {r : Tracker} {y : Sticky}
    (counter : k.tracked = t.counter.tracked ∧ k.raw = t.counter.raw ∧ k.windowA = t.counter.windowA ∧ k.windowB = t.counter.windowB)
    (tracker : r.register = t.tracker.register ∧ r.tagBytes = t.tracker.tagBytes) (zone : t.tracker.zone.Relisted r.zone)
    (grows : t.sticky.Grows y) : Deeds L s { t with counter := k, tracker := r, sticky := y } := by
  obtain ⟨tracked, raw, a, b⟩ := counter
  exact h.toBody tracked raw (Counter.window_none_of_same a b) (.of_same tracker.1 tracker.2) zone grows

theorem Deeds.toPushed (h : Deeds L s t) (i : Item) (formed : ∀ r, i = .result r → t.Forms r) : Deeds L s (t.pushItem i) :=
  h.tail (.pushed i formed)

theorem Deeds.toAux (h : Deeds L s t) {x : AuxUnit} : Deeds L s { t with aux := x } := h.tail (.aux x)

end Sys2Proof.Machine
end

