-- ==== Sys2Proof/Proofs/CommandDeeds.lean ====
section
/-!
SUPPORT. Every shared operation and every command but those of start-up as a walk of deeds, in the order of the
definitions.
-/

namespace Sys2Proof.Machine

variable {s t u : State} {L W B : Prop}

/-! ## Bodies -/

theorem Tracker.Bounded.markSerial {r : Tracker} (h : r.Bounded) (n : Word24) (m : Mark) :
    Tracker.Bounded { r with register := markSerial r.register n m } where
  register := by simpa [Machine.markSerial] using h.register
  serials := by
    have same : (Machine.markSerial r.register n m).map Entry.serial = r.register.map Entry.serial := by
      unfold Machine.markSerial
      rw [List.map_map]
      refine List.map_congr_left fun e _ => ?_
      show Entry.serial (if e.serial = n then { e with mark := m } else e) = e.serial
      split <;> rfl
    exact same ▸ h.serials
  entries e at_ := by
    obtain ⟨x, member, rfl⟩ := List.mem_map.1 at_
    split
    · exact h.entries x member
    · exact h.entries x member
  tagBytes := h.tagBytes

theorem Deeds.toMarked (h : Deeds L s t) (n : Word24) (m : Mark) : Deeds L s (t.markEntry n m) :=
  h.toBody rfl rfl (Counter.window_none_of_same rfl rfl) (·.markSerial n m) (.refl _) (.refl _)

theorem Deeds.toZone (h : Deeds L s t) {z : Zone} (free : z.isBound = false) : Deeds L s (t.setZone z) :=
  h.toBeside ⟨rfl, rfl, rfl, rfl⟩ ⟨rfl, rfl⟩ (.of_free free) (.refl _)

theorem Deeds.toEndWatches (h : Deeds L s t) : Deeds L s t.endWatches :=
  h.toBody rfl rfl (fun | .a => fun _ => rfl | .b => fun _ => rfl) (.of_same rfl rfl) (.refl _) (.refl _)

theorem Deeds.toResult (h : Deeds L s t) {d : Word32} {b : Body} (zone : t.tracker.zone = .bound d b) {c : Chan}
    (closed : (t.eng c).state.hasPoint = false) : Deeds L s (pushResult c b t) := by
  unfold pushResult
  split
  · exact h
  all_goals exact h.toPushed _ fun r same => ⟨c, d, b, zone, closed, by injection same with same; exact same.symm⟩

@[simp] theorem pushResult_tracker (c : Chan) (b : Body) (s : State) : (pushResult c b s).tracker = s.tracker := by
  unfold pushResult
  split <;> simp

theorem Deeds.toFinished (h : Deeds L s t) (closed : ∀ c, (t.eng c).state.hasPoint = false) : Deeds L s (finishZone t) := by
  unfold finishZone
  split
  next d b zone =>
    dsimp only
    have results : Deeds L s (pushResult .b b (pushResult .a b t)) :=
      (h.toResult zone (closed .a)).toResult (by rw [pushResult_tracker, zone]) (by rw [pushResult_eng]; exact closed .b)
    have left : Deeds L s (if t.sc.exit then (pushResult .b b (pushResult .a b t)).pushItem (.depart b.serial)
        else pushResult .b b (pushResult .a b t)) := by
      split
      · exact results.toPushed _ fun r same => Item.noConfusion same
      · exact results
    exact ((left.toMarked _ _).toEndWatches).toZone rfl
  · exact h

theorem closeOutBoth_deeds (s : State) : Deeds L s (closeOut .b (closeOut .a s)) :=
  (Move.closed (L := L) (c := .a)).moves.deeds.moves (Move.closed (c := .b)).moves

theorem zoneEnd_deeds (s : State) : Deeds L s (zoneEnd s) := by
  unfold zoneEnd
  split
  · exact .refl
  · exact (closeOutBoth_deeds s).toFinished (closeOut_both_hasPoint s)
  · exact Deeds.toZone (Deeds.toEndWatches .refl) rfl
  · exact Deeds.toBody .refl rfl rfl (fun | .a => fun _ => rfl | .b => fun _ => rfl)
        (.of_same rfl rfl) (.of_free rfl) ⟨id, id, id, fun _ => rfl, id, id, id⟩

theorem orderBind_passes (datum : Word32) (allowed : B) (free : s.tracker.zone.isBound = false)
    (idle : W → ∀ c, (s.eng c).state.hasPoint = false) : Passes L W B s (orderBind datum s) := by
  unfold orderBind
  split
  · refine ⟨_, Deeds.toMarked .refl _ _, .inr ⟨allowed, .mk _ _ _ _ _ _ free fun w c => ?_⟩⟩
    rw [State.eng_markEntry]
    exact idle w c
  · exact Deeds.passes (.toBeside .refl ⟨rfl, rfl, rfl, rfl⟩ ⟨rfl, rfl⟩ (.of_free rfl) ⟨id, id, fun _ => rfl, id, id, id, id⟩)

theorem tagBind_passes (datum : Word32) (n : Word24) (y : Byte) (x : Word16) (allowed : B)
    (free : s.tracker.zone.isBound = false) (idle : W → ∀ c, (s.eng c).state.hasPoint = false) :
    Passes L W B s (tagBind datum n y x s) := by
  have start : Deeds L s { s with counter := { s.counter with pairWatch := .disarmed } } :=
    Deeds.toBeside .refl ⟨rfl, rfl, rfl, rfl⟩ ⟨rfl, rfl⟩ (.refl _) (.refl _) 
  have eng (c : Chan) : ({ s with counter := { s.counter with pairWatch := .disarmed } } : State).eng c = s.eng c := by
    cases c <;> rfl
  unfold tagBind
  dsimp only
  split
  · refine ⟨_, start.toPushed _ (fun r same => Item.noConfusion same),
        .inr ⟨allowed, .mk _ _ _ _ _ _ (by simpa using free) fun w c => ?_⟩⟩
    rw [State.eng_pushItem, eng]
    exact idle w c
  · have marked := start.toMarked n .here
    split
    · refine ⟨_, ?_, .inr ⟨allowed, .mk _ _ _ _ _ _ ?_ fun w c => ?_⟩⟩
      · split
        · exact marked.toPushed _ fun r same => Item.noConfusion same
        · exact marked
      · split
        · simpa using free
        · exact free
      · split
        · rw [State.eng_pushItem, State.eng_markEntry, eng]
          exact idle w c
        · rw [State.eng_markEntry, eng]
          exact idle w c
    · refine ⟨_, marked.toPushed _ (fun r same => Item.noConfusion same),
          .inr ⟨allowed, .mk _ _ _ _ _ _ (by simpa using free) fun w c => ?_⟩⟩
      rw [State.eng_pushItem, State.eng_markEntry, eng]
      exact idle w c

theorem takeArrival_passes (allowed : B) (follows : W → s.WindowsFollow) : Passes L W B s (takeArrival s) := by
  have ended : Deeds L s (zoneEnd s) := zoneEnd_deeds s
  have free := zoneEnd_isBound s
  have idle (w : W) (c : Chan) : ((zoneEnd s).eng c).state.hasPoint = false :=
    ((zoneEnd_windowsFollow (follows w)).of_free free c).1
  unfold takeArrival
  dsimp only
  generalize zoneEnd s = u at ended free idle
  have armed (x y : Watch) (r : Tracker) (same : r = { u.tracker with held := r.held }) :
      Deeds L s { u with counter := { u.counter with heldWatch := x, zoneWatch := y }, tracker := r } := by
    rw [same]
    exact ended.toBeside ⟨rfl, rfl, rfl, rfl⟩ ⟨rfl, rfl⟩ (.refl _) (.refl _)
  have idleAfter (x y : Watch) (r : Tracker) (w : W) (c : Chan) :
      (({ u with counter := { u.counter with heldWatch := x, zoneWatch := y }, tracker := r } : State).eng c).state.hasPoint
        = false := by
    cases c
    · exact idle w .a
    · exact idle w .b
  split
  · split
    next read held =>
      refine Passes.after ?_ (armed .disarmed (Watch.arm u.counter.tracked (u.sc.zoneLength - 1))
          { u.tracker with held := none } rfl)
      exact tagBind_passes _ _ _ _ allowed free (idleAfter _ _ _)
    · exact Deeds.passes (ended.toBeside ⟨rfl, rfl, rfl, rfl⟩ ⟨rfl, rfl⟩ (.of_free rfl) (.refl _))
  · refine Passes.after ?_ (armed u.counter.heldWatch (Watch.arm u.counter.tracked (u.sc.zoneLength - 1)) u.tracker rfl)
    exact orderBind_passes _ allowed free (idleAfter _ _ _)

/-! ## Tag records -/

theorem Tracker.Bounded.idle {r : Tracker} (h : r.Bounded) : Tracker.Bounded { r with tagBytes := [], tagTimer := .stopped } :=
  ⟨h.register, h.serials, h.entries, Nat.zero_le _⟩

theorem tagError_deeds (s : State) : Deeds L s (tagError s) :=
  Deeds.toBody .refl rfl rfl (Counter.window_none_of_same rfl rfl) (·.idle) (.refl _) ⟨id, id, id, id, fun _ => rfl, id, id⟩

theorem takeTagRecord_passes (n : Word24) (y : Byte) (x : Word16) (allowed : s.tracker.zone.isBound = false → B)
    (follows : W → s.WindowsFollow) : Passes L W B s (takeTagRecord n y x s) := by
  have hold (w : Watch) (r : HeldRead) : Deeds L s
      { s with tracker := { s.tracker with held := some r }, counter := { s.counter with heldWatch := w } } :=
          .toBeside .refl ⟨rfl, rfl, rfl, rfl⟩ ⟨rfl, rfl⟩ (.refl _) (.refl _)
  unfold takeTagRecord
  dsimp only
  split
  next d zone =>
    have free : s.tracker.zone.isBound = false := by rw [zone]; rfl
    exact tagBind_passes _ _ _ _ (allowed free) free fun w c => ((follows w).of_free free c).1
  · split
    · exact Deeds.passes .refl
    · exact (hold _ _).passes
  · exact (hold _ _).passes
  · exact (hold _ _).passes

theorem tagComplete_passes (bytes : List Byte) (allowed : s.tracker.zone.isBound = false → B) (follows : W → s.WindowsFollow) :
    Passes L W B s (tagComplete bytes s) := by
  unfold tagComplete
  split
  · split
    · have idle : Deeds L s { s with tracker := { s.tracker with tagBytes := [], tagTimer := .stopped } } :=
        .toBody .refl rfl rfl (Counter.window_none_of_same rfl rfl) (·.idle) (.refl _) (.refl _)
      refine Passes.after ?_ idle
      exact takeTagRecord_passes _ _ _ allowed fun w => by simpa using follows w
    · exact (tagError_deeds s).passes
  · exact Deeds.passes .refl

theorem takeTagByte_passes (x : Byte) (allowed : s.tracker.zone.isBound = false → B) (follows : W → s.WindowsFollow) :
    Passes L W B s (takeTagByte x s) := by
  unfold takeTagByte
  dsimp only
  split
  · exact (tagError_deeds s).passes
  · split
    · exact tagComplete_passes _ allowed follows
    next short =>
      refine Deeds.passes (.toBody .refl rfl rfl (Counter.window_none_of_same rfl rfl)
          (fun b => ⟨b.register, b.serials, b.entries, ?_⟩) (.refl _) (.refl _))
      have := b.tagBytes
      rw [List.length_append, List.length_singleton] at short
      simp only [List.length_append, List.length_singleton]
      omega

/-! ## Items applied to the register -/

theorem Tracker.Bounded.sublist {r : Tracker} (h : r.Bounded) {reg : List Entry} (sub : reg.Sublist r.register) :
    Tracker.Bounded { r with register := reg } where
  register := sub.length_le.trans h.register
  serials := h.serials.sublist (sub.map _)
  entries e at_ := h.entries e (sub.subset at_)
  tagBytes := h.tagBytes

/-- Room is made for a new entry: the oldest goes when the register is full (R40). -/
theorem evictIfFull_body (s : State) : ∃ r y, evictIfFull s = { s with tracker := r, sticky := y } ∧ s.sticky.Grows y
    ∧ r.zone = s.tracker.zone ∧ r.register.Sublist s.tracker.register
    ∧ (s.tracker.Bounded → r.Bounded ∧ r.register.length ≤ 23) := by
  unfold evictIfFull
  split
  next room =>
    have : s.tracker.register.length < 24 := room
    exact ⟨s.tracker, s.sticky, rfl, .refl _, rfl, .refl _, fun h => ⟨h, by omega⟩⟩
  · refine ⟨_, _, rfl, ⟨id, id, id, id, id, fun _ => rfl, id⟩, rfl, List.drop_sublist .., fun h =>
      ⟨h.sublist (List.drop_sublist ..), ?_⟩⟩
    have := h.register
    show (s.tracker.register.drop 1).length ≤ 23
    rw [List.length_drop]
    omega

theorem applyAnnounce_deeds (sender : Nat) (n : Word24) (y : Byte) (x : Word16) (low : 1 ≤ sender) (high : sender ≤ 30)
    (serial : n ≠ 0) (s : State) : Deeds L s (applyAnnounce sender n y x s) := by
  obtain ⟨r, k, evicted, grows, zone, sub, bounded⟩ := evictIfFull_body s
  unfold applyAnnounce
  split
  · exact .refl
  next fresh =>
    have new : ∀ e ∈ r.register, e.serial ≠ n := fun e at_ same =>
      fresh (List.any_eq_true.2 ⟨e, sub.subset at_, beq_iff_eq.2 same⟩)
    dsimp only
    rw [evicted]
    refine Deeds.toBody .refl rfl rfl (Counter.window_none_of_same rfl rfl) (fun h => ?_) ?_ grows
    · obtain ⟨⟨-, serials, entries, tagBytes⟩, room⟩ := bounded h
      refine ⟨?_, ?_, fun e at_ => ?_, tagBytes⟩
      · show (r.register ++ [_]).length ≤ 24
        rw [List.length_append, List.length_singleton]
        omega
      · show ((r.register ++ [_]).map Entry.serial).Nodup
        rw [List.map_append, List.map_singleton]
        refine serials.append (List.nodup_singleton _) fun m at_ other => ?_
        obtain ⟨e, member, rfl⟩ := List.mem_map.1 at_
        exact new e member (List.mem_singleton.1 other)
      · rcases List.mem_append.1 at_ with old | one
        · exact entries e old
        · rw [List.mem_singleton.1 one]
          exact ⟨serial, low, high⟩
    · intro d b same
      dsimp only at same
      split at same
      · rw [zone] at same
        cases before : s.tracker.zone with
        | bound d' b' =>
          rw [before] at same
          obtain ⟨rfl, rfl⟩ := Zone.bound.inj same
          exact ⟨b'.listed, rfl⟩
        | empty | pairing _ | stray _ =>
          rw [before] at same
          exact nomatch same
      · exact Zone.Relisted.refl _ d b (zone ▸ same)

theorem Deeds.toRegister (h : Deeds L s t) {reg : List Entry}
    (bounded : t.tracker.Bounded → Tracker.Bounded { t.tracker with register := reg }) :
    Deeds L s { t with tracker := { t.tracker with register := reg } } :=
        h.toBody rfl rfl (Counter.window_none_of_same rfl rfl) bounded (.refl _) (.refl _)

theorem resyncRegister_sublist (sender : Nat) (n : Word24) (reg : List Entry) : (resyncRegister sender n reg).Sublist reg := by
  unfold resyncRegister olderThan
  split
  · have split := List.takeWhile_append_dropWhile (p := fun e : Entry => e.serial != n) (l := reg)
    conv_rhs => rw [← split]
    exact List.filter_sublist.append (.refl _)
  · exact .refl _

theorem applyItem_deeds (sender : Nat) (exitFlag : Bool) (low : 1 ≤ sender) (high : sender ≤ 30) (i : Item) (s : State) :
    Deeds L s (applyItem sender exitFlag s i) := by
  cases i with
  | announce n y x =>
    unfold applyItem
    dsimp only
    split
    · exact .refl
    next serial => exact applyAnnounce_deeds sender n y x low high serial s
  | dispute n y x =>
    unfold applyItem
    dsimp only
    split
    · exact .refl
    · refine Deeds.toRegister .refl fun h => ⟨by simpa using h.register, ?_, fun e at_ => ?_, h.tagBytes⟩
      · have same : (s.tracker.register.map fun e => if e.serial = n then { e with disputed := true } else e).map Entry.serial =
            s.tracker.register.map Entry.serial := by
          rw [List.map_map]
          refine List.map_congr_left fun e _ => ?_
          show Entry.serial (if e.serial = n then { e with disputed := true } else e) = e.serial
          split <;> rfl
        exact same ▸ h.serials
      · obtain ⟨x, member, rfl⟩ := List.mem_map.1 at_
        split
        · exact h.entries x member
        · exact h.entries x member
  | resync n =>
    unfold applyItem
    dsimp only
    split
    · exact .refl
    · exact Deeds.toRegister .refl (·.sublist (resyncRegister_sublist ..))
  | depart n =>
    unfold applyItem applyDepart
    dsimp only
    split
    · exact .refl
    · split
      · exact Deeds.toRegister .refl (·.sublist List.filter_sublist)
      · exact .refl
  | result r => exact .refl

theorem applyItems_deeds (sender : Nat) (exitFlag : Bool) (low : 1 ≤ sender) (high : sender ≤ 30) (items : List Item) :
    ∀ s : State, Deeds L s (applyItems sender exitFlag items s) := by
  induction items with
  | nil => exact fun _ => .refl
  | cons i rest ih => exact fun s => (applyItem_deeds sender exitFlag low high i s).trans (ih _)

/-! ## The feeder table -/

theorem View.expire_orphans (n : Word16) (v : View) (h : v.orphans.length ≤ 8) : (v.expire n).orphans.length ≤ 8 :=
  (List.length_filter_le ..).trans h

theorem expireClaims_deeds (allowed : L) (s : State) : Deeds L s (expireClaims s) := by
  unfold expireClaims
  split
  · exact .refl
  next n count =>
    dsimp only
    have expired : Deeds L s { s with view := s.view.expire n } := .toView .refl allowed (View.expire_orphans n s.view)
    have reported (c : Chan) (p : Bool) {t : State} (h : Deeds L s t) : Deeds L s (if p then reportExpiry c t else t) := by
      split
      · exact h.moves (reportExpiry_moves c t)
      · exact h
    exact reported .b _ (reported .a _ expired)

theorem feederGoodEcho_deeds (allowed : L) (s : State) : Deeds L s (feederGoodEcho s) := by
  have pointed (p : Bool) : Deeds L s (if p then { s with view := { s.view with pointer := s.own } } else s) := by
    split
    · exact .toView .refl allowed id
    · exact .refl
  have reported (c : Chan) (o : Option Offer) {t : State} (h : Deeds L s t) :
      Deeds L s (match o with | some o => reportAdmission c o.number t | none => t) := by
    cases o with
    | none => exact h
    | some o => exact h.moves (reportAdmission_moves allowed c o.number t)
  exact (reported .b _ (reported .a _ (pointed _))).toView allowed id

theorem feederFailedEcho_deeds (allowed : L) (s : State) : Deeds L s (feederFailedEcho s) := by
  refine Deeds.toView .refl allowed fun h => ?_
  show (View.setRow _ _ _).orphans.length ≤ 8
  rwa [View.setRow_orphans]

/-! ## Rounds and the rotation -/

theorem joinHoldEnd_deeds (allowed : L) (s : State) : Deeds L s (joinHoldEnd s) := by
  unfold joinHoldEnd
  split
  · exact .toLine .refl allowed rfl (.refl _)
  · exact .refl

theorem raiseJoinHold_deeds (allowed : L) (s : State) : Deeds L s (raiseJoinHold s) := by
  unfold raiseJoinHold
  split
  · have raised : Deeds L s { s with line := { s.line with joinHold := s.line.joinHold + 1 } } :=
        .toLine .refl allowed rfl (.refl _)
    exact raised.trans (joinHoldEnd_deeds allowed _)
  · exact .refl

theorem boundary_deeds (allowed : L) (s : State) : Deeds L s (boundary s) := by
  unfold boundary
  split
  · exact .refl
  next n count =>
    dsimp only
    have counted : Deeds L s { s with line := { s.line with count := some (n + 1) } } := .toLine .refl allowed rfl (.refl _)
    have expired := counted.trans (expireClaims_deeds allowed _)
    generalize expireClaims { s with line := { s.line with count := some (n + 1) } } = u at expired
    have closed : Deeds L s
        { u with
          view := u.view.closeRound u.line.record
          line := { u.line with lastValid := u.line.lastValid.map fun f => { f with since := f.since.next } } } :=
      expired.toBoth allowed rfl id (.refl _)
    exact (closed.trans (raiseJoinHold_deeds allowed _)).toLine allowed rfl (.refl _)

theorem moveOn_deeds (allowed : L) (a : Nat) (ref : RefPoint) (s : State) : Deeds L s (moveOn a ref s) := by
  have wrapped : Deeds L s (if a = Config.lastAddress then boundary s else s) := by
    split
    · exact boundary_deeds allowed s
    · exact .refl
  exact wrapped.toLine allowed rfl (.refl _)

theorem unclean_deeds (allowed : L) (s : State) : Deeds L s s.unclean := .toLine .refl allowed rfl (.refl _)

theorem setMiss_deeds (allowed : L) (s : State) : Deeds L s s.setMiss := .toView .refl allowed id

theorem enterOffLine_deeds (allowed : L) (s : State) : Deeds L s (enterOffLine s) := by
  have closed : Deeds L s (closeOut .b (closeOut .a s)) := closeOutBoth_deeds s
  unfold enterOffLine
  generalize closeOut .b (closeOut .a s) = u at closed
  have stopped : Deeds L s
      { u with
        counter :=
          { u.counter with
            heldWatch := .disarmed, pairWatch := .disarmed, zoneWatch := .disarmed, windowA := none, windowB := none }
        tracker :=
          { u.tracker with
            held := none, bodyIn := u.tracker.bodyIn.stopWait, zoneOut := u.tracker.zoneOut.stopWait
            tagBytes := [], tagTimer := .stopped } } :=
    closed.toBody rfl rfl (fun | .a => fun _ => rfl | .b => fun _ => rfl)
        (fun b => ⟨b.register, b.serials, b.entries, Nat.zero_le _⟩) (.refl _) (.refl _)
  have quiet : Deeds L s
      { u with
        counter :=
          { u.counter with
            heldWatch := .disarmed, pairWatch := .disarmed, zoneWatch := .disarmed, windowA := none, windowB := none }
        tracker :=
          { u.tracker with
            held := none, bodyIn := u.tracker.bodyIn.stopWait, zoneOut := u.tracker.zoneOut.stopWait
            tagBytes := [], tagTimer := .stopped }
        aux := { u.aux with inputs := stopConditioning u.aux.inputs } } := stopped.toAux
  exact quiet.toBoth allowed (LineCtl.setRoster_straps ..) id (LineCtl.setRoster_outbox .. ▸ .refl _)

theorem offLineAtLimit_deeds (allowed : L) (s : State) : Deeds L s (offLineAtLimit s) := by
  unfold offLineAtLimit
  split
  · exact enterOffLine_deeds allowed s
  · exact .refl

/-! ## The own frame -/

theorem View.setSlot_orphans (v : View) (a : Nat) (c : Chan) (x : Slot) : (v.setSlot a c x).orphans = v.orphans :=
  View.setRow_orphans ..

theorem setOwnSlots_deeds (allowed : L) (n : Word16) (s : State) : Deeds L s (setOwnSlots n s) := by
  refine Deeds.toView .refl allowed fun h => ?_
  rwa [View.setSlot_orphans, View.setSlot_orphans]

theorem judgeSlot_deeds (allowed : L) (n : Word16) (c : Chan) (s : State) : Deeds L s (judgeSlot n c s) := by
  unfold judgeSlot
  split
  · split
    · exact .refl
    · refine Deeds.toView .refl allowed fun h => ?_
      cases c <;> exact (View.setSlot_orphans ..).symm ▸ h
  · exact .refl

theorem ownTurnStart_deeds (allowed : L) (n : Word16) (s : State) : Deeds L s (ownTurnStart n s) := by
  have judged : Deeds L s (judgeOwnSlots n (setOwnSlots n s)) := by
    refine (setOwnSlots_deeds allowed n s).trans ?_
    unfold judgeOwnSlots
    split
    · exact (judgeSlot_deeds allowed n .b _).trans (judgeSlot_deeds allowed n .a _)
    · exact (judgeSlot_deeds allowed n .a _).trans (judgeSlot_deeds allowed n .b _)
  exact judged.toLine allowed rfl (.refl _)

/-! ## Applying a frame -/

theorem adoptCount_deeds (allowed : L) (n : Word16) (s : State) : Deeds L s (adoptCount n s) := by
  have counted : Deeds L s { s with line := { s.line with count := some n } } := .toLine .refl allowed rfl (.refl _)
  exact counted.trans (expireClaims_deeds allowed _)

/-- A standing request without a round takes one, on both channels (R77). -/
theorem Deeds.toCounted (h : Deeds L s t) (allowed : L) (n : Word16) {l : LineCtl} (straps : l.straps = t.line.straps)
    (outbox : OutboxFrom t.line.outbox l.outbox) :
    Deeds L s { t with engA := fillRequest n t.engA, engB := fillRequest n t.engB, line := l } := by
  have filled := (h.moves (Move.counted (L := L) (c := .a) n).moves).moves (Move.counted (c := .b) n).moves
  exact filled.toLine allowed straps outbox

theorem takeRound_deeds (allowed : L) (sender : Nat) (round : Word16) (s : State) : Deeds L s (takeRound sender round s) := by
  unfold takeRound
  split
  · exact (adoptCount_deeds allowed round s).toCounted allowed round rfl (.refl _)
  · split
    · exact .refl
    · dsimp only
      split
      · exact (setMiss_deeds allowed s).trans (adoptCount_deeds allowed round _)
      · exact setMiss_deeds allowed s

theorem applyHeader_deeds (allowed : L) (f : Frame) (s : State) : Deeds L s (applyHeader f s) := by
  have missed : Deeds L s (if s.line.onRoster f.sender.toNat then s else s.setMiss) := by
    split
    · exact .refl
    · exact setMiss_deeds allowed s
  unfold applyHeader
  dsimp only
  generalize (if s.line.onRoster f.sender.toNat then s else s.setMiss) = u at missed
  have listed : Deeds L s { u with line := u.line.setRoster f.sender.toNat (some 0) } :=
    missed.toLine allowed (LineCtl.setRoster_straps ..) (LineCtl.setRoster_outbox .. ▸ .refl _)
  have rounded := listed.trans (takeRound_deeds allowed f.sender.toNat f.round _)
  generalize takeRound f.sender.toNat f.round { u with line := u.line.setRoster f.sender.toNat (some 0) } = w at rounded
  refine rounded.toBoth allowed rfl (fun h => ?_) (.refl _)
  split
  · show (View.setRow _ _ _).orphans.length ≤ 8
    rwa [View.setRow_orphans]
  · rwa [View.setRow_orphans]

theorem applyClaimList_deeds (allowed : L) (f : Frame) (s : State) : Deeds L s (applyClaimList f s) := by
  unfold applyClaimList
  split
  · refine Deeds.toView .refl allowed fun h => ?_
    unfold View.applyClaims
    dsimp only
    split <;> split <;> simpa [View.setMiss, View.setRow_orphans] using h
  · exact .refl

theorem applyFrame_deeds (allowed : L) {f : Frame} (low : 1 ≤ f.sender.toNat) (high : f.sender.toNat ≤ 30) (s : State) :
    Deeds L s (applyFrame f s) :=
  ((applyHeader_deeds allowed f s).trans (applyClaimList_deeds allowed f _)).trans (applyItems_deeds _ _ low high _ _)

theorem applyOwnFrame_deeds (allowed : L) {f : Frame} (low : 1 ≤ f.sender.toNat) (high : f.sender.toNat ≤ 30) (s : State) :
    Deeds L s (applyOwnFrame f s) :=
  ((applyHeader_deeds allowed f s).trans (feederGoodEcho_deeds allowed _)).trans (applyItems_deeds _ _ low high _ _)

/-! ## Own turn end -/

theorem enterOnLine_deeds (allowed : L) (s : State) : Deeds L s (enterOnLine s) := by
  unfold enterOnLine
  split
  · exact .toLine .refl allowed (LineCtl.setRoster_straps ..) (LineCtl.setRoster_outbox s.line _ _ ▸ .refl _)
  · exact .refl

theorem OutboxFrom.drop (k : Nat) (items : List Item) : OutboxFrom items (items.drop k) where
  length h := by
    rw [List.length_drop]
    omega
  items _ at_ := .inl (List.mem_of_mem_drop at_)

theorem OutboxFrom.markRepeats (k : Nat) (items : List Item) : OutboxFrom items (markRepeats k items) where
  length h := by
    unfold Machine.markRepeats
    rw [List.length_append, List.length_map, List.length_take, List.length_drop]
    omega
  items i at_ := by
    rcases List.mem_append.1 at_ with repeated | kept
    · obtain ⟨j, member, rfl⟩ := List.mem_map.1 repeated
      exact .inr ⟨j, List.mem_of_mem_take member, rfl⟩
    · exact .inl (List.mem_of_mem_drop kept)

theorem ownTurnGood_deeds (allowed : L) {f : Frame} (low : 1 ≤ f.sender.toNat) (high : f.sender.toNat ≤ 30) (k : Nat)
    (s : State) : Deeds L s (ownTurnGood f k s) := by
  have ended : Deeds L s { s with line := { s.line with jabber := 0, inFlight := none } } := .toLine .refl allowed rfl (.refl _)
  have applied := (ended.trans (enterOnLine_deeds allowed _)).trans (applyOwnFrame_deeds allowed low high _)
  unfold ownTurnGood
  dsimp only
  generalize applyOwnFrame f _ = u at applied
  have carried : Deeds L s
      { u with line := { u.line with outbox := u.line.outbox.drop k, record := { u.line.record with goodEcho := true } } } :=
    applied.toLine allowed rfl (OutboxFrom.drop k _)
  exact carried.trans (moveOn_deeds allowed _ _ _)

theorem ownTurnFailed_deeds (allowed : L) (k jabber : Nat) (ref : RefPoint) (s : State) :
    Deeds L s (ownTurnFailed k jabber ref s) := by
  have ended : Deeds L s { s with line := { s.line with jabber := jabber, inFlight := none } } :=
      .toLine .refl allowed rfl (.refl _)
  have reverted := ended.trans (feederFailedEcho_deeds allowed _)
  unfold ownTurnFailed
  dsimp only
  generalize feederFailedEcho _ = u at reverted
  have repeated : Deeds L s { u with line := { u.line with outbox := markRepeats k u.line.outbox } } :=
    reverted.toLine allowed rfl (OutboxFrom.markRepeats k _)
  exact (repeated.trans (unclean_deeds allowed _)).trans (moveOn_deeds allowed _ _ _)

/-! ## Carriers -/

theorem restartFounding_deeds (allowed : L) (s : State) : Deeds L s (restartFounding s) := by
  unfold restartFounding
  split
  · exact .toLine .refl allowed rfl (.refl _)
  · exact .refl

theorem realign_deeds (allowed : L) (v : Nat) (s : State) : Deeds L s (realign v s) := by
  unfold realign
  split
  · split
    · exact ((unclean_deeds allowed s).trans (boundary_deeds allowed _)).trans (unclean_deeds allowed _)
    · exact unclean_deeds allowed s
  · exact unclean_deeds allowed s

theorem hearFrame_deeds (allowed : L) {f : Frame} (low : 1 ≤ f.sender.toNat) (high : f.sender.toNat ≤ 30)
    (began : Option Position) (s : State) : Deeds L s (hearFrame f began s) := by
  unfold hearFrame
  dsimp only
  split
  · exact (applyFrame_deeds allowed low high s).trans (moveOn_deeds allowed _ _ _)
  · split
    · exact (applyFrame_deeds allowed low high s).trans (moveOn_deeds allowed _ _ _)
    · exact (((realign_deeds allowed _ s).trans (setMiss_deeds allowed _)).trans (applyFrame_deeds allowed low high _)).trans
        (moveOn_deeds allowed _ _ _)

theorem moveOnFrom_deeds (allowed : L) (p : Position) (s : State) : Deeds L s (moveOnFrom p s) := by
  unfold moveOnFrom
  split
  · exact moveOn_deeds allowed _ _ s
  · exact .toLine .refl allowed rfl (.refl _)

theorem hearGarbled_deeds (allowed : L) (began : Option Position) (s : State) : Deeds L s (hearGarbled began s) := by
  unfold hearGarbled
  split
  · exact setMiss_deeds allowed s
  · split
    · exact ((setMiss_deeds allowed s).trans (unclean_deeds allowed _)).trans (moveOnFrom_deeds allowed _ _)
    · exact (setMiss_deeds allowed s).trans (moveOnFrom_deeds allowed _ _)

theorem endHeard_deeds (allowed : L) {valid : Option Frame} (wf : ∀ f, valid = some f → f.WellFormed) (k : Carrier)
    (s : State) : Deeds L s (endHeard valid k s) := by
  have garbled : Deeds L s (restartFounding (hearGarbled k.began s)) :=
    (hearGarbled_deeds allowed _ s).trans (restartFounding_deeds allowed _)
  unfold endHeard
  split
  next f =>
    obtain ⟨low, high⟩ := (wf f rfl).sender
    split
    · split
      · exact garbled
      · exact enterOffLine_deeds allowed s
    · exact hearFrame_deeds allowed low high _ s
  · exact garbled

theorem endUntaken_deeds (allowed : L) (s : State) : Deeds L s (endUntaken s) := by
  have idle : Deeds L s { s with line := { s.line with untaken := .absent } } := .toLine .refl allowed rfl (.refl _)
  unfold endUntaken
  dsimp only
  split
  · exact .refl
  · exact idle.trans (restartFounding_deeds allowed _)
  · exact idle.trans (hearGarbled_deeds allowed _ _)

theorem forgoTurn_deeds (allowed : L) (s : State) : Deeds L s (forgoTurn s) := .toLine .refl allowed rfl (.refl _)

theorem View.dropSlot_orphans (n : Word16) (a : Nat) (c : Chan) (v : View) (h : v.orphans.length ≤ 8) :
    (v.dropSlot n a c).orphans.length ≤ 8 := by
  unfold View.dropSlot
  split
  · exact h
  · rwa [View.setSlot_orphans]
  · split
    · rwa [View.setRow_orphans]
    · split
      next room =>
        have : v.orphans.length < 8 := room
        rw [View.setRow_orphans, List.length_append, List.length_singleton]
        omega
      · rwa [View.setRow_orphans]

theorem countLapse_deeds (allowed : L) (a : Nat) (s : State) : Deeds L s (countLapse a s) := by
  have listed (x : Option (Fin 3)) : Deeds L s { s with line := s.line.setRoster a x } :=
    .toLine .refl allowed (LineCtl.setRoster_straps ..) (LineCtl.setRoster_outbox s.line _ _ ▸ .refl _)
  unfold countLapse
  split
  · exact .refl
  · split
    · dsimp only
      split
      · refine (listed none).toView allowed fun h => ?_
        unfold View.drop
        dsimp only
        rw [View.setRow_orphans]
        exact View.dropSlot_orphans _ _ _ _ (View.dropSlot_orphans _ _ _ _ h)
      · exact listed none
    · exact listed _

end Sys2Proof.Machine
end

