-- ==== Sys2Proof/Proofs/CommandPasses.lean ====
section
/-!
SUPPORT. Every command but those of start-up: its deeds, and the binding it may end with. Only the line controller's
commands reach the view and the line.
-/

/-- The commands of the line controller and the feeder table. -/
def Sys2Proof.Instr.worksLine : Instr → Bool
  | .carrierStart | .carrierTimeout | .carrierEnd _ _ | .noEchoTimeout | .jabberCut | .ownTurnStart | .joinFrameStart | .lapse
  | .vacancyWindowEnd | .claimExpiry | .joinHoldEnd | .founding | .transmissionEnd => true
  | _ => false

namespace Sys2Proof.Machine

variable {s t u : State} {L W B : Prop}

/-! ## The conveyor -/

theorem State.setTracked_window_none (s : State) (x : Word32) {c : Chan} (none : s.counter.window c = none) :
    (s.setTracked x).counter.window c = Option.none := by
  have after (u : State) (none : u.counter.window c = Option.none) : u.windowAfter c = Option.none := by
    unfold State.windowAfter
    rw [none]
  unfold State.setTracked
  split
  · exact none
  · cases c
    · exact after _ none
    · exact after _ none

/-- A command of the conveyor is one deed. -/
theorem conveyed_deeds (frame : t = { s with counter := t.counter, sticky := t.sticky })
    (windows : ∀ c, s.counter.window c = none → t.counter.window c = none) (within : s.TrackedWithin → t.TrackedWithin)
    (grows : s.sticky.Grows t.sticky) : Deeds L s t := by
  rw [frame]
  exact (Deed.body t.counter s.tracker t.sticky windows (frame ▸ within) id (.refl _) grows).deeds

theorem execCountChange_deeds (l : EncLine) (s : State) : AllNext (Deeds L s) (execCountChange l s) := by
  have within := fun h : s.TrackedWithin => execCountChange_trackedWithin l h
  cases quad : s.counter.quad with
  | none =>
    unfold execCountChange
    rw [quad]
    exact (allNext_next _ _).2 .refl
  | some q =>
    rw [execCountChange_eq l quad] at within ⊢
    obtain ⟨-, -, frame⟩ := State.setTracked_follows (s.counted q l)
      (nextTracked (nextRaw s.counter.raw q l) s.counter.tracked s.sc.hysteresis)
    rw [allNext_next]
    refine conveyed_deeds (by rw [frame]; rfl) (fun c none => State.setTracked_window_none _ _ ?_)
      (fun h => (allNext_next _ _).1 (within h)) ?_
    · cases c <;> exact none
    · rw [frame]
      exact ⟨id, id, id, id, id, id, fun h => by show (_ || _) = true; rw [h]; rfl⟩

theorem execIllegalTransition_deeds (s : State) : AllNext (Deeds L s) (execIllegalTransition s) := by
  unfold execIllegalTransition
  split
  · exact (allNext_next _ _).2 .refl
  · dsimp only
    split
    · exact (allNext_next _ _).2 (.toBeside .refl ⟨rfl, rfl, rfl, rfl⟩ ⟨rfl, rfl⟩ (.refl _) (.refl _))
    · exact (allNext_next _ _).2 (.toBeside .refl ⟨rfl, rfl, rfl, rfl⟩ ⟨rfl, rfl⟩
          (.refl _) ⟨id, fun _ => rfl, id, id, id, id, id⟩)

theorem execHaltTimerExpiry_deeds (s : State) : AllNext (Deeds L s) (execHaltTimerExpiry s) := by
  have within := fun h : s.TrackedWithin => execHaltTimerExpiry_trackedWithin h
  unfold execHaltTimerExpiry at within ⊢
  split
  · exact (allNext_next _ _).2 .refl
  next n timer =>
    rw [timer] at within
    obtain ⟨-, -, frame⟩ := State.setTracked_follows
      ({ s with counter := { s.counter with motion := .halted, haltTimer := .stopped } }) s.counter.raw
    rw [allNext_next]
    refine conveyed_deeds (by rw [frame]) (fun c none => State.setTracked_window_none _ _ ?_)
      (fun h => (allNext_next _ _).1 (within h)) (by rw [frame]; exact .refl _)
    cases c <;> exact none

/-! ## The body tracker -/

theorem execHeldReadExpiry_deeds (s : State) : AllNext (Deeds L s) (execHeldReadExpiry s) := by
  unfold execHeldReadExpiry
  split
  · exact (allNext_next _ _).2 (.toBeside .refl ⟨rfl, rfl, rfl, rfl⟩ ⟨rfl, rfl⟩ (.refl _) (.refl _))
  · exact (allNext_next _ _).2 .refl

theorem execPairingWaitExpiry_passes (allowed : s.tracker.zone.isBound = false → B) (follows : W → s.WindowsFollow) :
    AllNext (Passes L W B s) (execPairingWaitExpiry s) := by
  unfold execPairingWaitExpiry
  split
  · have disarmed (y : Sticky) (grows : s.sticky.Grows y) :
        Deeds L s { s with counter := { s.counter with pairWatch := .disarmed }, sticky := y } :=
            .toBeside .refl ⟨rfl, rfl, rfl, rfl⟩ ⟨rfl, rfl⟩ (.refl _) grows
    dsimp only
    split
    next d zone =>
      have free : s.tracker.zone.isBound = false := by rw [zone]; rfl
      rw [allNext_next]
      refine Passes.after ?_ (disarmed { s.sticky with tagMissing := true } ⟨id, id, id, fun _ => rfl, id, id, id⟩)
      refine orderBind_passes d (allowed free) free fun w c => ?_
      cases c
      · exact ((follows w).of_free free .a).1
      · exact ((follows w).of_free free .b).1
    all_goals exact (allNext_next _ _).2 (disarmed s.sticky (.refl _)).passes
  · exact (allNext_next _ _).2 (Deeds.passes .refl)

theorem execZoneLengthEvent_deeds (s : State) : AllNext (Deeds L s) (execZoneLengthEvent s) := by
  unfold execZoneLengthEvent
  split
  · have disarmed : Deeds L s { s with counter := { s.counter with zoneWatch := .disarmed } } :=
        .toBeside .refl ⟨rfl, rfl, rfl, rfl⟩ ⟨rfl, rfl⟩ (.refl _) (.refl _)
    exact (allNext_next _ _).2 (disarmed.trans (zoneEnd_deeds _))
  · exact (allNext_next _ _).2 .refl

theorem Deeds.toSensor (h : Deeds L s t) (l : SensorLine) (x : Sensor) : Deeds L s (t.setSensor l x) := by
  cases l
  · exact h.toBeside ⟨rfl, rfl, rfl, rfl⟩ ⟨rfl, rfl⟩ (.refl _) (.refl _)
  · exact h.toBeside ⟨rfl, rfl, rfl, rfl⟩ ⟨rfl, rfl⟩ (.refl _) (.refl _)

theorem execArrival_passes (allowed : B) (follows : W → s.WindowsFollow) : AllNext (Passes L W B s) (execArrival s) := by
  unfold execArrival
  split
  · rw [allNext_next]
    refine Passes.after ?_ (Deeds.toSensor .refl .bodyIn s.tracker.bodyIn.settle)
    exact takeArrival_passes allowed fun w => (State.setSensor_windowsFollow _ _).2 (follows w)
  · exact (allNext_next _ _).2 (Deeds.passes .refl)

theorem execZoneExit_deeds (s : State) : AllNext (Deeds L s) (execZoneExit s) := by
  unfold execZoneExit
  split
  · exact (allNext_next _ _).2 ((Deeds.toSensor .refl _ _).trans (zoneEnd_deeds _))
  · exact (allNext_next _ _).2 .refl

theorem execTagByte_passes (x : Byte) (stopHigh : Bool) (allowed : s.tracker.zone.isBound = false → B)
    (follows : W → s.WindowsFollow) : AllNext (Passes L W B s) (execTagByte x stopHigh s) := by
  unfold execTagByte
  split
  · rw [allNext_next]
    split
    · exact takeTagByte_passes x allowed follows
    · exact (tagError_deeds s).passes
  · exact (allNext_next _ _).2 (Deeds.passes .refl)

theorem execTagByteTimeout_deeds (s : State) : AllNext (Deeds L s) (execTagByteTimeout s) := by
  unfold execTagByteTimeout
  split
  · exact (allNext_next _ _).2 (tagError_deeds s)
  · exact (allNext_next _ _).2 .refl

theorem execSensorRawLevelChange_deeds (l : SensorLine) (level : Bool) (s : State) :
    AllNext (Deeds L s) (execSensorRawLevelChange l level s) := by
  unfold execSensorRawLevelChange
  dsimp only
  split
  · exact (allNext_next _ _).2 (Deeds.toSensor .refl _ _)
  · exact (allNext_next _ _).2 .refl

theorem execSensorFallingEdge_deeds (l : SensorLine) (s : State) : AllNext (Deeds L s) (execSensorFallingEdge l s) := by
  unfold execSensorFallingEdge
  dsimp only
  split
  · exact (allNext_next _ _).2 (Deeds.toSensor .refl _ _)
  · exact (allNext_next _ _).2 .refl

/-! ## The engines and the auxiliary inputs -/

theorem AllNext.mono {P Q : State → Prop} {o : Host.Outcome State Fault Refusal} (h : AllNext P o) (sub : ∀ {t}, P t → Q t) :
    AllNext Q o := fun t next => sub (h t next)

theorem Deeds.toInput (h : Deeds L s t) (line : Fin 8) (f : AuxIn → AuxIn) : Deeds L s (t.modInput line f) := h.toAux

theorem setLatch_deeds (line : Fin 8) (c : Chan) (s : State) : Deeds L s (setLatch line c s) := by
  unfold setLatch
  split
  · exact .refl
  · exact (Deeds.toInput .refl _ _).moves (reportLatch_moves line c _)

theorem filteredChange_deeds (line : Fin 8) (active : Bool) (s : State) : Deeds L s (filteredChange line active s) := by
  unfold filteredChange
  dsimp only
  have reported := ((Deeds.toInput (L := L) (s := s) .refl line fun x => { x with filtered := active, timer := .stopped }).moves
    (reportLevel_moves line active .a _)).moves (reportLevel_moves line active .b _)
  split
  · exact (reported.trans (setLatch_deeds line .a _)).trans (setLatch_deeds line .b _)
  · exact reported

theorem execAuxRawChange_deeds (line : Fin 8) (pinHigh : Bool) (s : State) :
    AllNext (Deeds L s) (execAuxRawChange line pinHigh s) := by
  unfold execAuxRawChange
  dsimp only
  split
  · have changed (x : Option Bool) : Deeds L s (s.modInput line fun y => { y with raw := x }) := .toInput .refl _ _
    split
    · exact (allNext_next _ _).2 ((changed _).toInput _ _)
    · split
      · exact (allNext_next _ _).2 ((changed _).trans (filteredChange_deeds _ _ _))
      · exact (allNext_next _ _).2 ((changed _).toInput _ _)
  · exact (allNext_next _ _).2 .refl

theorem execAuxFilterExpiry_deeds (line : Fin 8) (s : State) : AllNext (Deeds L s) (execAuxFilterExpiry line s) := by
  unfold execAuxFilterExpiry
  split
  · exact (allNext_next _ _).2 (filteredChange_deeds _ _ _)
  · exact (allNext_next _ _).2 .refl

/-! ## The line -/

theorem valid_wellFormed {bytes : List Byte} {e : Bool} (f : Frame) (valid : (if e then none else Frame.parse bytes) = some f) :
    f.WellFormed := by
  split at valid
  · exact nomatch valid
  · exact (Frame.valid_of_parse valid).1

theorem execCarrierStart_deeds (allowed : L) (s : State) : AllNext (Deeds L s) (execCarrierStart s) := by
  unfold execCarrierStart
  split
  · exact (allNext_next _ _).2 (.toLine .refl allowed rfl (.refl _))
  · exact (allNext_next _ _).2 .refl

theorem execCarrierEnd_deeds (allowed : L) (bytes : List Byte) (e : Bool) (s : State) :
    AllNext (Deeds L s) (execCarrierEnd bytes e s) := by
  have gone : Deeds L s { s with line := { s.line with carrier := none } } := .toLine .refl allowed rfl (.refl _)
  unfold execCarrierEnd
  split
  · exact (allNext_next _ _).2 (endUntaken_deeds allowed s)
  · dsimp only
    split
    · exact (allNext_next _ _).2 (gone.trans (endHeard_deeds allowed valid_wellFormed _ _))
    · split
      · split
        next f valid =>
          obtain ⟨low, high⟩ := (valid_wellFormed f valid).sender
          split
          · exact (allNext_next _ _).2 (gone.trans (ownTurnGood_deeds allowed low high _ _))
          · exact (allNext_next _ _).2 (gone.trans (ownTurnFailed_deeds allowed _ _ _ _))
        · exact (allNext_next _ _).2 (gone.trans (ownTurnFailed_deeds allowed _ _ _ _))
      · exact (allNext_next _ _).2 .refl

theorem execCarrierTimeout_deeds (allowed : L) (s : State) : AllNext (Deeds L s) (execCarrierTimeout s) := by
  have gone : Deeds L s { s with line := { s.line with carrier := none, untaken := .present } } :=
      .toLine .refl allowed rfl (.refl _)
  unfold execCarrierTimeout
  split
  · exact (allNext_next _ _).2 .refl
  · dsimp only
    split
    · exact (allNext_next _ _).2 (gone.trans (endHeard_deeds allowed
          (valid := none) (fun f valid => absurd valid (by simp)) _ _))
    · split
      · exact (allNext_next _ _).2 (gone.trans (ownTurnFailed_deeds allowed _ _ _ _))
      · exact (allNext_next _ _).2 .refl

theorem execNoEchoTimeout_deeds (allowed : L) (s : State) : AllNext (Deeds L s) (execNoEchoTimeout s) := by
  unfold execNoEchoTimeout
  split
  · exact (allNext_next _ _).2 .refl
  · split
    · exact (allNext_next _ _).2 (ownTurnFailed_deeds allowed _ _ _ _)
    · exact (allNext_next _ _).2 .refl

theorem execJabberCut_deeds (allowed : L) (s : State) : AllNext (Deeds L s) (execJabberCut s) := by
  unfold execJabberCut
  split
  · exact (allNext_next _ _).2 .refl
  · dsimp only
    split
    · have cut (x : Untaken) : Deeds L s { s with line := { s.line with de := false, carrier := none, untaken := x } } :=
        .toLine .refl allowed rfl (.refl _)
      exact (allNext_next _ _).2
        (((cut _).trans (ownTurnFailed_deeds allowed _ _ _ _)).trans (offLineAtLimit_deeds allowed _))
    · have cut (n : Nat) : Deeds L s { s with line := { s.line with de := false, jabber := n } } :=
          .toLine .refl allowed rfl (.refl _)
      exact (allNext_next _ _).2 ((cut _).trans (offLineAtLimit_deeds allowed _))

theorem execOwnTurnStart_deeds (allowed : L) (s : State) : AllNext (Deeds L s) (execOwnTurnStart s) := by
  unfold execOwnTurnStart
  split
  · exact (allNext_next _ _).2 .refl
  · split
    · split
      · exact (allNext_next _ _).2 (forgoTurn_deeds allowed s)
      · split
        · exact (allNext_next _ _).2 .refl
        · exact (allNext_next _ _).2 (ownTurnStart_deeds allowed _ s)
    · exact (allNext_next _ _).2 .refl

theorem execJoinFrameStart_deeds (allowed : L) (s : State) : AllNext (Deeds L s) (execJoinFrameStart s) := by
  unfold execJoinFrameStart
  split
  · exact (allNext_next _ _).2 .refl
  · split
    · exact (allNext_next _ _).2 (ownTurnStart_deeds allowed _ s)
    · exact (allNext_next _ _).2 .refl

theorem execLapse_deeds (allowed : L) (s : State) : AllNext (Deeds L s) (execLapse s) := by
  unfold execLapse
  split
  · exact (allNext_next _ _).2 .refl
  · split
    · exact (allNext_next _ _).2 ((((setMiss_deeds allowed s).trans (unclean_deeds allowed _)).trans
        (countLapse_deeds allowed _ _)).trans (moveOn_deeds allowed _ _ _))
    · exact (allNext_next _ _).2 .refl

theorem execVacancyWindowEnd_deeds (allowed : L) (s : State) : AllNext (Deeds L s) (execVacancyWindowEnd s) := by
  unfold execVacancyWindowEnd
  split
  · exact (allNext_next _ _).2 .refl
  · split
    · exact (allNext_next _ _).2 (moveOn_deeds allowed _ _ _)
    · exact (allNext_next _ _).2 .refl

theorem execClaimExpiry_deeds (allowed : L) (s : State) : AllNext (Deeds L s) (execClaimExpiry s) := by
  unfold execClaimExpiry
  rw [allNext_next]
  split
  · exact expireClaims_deeds allowed s
  · exact .refl

theorem execFounding_deeds (allowed : L) (s : State) : AllNext (Deeds L s) (execFounding s) := by
  unfold execFounding
  split
  · refine (allNext_next _ _).2 (Deeds.trans ?_ (ownTurnStart_deeds allowed _ _))
    exact Deeds.toCounted .refl allowed 0 (LineCtl.setRoster_straps ..) (LineCtl.setRoster_outbox s.line _ _ ▸ .refl _)
  · exact (allNext_next _ _).2 .refl

/-! ## Every command -/

theorem exec_passes (i : Instr) (s : State) (h : i.startsUp = false) :
    AllNext (Passes (i.worksLine = true) s.WindowsFollow (s.tracker.zone.isBound = false ∨ i = .arrival) s) (exec i s) := by
  cases i with
  | reset => cases h
  | strapReading straps => cases h
  | headerPass image => cases h
  | stylePass image => cases h
  | directoryPass image pins => cases h
  | programPass image pins => cases h
  | countChange line => exact (execCountChange_deeds line s).mono Deeds.passes
  | illegalTransition => exact (execIllegalTransition_deeds s).mono Deeds.passes
  | haltTimerExpiry => exact (execHaltTimerExpiry_deeds s).mono Deeds.passes
  | heldReadExpiry => exact (execHeldReadExpiry_deeds s).mono Deeds.passes
  | pairingWaitExpiry => exact execPairingWaitExpiry_passes .inl id
  | zoneLengthEvent => exact (execZoneLengthEvent_deeds s).mono Deeds.passes
  | arrival => exact execArrival_passes (.inr rfl) id
  | zoneExit => exact (execZoneExit_deeds s).mono Deeds.passes
  | tagByte byte stopHigh => exact execTagByte_passes byte stopHigh .inl id
  | tagByteTimeout => exact (execTagByteTimeout_deeds s).mono Deeds.passes
  | pstbPulseEnd c => exact (execPstbPulseEnd_moves c s).mono fun moves => moves.deeds.passes
  | atPtRise c => exact (execAtPtRise_moves c s).mono fun moves => moves.deeds.passes
  | reachExpiry c => exact (execReachExpiry_moves c s).mono fun moves => moves.deeds.passes
  | windowOpen c => exact (execWindowOpen_moves c s).mono fun moves => moves.deeds.passes
  | windowClose c => exact (execWindowClose_moves c s).mono fun moves => moves.deeds.passes
  | auxRawChange line pinHigh => exact (execAuxRawChange_deeds line pinHigh s).mono Deeds.passes
  | auxFilterExpiry line => exact (execAuxFilterExpiry_deeds line s).mono Deeds.passes
  | wdoneRise c wfaultActive => exact (execWdoneRise_moves c wfaultActive s).mono fun moves => moves.deeds.passes
  | wfaultRise c => exact (execWfaultRise_moves c s).mono fun moves => moves.deeds.passes
  | carrierStart => exact (execCarrierStart_deeds rfl s).mono Deeds.passes
  | carrierTimeout => exact (execCarrierTimeout_deeds rfl s).mono Deeds.passes
  | carrierEnd bytes framingError => exact (execCarrierEnd_deeds rfl bytes framingError s).mono Deeds.passes
  | noEchoTimeout => exact (execNoEchoTimeout_deeds rfl s).mono Deeds.passes
  | jabberCut => exact (execJabberCut_deeds rfl s).mono Deeds.passes
  | ownTurnStart => exact (execOwnTurnStart_deeds rfl s).mono Deeds.passes
  | joinFrameStart => exact (execJoinFrameStart_deeds rfl s).mono Deeds.passes
  | lapse => exact (execLapse_deeds rfl s).mono Deeds.passes
  | vacancyWindowEnd => exact (execVacancyWindowEnd_deeds rfl s).mono Deeds.passes
  | claimExpiry => exact (execClaimExpiry_deeds rfl s).mono Deeds.passes
  | joinHoldEnd => exact (allNext_next _ _).2 (joinHoldEnd_deeds rfl s).passes
  | founding => exact (execFounding_deeds rfl s).mono Deeds.passes
  | sensorRawLevelChange line level => exact (execSensorRawLevelChange_deeds line level s).mono Deeds.passes
  | sensorFallingEdge line => exact (execSensorFallingEdge_deeds line s).mono Deeds.passes
  | transmissionEnd => exact (allNext_next _ _).2 (Deeds.passes (.toLine .refl rfl rfl (.refl s.line.outbox)))

end Sys2Proof.Machine
end

