-- ==== Sys2Proof/Proofs/LoadSteps.lean ====
section
/-!
SUPPORT. What STRAP_READING and the four passes of LOADING make of the state: a later store and little else, on to the next
pass, to OFF LINE, or to the end of LOADING. And that every command completes.
-/

namespace Sys2Proof.Machine

variable {s t : State}

/-! ## The store of a later pass (R13, R15, R16) -/

/-- A later store of one LOADING: no mark and no first fault is lost, and the point array keeps its one form. -/
structure Store.Later (x y : Store) : Prop where
  marks : ∀ p, x.marked p = true → y.marked p = true
  firstFault : x.firstFault.kind ≠ .noFault → y.firstFault = x.firstFault
  points : PointArray.wf x.points = true → PointArray.wf y.points = true
  hysteresis : (x.station.getD .unloaded).hysteresis ≤ 255 → (y.station.getD .unloaded).hysteresis ≤ 255

theorem Store.Later.refl (x : Store) : x.Later x := ⟨fun _ => id, fun _ => rfl, id, id⟩

theorem Store.Later.trans {x y z : Store} (h : x.Later y) (g : y.Later z) : x.Later z where
  marks p marked := g.marks p (h.marks p marked)
  firstFault set := by
    have same := h.firstFault set
    exact (g.firstFault (by rwa [same])).trans same
  points := g.points ∘ h.points
  hysteresis := g.hysteresis ∘ h.hysteresis

/-- Only the marks, the record and the points count. -/
theorem Store.Later.of_same {x y : Store} (marks : y.marks = x.marks) (firstFault : y.firstFault = x.firstFault)
    (points : y.points = x.points)
    (hysteresis : (x.station.getD .unloaded).hysteresis ≤ 255 → (y.station.getD .unloaded).hysteresis ≤ 255) : x.Later y where
  marks p marked := by rwa [Store.marked, marks]
  firstFault _ := firstFault
  points := by rw [points]; exact id
  hysteresis := hysteresis

/-- The phase, the styles and the directory do not count. -/
theorem Store.Later.besides (x : Store) (phase : LoadPhase) (styles : List StyleEntry) (directory : List DirEntry) :
    x.Later { x with phase := phase, styles := styles, directory := directory } := .of_same rfl rfl rfl id

theorem Store.recordFault_later (x : Store) (k : FaultKind) (p i : Nat) : x.Later (x.recordFault k p i) := by
  unfold recordFault
  split
  next unset => exact ⟨fun _ => id, fun set => absurd unset set, id, id⟩
  · exact .refl x

theorem Store.mark_later (x : Store) (k : FaultKind) (p i : Nat) : x.Later (x.mark k p i) := by
  have marked (y : Store) : y.Later { y with marks := y.marks.setIfInBounds (p - 1) true } := by
    refine ⟨fun q set => ?_, fun _ => rfl, id, id⟩
    unfold Store.marked at set ⊢
    rw [Vector.getElem?_setIfInBounds]
    split at set
    · cases set
    next ne =>
      rw [if_neg ne]
      split
      next same =>
        rw [same]
        split
        · rfl
        next outside => simp [outside] at set
      · exact set
  unfold mark
  dsimp only
  split
  · exact x.recordFault_later k p i
  · exact (x.recordFault_later k p i).trans (marked _)

theorem linkCheck_later : ∀ (table : List StyleEntry) (i : Nat) (x : Store), x.Later (linkCheck i table x) := by
  have field (x : Store) (i : Nat) (p : Option Nat) : x.Later (x.linkField i p) := by
    unfold Store.linkField
    split
    · split
      · exact x.mark_later _ _ _
      · exact .refl x
    · exact .refl x
  intro table
  induction table with
  | nil => exact fun _ x => .refl x
  | cons e rest ih => exact fun i x => ((field x i _).trans (field _ i _)).trans (ih (i + 1) _)

theorem directoryCheck_later : ∀ (dir : List DirEntry) (p : Nat) (x : Store), x.Later (directoryCheck p dir x) := by
  intro dir
  induction dir with
  | nil => exact fun _ x => .refl x
  | cons d rest ih =>
    intro p x
    unfold directoryCheck
    refine Store.Later.trans ?_ (ih (p + 1) _)
    split
    · exact x.mark_later _ _ _
    · exact .refl x

/-! ## The commands -/

/-- What a command of start-up but RESET makes of the state. -/
inductive Loads (s : State) : State → Prop
  | offLine (st : Store) (straps : BitVec 5) (later : s.store.Later st) (ended : st.phase = .ended) :
      Loads s { s with store := st, line := { s.line with straps := straps, state := .offLine } }
  | goesOn (st : Store) (straps : BitVec 5) (l : LineState) (outputs : Vector OutLevel 8) (later : s.store.Later st)
      (phase : st.phase ≠ .ended ∧ st.phase ≠ .straps) (loading : l = .loading ∨ l = s.line.state)
      (own : (1 ≤ straps.toNat ∧ straps.toNat ≤ 30) ∨ (s.store.phase ≠ .straps ∧ straps = s.line.straps)) :
      Loads s { s with
        store := st, aux := { s.aux with outputs := outputs }, line := { s.line with straps := straps, state := l } }
  | listens (st : Store) (pins : PinSample) (later : s.store.Later st) (begun : s.store.phase ≠ .straps) :
      Loads s (loadingEnd pins { s with store := st })

theorem fatalFault_loads (k : FaultKind) (i : Nat) (s : State) : Loads s (fatalFault k i s) := by
  unfold fatalFault
  exact .offLine _ s.line.straps ((s.store.recordFault_later k 0 i).trans (.besides _ .ended _ _)) rfl

theorem continuePoints_loads {st : Store} (later : s.store.Later st) (begun : s.store.phase ≠ .straps) (p : Nat)
    (pins : PinSample) : Loads s (continuePoints p pins { s with store := st }) := by
  unfold continuePoints
  split
  next q _ =>
    exact .goesOn { st with phase := .points q } s.line.straps s.line.state s.aux.outputs (later.trans (.besides _ _ _ _))
      ⟨nofun, nofun⟩ (.inr rfl) (.inr ⟨begun, rfl⟩)
  · exact .listens st pins later begun

/-- A command of start-up but RESET is not taken, or it finds LOADING under way and takes it further. -/
theorem exec_loads (i : Instr) (s : State) (starts : i.startsUp = true) (ne : i ≠ .reset) :
    AllNext (fun t => t = s ∨ (s.store.phase ≠ .ended ∧ Loads s t)) (exec i s) := by
  have taken {t : State} (under : s.store.phase ≠ .ended) (loads : Loads s t) :
      AllNext (fun t => t = s ∨ (s.store.phase ≠ .ended ∧ Loads s t)) (.next t) := (allNext_next _ _).2 (.inr ⟨under, loads⟩)
  have idle : AllNext (fun t => t = s ∨ (s.store.phase ≠ .ended ∧ Loads s t)) (.next s) := (allNext_next _ _).2 (.inl rfl)
  cases i with
  | reset => exact absurd rfl ne
  | strapReading straps =>
    show AllNext _ (execStrapReading straps s)
    unfold execStrapReading
    split
    next phase =>
      have under : s.store.phase ≠ .ended := by rw [phase]; nofun
      split
      next own =>
        exact taken under (.goesOn { s.store with phase := .header } straps .loading s.aux.outputs (.besides _ _ _ _)
          ⟨nofun, nofun⟩ (.inl rfl) (.inl own))
      · exact taken under (.offLine { s.store with phase := .ended } straps (.besides _ _ _ _) rfl)
    · exact idle
  | headerPass image =>
    show AllNext _ (execHeaderPass image s)
    unfold execHeaderPass
    split
    next phase =>
      have under : s.store.phase ≠ .ended := by rw [phase]; nofun
      have begun : s.store.phase ≠ .straps := by rw [phase]; nofun
      split
      · exact taken under (fatalFault_loads _ _ s)
      · exact taken under (.goesOn _ s.line.straps s.line.state _
          (.of_same rfl rfl rfl fun _ => Nat.le_of_lt_succ (imageByte image 19).isLt) ⟨nofun, nofun⟩ (.inr rfl)
          (.inr ⟨begun, rfl⟩))
    · exact idle
  | stylePass image =>
    show AllNext _ (execStylePass image s)
    unfold execStylePass
    split
    next phase =>
      have under : s.store.phase ≠ .ended := by rw [phase]; nofun
      have begun : s.store.phase ≠ .straps := by rw [phase]; nofun
      dsimp only
      split
      · exact taken under (fatalFault_loads _ _ s)
      · refine taken under (.goesOn _ s.line.straps s.line.state s.aux.outputs
          (.trans (.besides _ _ _ _) (linkCheck_later _ _ _)) ?_ (.inr rfl) (.inr ⟨begun, rfl⟩))
        rw [linkCheck_frame]
        exact ⟨nofun, nofun⟩
    · exact idle
  | directoryPass image pins =>
    show AllNext _ (execDirectoryPass image pins s)
    unfold execDirectoryPass
    split
    next phase =>
      have under : s.store.phase ≠ .ended := by rw [phase]; nofun
      have begun : s.store.phase ≠ .straps := by rw [phase]; nofun
      exact taken under (continuePoints_loads (.trans (.besides _ s.store.phase _ _) (directoryCheck_later _ _ _)) begun 1 pins)
    · exact idle
  | programPass image pins =>
    show AllNext _ (execProgramPass image pins s)
    unfold execProgramPass
    split
    next p phase =>
      have under : s.store.phase ≠ .ended := by rw [phase]; nofun
      have begun : s.store.phase ≠ .straps := by rw [phase]; nofun
      have read (anew : Bool) (d : DirEntry) (recs : List PointRec) :
          s.store.Later { s.store with points := insertPoints anew d.first recs s.store.points } :=
        ⟨fun _ => id, fun _ => rfl, insertPoints_wf anew recs _ _, id⟩
      split
      · exact taken under (continuePoints_loads (.refl _) begun (p + 1) pins)
      · refine taken under (continuePoints_loads ?_ begun (p + 1) pins)
        split
        · exact (read _ _ _).trans (Store.mark_later _ _ _ _)
        · exact read _ _ _
    all_goals exact idle
  | _ => cases starts

/-! ## Completion (log 1, log 3) -/

/-- A command answers a next state. -/
def Completes (o : Host.Outcome State Fault Refusal) : Prop := ∃ t, o = .next t

@[simp] theorem completes_next (t : State) : Completes (.next t) := ⟨t, rfl⟩

theorem exec_completes (i : Instr) (s : State) : Completes (exec i s) := by
  cases i <;> simp only [exec]
  case reset | joinHoldEnd | transmissionEnd | claimExpiry => exact ⟨_, rfl⟩
  case strapReading => unfold execStrapReading; split_ifs <;> simp
  case headerPass => unfold execHeaderPass; split <;> [split <;> simp; simp]
  case stylePass => unfold execStylePass; split <;> [(dsimp only; split <;> simp); simp]
  case directoryPass => unfold execDirectoryPass; split <;> simp
  case programPass => unfold execProgramPass; split <;> [split <;> simp; simp; simp; simp; simp; simp]
  case auxRawChange => unfold execAuxRawChange; dsimp only; split <;> [split <;> [simp; split <;> simp]; simp]
  case ownTurnStart => unfold execOwnTurnStart; split <;> [simp; split <;> [split <;> [simp; split <;> simp]; simp]]
  case carrierTimeout => unfold execCarrierTimeout; split <;> [simp; (dsimp only; split <;> [simp; split <;> simp])]
  case carrierEnd =>
    unfold execCarrierEnd
    split <;> [simp; (dsimp only; split <;> [simp; split <;> [split <;> [split <;> simp; simp]; simp]])]
  case pairingWaitExpiry | windowClose =>
    simp only [execPairingWaitExpiry, execWindowClose]
    split
    · split <;> simp
    · simp
  case pstbPulseEnd | noEchoTimeout | jabberCut | joinFrameStart | lapse | vacancyWindowEnd =>
    simp only [execPstbPulseEnd, execNoEchoTimeout, execJabberCut, execJoinFrameStart, execLapse, execVacancyWindowEnd]
    split
    · simp
    · split <;> simp
  case countChange | illegalTransition | haltTimerExpiry | heldReadExpiry | zoneLengthEvent | arrival | zoneExit |
    tagByte | tagByteTimeout | sensorRawLevelChange | sensorFallingEdge | atPtRise | reachExpiry | windowOpen |
    wdoneRise | wfaultRise | auxFilterExpiry | carrierStart | founding =>
    simp only [execCountChange, execIllegalTransition, execHaltTimerExpiry, execHeldReadExpiry, execZoneLengthEvent,
      execArrival, execZoneExit, execTagByte, execTagByteTimeout, execSensorRawLevelChange, execSensorFallingEdge,
      execAtPtRise, execReachExpiry, execWindowOpen, execWdoneRise, execWfaultRise, execAuxFilterExpiry,
      execCarrierStart, execFounding]
    split <;> simp

end Sys2Proof.Machine
end

