-- ==== Sys2Proof/Proofs/RecordsLast.lean ====
section
/-!
What a deed and a binding never touch, and the laws of the whole part that follow from it: completion, the records that last
until reset, the tracked position, the capacities. O2, O10, O54.
-/

namespace Sys2Proof.Machine

variable {s t u : State} {L W B : Prop}

/-! ## From commands to steps -/

/-- A law of every command is a law of every step: an idle one, and one that runs the command at the front of the queue. -/
theorem step_of_exec {P Q : State → Prop} (idle : ∀ {s}, P s → Q s) (queue : ∀ {s} rest, P s → P { s with pending := rest })
    (command : ∀ {s} i, P s → AllNext Q (exec i s)) (h : P s) (next : step s = .next t) : Q t := by
  unfold step at next
  split at next
  · obtain rfl : s = t := by simpa using next
    exact idle h
  next i rest _ => exact command i (queue rest h) t next

theorem State.AtRest.of_same (h : s.AtRest) (engines : ∀ c, t.eng c = s.eng c)
    (windows : ∀ c, t.counter.window c = s.counter.window c)
    (watches : t.counter.heldWatch = s.counter.heldWatch ∧ t.counter.pairWatch = s.counter.pairWatch
      ∧ t.counter.zoneWatch = s.counter.zoneWatch) (tracker : t.tracker = s.tracker) (view : t.view = s.view)
    (line : t.line = s.line) (inputs : t.aux.inputs = s.aux.inputs) : t.AtRest := by
  obtain ⟨e, w, r, v, l, x⟩ := h
  obtain ⟨held, pair, zone⟩ := watches
  exact ⟨fun c => by rw [engines, windows]; exact e c, by rw [held, pair, zone]; exact w, by rw [tracker]; exact r,
    by rw [view]; exact v, by rw [line]; exact l, by rw [inputs]; exact x⟩

/-- The start-up law does not read the queue. -/
theorem State.StartUp.queued (h : s.StartUp) (rest : List Instr) : State.StartUp { s with pending := rest } where
  loading := h.loading
  straps := h.straps
  heldBack loading := by
    obtain ⟨k, r, e, v, l, x, y⟩ := h.heldBack loading
    exact ⟨k, r, e, v, l, x, y⟩
  own := h.own
  offLine off := (h.offLine off).of_same (fun c => by cases c <;> rfl) (fun c => by cases c <;> rfl) ⟨rfl, rfl, rfl⟩ rfl rfl rfl rfl
  listening := h.listening
  uncounted := h.uncounted
  counted := h.counted
  flight := h.flight
  offers := h.offers
  fresh := h.fresh

/-- A law of the other commands, of the state after RESET, and of the passes of LOADING, is a law of every command. -/
theorem exec_of_cases {P : State → Prop} (i : Instr) (other : i.startsUp = false → AllNext P (exec i s))
    (reset : P { State.reset with pending := s.pending }) (still : P s)
    (load : s.store.phase ≠ .ended → ∀ {t}, Loads s t → P t) : AllNext P (exec i s) := by
  intro t next
  cases starts : i.startsUp with
  | false => exact other starts t next
  | true =>
    by_cases isReset : i = .reset
    · subst isReset
      cases next
      exact reset
    · obtain rfl | ⟨under, loads⟩ := exec_loads i s starts isReset t next
      · exact still
      · exact load under loads

/-! ## What deeds and a binding leave -/

/-- What no command but those of start-up changes: the store, the queue, the straps; and sticky bits are only set. -/
structure State.Lasts (s t : State) : Prop where
  store : t.store = s.store
  pending : t.pending = s.pending
  straps : t.line.straps = s.line.straps
  sticky : s.sticky.Grows t.sticky

theorem State.Lasts.refl (s : State) : s.Lasts s := ⟨rfl, rfl, rfl, .refl _⟩

theorem State.Lasts.trans (h : s.Lasts t) (g : t.Lasts u) : s.Lasts u :=
  ⟨g.store.trans h.store, g.pending.trans h.pending, g.straps.trans h.straps, h.sticky.trans g.sticky⟩

theorem State.Lasts.own (h : s.Lasts t) : t.own = s.own := by rw [State.own, State.own, h.straps]
theorem State.Lasts.lc (h : s.Lasts t) : t.lc = s.lc := by rw [State.lc, State.lc, h.store]
theorem State.Lasts.sc (h : s.Lasts t) : t.sc = s.sc := by rw [State.sc, State.sc, h.store]

theorem Apart.lasts {c : Chan} (h : Apart c s t) : s.Lasts t :=
  ⟨h.store, h.pending, by rw [h.line], by rw [h.sticky]; exact .refl _⟩

theorem State.pushItem_grows (s : State) (i : Item) : s.sticky.Grows (s.pushItem i).sticky := by
  unfold pushItem
  split
  · exact .refl _
  · exact ⟨fun _ => rfl, id, id, id, id, id, id⟩

theorem Deed.lasts (h : Deed L s t) : s.Lasts t := by
  cases h with
  | move move => exact move.apart.lasts
  | line _ v l straps _ _ => exact ⟨rfl, rfl, straps, .refl _⟩
  | pushed i _ => exact ⟨by simp, by simp, by simp, s.pushItem_grows i⟩
  | body k r y _ _ _ _ grows => exact ⟨rfl, rfl, rfl, grows⟩
  | aux x => exact ⟨rfl, rfl, rfl, .refl _⟩

theorem Deeds.lasts (h : Deeds L s t) : s.Lasts t := h.keeps (fun deed lasts => lasts.trans deed.lasts) (.refl s)

theorem Binds.lasts (h : Binds W u t) : u.Lasts t := by
  cases h with
  | mk datum serial style options disputed listed _ _ =>
    rw [bindZone_eq]
    obtain ⟨store, -, line, sticky, pending, -⟩ := u.boundAs_frame datum serial style options disputed listed
    exact ⟨store, pending, by rw [line], by rw [sticky]; exact .refl _⟩

theorem Passes.lasts (h : Passes L W B s t) : s.Lasts t :=
  h.keeps (P := s.Lasts) (fun deed lasts => lasts.trans deed.lasts) (fun binds lasts => lasts.trans binds.lasts) (.refl s)

/-- Every command but those of start-up. -/
theorem exec_lasts (i : Instr) (s : State) (h : i.startsUp = false) : AllNext s.Lasts (exec i s) :=
  (exec_passes i s h).mono Passes.lasts

theorem Loads.store_later (h : Loads s t) : s.store.Later t.store := by
  cases h with
  | offLine st _ later _ => exact later
  | goesOn st _ _ _ later _ _ _ => exact later
  | listens st pins later _ => exact later.trans (.besides _ .ended _ _)

theorem Loads.pending_sticky (h : Loads s t) : t.pending = s.pending ∧ t.sticky = s.sticky := by
  cases h <;> exact ⟨rfl, rfl⟩

/-! ## Completion and the records (R1, R15, R16, R173) -/

/-- Settles O2: every command completes, and neither a deed nor a pass of LOADING touches the queue. -/
theorem everyCommandCompletes : Obligations.EveryCommandCompletes := by
  unfold Obligations.EveryCommandCompletes
  intro i s
  obtain ⟨t, next⟩ := exec_completes i s
  refine ⟨t, next, ?_⟩
  cases starts : i.startsUp with
  | false => exact (exec_lasts i s starts t next).pending
  | true =>
    by_cases reset : i = .reset
    · subst reset
      cases next
      rfl
    · obtain rfl | ⟨-, loads⟩ := exec_loads i s starts reset t next
      · rfl
      · exact loads.pending_sticky.1

/-- Settles O10: a start-up command leaves a later store while LOADING lasts, and every other command the store itself. -/
theorem recordsLastUntilReset : Obligations.RecordsLastUntilReset := by
  unfold Obligations.RecordsLastUntilReset
  intro i s t ne next
  obtain ⟨fixed, later, grows⟩ :
      (s.store.phase = .ended → t.store = s.store) ∧ s.store.Later t.store ∧ s.sticky.Grows t.sticky := by
    cases starts : i.startsUp with
    | false =>
      have lasts := exec_lasts i s starts t next
      exact ⟨fun _ => lasts.store, by rw [lasts.store]; exact .refl _, lasts.sticky⟩
    | true =>
      obtain rfl | ⟨under, loads⟩ := exec_loads i s starts ne t next
      · exact ⟨fun _ => rfl, .refl _, .refl _⟩
      · exact ⟨fun ended => absurd ended under, loads.store_later, by rw [loads.pending_sticky.2]; exact .refl _⟩
  obtain ⟨overflow, encoder, stray, missing, record, eviction, reverse⟩ := grows
  exact ⟨fixed, later.marks, later.firstFault, overflow, encoder, stray, missing, record, eviction, reverse⟩

/-! ## The tracked position (R25) -/

theorem Deed.trackedWithin (h : Deed L s t) (within : s.TrackedWithin) : t.TrackedWithin := by
  cases h with
  | move move =>
    have apart := move.apart
    exact within.of_same apart.store (by rw [apart.counter]) (by rw [apart.counter])
  | line _ _ _ _ _ _ => exact within.of_same rfl rfl rfl
  | pushed i _ => exact within.of_same (by simp) (by simp) (by simp)
  | body k r y _ kept _ _ _ => exact kept within
  | aux _ => exact within.of_same rfl rfl rfl

theorem Binds.trackedWithin (h : Binds W u t) (within : u.TrackedWithin) : t.TrackedWithin := by
  cases h with
  | mk datum serial style options disputed listed _ _ =>
    rw [bindZone_eq]
    obtain ⟨store, -, -, -, -, counter, -⟩ := u.boundAs_frame datum serial style options disputed listed
    exact within.of_same store (by rw [counter]) (by rw [counter])

/-- T and C are both 0, as reset leaves them. -/
theorem State.TrackedWithin.of_zero (hysteresis : t.sc.hysteresis ≤ 255) (tracked : t.counter.tracked = 0)
    (raw : t.counter.raw = 0) : t.TrackedWithin := by
  have level : posDiff t.counter.tracked t.counter.raw = 0 := by rw [tracked, raw]; rfl
  exact ⟨hysteresis, level.ge, by rw [level]; omega⟩

theorem State.HeldBack.loads_trackedWithin (h : s.HeldBack) (within : s.TrackedWithin) (loads : Loads s t) :
    t.TrackedWithin := by
  have same : t.counter.tracked = s.counter.tracked ∧ t.counter.raw = s.counter.raw := by cases loads <;> exact ⟨rfl, rfl⟩
  obtain ⟨tracked, raw⟩ := same
  rw [h.counter] at tracked raw
  exact .of_zero (loads.store_later.hysteresis within.hysteresis) tracked raw

/-- Settles O54: deed by deed, and by the reset values while LOADING lasts. -/
theorem trackedPositionStaysWithin : Obligations.TrackedPositionStaysWithin := by
  unfold Obligations.TrackedPositionStaysWithin
  intro s t startUp within
  refine step_of_exec (P := fun s => s.StartUp ∧ s.TrackedWithin) And.right
    (fun rest h => ⟨h.1.queued rest, h.2.of_same rfl rfl rfl⟩) ?_ ⟨startUp, within⟩
  rintro s i ⟨startUp, within⟩
  exact exec_of_cases i
    (fun other => (exec_passes i s other).mono fun passes => passes.keeps Deed.trackedWithin Binds.trackedWithin within)
    (.of_zero (Nat.zero_le 255) rfl rfl) within
    (fun under _ loads => (startUp.heldBack (startUp.loading.2 under)).loads_trackedWithin within loads)

/-! ## The capacities (R37, R54, R99, R137, R169) -/

theorem State.Bounded.trackerBounded (h : s.Bounded) : s.tracker.Bounded := ⟨h.register, h.serials, h.entries, h.tagBytes⟩

/-- The capacities of the tracker, the outbox, the orphans and the point array. -/
theorem State.Bounded.of_parts (tracker : t.tracker.Bounded) (outbox : t.line.outbox.length ≤ 16)
    (defects : ∀ i ∈ t.line.outbox, i.defectsWithin = true) (orphans : t.view.orphans.length ≤ 8)
    (points : PointArray.wf t.store.points = true) : t.Bounded :=
  ⟨tracker.register, tracker.serials, tracker.entries, outbox, defects, orphans, tracker.tagBytes, points⟩

theorem Tracker.Bounded.of_zone {r : Tracker} (h : r.Bounded) (z : Zone) : Tracker.Bounded { r with zone := z } :=
  ⟨h.register, h.serials, h.entries, h.tagBytes⟩

@[simp] theorem Item.repeated_defectsWithin (i : Item) : i.repeated.defectsWithin = i.defectsWithin := by cases i <;> rfl

theorem formResult_defectsWithin (c : Chan) (b : Body) : (Item.result (formResult c b)).defectsWithin = true := by
  simp [Item.defectsWithin, formResult]

theorem State.pushItem_outbox (s : State) (i : Item) :
    (s.pushItem i).line.outbox = s.line.outbox
      ∨ (s.line.outbox.length < 16 ∧ (s.pushItem i).line.outbox = s.line.outbox ++ [i]) := by
  unfold pushItem
  split
  next room => exact .inr ⟨room, rfl⟩
  · exact .inl rfl

theorem Deed.bounded (h : Deed L s t) (within : s.Bounded) : t.Bounded := by
  cases h with
  | move move =>
    have apart := move.apart
    exact .of_parts (by rw [apart.tracker]; exact within.trackerBounded.of_zone _) (by rw [apart.line]; exact within.outbox)
      (by rw [apart.line]; exact within.defects) (by rw [apart.view]; exact within.orphans)
      (by rw [apart.store]; exact within.pointArray)
  | line _ v l _ orphans outbox =>
    refine .of_parts within.trackerBounded (outbox.length within.outbox) (fun i mem => ?_) (orphans within.orphans)
      within.pointArray
    obtain old | ⟨j, old, rfl⟩ := outbox.items i mem
    · exact within.defects i old
    · rw [Item.repeated_defectsWithin]
      exact within.defects j old
  | pushed i formed =>
    have item : i.defectsWithin = true := by
      cases i with
      | result r =>
        obtain ⟨c, d, b, -, -, rfl⟩ := formed r rfl
        exact formResult_defectsWithin c b
      | _ => rfl
    refine .of_parts (by simpa using within.trackerBounded) ?_ ?_ (by simpa using within.orphans)
      (by simpa using within.pointArray)
    · obtain same | ⟨room, pushed⟩ := s.pushItem_outbox i
      · rw [same]
        exact within.outbox
      · rw [pushed, List.length_append]
        exact room
    · obtain same | ⟨-, pushed⟩ := s.pushItem_outbox i
      · rw [same]
        exact within.defects
      · rw [pushed]
        intro j mem
        obtain old | new := List.mem_append.1 mem
        · exact within.defects j old
        · rw [List.mem_singleton.1 new]
          exact item
  | body k r y _ _ bounded _ _ =>
    exact .of_parts (bounded within.trackerBounded) within.outbox within.defects within.orphans within.pointArray
  | aux _ => exact .of_parts within.trackerBounded within.outbox within.defects within.orphans within.pointArray

theorem Binds.bounded (h : Binds W u t) (within : u.Bounded) : t.Bounded := by
  cases h with
  | mk datum serial style options disputed listed _ _ =>
    rw [bindZone_eq]
    obtain ⟨store, view, line, -, -, -, tracker⟩ := u.boundAs_frame datum serial style options disputed listed
    exact .of_parts (by rw [tracker]; exact within.trackerBounded.of_zone _) (by rw [line]; exact within.outbox)
      (by rw [line]; exact within.defects) (by rw [view]; exact within.orphans) (by rw [store]; exact within.pointArray)

theorem Loads.bounded (h : Loads s t) (within : s.Bounded) : t.Bounded := by
  have points := h.store_later.points within.pointArray
  have tracker := within.trackerBounded
  cases h with
  | offLine _ _ _ _ => exact .of_parts tracker within.outbox within.defects within.orphans points
  | goesOn _ _ _ _ _ _ _ _ => exact .of_parts tracker within.outbox within.defects within.orphans points
  | listens _ pins _ _ =>
    exact .of_parts ⟨tracker.register, tracker.serials, tracker.entries, tracker.tagBytes⟩ within.outbox within.defects
      within.orphans points

theorem reset_bounded (rest : List Instr) : State.Bounded { State.reset with pending := rest } :=
  .of_parts ⟨Nat.zero_le 24, .nil, nofun, Nat.zero_le 7⟩ (Nat.zero_le 16) nofun (Nat.zero_le 8) pointArray_reset_wf

theorem exec_bounded (i : Instr) (within : s.Bounded) : AllNext State.Bounded (exec i s) :=
  exec_of_cases i (fun other => (exec_passes i s other).mono fun passes => passes.keeps Deed.bounded Binds.bounded within)
    (reset_bounded s.pending) within fun _ _ loads => loads.bounded within

theorem step_bounded (within : s.Bounded) (next : step s = .next t) : t.Bounded :=
  step_of_exec id (fun _ h => .of_parts h.trackerBounded h.outbox h.defects h.orphans h.pointArray)
    (fun i h => exec_bounded i h) within next

end Sys2Proof.Machine
end

