-- ==== Sys2Proof/Proofs/RestingStays.lean ====
section
/-!
SUPPORT. A part at rest and not in a running line state takes no command but those of start-up and of the conveyor: what
LOADING holds back and OFF LINE leaves stays as it is.
-/

/-- The commands of the conveyor counter. -/
def Sys2Proof.Instr.movesConveyor : Instr → Bool
  | .countChange _ | .illegalTransition | .haltTimerExpiry => true
  | _ => false

namespace Sys2Proof.Machine

variable {s t : State}

/-- The reset values leave nothing running (R9, R176). -/
theorem State.HeldBack.atRest (h : s.HeldBack) : s.AtRest := by
  obtain ⟨counter, tracker, ⟨engA, engB⟩, view, line, inputs, -⟩ := h
  refine ⟨fun c => ?_, by rw [counter]; exact ⟨rfl, rfl, rfl⟩, by rw [tracker]; exact ⟨rfl, rfl⟩, by rw [view]; exact ⟨rfl, rfl⟩,
    by rw [line]; exact ⟨rfl, rfl, rfl, rfl, rfl, rfl⟩, by rw [inputs]; decide⟩
  rw [counter]
  cases c with
  | a => exact ⟨by rw [State.eng_a, engA]; rfl, by rw [State.eng_a, engA]; exact ⟨rfl, rfl, rfl, rfl, rfl⟩, rfl⟩
  | b => exact ⟨by rw [State.eng_b, engB]; rfl, by rw [State.eng_b, engB]; exact ⟨rfl, rfl, rfl, rfl, rfl⟩, rfl⟩

/-- A carrier is not taken outside the running states, and none that stands there ends (R129). -/
theorem execCarrierEnd_of_rest (bytes : List Byte) (e : Bool) (none : s.line.carrier = none)
    (absent : s.line.untaken = .absent) : execCarrierEnd bytes e s = .next s := by
  unfold execCarrierEnd endUntaken
  rw [none, absent]

theorem execTransmissionEnd_of_low (low : s.line.de = false) : execTransmissionEnd s = .next s := by
  unfold execTransmissionEnd
  rw [← low]

/-- No other command is taken at rest (R9, R21, R64, R126, R152, R160; log 3, log 16). -/
theorem exec_of_rest (i : Instr) (rest : s.AtRest) (still : s.isRunning = false) (starts : i.startsUp = false)
    (conveys : i.movesConveyor = false) : exec i s = .next s := by
  obtain ⟨engines, ⟨held, pair, zone⟩, ⟨-, bytes⟩, -, ⟨de, flight, carrier, position, founding, untaken⟩, filters⟩ := rest
  have running : ¬s.isRunning = true := by rw [still]; nofun
  have line (l : LineState) (runs : l.running = true) : s.line.state ≠ l := by
    rintro rfl
    exact running runs
  have out (c : Chan) (x : EngineState) (ne : .idle ≠ x) : (s.eng c).state ≠ x := fun is => ne ((engines c).1.symm.trans is)
  cases i with
  | reset => cases starts
  | strapReading straps => cases starts
  | headerPass image => cases starts
  | stylePass image => cases starts
  | directoryPass image pins => cases starts
  | programPass image pins => cases starts
  | countChange l => cases conveys
  | illegalTransition => cases conveys
  | haltTimerExpiry => cases conveys
  | heldReadExpiry => exact if_neg (by rw [held]; nofun)
  | pairingWaitExpiry => exact if_neg (by rw [pair]; nofun)
  | zoneLengthEvent => exact if_neg (by rw [zone]; nofun)
  | arrival => exact if_neg fun h => running h.1
  | zoneExit => exact if_neg fun h => running h.1
  | tagByte byte stopHigh => exact if_neg fun h => running h.1
  | tagByteTimeout => exact if_neg fun h => running h.1
  | pstbPulseEnd c =>
    show execPstbPulseEnd c s = _
    unfold execPstbPulseEnd
    rw [(engines c).2.1.pstb]
  | atPtRise c => exact if_neg fun h => out c .positioning nofun h.1
  | reachExpiry c => exact if_neg fun h => out c .positioning nofun h.1
  | windowOpen c =>
    show execWindowOpen c s = _
    unfold execWindowOpen
    rw [(engines c).2.2]
  | windowClose c =>
    show execWindowClose c s = _
    unfold execWindowClose
    rw [(engines c).2.2]
  | auxRawChange l pinHigh => exact if_neg fun h => running h.1
  | auxFilterExpiry l =>
    have timer : s.aux.inputs[l].timer = .stopped := filters _ (by simp)
    show execAuxFilterExpiry l s = _
    unfold execAuxFilterExpiry
    rw [timer]
  | wdoneRise c wfaultActive => exact if_neg (out c .firing nofun)
  | wfaultRise c => exact if_neg (out c .firing nofun)
  | carrierStart => exact if_neg fun h => running h.1
  | carrierTimeout =>
    show execCarrierTimeout s = _
    unfold execCarrierTimeout
    rw [carrier]
  | carrierEnd bytes e => exact execCarrierEnd_of_rest bytes e carrier untaken
  | noEchoTimeout =>
    show execNoEchoTimeout s = _
    unfold execNoEchoTimeout
    rw [flight]
  | jabberCut => exact if_pos de
  | ownTurnStart =>
    show execOwnTurnStart s = _
    unfold execOwnTurnStart
    split
    · rfl
    · exact if_neg fun h => line .onLine rfl h.1
  | joinFrameStart =>
    show execJoinFrameStart s = _
    unfold execJoinFrameStart
    split
    · rfl
    · exact if_neg fun h => line .joining rfl h.1
  | lapse =>
    show execLapse s = _
    unfold execLapse
    rw [position]
  | vacancyWindowEnd =>
    show execVacancyWindowEnd s = _
    unfold execVacancyWindowEnd
    rw [position]
  | claimExpiry => exact congrArg _ (if_neg running)
  | joinHoldEnd => exact congrArg _ (if_neg fun h => line .listening rfl h.1)
  | founding => exact if_neg fun h => line .listening rfl h.1
  | sensorRawLevelChange l level => exact if_neg fun h => running h.1
  | sensorFallingEdge l => exact if_neg fun h => running h.1
  | transmissionEnd => exact execTransmissionEnd_of_low de

/-- With no quadrature reference and no halt timer the conveyor's commands do nothing either (R9, R21). -/
theorem exec_of_held (i : Instr) (h : s.HeldBack) (still : s.isRunning = false) (starts : i.startsUp = false) :
    exec i s = .next s := by
  have quad : s.counter.quad = none := by rw [h.counter]; rfl
  have halt : s.counter.haltTimer = .stopped := by rw [h.counter]; rfl
  cases conveys : i.movesConveyor with
  | false => exact exec_of_rest i h.atRest still starts conveys
  | true =>
    cases i with
    | countChange l =>
      show execCountChange l s = _
      unfold execCountChange
      rw [quad]
    | illegalTransition =>
      show execIllegalTransition s = _
      unfold execIllegalTransition
      rw [quad]
    | haltTimerExpiry =>
      show execHaltTimerExpiry s = _
      unfold execHaltTimerExpiry
      rw [halt]
    | _ => cases conveys

/-- In LOADING no command but those of start-up changes anything (R9). -/
theorem State.StartUp.exec_of_loading (h : s.StartUp) (loading : s.line.state = .loading) (i : Instr)
    (starts : i.startsUp = false) : exec i s = .next s :=
  exec_of_held i (h.heldBack loading) (by rw [State.isRunning, loading]; rfl) starts

/-- A law of every other command is shown where LOADING has ended. -/
theorem State.StartUp.exec_of_ended {P : State → Prop} (h : s.StartUp) (i : Instr) (starts : i.startsUp = false) (still : P s)
    (ended : s.store.phase = .ended → AllNext P (exec i s)) : AllNext P (exec i s) := by
  by_cases loading : s.line.state = .loading
  · rw [h.exec_of_loading loading i starts]
    exact (allNext_next _ _).2 still
  · exact ended (not_not.1 fun under => loading (h.loading.2 under))

/-- The passes of LOADING leave the engines, the windows, the zone record and the outbox as they were. -/
theorem Loads.engines (h : Loads s t) : (∀ c, t.eng c = s.eng c) ∧ (∀ c, t.counter.window c = s.counter.window c)
    ∧ t.tracker.zone = s.tracker.zone ∧ t.line.outbox = s.line.outbox := by
  cases h <;> exact ⟨fun c => by cases c <;> rfl, fun c => by cases c <;> rfl, rfl, rfl⟩

end Sys2Proof.Machine
end

