-- ==== Sys2Proof/Proofs/BodiesTaken.lean ====
section
/-!
The laws of the point engines as laws of every command: an engine that takes a bound body, a deed, a pass of LOADING.
O28, O56, O57.
-/

namespace Sys2Proof.Machine

variable {s t u : State} {c : Chan} {L W B : Prop}

/-! ## An engine that takes a body (R68) -/

/-- An engine given the program that resolution answered, before it is sent to a point. -/
def Engine.given (e : Engine) (p n : Nat) (options : Word16) : Engine :=
  { e with running := some { program := p, count := n }, options := options, faults := 0, cursor := some 1 }

/-- Without a program to run the engine and its window stay; with one it is sent to a point or FINISHED. -/
theorem startEngine_eng (c : Chan) (b : Body) (s : State) :
    ((startEngine c b s).eng c = s.eng c ∧ (startEngine c b s).counter.window c = s.counter.window c)
      ∨ ∃ p n, (b.part c).answer = .good p n
        ∧ ((∃ j, 1 ≤ j ∧ j ≤ n ∧ (startEngine c b s).eng c = ((s.eng c).given p n b.options).sentTo j s.sc.reachLimit)
          ∨ ((startEngine c b s).eng c =
                { ((s.eng c).given p n b.options).homed .finished with cursor := some (if n = 0 then 1 else n) }
            ∧ (startEngine c b s).counter.window c = none)) := by
  have withheld (n k : Nat) : (takeOutcomes c .withheld n k s).counter = s.counter := by
    induction n generalizing k s with
    | zero => rfl
    | succ n ih => exact (ih _ (k + 1)).trans (takeOutcome_counter ..)
  unfold startEngine
  split
  · exact .inl ⟨rfl, rfl⟩
  · exact .inl ⟨takeOutcomes_eng .., by rw [withheld]⟩
  next p n answer =>
    split
    · exact .inl ⟨takeOutcomes_eng .., by rw [withheld]⟩
    · refine .inr ⟨p, n, answer, ?_⟩
      dsimp only
      generalize given : (s.modEng c fun e => { e with
        running := some { program := p, count := n }, options := b.options, faults := 0, cursor := some 1 }) = x
      have eng : x.eng c = (s.eng c).given p n b.options := by
        rw [← given, State.eng_modEng]
        rfl
      have constants : x.sc = s.sc := by rw [← given, State.sc, State.sc, State.modEng_store]
      rcases sendPoints_eng c n 1 x with ⟨j, above, below, sent⟩ | ⟨finished, window⟩
      · exact .inl ⟨j, above, by omega, by rw [sent, eng, constants]⟩
      · refine .inr ⟨?_, window⟩
        rw [finished, eng]
        by_cases none : n = 0
        · simp [none, Engine.given]
        · simp [none]

/-- A program that resolves to GOOD is not marked, and where it has a point it has a directory entry with its count (R19). -/
theorem resolve_good {k : StationConsts} {st : Store} {style : Byte} {p n : Nat} (good : resolve k st c style = .good p n)
    (some : 1 ≤ n) : ∃ d, st.dirEntry p = .some d ∧ d.count = n ∧ st.marked p = false := by
  unfold resolve at good
  split at good
  · split at good
    · cases good
    · split at good
      · cases good
      next q _ =>
        dsimp only at good
        split at good
        · cases good
        next unmarked =>
          obtain ⟨rfl, rfl⟩ := Answer.good.inj good
          cases entry : st.dirEntry q with
          | none => simp [entry] at some
          | some d => exact ⟨d, rfl, by simp, by simpa using unmarked⟩
  · cases good

/-! ## Both engines take the body (R53) -/

/-- What each engine makes of the body it takes, and the other leaves, holds of both after a binding. -/
theorem bindZone_of_starts {P Q : Chan → State → Prop} (datum : Word32) (serial : Word24) (style : Byte) (options : Word16)
    (disputed listed : Bool) (u : State) (before : ∀ b : Body, b.serial = serial →
      (∀ c, b.part c = newPart (resolve u.sc u.store c style)) → ∀ c, P c (u.setZone (.bound datum b)))
    (beside : ∀ {c d s t}, c ≠ d → Apart d s t → P c s → P c t) (after : ∀ {c d s t}, c ≠ d → Apart d s t → Q c s → Q c t)
    (start : ∀ c (b : Body) s, s.store = u.store → (b.part c).answer = resolve u.sc u.store c style → P c s →
      Q c (startEngine c b s)) (c : Chan) : Q c (bindZone datum serial style options disputed listed u) := by
  unfold bindZone
  dsimp only
  generalize body : Body.mk serial style options disputed listed _ _ = b
  have parts (c : Chan) : b.part c = newPart (resolve u.sc u.store c style) := by
    rw [← body]
    cases c <;> rfl
  have answer (c : Chan) : (b.part c).answer = resolve u.sc u.store c style := by rw [parts]; rfl
  have bound := before b (by rw [← body]) parts
  cases c with
  | a =>
    exact after (d := .b) nofun (startEngine_apart .b b _)
      (start .a b (u.setZone (.bound datum b)) rfl (answer .a) (bound .a))
  | b =>
    refine start .b b _ (startEngine_store ..) (answer .b) ?_
    exact beside (d := .a) nofun (startEngine_apart .a b _) (bound .b)

/-! ## The channel lines (Table 20) -/

theorem startEngine_lines (b : Body) {code : BitVec 6} (idle : (s.eng c).state.hasPoint = false) (h : (s.eng c).Lines code) :
    ((startEngine c b s).eng c).Lines ((startEngine c b s).code c) := by
  have home := h.home idle
  rcases startEngine_eng c b s with ⟨same, -⟩ | ⟨p, n, -, ⟨j, -, -, sent⟩ | ⟨finished, -⟩⟩
  · rw [same]
    exact home.lines _ idle
  · rw [sent]
    exact Engine.sentTo_lines _ _ _ _ home.fire home.sch
  · rw [finished]
    exact Engine.Home.lines ⟨rfl, rfl, rfl, rfl, rfl⟩ _ rfl

/-- The law reads the engines and the store. -/
theorem State.LinesFollow.of_same (h : s.LinesFollow) (eng : ∀ c, t.eng c = s.eng c) (store : t.store = s.store) :
    t.LinesFollow := by
  rw [State.linesFollow_iff] at h ⊢
  intro c
  have code : t.code c = s.code c := by
    unfold State.code State.current State.pointRec
    rw [eng, store]
  rw [eng, code]
  exact h c

theorem Deed.linesFollow (h : Deed L s t) (follow : s.LinesFollow) : t.LinesFollow := by
  cases h with
  | move move => exact move.linesFollow follow
  | line _ _ _ _ _ _ => exact follow.of_same (fun c => by cases c <;> rfl) rfl
  | pushed i _ => exact follow.of_same (fun c => by cases c <;> simp) (by simp)
  | body _ _ _ _ _ _ _ _ => exact follow.of_same (fun c => by cases c <;> rfl) rfl
  | aux _ => exact follow.of_same (fun c => by cases c <;> rfl) rfl

theorem Binds.linesFollow (windows : W) (h : Binds W u t) (follow : u.LinesFollow) : t.LinesFollow := by
  rw [State.linesFollow_iff] at follow ⊢
  cases h with
  | mk datum serial style options disputed listed _ idle =>
    refine bindZone_of_starts (P := fun c s => (s.eng c).state.hasPoint = false ∧ ∃ code, (s.eng c).Lines code)
      (Q := fun c s => (s.eng c).Lines (s.code c)) datum serial style options disputed listed u ?_ ?_ ?_ ?_
    · intro b _ _ c
      have eng : (u.setZone (.bound datum b)).eng c = u.eng c := by cases c <;> rfl
      rw [eng]
      exact ⟨idle windows c, _, follow c⟩
    · intro c d s t other apart h
      rwa [apart.engine c other]
    · intro c d s t other apart h
      rwa [State.code, apart.engine c other, apart.current_other other]
    · rintro c b s - - ⟨idle, code, lines⟩
      exact startEngine_lines b idle lines

/-- The engines as reset leaves them (R9, R176). -/
def State.Fresh (s : State) : Prop := ∀ c, s.eng c = Engine.afterReset

theorem reset_fresh (rest : List Instr) : State.Fresh { State.reset with pending := rest } := fun c => by cases c <;> rfl

theorem Loads.fresh (h : Loads s t) (held : s.HeldBack) : t.Fresh := fun c => by
  rw [h.engines.1]
  cases c
  · exact held.engines.1
  · exact held.engines.2

theorem State.Fresh.linesFollow (h : s.Fresh) : s.LinesFollow := by
  rw [State.linesFollow_iff]
  intro c
  rw [h c]
  exact Engine.Home.lines ⟨rfl, rfl, rfl, rfl, rfl⟩ _ rfl

/-- Settles O57: the engine table move by move, and by the engines as reset leaves them. -/
theorem channelLinesFollow : Obligations.ChannelLinesFollow := by
  unfold Obligations.ChannelLinesFollow
  intro s t startUp windows follow
  refine step_of_exec (P := fun s => s.StartUp ∧ s.WindowsFollow ∧ s.LinesFollow) (fun h => h.2.2)
    (fun rest h => ⟨h.1.queued rest, by simpa using h.2.1, h.2.2.of_same (fun c => by cases c <;> rfl) rfl⟩) ?_
    ⟨startUp, windows, follow⟩
  rintro s i ⟨startUp, windows, follow⟩
  exact exec_of_cases i (fun other => (exec_passes i s other).mono fun passes =>
    passes.keeps Deed.linesFollow (Binds.linesFollow windows) follow) (reset_fresh _).linesFollow follow
    fun under _ loads => (loads.fresh (startUp.heldBack (startUp.loading.2 under))).linesFollow

/-! ## The programs (R20, R65, R77) -/

theorem startEngine_programs (b : Body) {style : Byte} (answer : (b.part c).answer = resolve s.sc s.store c style)
    (runs : (s.eng c).Runs s.store) (asks : (s.eng c).Asks s.lc) :
    ((startEngine c b s).eng c).Runs s.store ∧ ((startEngine c b s).eng c).Asks s.lc := by
  rcases startEngine_eng c b s with ⟨same, -⟩ | ⟨p, n, good, ⟨j, above, below, sent⟩ | ⟨finished, -⟩⟩
  · rw [same]
    exact ⟨runs, asks⟩
  · obtain ⟨d, entry, count, unmarked⟩ := resolve_good (good.symm.trans answer).symm (by omega)
    rw [sent]
    refine ⟨fun _ => ⟨p, n, j, d, ?_, by simp, above, below, entry, count, unmarked⟩, fun q hq => asks q ?_⟩
    · rw [Engine.sentTo_running]
      rfl
    · rwa [Engine.sentTo_request] at hq
  · rw [finished]
    exact ⟨.of_none rfl, nofun⟩

/-- The law reads the engines and the store. -/
theorem State.ProgramsGood.of_same (h : s.ProgramsGood) (eng : ∀ c, t.eng c = s.eng c) (store : t.store = s.store) :
    t.ProgramsGood := by
  rw [State.programsGood_iff] at h ⊢
  intro c
  rw [eng, store, State.lc, store]
  exact h c

theorem Deed.programsGood (h : Deed L s t) (lib : s.LibraryChecked) (ended : s.store.phase = .ended) (good : s.ProgramsGood) :
    t.ProgramsGood := by
  cases h with
  | move move => exact move.programsGood lib ended good
  | line _ _ _ _ _ _ => exact good.of_same (fun c => by cases c <;> rfl) rfl
  | pushed i _ => exact good.of_same (fun c => by cases c <;> simp) (by simp)
  | body _ _ _ _ _ _ _ _ => exact good.of_same (fun c => by cases c <;> rfl) rfl
  | aux _ => exact good.of_same (fun c => by cases c <;> rfl) rfl

theorem Binds.programsGood (h : Binds W u t) (good : u.ProgramsGood) : t.ProgramsGood := by
  have lasts := h.lasts
  rw [State.programsGood_iff] at good ⊢
  rw [lasts.store, lasts.lc]
  cases h with
  | mk datum serial style options disputed listed _ _ =>
    refine bindZone_of_starts (P := fun c s => (s.eng c).Runs u.store ∧ (s.eng c).Asks u.lc)
      (Q := fun c s => (s.eng c).Runs u.store ∧ (s.eng c).Asks u.lc) datum serial style options disputed listed u ?_ ?_ ?_ ?_
    · intro b _ _ c
      have eng : (u.setZone (.bound datum b)).eng c = u.eng c := by cases c <;> rfl
      rw [eng]
      exact good c
    · intro c d s t other apart h
      rwa [apart.engine c other]
    · intro c d s t other apart h
      rwa [apart.engine c other]
    · rintro c b s store answer ⟨runs, asks⟩
      have constants : s.sc = u.sc ∧ s.lc = u.lc := by rw [State.sc, State.sc, State.lc, State.lc, store]; exact ⟨rfl, rfl⟩
      rw [← store] at runs ⊢
      rw [← constants.2] at asks ⊢
      exact startEngine_programs b (by rw [answer, store, constants.1]) runs asks

theorem Passes.programsGood (h : Passes L W B s t) (lib : s.LibraryChecked) (ended : s.store.phase = .ended)
    (good : s.ProgramsGood) : t.ProgramsGood := by
  refine And.right (h.keeps (P := fun x => x.store = s.store ∧ x.ProgramsGood) ?_ ?_ ⟨rfl, good⟩)
  · rintro x y deed ⟨store, good⟩
    exact ⟨deed.lasts.store.trans store, deed.programsGood (lib.of_store store) (by rw [store]; exact ended) good⟩
  · rintro x y binds ⟨store, good⟩
    exact ⟨binds.lasts.store.trans store, binds.programsGood good⟩

theorem State.Fresh.programsGood (h : s.Fresh) : s.ProgramsGood := by
  rw [State.programsGood_iff]
  intro c
  rw [h c]
  exact ⟨.of_none rfl, nofun⟩

theorem exec_programsGood (i : Instr) (startUp : s.StartUp) (lib : s.LibraryChecked) (good : s.ProgramsGood) :
    AllNext State.ProgramsGood (exec i s) :=
  exec_of_cases i
    (fun other => startUp.exec_of_ended i other good fun ended => (exec_passes i s other).mono fun passes =>
      passes.programsGood lib ended good)
    (reset_fresh _).programsGood good
    fun under _ loads => (loads.fresh (startUp.heldBack (startUp.loading.2 under))).programsGood

/-- Settles O56: the programs of a library that passed its checks, deed by deed. -/
theorem goodProgramsRun : Obligations.GoodProgramsRun := by
  unfold Obligations.GoodProgramsRun
  intro s t startUp lib good
  exact step_of_exec (P := fun s => s.StartUp ∧ s.LibraryChecked ∧ s.ProgramsGood) (fun h => h.2.2)
    (fun rest h => ⟨h.1.queued rest, h.2.1.of_store rfl, h.2.2.of_same (fun c => by cases c <;> rfl) rfl⟩)
    (fun i h => exec_programsGood i h.1 h.2.1 h.2.2) ⟨startUp, lib, good⟩

/-! ## FINISHED (R65, R90) -/

theorem startEngine_endsAt (b : Body) (h : s.EndsAt c) : (startEngine c b s).EndsAt c := by
  rcases startEngine_eng c b s with ⟨same, window⟩ | ⟨p, n, -, ⟨j, above, below, sent⟩ | ⟨finished, window⟩⟩
  · exact ⟨by rw [same]; exact h.point, by rw [same, window]; exact h.finished⟩
  · refine ⟨fun _ => ?_, fun finished => by simp [sent] at finished⟩
    rw [sent]
    simp only [Engine.at, Engine.points, Engine.sentTo_cursor, Engine.sentTo_running]
    exact ⟨above, below⟩
  · refine ⟨fun point => by simp [finished, Engine.homed, EngineState.hasPoint] at point, fun _ some => ?_⟩
    rw [finished] at some ⊢
    have count : 1 ≤ n := some
    exact ⟨congrArg Option.some (if_neg (by omega)), ⟨rfl, rfl, rfl, rfl, rfl⟩, window⟩

/-- The law reads the engine, and whether its window is none. -/
theorem State.EndsAt.of_same (h : s.EndsAt c) (eng : t.eng c = s.eng c)
    (window : s.counter.window c = none → t.counter.window c = none) : t.EndsAt c :=
  ⟨by rw [eng]; exact h.point, fun finished some => by
    rw [eng] at finished some ⊢
    obtain ⟨cursor, home, gone⟩ := h.finished finished some
    exact ⟨cursor, home, window gone⟩⟩

theorem Deed.endsAt (h : Deed L s t) (ends : s.EndsAt c) : t.EndsAt c := by
  cases h with
  | move move =>
    rename_i d
    by_cases same : d = c
    · subst same
      exact move.endsAt ends
    · exact ends.of_same (move.apart.engine c (Ne.symm same)) fun none => (move.apart.window c (Ne.symm same)).trans none
  | line _ _ _ _ _ _ => exact ends.of_same (by cases c <;> rfl) id
  | pushed i _ => exact ends.of_same (by cases c <;> simp) (by simp)
  | body _ _ _ windows _ _ _ _ => exact ends.of_same (by cases c <;> rfl) (windows c)
  | aux _ => exact ends.of_same (by cases c <;> rfl) id

theorem Binds.endsAt (h : Binds W u t) (ends : u.EndsAt c) : t.EndsAt c := by
  cases h with
  | mk datum serial style options disputed listed _ _ =>
    have beside {d e : Chan} {s t : State} (other : d ≠ e) (apart : Apart e s t) (h : s.EndsAt d) : t.EndsAt d :=
      h.of_same (apart.engine d other) fun none => (apart.window d other).trans none
    refine bindZone_of_starts (P := fun d s => d = c → s.EndsAt d) (Q := fun d s => d = c → s.EndsAt d) datum serial style
      options disputed listed u ?_ (fun other apart h same => beside other apart (h same))
      (fun other apart h same => beside other apart (h same)) ?_ c rfl
    · rintro b - - d rfl
      exact ends.of_same (by cases d <;> rfl) id
    · exact fun d b s _ _ h same => startEngine_endsAt b (h same)

/-- Settles O28: the last point leads to FINISHED, and a command can take an engine there only from its last point. -/
theorem finishedAfterTheLastPoint : Obligations.FinishedAfterTheLastPoint := by
  unfold Obligations.FinishedAfterTheLastPoint
  refine ⟨fun c s pointed firing last => ?_, fun c s w d pointed window waiting last => ?_, fun i c s t pointed next was => ?_⟩
  · have point := (pointed c (by rw [firing]; rfl)).1
    refine ⟨weldAnswer c .welded s, if_pos firing, ?_⟩
    rw [weldAnswer_eq]
    exact endPoint_last_setEng .welded { s.eng c with fire := false, sch := 0, faults := 0 } rfl rfl point last
  · have point : 1 ≤ (s.eng c).at := (pointed c (by rcases waiting with state | state | state <;> rw [state] <;> rfl)).1
    have ended (e : Engine) (cursor : e.cursor = (s.eng c).cursor) (running : e.running = (s.eng c).running) :=
      endPoint_last_setEng (s := s.setWindow c (some { state := w, openDue := d, closeDue := false })) (c := c) .missed e
        (by rw [State.eng_setWindow, cursor]) (by rw [State.eng_setWindow, running]) (by rw [State.eng_setWindow]; exact point)
        (by rw [State.eng_setWindow]; exact last)
    rw [State.eng_setWindow] at ended
    have missed : ∃ e : Engine, e.cursor = (s.eng c).cursor ∧ e.running = (s.eng c).running ∧ exec (.windowClose c) s =
        .next (endPoint c .missed ((s.setWindow c (some { state := w, openDue := d, closeDue := false })).setEng c e)) := by
      show ∃ e : Engine, _ ∧ _ ∧ execWindowClose c s = _
      unfold execWindowClose
      rw [window]
      rcases waiting with state | state | state
      · exact ⟨{ s.eng c with reach := .stopped }, rfl, rfl, by rw [state]; simp only [State.modEng, State.eng_setWindow]⟩
      · exact ⟨{ s.eng c with reach := .stopped }, rfl, rfl, by rw [state]; simp only [State.modEng, State.eng_setWindow]⟩
      · exact ⟨{ s.eng c with request := none }, rfl, rfl,
          by rw [state]; simp only [withdraw, State.modEng, State.eng_setWindow]⟩
    obtain ⟨e, cursor, running, next⟩ := missed
    exact ⟨_, next, ended e cursor running⟩
  · have start : s.EndsAt c := ⟨pointed c, fun finished => absurd finished was⟩
    have ends : t.EndsAt c := exec_of_cases (P := fun t => t.EndsAt c) i
      (fun other => (exec_passes i s other).mono fun passes => passes.keeps Deed.endsAt Binds.endsAt start)
      (.of_out (by cases c <;> rfl) (by cases c <;> nofun)) start
      (fun _ _ loads => start.of_same (loads.engines.1 c) fun none => (loads.engines.2.1 c).trans none) t next
    exact ends.finished

end Sys2Proof.Machine
end

