-- ==== Sys2Proof/Proofs/OutcomesAccounted.lean ====
section
/-!
The outcome places through every command: their law, their permanence, and the RESULT items that are formed of them.
O18, O58.
-/

namespace Sys2Proof.Machine

variable {s t u : State} {c : Chan} {L W B : Prop}

/-! ## A body leads to another (R46, R71) -/

/-- The same body with the same answers, no written place changed. -/
structure Body.LeadsTo (x y : Body) : Prop where
  serial : y.serial = x.serial
  answer : ∀ c, (y.part c).answer = (x.part c).answer
  written : ∀ c (k : Nat) (o : PointOutcome), (x.part c).places[k]? = some (some o) → (y.part c).places[k]? = some (some o)

theorem Body.LeadsTo.refl (x : Body) : x.LeadsTo x := ⟨rfl, fun _ => rfl, fun _ _ _ => id⟩

theorem Body.LeadsTo.trans {x y z : Body} (h : x.LeadsTo y) (g : y.LeadsTo z) : x.LeadsTo z :=
  ⟨g.serial.trans h.serial, fun c => (g.answer c).trans (h.answer c), fun c k o => g.written c k o ∘ h.written c k o⟩

/-- A body that stands in the zone now stood there before. -/
def Zone.LeadsTo (y z : Zone) : Prop := ∀ d b, z = .bound d b → ∃ e x, y = .bound e x ∧ x.LeadsTo b

theorem Zone.LeadsTo.refl (z : Zone) : z.LeadsTo z := fun d b same => ⟨d, b, same, .refl b⟩

theorem Zone.LeadsTo.trans {x y z : Zone} (h : x.LeadsTo y) (g : y.LeadsTo z) : x.LeadsTo z := fun d b same => by
  obtain ⟨e, b', same', leads⟩ := g d b same
  obtain ⟨f, b'', same'', leads'⟩ := h e b' same'
  exact ⟨f, b'', same'', leads'.trans leads⟩

theorem Zone.Grown.leadsTo {y z : Zone} (h : y.Grown c z) : y.LeadsTo z := by
  intro d b same
  cases y with
  | bound e x =>
    obtain ⟨p, bound, answer, -, written⟩ := h
    obtain ⟨rfl, rfl⟩ := Zone.bound.inj (same.symm.trans bound)
    have parts (d : Chan) : (x.setPart c p).part d = if d = c then p else x.part d := by cases c <;> cases d <;> rfl
    refine ⟨d, x, rfl, by cases c <;> rfl, fun d => ?_, fun d k o was => ?_⟩
    · rw [parts]
      split
      next same => rw [same]; exact answer
      · rfl
    · rw [parts]
      split
      next same => exact written k o (same ▸ was)
      · exact was
  | empty | pairing x | stray x => cases h.symm.trans same

theorem Zone.Relisted.leadsTo {y z : Zone} (h : y.Relisted z) : y.LeadsTo z := by
  intro d b same
  obtain ⟨x, before⟩ := h d b same
  exact ⟨d, _, before, rfl, fun c => by cases c <;> rfl, fun c k o => by cases c <;> exact id⟩

theorem Deed.zone_leadsTo (h : Deed L s t) : s.tracker.zone.LeadsTo t.tracker.zone := by
  cases h with
  | move move => exact move.apart.zone.leadsTo
  | line _ _ _ _ _ _ => exact .refl _
  | pushed i _ => rw [State.pushItem_tracker]; exact .refl _
  | body _ _ _ _ _ _ zone _ => exact zone.leadsTo
  | aux _ => exact .refl _

theorem Deeds.zone_leadsTo (h : Deeds L s t) : s.tracker.zone.LeadsTo t.tracker.zone :=
  h.keeps (P := fun x => s.tracker.zone.LeadsTo x.tracker.zone) (fun deed leads => leads.trans deed.zone_leadsTo) (.refl _)

/-! ## The law of the places (R47, R71) -/

/-- The law reads the zone record and the engines. -/
theorem State.PlacesFollow.of_same (h : s.PlacesFollow) (eng : ∀ c, t.eng c = s.eng c) (zone : t.tracker.zone = s.tracker.zone) :
    t.PlacesFollow :=
  State.placesFollow_of_parts fun d b c bound => by
    rw [eng]
    exact h.part (zone ▸ bound) c

theorem Deed.placesFollow (h : Deed L s t) (follow : s.PlacesFollow) : t.PlacesFollow := by
  cases h with
  | move move => exact move.placesFollow follow
  | line _ _ _ _ _ _ => exact follow.of_same (fun c => by cases c <;> rfl) rfl
  | pushed i _ => exact follow.of_same (fun c => by cases c <;> simp) (by simp)
  | body k r y _ _ _ zone _ =>
    refine State.placesFollow_of_parts fun d b c bound => ?_
    obtain ⟨x, before⟩ := zone d b bound
    have part := follow.part before c
    cases c <;> exact part
  | aux _ => exact follow.of_same (fun c => by cases c <;> rfl) rfl

/-- The program that resolution answers has at most 255 points (R12). -/
theorem State.LibraryChecked.resolve_count (h : s.LibraryChecked) (k : StationConsts) (c : Chan) (style : Byte) :
    (resolve k s.store c style).count ≤ 255 := by
  have counted (p : Nat) : ((s.store.dirEntry p).map DirEntry.count).getD 0 ≤ 255 := by
    cases entry : s.store.dirEntry p with
    | none => exact Nat.zero_le 255
    | some d =>
      refine h.counts d ?_
      unfold Store.dirEntry at entry
      split at entry
      · cases entry
      · exact List.mem_of_getElem? entry
  unfold resolve
  split
  · split
    · exact Nat.zero_le 255
    · split
      · exact Nat.zero_le 255
      · dsimp only
        split
        · exact counted _
        · exact counted _
  · exact Nat.zero_le 255

/-- The zone holds a body from `d` on, whose part for a channel is such. -/
def State.HasPart (s : State) (d : Word32) (c : Chan) (p : ChannelPart → Prop) : Prop :=
  ∃ b, s.tracker.zone = .bound d b ∧ p (b.part c)

/-- Work on the other engine leaves the part. -/
theorem State.HasPart.beside {d : Word32} {e : Chan} {p : ChannelPart → Prop} (h : s.HasPart d c p) (other : c ≠ e)
    (apart : Apart e s t) : t.HasPart d c p := by
  obtain ⟨b, bound, part⟩ := h
  have grown := apart.zone
  rw [bound] at grown
  obtain ⟨q, after, -⟩ := grown
  exact ⟨_, after, by rw [Body.part_setPart_other b q other]; exact part⟩

/-- An engine without a point takes a body whose places are all unset: they are then as the law gives. -/
theorem startEngine_part {x : Body} {d : Word32} {a : Answer} (unset : s.HasPart d c (· = newPart a))
    (resolved : (x.part c).answer = a) (small : a.count ≤ 255) (idle : (s.eng c).state.hasPoint = false) :
    (startEngine c x s).HasPart d c (·.Follows ((startEngine c x s).eng c)) := by
  obtain ⟨b, zone, mine⟩ := unset
  have places : (b.part c).places = List.replicate a.count none := by rw [mine]; rfl
  have answer : (b.part c).answer = a := by rw [mine]; rfl
  have length : (b.part c).places.length = (b.part c).answer.count := by rw [places, answer]; simp
  have few : (b.part c).places.length ≤ 255 := by rw [length, answer]; exact small
  have unset : WrittenBelow 1 (b.part c).places := by rw [places]; exact writtenBelow_one _
  have withheld (n : Nat) (count : a.count = n) :
      (s.outcomesTaken c 1 (n + 1) fun _ => some .withheld).HasPart d c
        (·.Follows ((s.outcomesTaken c 1 (n + 1) fun _ => some .withheld).eng c)) := by
    refine ⟨_, State.outcomesTaken_zone zone .., ?_⟩
    rw [Body.part_setPart]
    refine .taken length few le_rfl (Nat.le_add_left 1 n) le_rfl unset _ (fun _ _ _ _ => nofun) (.inl ⟨?_, ?_⟩)
    · cases c <;> exact idle
    · rw [length, answer, count]
      exact Nat.lt_succ_self n
  rw [startEngine_eq]
  unfold State.took
  rw [resolved]
  cases a with
  | absent =>
    refine ⟨b, zone, length, few, fun _ => ?_, fun point => by simp [idle] at point⟩
    rw [places]
    nofun
  | failed p n => exact withheld n rfl
  | good p n =>
    dsimp only
    split
    · exact withheld n rfl
    · obtain ⟨q, after, follows⟩ := advancedAfter_part (s := s.setEng c
          { s.eng c with running := some { program := p, count := n }, options := x.options, faults := 0, cursor := some 1 })
        (c := c) (k := 0) (m := 1) (n := p) (by rw [State.setEng_tracker]; exact zone) none length few
        (by rw [State.eng_setEng, length, answer]; rfl) (.inr rfl) le_rfl (Nat.zero_le _) unset nofun
      exact ⟨_, after, by rw [Body.part_setPart]; exact follows⟩

theorem Binds.placesFollow (windows : W) (h : Binds W u t) (lib : u.LibraryChecked) : t.PlacesFollow := by
  cases h with
  | mk datum serial style options disputed listed _ idle =>
    have done := bindZone_of_starts
      (P := fun c s => (s.eng c).state.hasPoint = false ∧ s.HasPart datum c (· = newPart (resolve u.sc u.store c style)))
      (Q := fun c s => s.HasPart datum c (·.Follows (s.eng c))) datum serial style options disputed listed u
      (fun b _ parts c => ⟨by cases c; exacts [idle windows .a, idle windows .b], b, rfl, parts c⟩)
      (fun other apart h => ⟨by rw [apart.engine _ other]; exact h.1, h.2.beside other apart⟩)
      (fun other apart h => by rw [apart.engine _ other]; exact h.beside other apart)
      (fun c b s _ answer h => startEngine_part h.2 answer (lib.resolve_count u.sc c style) h.1)
    refine State.placesFollow_of_parts fun d b c bound => ?_
    obtain ⟨b', same, follows⟩ := done c
    obtain ⟨-, rfl⟩ := Zone.bound.inj (bound.symm.trans same)
    exact follows

theorem Passes.placesFollow (h : Passes L s.WindowsFollow B s t) (lib : s.LibraryChecked) (windows : s.WindowsFollow)
    (follow : s.PlacesFollow) : t.PlacesFollow := by
  refine And.right (h.keeps (P := fun x => x.store = s.store ∧ x.PlacesFollow) ?_ ?_ ⟨rfl, follow⟩)
  · exact fun deed h => ⟨deed.lasts.store.trans h.1, deed.placesFollow h.2⟩
  · exact fun binds h => ⟨binds.lasts.store.trans h.1, binds.placesFollow windows (lib.of_store h.1)⟩

/-- A zone without a body asks nothing. -/
theorem State.PlacesFollow.of_free (free : s.tracker.zone.isBound = false) : s.PlacesFollow := fun d b c bound => by
  rw [bound] at free
  cases free

theorem exec_placesFollow (i : Instr) (lib : s.LibraryChecked) (windows : s.WindowsFollow) (follow : s.PlacesFollow) :
    AllNext State.PlacesFollow (exec i s) :=
  exec_of_cases i (fun other => (exec_passes i s other).mono fun passes => passes.placesFollow lib windows follow)
    (.of_free rfl) follow fun _ _ loads => follow.of_same loads.engines.1 loads.engines.2.2.1

/-- No command but ARRIVAL and RESET puts another body in place of the zone's. -/
theorem exec_zone_leadsTo (i : Instr) {d : Word32} {b : Body} (arrival : i ≠ .arrival) (reset : i ≠ .reset)
    (bound : s.tracker.zone = .bound d b) : AllNext (fun t => s.tracker.zone.LeadsTo t.tracker.zone) (exec i s) := by
  intro t next
  cases starts : i.startsUp with
  | false =>
    obtain ⟨u, deeds, rfl | ⟨free | arrives, -⟩⟩ := exec_passes i s starts t next
    · exact deeds.zone_leadsTo
    · rw [bound] at free
      cases free
    · exact absurd arrives arrival
  | true =>
    obtain rfl | ⟨-, loads⟩ := exec_loads i s starts reset t next
    · exact .refl _
    · rw [loads.engines.2.2.1]
      exact .refl _

/-- Settles O58: the law deed by deed and of a binding's fresh places, and permanence because every deed leads the zone's body
to itself. -/
theorem outcomePlacesFollow : Obligations.OutcomePlacesFollow := by
  unfold Obligations.OutcomePlacesFollow
  refine ⟨fun s t _ lib _ windows follow => ?_, fun i s t d d' b b' c k o arrival reset next before after was => ?_⟩
  · exact step_of_exec (P := fun s => s.LibraryChecked ∧ s.WindowsFollow ∧ s.PlacesFollow) (fun h => h.2.2)
      (fun rest h => ⟨h.1.of_store rfl, by simpa using h.2.1, h.2.2.of_same (fun c => by cases c <;> rfl) rfl⟩)
      (fun i h => exec_placesFollow i h.1 h.2.1 h.2.2) ⟨lib, windows, follow⟩
  · obtain ⟨e, x, same, leads⟩ := exec_zone_leadsTo i arrival reset before t next d' b' after
    obtain ⟨-, rfl⟩ := Zone.bound.inj (before.symm.trans same)
    exact leads.written c k o was

/-! ## The RESULT items (R168, R169) -/

/-- A RESULT of the outbox that is no repeat stood there before, or it was formed on the way. -/
theorem Deeds.result_formed (h : Deeds L s t) {r : Result} (mem : .result r ∈ t.line.outbox) (first : r.rpt = false) :
    .result r ∈ s.line.outbox ∨ ∃ v, Deeds L s v ∧ v.Forms r := by
  induction h with
  | refl => exact .inl mem
  | tail walk last ih =>
    cases last with
    | move move =>
      rw [move.apart.line] at mem
      exact ih mem
    | line _ v l _ _ outbox =>
      obtain old | ⟨j, -, same⟩ := outbox.items _ mem
      · exact ih old
      · cases j with
        | result x =>
          obtain rfl := Item.result.inj same
          cases first
        | _ => cases same
    | pushed i formed =>
      obtain same | ⟨-, pushed⟩ := State.pushItem_outbox _ i
      · rw [same] at mem
        exact ih mem
      · rw [pushed] at mem
        obtain old | new := List.mem_append.1 mem
        · exact ih old
        · exact .inr ⟨_, walk, formed r (List.mem_singleton.1 new).symm⟩
    | body _ _ _ _ _ _ _ _ => exact ih mem
    | aux _ => exact ih mem

/-- A RESULT formed where the law of the places holds counts each point of its channel once. -/
theorem State.Forms.accounts {r : Result} (h : s.Forms r) (follow : s.PlacesFollow) :
    ∃ d b, s.tracker.zone = .bound d b ∧ r.serial = b.serial
      ∧ r.welded.toNat + r.skipped.toNat + r.missed.toNat + r.defective.toNat + r.withheld.toNat =
          (b.part r.channel).answer.count := by
  obtain ⟨c, d, b, bound, without, rfl⟩ := h
  have part := follow.part bound c
  obtain ⟨serial, channel, -, -, -, -, -, -, -, sum, -⟩ := formResult_accounts c b (part.done without) part.small
  exact ⟨d, b, bound, serial, sum.trans (by rw [channel]; exact part.length)⟩

/-- Settles O18: the counts of one RESULT, and every new one formed of the zone's body with all its places written. -/
theorem resultsAccountForEveryPoint : Obligations.ResultsAccountForEveryPoint := by
  unfold Obligations.ResultsAccountForEveryPoint
  refine ⟨formResult_accounts, fun i s t r windows follow next mem new first => ?_⟩
  cases starts : i.startsUp with
  | false =>
    obtain ⟨u, deeds, last⟩ := exec_passes i s starts t next
    have outbox : t.line.outbox = u.line.outbox := by
      obtain rfl | ⟨-, binds⟩ := last
      · rfl
      · cases binds with
        | mk datum serial style options disputed listed _ _ =>
          rw [bindZone_eq]
          exact congrArg LineCtl.outbox (u.boundAs_frame datum serial style options disputed listed).2.2.1
    obtain old | ⟨v, walk, forms⟩ := deeds.result_formed (outbox ▸ mem) first
    · exact absurd old new
    · obtain ⟨d, b, bound, serial, sum⟩ := forms.accounts (walk.keeps Deed.placesFollow follow)
      obtain ⟨e, x, before, leads⟩ := walk.zone_leadsTo d b bound
      exact ⟨e, x, before, serial.trans leads.serial, by rw [sum, leads.answer]⟩
  | true =>
    by_cases reset : i = .reset
    · subst reset
      cases next
      cases mem
    · obtain rfl | ⟨-, loads⟩ := exec_loads i s starts reset t next
      · exact absurd mem new
      · rw [loads.engines.2.2.2] at mem
        exact absurd mem new

end Sys2Proof.Machine
end

