-- ==== Sys2Proof/Proofs/ViewRanges.lean ====
section
/-!
SUPPORT. The ranges of the feeder view row by row, and the changes of the view that keep them and the own row: a claim list
of another station, an expiry, a drop.
-/

namespace Sys2Proof.Machine

variable {s t : State} {v w x : View} {own ceiling : Nat} {n : Word16}

/-! ## Ranges row by row (Table 26, R107) -/

/-- The slots of a row are in their ranges, and a mark stands only where it may and on an ACTIVE slot. -/
structure AddrRow.InRange (ceiling : Nat) (may : Prop) (w : AddrRow) : Prop where
  slot : ∀ c, (w.slot c).inRange ceiling
  retained : ∀ c, w.retained c = true → may ∧ ∃ l r h, w.slot c = .active l r h

/-- The ranges of a view for an own address and a hold ceiling. -/
structure View.InRange (own ceiling : Nat) (v : View) : Prop where
  rows : ∀ a, (v.row a).InRange ceiling (a ≠ own)
  orphans : ∀ o ∈ v.orphans, 1 ≤ o.address ∧ o.address ≤ 30 ∧ 1 ≤ o.load ∧ o.load ≤ 250
  pointer : v.pointer ≤ 30

theorem AddrRow.blank_inRange (ceiling : Nat) (may : Prop) : AddrRow.blank.InRange ceiling may :=
  ⟨fun c => by cases c <;> trivial, fun c marked => by cases c <;> cases marked⟩

theorem State.viewInRange_iff : s.ViewInRange ↔ s.view.InRange s.own s.lc.holdCeiling := by
  constructor
  · rintro ⟨slots, orphans, pointer, retained⟩
    refine ⟨fun a => ⟨fun c => ?_, retained a⟩, orphans, pointer⟩
    by_cases inside : 1 ≤ a ∧ a ≤ 30
    · have mem : s.view.row a ∈ s.view.rows.toList := by
        rw [View.rows_toList, List.mem_map]
        exact ⟨a - 1, List.mem_range.2 (by omega), by rw [Nat.sub_add_cancel inside.1]⟩
      cases c
      · exact (slots _ mem).1
      · exact (slots _ mem).2
    · rw [View.row_out _ inside]
      exact (AddrRow.blank_inRange _ True).slot c
  · rintro ⟨rows, orphans, pointer⟩
    refine ⟨fun w mem => ?_, orphans, pointer, fun a => (rows a).retained⟩
    rw [View.rows_toList, List.mem_map] at mem
    obtain ⟨i, -, rfl⟩ := mem
    exact ⟨(rows _).slot .a, (rows _).slot .b⟩

theorem View.InRange.of_same (h : v.InRange own ceiling) (rows : w.rows = v.rows) (orphans : w.orphans = v.orphans)
    (pointer : w.pointer ≤ 30) : w.InRange own ceiling :=
  ⟨fun a => by rw [View.row_of_rows rows]; exact h.rows a, by rw [orphans]; exact h.orphans, pointer⟩

theorem View.InRange.setRow (h : v.InRange own ceiling) (a : Nat) {w : AddrRow} (row : w.InRange ceiling (a ≠ own)) :
    (v.setRow a w).InRange own ceiling := by
  refine ⟨fun b => ?_, by rw [View.setRow_orphans]; exact h.orphans, by rw [View.setRow_pointer]; exact h.pointer⟩
  by_cases inside : 1 ≤ a ∧ a ≤ 30
  · by_cases same : b = a
    · rw [same, View.row_setRow _ _ _ inside.1 inside.2]
      exact row
    · rw [View.row_setRow_other _ _ _ _ same]
      exact h.rows b
  · rw [View.setRow_out _ _ inside]
    exact h.rows b

/-- A slot written over, its mark with it. -/
theorem AddrRow.InRange.setBoth {may : Prop} {w : AddrRow} (h : w.InRange ceiling may) (c : Chan) {x : Slot} (slot : x.inRange ceiling) :
    ((w.setSlot c x).setRetained c false).InRange ceiling may := by
  refine ⟨fun d => ?_, fun d => ?_⟩
  · rw [AddrRow.slot_setRetained]
    by_cases same : d = c
    · rw [same, AddrRow.slot_setSlot]
      exact slot
    · have other := h.slot d
      cases c <;> cases d
      · exact absurd rfl same
      · exact other
      · exact other
      · exact absurd rfl same
  · by_cases same : d = c
    · rw [same, AddrRow.retained_setRetained]
      nofun
    · have other := h.retained d
      cases c <;> cases d
      · exact absurd rfl same
      · exact other
      · exact other
      · exact absurd rfl same

/-- A slot written over where no mark stands. -/
theorem AddrRow.InRange.setSlot {may : Prop} {w : AddrRow} (h : w.InRange ceiling may) (c : Chan) {x : Slot}
    (slot : x.inRange ceiling) (unmarked : w.retained c = false) : (w.setSlot c x).InRange ceiling may := by
  have same : (w.setSlot c x).setRetained c false = w.setSlot c x := by
    cases c
    · exact congrArg (fun b => ({ w with slotA := x, retainedA := b } : AddrRow)) unmarked.symm
    · exact congrArg (fun b => ({ w with slotB := x, retainedB := b } : AddrRow)) unmarked.symm
  rw [← same]
  exact h.setBoth c slot

/-! ## What leaves the own row (R101 to R107) -/

/-- A change of the view that leaves the own slots, the offers and the fresh cause, and keeps the ranges. -/
structure View.Beside (own ceiling : Nat) (v w : View) : Prop where
  slots : ∀ c, (w.row own).slot c = (v.row own).slot c
  offer : ∀ c, w.offer c = v.offer c
  fresh : w.fresh = v.fresh
  inRange : v.InRange own ceiling → w.InRange own ceiling

theorem View.Beside.refl (v : View) : v.Beside own ceiling v := ⟨fun _ => rfl, fun _ => rfl, rfl, id⟩

theorem View.Beside.trans (h : v.Beside own ceiling w) (g : w.Beside own ceiling x) : v.Beside own ceiling x :=
  ⟨fun c => (g.slots c).trans (h.slots c), fun c => (g.offer c).trans (h.offer c), g.fresh.trans h.fresh, g.inRange ∘ h.inRange⟩

/-- Causes of sight, the pointer and the adoption apart. -/
theorem View.beside_of_rows (rows : w.rows = v.rows) (orphans : w.orphans = v.orphans) (offerA : w.offerA = v.offerA)
    (offerB : w.offerB = v.offerB) (fresh : w.fresh = v.fresh) (pointer : v.pointer ≤ 30 → w.pointer ≤ 30) :
    v.Beside own ceiling w where
  slots c := by rw [View.row_of_rows rows]
  offer
    | .a => offerA
    | .b => offerB
  fresh := fresh
  inRange h := h.of_same rows orphans (pointer h.pointer)

/-- A row that keeps its slots where it is the own one. -/
theorem View.beside_setRow (a : Nat) {w : AddrRow} (still : a = own → ∀ c, w.slot c = (v.row a).slot c)
    (row : v.InRange own ceiling → w.InRange ceiling (a ≠ own)) : v.Beside own ceiling (v.setRow a w) where
  slots c := by
    by_cases same : own = a
    · by_cases inside : 1 ≤ a ∧ a ≤ 30
      · rw [same, View.row_setRow _ _ _ inside.1 inside.2]
        exact still same.symm c
      · rw [View.setRow_out _ _ inside]
    · rw [View.row_setRow_other _ _ _ _ same]
  offer
    | .a => View.setRow_offerA v a w
    | .b => View.setRow_offerB v a w
  fresh := View.setRow_fresh v a w
  inRange h := h.setRow a (row h)

theorem View.beside_setRow_other {a : Nat} (other : a ≠ own) {w : AddrRow}
    (row : v.InRange own ceiling → w.InRange ceiling (a ≠ own)) : v.Beside own ceiling (v.setRow a w) :=
  View.beside_setRow a (fun same => absurd same other) row

theorem View.setMiss_beside (v : View) : v.Beside own ceiling v.setMiss := View.beside_of_rows rfl rfl rfl rfl rfl id

/-- A published slot of a well-formed frame slot is in its range (R102). -/
theorem RawSlot.published_inRange (n : Word16) {x : RawSlot} (sound : ¬x.malformed ceiling = true) :
    (x.published n).inRange ceiling := by
  rw [RawSlot.malformed_iff] at sound
  unfold RawSlot.published
  split
  next kind =>
    have bounds : ¬(x.load.toNat = 0 ∨ 250 < x.load.toNat) := fun bad => sound (.inr (.inl ⟨kind, bad⟩))
    show 1 ≤ x.load.toNat ∧ x.load.toNat ≤ 250
    omega
  · split
    next kind =>
      have bounds : ¬(x.load.toNat = 0 ∨ 250 < x.load.toNat ∨ x.hold.toNat = 0 ∨ ceiling < x.hold.toNat) :=
        fun bad => sound (.inr (.inr (.inl ⟨kind, bad⟩)))
      split
      · show 1 ≤ x.load.toNat ∧ x.load.toNat ≤ 250 ∧ 1 ≤ x.hold.toNat ∧ x.hold.toNat ≤ ceiling
        omega
      · trivial
    · trivial

theorem AddrRow.InRange.applySlot {may : Prop} {w : AddrRow} (h : w.InRange ceiling may) (c : Chan) (x : RawSlot) :
    (w.applySlot n ceiling c x).InRange ceiling may := by
  unfold AddrRow.applySlot
  split
  · exact h
  next sound => exact h.setBoth c (RawSlot.published_inRange n sound)

/-- Another station's claim list (R101 to R103). -/
theorem View.applyClaims_beside {u : Nat} (other : u ≠ own) (high : u ≤ 30) (a b : RawSlot) :
    v.Beside own ceiling (v.applyClaims n ceiling u a b) := by
  rw [View.applyClaims_eq]
  refine .trans (w := v.setRow u ((v.row u).claimed n ceiling a b))
    (View.beside_setRow_other other fun h => ((h.rows u).applySlot .a a).applySlot .b b) ?_
  refine View.beside_of_rows rfl rfl rfl rfl rfl fun low => ?_
  dsimp only
  split
  · exact high
  · rwa [View.setRow_pointer] at low

/-- A slot of another station that is dropped (R106, R107). -/
theorem View.dropSlot_beside {a : Nat} (c : Chan) (other : a ≠ own) (low : 1 ≤ a) (high : a ≤ 30) :
    v.Beside own ceiling (v.dropSlot n a c) := by
  unfold View.dropSlot
  split
  · exact .refl v
  next l r waits =>
    refine View.beside_setRow_other other fun h => (h.rows a).setSlot c trivial ?_
    by_contra marked
    obtain ⟨-, l', r', h', active⟩ := (h.rows a).retained c (by simpa using marked)
    rw [waits] at active
    cases active
  next l r h active =>
    split
    · exact View.beside_setRow_other other fun h => (h.rows a).setBoth c trivial
    · split
      · refine .trans (w := { v with orphans := v.orphans ++ [{ address := a, channel := c, load := l, expire := r + BitVec.ofNat 16 h }] })
          ⟨fun _ => rfl, fun c => by cases c <;> rfl, rfl, fun ranges => ⟨ranges.rows, fun o mem => ?_, ranges.pointer⟩⟩
          (View.beside_setRow_other other fun h => (h.rows a).setBoth c trivial)
        obtain old | new := List.mem_append.1 mem
        · exact ranges.orphans o old
        · have slot := (ranges.rows a).slot c
          rw [active] at slot
          rw [List.mem_singleton.1 new]
          exact ⟨low, high, slot.1, slot.2.1⟩
      · refine View.beside_setRow_other other fun ranges => ⟨fun d => ?_, fun d marked => ⟨other, ?_⟩⟩
        · rw [AddrRow.slot_setRetained]
          exact (ranges.rows a).slot d
        · rw [AddrRow.slot_setRetained]
          by_cases same : d = c
          · exact ⟨l, r, h, by rw [same, active]⟩
          · refine ((ranges.rows a).retained d ?_).2
            cases c <;> cases d
            · exact absurd rfl same
            · exact marked
            · exact marked
            · exact absurd rfl same

theorem View.drop_beside {a : Nat} (other : a ≠ own) (low : 1 ≤ a) (high : a ≤ 30) : v.Beside own ceiling (v.drop n a) := by
  unfold View.drop
  dsimp only
  refine ((View.dropSlot_beside (n := n) .a other low high).trans (View.dropSlot_beside (n := n) .b other low high)).trans ?_
  refine View.beside_setRow_other other fun h => ⟨fun c => ?_, fun c marked => ?_⟩
  · have slot := (h.rows a).slot c
    cases c <;> exact slot
  · have kept := (h.rows a).retained c
    cases c <;> exact kept marked

/-! ## Expiry (R104) -/

theorem View.expire_row (n : Word16) (v : View) (a : Nat) : (v.expire n).row a = (v.row a).expire n := by
  unfold View.expire
  rw [mapRows_eq]
  exact (View.row_of_rows (v := { v with rows := v.rows.map (AddrRow.expire n) }) rfl a).trans (View.row_map _ rfl v a)

theorem AddrRow.expire_slot (n : Word16) (w : AddrRow) (c : Chan) :
    (w.expire n).slot c = if (w.slot c).expired n then .empty else w.slot c := by cases c <;> rfl

theorem View.InRange.expire (h : v.InRange own ceiling) (n : Word16) : (v.expire n).InRange own ceiling := by
  refine ⟨fun a => ?_, fun o mem => h.orphans o (List.mem_of_mem_filter mem), h.pointer⟩
  rw [View.expire_row]
  refine ⟨fun c => ?_, fun c marked => ?_⟩
  · rw [AddrRow.expire_slot]
    split
    · trivial
    · exact (h.rows a).slot c
  · have kept : (v.row a).retained c = true ∧ ((v.row a).slot c).expired n = false := by
      cases c <;> simpa [AddrRow.expire, AddrRow.retained, AddrRow.slot] using marked
    rw [AddrRow.expire_slot, kept.2]
    exact (h.rows a).retained c kept.1

end Sys2Proof.Machine
end

