-- ==== Sys2Proof/Proofs/HearingKeeps.lean ====
section
/-!
SUPPORT. What hearing the line keeps: the rotation, rounds and frames of other stations move no transmitter and no carrier,
leave every claim unadmitted, and keep the laws of the feeder and the line. One relation, shown of each shared operation once.
-/

namespace Sys2Proof.Machine

variable {s t u : State} {n : Word16}

/-! ## The relation -/

/-- The join hold count is in its range, and below the limit in LISTENING (R149). -/
def State.JoinHeld (s : State) : Prop :=
  s.line.joinHold ≤ s.lc.holdCeiling + 2 ∧ (s.line.state = .listening → s.line.joinHold < s.lc.holdCeiling + 2)

/-- The position held is one of the addresses 1..30. -/
def LineCtl.Placed (l : LineCtl) : Prop := ∀ p, l.position = some p → 1 ≤ p.address ∧ p.address ≤ 30

/-- R67's law of the engines alone. -/
def State.Backed (s : State) : Prop := ∀ c, (s.eng c).state = .firing → s.ownSlotLive c = true

/-- What hearing keeps: `s` before, `t` after. -/
structure State.Hears (s t : State) : Prop where
  lasts : s.Lasts t
  state : t.line.state = s.line.state ∨ (s.line.state = .listening ∧ t.line.state = .joining ∧ t.line.count ≠ none)
  count : s.line.count ≠ none → t.line.count ≠ none
  counted : (s.line.position ≠ none → s.line.count ≠ none) → t.line.position ≠ none → t.line.count ≠ none
  placed : s.line.Placed → t.line.Placed
  inFlight : t.line.inFlight = s.line.inFlight
  de : t.line.de = s.line.de
  jabber : t.line.jabber = s.line.jabber
  carrier : t.line.carrier = s.line.carrier
  untaken : t.line.untaken = s.line.untaken
  silence : t.line.foundingTimer = s.line.foundingTimer
  joinHeld : s.JoinHeld → t.JoinHeld
  roster : t.line.onRoster s.own = s.line.onRoster s.own ∨ (s.line.state = .onLine ∧ t.line.onRoster s.own = true)
  fresh : s.line.state ≠ .onLine → s.view.fresh = true ∧ s.line.record.openedOnLine = false →
    t.view.fresh = true ∧ t.line.record.openedOnLine = false
  offer : ∀ c, t.view.offer c = s.view.offer c
  firing : ∀ c, (t.eng c).state = .firing → (s.eng c).state = .firing
  claims : ∀ c l r h, (t.view.row s.own).slot c = .active l r h → (s.view.row s.own).slot c = .active l r h
  backed : s.Backed → t.Backed
  view : s.view.InRange s.own s.lc.holdCeiling → t.view.InRange s.own s.lc.holdCeiling

theorem State.Hears.refl (s : State) : s.Hears s where
  lasts := .refl s
  state := .inl rfl
  count := id
  counted := id
  placed := id
  inFlight := rfl
  de := rfl
  jabber := rfl
  carrier := rfl
  untaken := rfl
  silence := rfl
  joinHeld := id
  roster := .inl rfl
  fresh _ := id
  offer _ := rfl
  firing _ := id
  claims _ _ _ _ := id
  backed := id
  view := id

theorem State.Hears.onLine_iff (h : s.Hears t) : t.line.state = .onLine ↔ s.line.state = .onLine := by
  obtain same | ⟨listening, joining, -⟩ := h.state
  · rw [same]
  · rw [listening, joining]
    exact ⟨nofun, nofun⟩

theorem State.Hears.trans (h : s.Hears t) (g : t.Hears u) : s.Hears u where
  lasts := h.lasts.trans g.lasts
  state := by
    obtain same | ⟨listening, joining, counted⟩ := g.state
    · rw [same]
      exact h.state.imp_right fun ⟨listening, joining, counted⟩ => ⟨listening, joining, g.count counted⟩
    · obtain same | ⟨-, joined, -⟩ := h.state
      · exact .inr ⟨same ▸ listening, joining, counted⟩
      · cases joined.symm.trans listening
  count := g.count ∘ h.count
  counted law := g.counted (h.counted law)
  placed := g.placed ∘ h.placed
  inFlight := g.inFlight.trans h.inFlight
  de := g.de.trans h.de
  jabber := g.jabber.trans h.jabber
  carrier := g.carrier.trans h.carrier
  untaken := g.untaken.trans h.untaken
  silence := g.silence.trans h.silence
  joinHeld := g.joinHeld ∘ h.joinHeld
  roster := by
    have roster := g.roster
    rw [h.lasts.own, h.onLine_iff] at roster
    obtain same | listed := roster
    · rw [same]
      exact h.roster
    · exact .inr listed
  fresh off held := g.fresh (fun on => off (h.onLine_iff.1 on)) (h.fresh off held)
  offer c := (g.offer c).trans (h.offer c)
  firing c := h.firing c ∘ g.firing c
  claims c l r hold active := by
    have claims := g.claims c l r hold
    rw [h.lasts.own] at claims
    exact h.claims c l r hold (claims active)
  backed := g.backed ∘ h.backed
  view law := by
    have view := g.view
    rw [h.lasts.own, h.lasts.lc] at view
    exact view (h.view law)

/-! ## Single changes -/

/-- The view changes beside the own row; the fresh cause may end for a round begun ON LINE. -/
theorem State.hears_view {v : View} (beside : s.view.Beside s.own s.lc.holdCeiling { v with fresh := s.view.fresh })
    (fresh : s.line.record.openedOnLine = false → s.view.fresh = true → v.fresh = true) : s.Hears { s with view := v } :=
  { State.Hears.refl s with
    lasts := ⟨rfl, rfl, rfl, .refl _⟩
    fresh := fun _ held => ⟨fresh held.2 held.1, held.2⟩
    offer := fun c => (by cases c <;> rfl : v.offer c = View.offer { v with fresh := s.view.fresh } c).trans (beside.offer c)
    claims := fun c l r h active => (beside.slots c).symm.trans active
    backed := fun backed c firing => by
      have same : State.ownSlotLive { s with view := v } c = s.ownSlotLive c :=
        congrArg (fun x : Slot => s.line.count.any fun n => x.live n) (beside.slots c)
      exact same.trans (backed c (by cases c <;> exact firing))
    firing := fun c => by cases c <;> exact id
    view := fun law => by
      obtain ⟨rows, orphans, pointer⟩ := beside.inRange law
      exact ⟨rows, orphans, pointer⟩ }

theorem State.hears_beside {v : View} (beside : s.view.Beside s.own s.lc.holdCeiling v) : s.Hears { s with view := v } := by
  refine State.hears_view ?_ fun _ held => by rw [beside.fresh]; exact held
  rw [← beside.fresh]
  exact beside

theorem State.setMiss_hears (s : State) : s.Hears s.setMiss := State.hears_beside s.view.setMiss_beside

/-- The line changes in what hearing moves: its state, roster, position, record, join hold count, last valid frame and outbox. -/
theorem State.hears_line (l : LineCtl) (same : l = { s.line with
      state := l.state, roster := l.roster, position := l.position, record := l.record, joinHold := l.joinHold, lastValid := l.lastValid
      outbox := l.outbox })
    (state : l.state = s.line.state ∨ (s.line.state = .listening ∧ l.state = .joining ∧ s.line.count ≠ none))
    (counted : l.position ≠ none → s.line.position ≠ none ∨ s.line.count ≠ none) (placed : s.line.Placed → l.Placed)
    (joinHeld : s.JoinHeld → State.JoinHeld { s with line := l })
    (roster : l.onRoster s.own = s.line.onRoster s.own ∨ (s.line.state = .onLine ∧ l.onRoster s.own = true))
    (record : s.line.state ≠ .onLine → s.line.record.openedOnLine = false → l.record.openedOnLine = false) :
    s.Hears { s with line := l } := by
  have count : l.count = s.line.count := by rw [same]
  exact { State.Hears.refl s with
    lasts := ⟨rfl, rfl, by rw [same], .refl _⟩
    state := state.imp_right fun ⟨listening, joining, held⟩ => ⟨listening, joining, by rw [count]; exact held⟩
    count := fun held => by rw [count]; exact held
    counted := fun law held => by
      rw [count]
      exact (counted held).elim law id
    placed := placed
    inFlight := by rw [same]
    de := by rw [same]
    jabber := by rw [same]
    carrier := by rw [same]
    untaken := by rw [same]
    silence := by rw [same]
    joinHeld := joinHeld
    roster := roster
    fresh := fun off held => ⟨held.1, record off held.2⟩
    offer := fun _ => rfl
    firing := fun c => by cases c <;> exact id
    backed := fun backed c firing => by
      have own : State.ownSlotLive { s with line := l } c = s.ownSlotLive c := by
        unfold State.ownSlotLive State.own
        rw [same]
      exact own.trans (backed c (by cases c <;> exact firing)) }

theorem State.unclean_hears (s : State) : s.Hears s.unclean :=
  State.hears_line _ rfl (.inl rfl) .inl id id (.inl rfl) fun _ => id

/-! ## The round count (R104, R105) -/

/-- An expiry reported, or not: the engine is then not in FIRING, or it was before and its slot stands. -/
theorem reportExpiry_firing (c : Chan) (expired : Bool) (s : State) :
    let t := if expired = true then reportExpiry c s else s
    Apart c s t ∧ ∀ d, (t.eng d).state = .firing → (s.eng d).state = .firing ∧ (d = c → expired = false) := by
  dsimp only
  split
  · have apart := (reportExpiry_moves (L := False) c s).apart
    refine ⟨apart, fun d firing => ?_⟩
    by_cases same : d = c
    · subst same
      unfold reportExpiry at firing
      split at firing
      · rw [holdPoint_eng] at firing
        cases firing
      next still => exact absurd firing still
    · rw [apart.engine d same] at firing
      exact ⟨firing, fun is => absurd is same⟩
  next stands => exact ⟨.refl c s, fun d firing => ⟨firing, fun _ => by simpa using stands⟩⟩

/-- What the feeder table makes of a round count. -/
theorem expireClaims_of_count (count : s.line.count = some n) :
    (expireClaims s).view = s.view.expire n ∧ (expireClaims s).line = s.line ∧ s.Lasts (expireClaims s)
      ∧ ∀ c, ((expireClaims s).eng c).state = .firing →
          (s.eng c).state = .firing ∧ ((s.view.row s.own).slot c).expired n = false := by
  unfold expireClaims
  rw [count]
  dsimp only
  generalize expired : ({ s with view := s.view.expire n } : State) = x
  have engine (c : Chan) : x.eng c = s.eng c := by rw [← expired]; cases c <;> rfl
  obtain ⟨apartA, firingA⟩ := reportExpiry_firing .a ((s.view.row s.own).slotA.expired n) x
  generalize (if (s.view.row s.own).slotA.expired n = true then reportExpiry .a x else x) = y at apartA firingA ⊢
  obtain ⟨apartB, firingB⟩ := reportExpiry_firing .b ((s.view.row s.own).slotB.expired n) y
  refine ⟨?_, ?_, ?_, fun c firing => ?_⟩
  · rw [apartB.view, apartA.view, ← expired]
  · rw [apartB.line, apartA.line, ← expired]
  · refine .trans ?_ (apartA.lasts.trans apartB.lasts)
    rw [← expired]
    exact ⟨rfl, rfl, rfl, .refl _⟩
  · obtain ⟨firing, standsB⟩ := firingB c firing
    obtain ⟨firing, standsA⟩ := firingA c firing
    rw [engine] at firing
    cases c
    · exact ⟨firing, standsA rfl⟩
    · exact ⟨firing, standsB rfl⟩

/-- A slot that was live and stands at a later count is live there. -/
theorem Slot.live_of_stands {x : Slot} {m : Word16} (live : x.live m = true) (stands : x.expired n = false) : x.live n = true := by
  cases x with
  | empty => cases live
  | waiting l r => cases live
  | active l r h => simpa [Slot.expired, Slot.live] using stands

/-- The count is taken, and what it has reached expires. -/
theorem counted_hears (n : Word16) (s : State) : s.Hears (expireClaims { s with line := { s.line with count := some n } }) := by
  obtain ⟨view, line, lasts, firing⟩ := expireClaims_of_count (s := { s with line := { s.line with count := some n } }) rfl
  generalize expireClaims { s with line := { s.line with count := some n } } = t at view line lasts firing
  have own : t.own = s.own := lasts.own
  have row (c : Chan) : (t.view.row s.own).slot c =
      if ((s.view.row s.own).slot c).expired n then .empty else (s.view.row s.own).slot c := by
    rw [view, View.expire_row, AddrRow.expire_slot]
  have engine (c : Chan) : State.eng { s with line := { s.line with count := some n } } c = s.eng c := by cases c <;> rfl
  exact {
    lasts := ⟨lasts.store, lasts.pending, lasts.straps, lasts.sticky⟩
    state := .inl (by rw [line])
    count := fun _ => by rw [line]; nofun
    counted := fun _ _ => by rw [line]; nofun
    placed := fun placed => by rw [line]; exact placed
    inFlight := by rw [line]
    de := by rw [line]
    jabber := by rw [line]
    carrier := by rw [line]
    untaken := by rw [line]
    silence := by rw [line]
    joinHeld := fun held => by
      unfold State.JoinHeld State.lc
      rw [line, lasts.store]
      exact held
    roster := .inl (by rw [line]; rfl)
    fresh := fun _ held => by rw [line, view]; exact held
    offer := fun c => by rw [view]; cases c <;> rfl
    firing := fun c fires => engine c ▸ (firing c fires).1
    claims := fun c l r h active => by
      rw [row] at active
      split at active
      · cases active
      · exact active
    backed := fun backed c fires => by
      obtain ⟨fired, stands⟩ := firing c fires
      rw [engine] at fired
      obtain ⟨m, -, live⟩ := (Option.any_eq_true _ _).1 (backed c fired)
      unfold State.ownSlotLive
      rw [line, own, row]
      show Slot.live n _ = true
      have stands : ((s.view.row s.own).slot c).expired n = false := stands
      rw [stands]
      exact Slot.live_of_stands live stands
    view := fun law => by rw [view]; exact law.expire n }

theorem expireClaims_hears (s : State) : s.Hears (expireClaims s) := by
  cases count : s.line.count with
  | none =>
    have still : expireClaims s = s := by
      unfold expireClaims
      rw [count]
    rw [still]
    exact .refl s
  | some n =>
    have same : ({ s with line := { s.line with count := some n } } : State) = s := by rw [← count]
    have hears := counted_hears n s
    rwa [same] at hears

/-! ## The boundary and the rotation (R132, R145) -/

theorem raiseJoinHold_hears (count : s.line.count ≠ none) : s.Hears (raiseJoinHold s) := by
  unfold raiseJoinHold
  split
  next listening =>
    unfold joinHoldEnd
    dsimp only
    split
    next full =>
      refine State.hears_line { s.line with joinHold := s.line.joinHold + 1, state := .joining } rfl (.inr ⟨listening, rfl, count⟩)
        .inl id (fun held => ⟨?_, nofun⟩) (.inl rfl) fun _ => id
      have below := held.2 listening
      exact Nat.succ_le_of_lt below
    next room =>
      have short : s.line.joinHold + 1 < s.lc.holdCeiling + 2 := by
        by_contra full
        exact room ⟨listening, Option.isSome_iff_ne_none.2 count, by unfold Config.joinMargin; exact not_lt.1 full⟩
      exact State.hears_line { s.line with joinHold := s.line.joinHold + 1 } rfl (.inl rfl) .inl id
        (fun _ => ⟨short.le, fun _ => short⟩) (.inl rfl) fun _ => id
  · exact .refl s

theorem boundary_hears (s : State) : s.Hears (boundary s) := by
  unfold boundary
  split
  · exact .refl s
  next n _ =>
    dsimp only
    have counted := counted_hears (n + 1) s
    have held : (expireClaims { s with line := { s.line with count := some (n + 1) } }).line.count ≠ none := by
      rw [(expireClaims_of_count (s := { s with line := { s.line with count := some (n + 1) } }) rfl).2.1]
      nofun
    generalize expireClaims { s with line := { s.line with count := some (n + 1) } } = x at counted held ⊢
    have closed : x.Hears { x with view := x.view.closeRound x.line.record } :=
      State.hears_view (View.beside_of_rows rfl rfl rfl rfl rfl id) fun opened fresh => by
        unfold View.closeRound
        simp [opened, fresh]
    have aged : State.Hears { x with view := x.view.closeRound x.line.record } { x with
        view := x.view.closeRound x.line.record
        line := { x.line with lastValid := x.line.lastValid.map fun f => { f with since := f.since.next } } } :=
      State.hears_line (s := { x with view := x.view.closeRound x.line.record }) _ rfl (.inl rfl) .inl id id (.inl rfl) fun _ => id
    refine .trans ((counted.trans closed).trans aged) (.trans (raiseJoinHold_hears held) ?_)
    refine State.hears_line _ rfl (.inl rfl) .inl id id (.inl rfl) fun off _ => ?_
    exact beq_false_of_ne off

theorem nextAddress_range {a : Nat} (high : a ≤ 30) : 1 ≤ nextAddress a ∧ nextAddress a ≤ 30 := by
  unfold nextAddress Config.lastAddress
  split <;> omega

theorem moveOn_hears {a : Nat} (ref : RefPoint) (count : s.line.count ≠ none) (high : s.line.Placed → a ≤ 30) :
    s.Hears (moveOn a ref s) := by
  have place {x : State} (held : x.line.count ≠ none) (high : x.line.Placed → a ≤ 30) (kind : PosKind) :
      x.Hears { x with line := { x.line with position := some ⟨nextAddress a, kind, ref⟩ } } := by
    refine State.hears_line { x.line with position := some ⟨nextAddress a, kind, ref⟩ } rfl (.inl rfl) (fun _ => .inr held) ?_ id
      (.inl rfl) fun _ => id
    rintro placed p same
    obtain rfl := Option.some.inj same
    exact nextAddress_range (high placed)
  unfold moveOn
  dsimp only
  split
  next wraps => exact (boundary_hears s).trans (place ((boundary_hears s).count count) (fun _ => wraps.le) _)
  · exact place count high _

/-! ## Drops (R106, R144) -/

theorem LineCtl.onRoster_setRoster_other (l : LineCtl) {a b : Nat} (x : Option (Fin 3)) (other : b ≠ a) :
    (l.setRoster a x).onRoster b = l.onRoster b := congrArg Option.isSome (l.lapses_setRoster_other a b x other)

theorem LineCtl.lapses_range {l : LineCtl} {a : Nat} {x : Fin 3} (listed : l.lapses a = some x) : 1 ≤ a ∧ a ≤ 30 := by
  unfold LineCtl.lapses at listed
  split at listed
  · cases listed
  next positive =>
    by_contra outside
    rw [Vector.getElem?_eq_none (by omega)] at listed
    cases listed

/-- The roster changes, the own address apart. -/
theorem State.setRoster_hears (s : State) {a : Nat} (x : Option (Fin 3))
    (own : (s.line.setRoster a x).onRoster s.own = s.line.onRoster s.own
      ∨ (s.line.state = .onLine ∧ (s.line.setRoster a x).onRoster s.own = true)) : s.Hears { s with line := s.line.setRoster a x } := by
  refine State.hears_line (s.line.setRoster a x) ?_ (.inl (LineCtl.setRoster_state ..)) ?_ ?_ ?_
    own ?_
  · unfold LineCtl.setRoster
    split <;> rfl
  · rw [LineCtl.setRoster_position]
    exact .inl
  · unfold LineCtl.Placed
    rw [LineCtl.setRoster_position]
    exact id
  · unfold State.JoinHeld
    rw [LineCtl.setRoster_joinHold, LineCtl.setRoster_state]
    exact id
  · rw [LineCtl.setRoster_record]
    exact fun _ => id

theorem countLapse_hears {a : Nat} (other : a ≠ s.own) : s.Hears (countLapse a s) := by
  unfold countLapse
  split
  · exact .refl s
  next x listed =>
    obtain ⟨low, high⟩ := LineCtl.lapses_range listed
    have own (x : Option (Fin 3)) : (s.line.setRoster a x).onRoster s.own = s.line.onRoster s.own
        ∨ (s.line.state = .onLine ∧ (s.line.setRoster a x).onRoster s.own = true) :=
      .inl (LineCtl.onRoster_setRoster_other s.line x other.symm)
    split
    · dsimp only
      split
      next n _ =>
        refine (s.setRoster_hears none (own _)).trans ?_
        exact State.hears_beside (s := { s with line := s.line.setRoster a none })
          (View.drop_beside (by unfold State.own; rw [LineCtl.setRoster_straps]; exact other) low high)
      · exact s.setRoster_hears none (own _)
    · exact s.setRoster_hears _ (own _)

/-! ## Frames of other stations (R135, R136, R153) -/

/-- The engines of standing requests take a count (R77). -/
theorem fillRequests_hears (n : Word16) (s : State) :
    s.Hears { s with engA := fillRequest n s.engA, engB := fillRequest n s.engB } :=
  { State.Hears.refl s with
    lasts := ⟨rfl, rfl, rfl, .refl _⟩
    firing := fun c => by cases c <;> exact id
    backed := fun backed c firing => by cases c; exacts [backed .a firing, backed .b firing] }

theorem takeRound_hears (sender : Nat) (round : Word16) (s : State) :
    s.Hears (takeRound sender round s) ∧ (takeRound sender round s).line.count ≠ none := by
  have adopted (x : State) : (adoptCount round x).line.count ≠ none := by
    unfold adoptCount
    rw [(expireClaims_of_count (s := { x with line := { x.line with count := some round } }) rfl).2.1]
    nofun
  unfold takeRound
  split
  · dsimp only
    have taken : s.Hears (adoptCount round s) := counted_hears round s
    refine ⟨(taken.trans (fillRequests_hears round _)).trans ?_, adopted s⟩
    refine State.hears_line _ rfl (.inl rfl) .inl id (fun _ => ⟨Nat.zero_le _, fun _ => Nat.succ_pos _⟩) (.inl rfl)
      fun _ => id
  next n count =>
    split
    · exact ⟨.refl s, by rw [count]; nofun⟩
    · dsimp only
      split
      · exact ⟨s.setMiss_hears.trans (counted_hears round s.setMiss), adopted s.setMiss⟩
      · exact ⟨s.setMiss_hears, by show s.line.count ≠ none; rw [count]; nofun⟩

/-- A header is applied: of another station, or of the own one ON LINE (R153). -/
theorem applyHeader_hears {f : Frame} (sound : f.WellFormed) (onLine : f.sender.toNat = s.own → s.line.state = .onLine) :
    s.Hears (applyHeader f s) ∧ (applyHeader f s).line.count ≠ none := by
  obtain ⟨low, high⟩ := sound.sender
  unfold applyHeader
  dsimp only
  have missed : s.Hears (if s.line.onRoster f.sender.toNat = true then s else s.setMiss) := by
    split
    · exact .refl s
    · exact s.setMiss_hears
  have same : (if s.line.onRoster f.sender.toNat = true then s else s.setMiss).line = s.line := by split <;> rfl
  generalize (if s.line.onRoster f.sender.toNat = true then s else s.setMiss) = x at missed same ⊢
  have rostered : x.Hears { x with line := x.line.setRoster f.sender.toNat (some 0) } := by
    refine x.setRoster_hears _ ?_
    rw [missed.lasts.own, same]
    by_cases own : f.sender.toNat = s.own
    · refine .inr ⟨onLine own, ?_⟩
      rw [← own, LineCtl.onRoster, LineCtl.lapses_setRoster _ _ _ low high]
      rfl
    · exact .inl (LineCtl.onRoster_setRoster_other _ _ (Ne.symm own))
  obtain ⟨round, count⟩ := takeRound_hears f.sender.toNat f.round { x with line := x.line.setRoster f.sender.toNat (some 0) }
  have taken := (missed.trans rostered).trans round
  generalize takeRound f.sender.toNat f.round { x with line := x.line.setRoster f.sender.toNat (some 0) } = y at taken count ⊢
  refine ⟨taken.trans ?_, count⟩
  let marked : View := y.view.setRow f.sender.toNat { y.view.row f.sender.toNat with digestMark := f.digest != s.lc.digest }
  have mark : y.view.Beside y.own y.lc.holdCeiling marked := by
    refine View.beside_setRow f.sender.toNat (fun _ c => by cases c <;> rfl) fun law => ⟨fun c => ?_, fun c => ?_⟩
    · have slot := (law.rows f.sender.toNat).slot c
      cases c <;> exact slot
    · have retained := (law.rows f.sender.toNat).retained c
      cases c <;> exact retained
  have points : marked.Beside y.own y.lc.holdCeiling (if marked.adoptPending = true ∧ f.sender.toNat ≠ s.own then
      { marked with pointer := f.pointer.toNat, adoptPending := false } else marked) := by
    split
    · exact View.beside_of_rows rfl rfl rfl rfl rfl fun _ => sound.pointer
    · exact .refl _
  refine (State.hears_beside (mark.trans points)).trans ?_
  exact State.hears_line _ rfl (.inl rfl) .inl id id (.inl rfl) fun _ => id

theorem applyItems_hears (sender : Nat) (exitFlag : Bool) (low : 1 ≤ sender) (high : sender ≤ 30) (items : List Item) (s : State) :
    s.Hears (applyItems sender exitFlag items s) := by
  have grows := (applyItems_deeds (L := True) sender exitFlag low high items s).lasts
  rw [applyItems_frame] at grows ⊢
  exact { State.Hears.refl s with
    lasts := grows
    firing := fun c => by cases c <;> exact id
    backed := fun backed c firing => by cases c; exacts [backed .a firing, backed .b firing] }

/-- A valid frame of another station is applied. -/
theorem applyFrame_hears {f : Frame} (sound : f.WellFormed) (other : f.sender.toNat ≠ s.own) :
    s.Hears (applyFrame f s) ∧ (applyFrame f s).line.count ≠ none := by
  obtain ⟨header, count⟩ := applyHeader_hears (s := s) sound fun own => absurd own other
  obtain ⟨low, high⟩ := sound.sender
  unfold applyFrame
  have claims : (applyHeader f s).Hears (applyClaimList f (applyHeader f s)) := by
    unfold applyClaimList
    split
    · exact State.hears_beside (View.applyClaims_beside (by rw [header.lasts.own]; exact other) high _ _)
    · exact .refl _
  have items := applyItems_hears f.sender.toNat f.exit low high f.items (applyClaimList f (applyHeader f s))
  exact ⟨(header.trans claims).trans items, (claims.trans items).count count⟩

theorem realign_hears (u : Nat) (s : State) : s.Hears (realign u s) := by
  unfold realign
  split
  · split
    · exact (s.unclean_hears.trans (boundary_hears _)).trans (State.unclean_hears _)
    · exact s.unclean_hears
  · exact s.unclean_hears

theorem hearFrame_hears {f : Frame} (sound : f.WellFormed) (other : f.sender.toNat ≠ s.own) (began : Option Position) :
    s.Hears (hearFrame f began s) := by
  have applied {x : State} (heard : s.Hears x) : s.Hears (moveOn f.sender.toNat .frameEnd (applyFrame f x)) := by
    obtain ⟨frame, count⟩ := applyFrame_hears (s := x) sound (by rw [heard.lasts.own]; exact other)
    exact (heard.trans frame).trans (moveOn_hears .frameEnd count fun _ => sound.sender.2)
  unfold hearFrame
  dsimp only
  split
  · exact applied (.refl s)
  · split
    · exact applied (.refl s)
    · exact applied ((realign_hears f.sender.toNat s).trans (State.setMiss_hears _))

/-! ## Garbled carriers (R135) -/

theorem moveOnFrom_hears (p : Position) (counted : s.line.position ≠ none → s.line.count ≠ none) :
    s.Hears (moveOnFrom p s) := by
  unfold moveOnFrom
  split
  next held => exact moveOn_hears .frameEnd (counted (by rw [held]; nofun)) fun placed => (placed p held).2
  · refine State.hears_line { s.line with position := s.line.position.map fun q => { q with ref := .frameEnd } } rfl (.inl rfl)
      (fun held => .inl fun empty => held ?_) (fun placed q same => ?_) id (.inl rfl) fun _ => id
    · show s.line.position.map _ = none
      rw [empty]
      rfl
    · obtain ⟨r, held, rfl⟩ := Option.map_eq_some_iff.1 same
      exact placed r held

theorem hearGarbled_hears (began : Option Position) (counted : s.line.position ≠ none → s.line.count ≠ none) :
    s.Hears (hearGarbled began s) := by
  unfold hearGarbled
  split
  · exact s.setMiss_hears
  · split
    · exact (s.setMiss_hears.trans (State.unclean_hears _)).trans (moveOnFrom_hears _ counted)
    · exact s.setMiss_hears.trans (moveOnFrom_hears _ counted)

end Sys2Proof.Machine
end

