-- ==== Sys2Proof/Proofs/LineSteps.lean ====
section
/-!
SUPPORT. What a command of the line controller does in a running state: one of eight steps, and after it perhaps the entry to
OFF LINE. Each law of the line and the feeder is shown of the steps.
-/

namespace Sys2Proof.Machine

variable {s t u v : State} {i : Instr} {n : Word16}

/-! ## The running states (R128, R140, R150; log 25) -/

/-- The start-up law's clauses for a running state, the offers apart. -/
structure State.Calm (s : State) : Prop where
  running : s.isRunning = true
  own : 1 ≤ s.own ∧ s.own ≤ 30
  listening : s.line.state = .listening → s.line.de = false ∧ s.line.inFlight = none
  uncounted : s.line.count = none → s.line.position = none ∧ s.line.inFlight = none
  counted : s.line.state = .joining ∨ s.line.state = .onLine → s.line.count ≠ none
  flight : s.line.inFlight ≠ none → s.line.untaken = .absent
  fresh : s.line.state = .listening ∨ s.line.state = .joining → s.view.fresh = true ∧ s.line.record.openedOnLine = false

/-- The start-up law's clauses for a running state. -/
structure State.Talks (s : State) : Prop extends s.Calm where
  offers : s.view.offerA ≠ none ∨ s.view.offerB ≠ none → s.line.inFlight ≠ none

theorem LineState.running_of (l : LineState) (running : l.running = true) : l = .listening ∨ l = .joining ∨ l = .onLine := by
  cases l <;> simp [LineState.running] at running ⊢

theorem State.StartUp.ended (h : s.StartUp) (running : s.isRunning = true) : s.store.phase = .ended := by
  by_contra loads
  rw [State.isRunning, h.loading.2 loads] at running
  cases running

theorem State.StartUp.talks (h : s.StartUp) (running : s.isRunning = true) : s.Talks where
  running := running
  own := h.own (by rw [h.ended running]; nofun) fun off => by rw [State.isRunning, off] at running; cases running
  listening := h.listening
  uncounted := h.uncounted
  counted := h.counted
  flight := h.flight
  offers := h.offers
  fresh := h.fresh

theorem State.Calm.counted_of_position (h : s.Calm) (held : s.line.position ≠ none) : s.line.count ≠ none :=
  fun none => held (h.uncounted none).1

theorem State.Calm.counted_of_flight (h : s.Calm) (sends : s.line.inFlight ≠ none) : s.line.count ≠ none :=
  fun none => sends (h.uncounted none).2

theorem State.Talks.no_offer (h : s.Talks) (quiet : s.line.inFlight = none) (c : Chan) : s.view.offer c = none := by
  by_contra offered
  exact h.offers (by cases c; exacts [.inl offered, .inr offered]) quiet

/-! ## Carriers and the transmitter -/

/-- Only the carriers, LINE_DE, the founding silence timer and the jabber count change, and soundly. -/
structure State.Wired (s t : State) : Prop where
  same : t = { s with line := { s.line with
    carrier := t.line.carrier, untaken := t.line.untaken, foundingTimer := t.line.foundingTimer, de := t.line.de
    jabber := t.line.jabber } }
  busy : (s.line.carrier ≠ none → s.line.untaken = .absent) → t.line.carrier ≠ none → t.line.untaken = .absent
  silence : (s.line.foundingTimer ≠ .stopped → s.line.carrier = none) → t.line.foundingTimer ≠ .stopped → t.line.carrier = none
  de : t.line.de = true → s.line.de = true
  flight : s.line.inFlight ≠ none → t.line.untaken = s.line.untaken
  jabber : t.line.jabber ≤ s.line.jabber + 1

theorem State.Wired.refl (s : State) : s.Wired s := ⟨rfl, id, id, id, fun _ => rfl, Nat.le_succ _⟩

/-- The carrier that was taken is gone, and the line is busy with another or not. -/
theorem State.wired_gone (x : Untaken) (quiet : s.line.inFlight = none) :
    s.Wired { s with line := { s.line with carrier := none, untaken := x } } :=
  ⟨rfl, fun _ some => absurd rfl some, fun _ _ => rfl, id, fun sends => absurd quiet sends, Nat.le_succ _⟩

theorem restartFounding_wired (none : s.line.carrier = none) : s.Wired (restartFounding s) := by
  unfold restartFounding
  split
  · exact ⟨rfl, id, fun _ _ => none, id, fun _ => rfl, Nat.le_succ _⟩
  · exact .refl s

/-! ## The steps -/

/-- A part that founds the line: ON LINE at round 0, its own address on its roster (R148). -/
def State.founded (s : State) : State :=
  { s with
    engA := fillRequest 0 s.engA
    engB := fillRequest 0 s.engB
    line := { (s.line.setRoster s.own (some 0)) with state := .onLine, count := some 0, foundingTimer := .stopped } }

theorem State.founded_own (s : State) : s.founded.own = s.own :=
  congrArg BitVec.toNat (LineCtl.setRoster_straps ..)

/-- One step of the line controller, `s` before. -/
inductive LineStep (i : Instr) (s : State) : State → Prop
  | wired {t : State} (wired : s.Wired t) : LineStep i s t
  | expired : LineStep i s (expireClaims s)
  | heard {u v t : State} (quiet : s.line.inFlight = none) (first : s.Wired u) (hears : u.Hears v) (last : v.Wired t)
      (jabber : t.line.jabber = s.line.jabber) : LineStep i s t
  | failed {u : State} (k jabber : Nat) (ref : RefPoint) (sends : s.line.inFlight ≠ none)
      (same : u = { s with line := { s.line with carrier := u.line.carrier, untaken := u.line.untaken, de := u.line.de } })
      (carrier : u.line.carrier = none ∨ (u.line.carrier = s.line.carrier ∧ u.line.untaken = s.line.untaken))
      (limit : jabber ≤ s.line.jabber + 1) : LineStep i s (ownTurnFailed k jabber ref u)
  | good {own : InFlight} {f : Frame} (sends : s.line.inFlight = some own) (sound : f.WellFormed) (read : Frame.parse own.bytes = some f) :
      LineStep i s (ownTurnGood f own.carried { s with line := { s.line with carrier := none } })
  | turn {n : Word16} (count : s.line.count = some n) (idle : s.line.rxIdle = true) (quiet : s.line.inFlight = none)
      (command : (i = .ownTurnStart ∧ s.line.state = .onLine) ∨ s.line.state = .joining) : LineStep i s (ownTurnStart n s)
  | founds (command : i = .founding) (listening : s.line.state = .listening) (uncounted : s.line.count = none)
      (idle : s.line.rxIdle = true) :
      LineStep i s (ownTurnStart 0 s.founded)

/-- What a command leaves: the state after one step, or OFF LINE after a step that leaves no frame in flight. -/
def LineStep.Ends (i : Instr) (s t : State) : Prop :=
  ∃ y, LineStep i s y ∧
    ((t = y ∧ (y.line.jabber ≤ 2 ∨ y.line.jabber ≤ s.line.jabber)) ∨ (t = enterOffLine y ∧ y.line.inFlight = none))

theorem LineStep.ends (h : LineStep i s t) (jabber : t.line.jabber ≤ 2 ∨ t.line.jabber ≤ s.line.jabber) : Ends i s t :=
  ⟨t, h, .inl ⟨rfl, jabber⟩⟩

theorem LineStep.Ends.still : Ends i s s := LineStep.ends (.wired (.refl s)) (.inr le_rfl)

/-- Hearing, between what happens to the carriers. -/
theorem LineStep.ends_heard (quiet : s.line.inFlight = none) (first : s.Wired u) (hears : u.Hears v) (last : v.Wired t)
    (before : u.line.jabber = s.line.jabber) (after : t.line.jabber = v.line.jabber) : Ends i s t :=
  have jabber : t.line.jabber = s.line.jabber := by rw [after, hears.jabber, before]
  LineStep.ends (.heard quiet first hears last jabber) (.inr jabber.le)

theorem LineStep.ends_hears (quiet : s.line.inFlight = none) (hears : s.Hears t) : Ends i s t :=
  ends_heard quiet (.refl s) hears (.refl t) rfl rfl

theorem restartFounding_jabber (s : State) : (restartFounding s).line.jabber = s.line.jabber := by
  unfold restartFounding
  split <;> rfl

/-! ## The commands -/

/-- A carrier that is not the echo ends, the carrier itself being gone (R135, R151). -/
theorem endHeard_ends {valid : Option Frame} (sound : ∀ f, valid = some f → f.WellFormed) (k : Carrier) (x : Untaken) (talks : s.Talks)
    (quiet : s.line.inFlight = none) :
    LineStep.Ends i s (endHeard valid k { s with line := { s.line with carrier := none, untaken := x } }) := by
  have gone := State.wired_gone (s := s) x quiet
  have jabber : ({ s with line := { s.line with carrier := none, untaken := x } } : State).line.jabber = s.line.jabber := rfl
  have counted : ({ s with line := { s.line with carrier := none, untaken := x } } : State).line.position ≠ none →
      ({ s with line := { s.line with carrier := none, untaken := x } } : State).line.count ≠ none := talks.counted_of_position
  have empty : ({ s with line := { s.line with carrier := none, untaken := x } } : State).line.carrier = none := rfl
  generalize ({ s with line := { s.line with carrier := none, untaken := x } } : State) = u at gone jabber counted empty ⊢
  have garbled : LineStep.Ends i s (restartFounding (hearGarbled k.began u)) := by
    have hears := hearGarbled_hears k.began counted
    exact LineStep.ends_heard quiet gone hears (restartFounding_wired (hears.carrier.trans empty)) jabber (restartFounding_jabber _)
  unfold endHeard
  split
  next f =>
    split
    · split
      · exact garbled
      · exact ⟨u, .wired gone, .inr ⟨rfl, by rw [gone.same]; exact quiet⟩⟩
    next other => exact LineStep.ends_heard quiet gone (hearFrame_hears (sound f rfl) other k.began) (.refl _) jabber rfl
  · exact garbled

/-- A carrier not taken ends (R129, R140; log 25). -/
theorem endUntaken_ends (talks : s.Talks) (quiet : s.line.inFlight = none) (none : s.line.carrier = none) :
    LineStep.Ends i s (endUntaken s) := by
  have idle : s.Wired { s with line := { s.line with untaken := .absent } } := by
    have gone := State.wired_gone (s := s) .absent quiet
    rw [← none] at gone
    exact gone
  unfold endUntaken
  dsimp only
  split
  · exact .still
  · exact LineStep.ends_heard quiet idle (.refl _) (restartFounding_wired none) rfl (restartFounding_jabber _)
  · exact LineStep.ends_heard quiet idle
      (hearGarbled_hears (s := { s with line := { s.line with untaken := .absent } }) s.line.position talks.counted_of_position)
      (.refl _) rfl rfl

/-! ## The own turn's beginning -/

theorem ownTurnStart_jabber (n : Word16) (s : State) : (ownTurnStart n s).line.jabber = s.line.jabber := by
  obtain ⟨v, w, begun, -⟩ := ownTurnStart_judged n s
  rw [begun]

theorem countLapse_position (a : Nat) (s : State) : (countLapse a s).line.position = s.line.position := by
  unfold countLapse
  split
  · rfl
  · split
    · dsimp only
      split <;> exact LineCtl.setRoster_position ..
    · exact LineCtl.setRoster_position ..

/-! ## The own turn's end -/

/-- Own turn end with a failed echo: what it does before the rotation moves on, and the move (R141). -/
theorem ownTurnFailed_moveOn (k jabber : Nat) (ref : RefPoint) (s : State) :
    ownTurnFailed k jabber ref s = moveOn s.own ref (s.echoFailed k jabber) := by
  have revert (x : Slot) (o : Option Offer) : revertSlot x o = x.unoffered o := by
    unfold revertSlot Slot.unoffered
    rfl
  unfold ownTurnFailed
  simp only [feederFailedEcho, revert, markRepeats_eq]
  rfl

/-- What a failed echo moves on with: a count, and no frame in flight. -/
theorem ownTurnFailed_hears (talks : s.Calm) (sends : s.line.inFlight ≠ none) (k jabber : Nat) (ref : RefPoint)
    (same : u = { s with line := { s.line with carrier := u.line.carrier, untaken := u.line.untaken, de := u.line.de } }) :
    (u.echoFailed k jabber).Hears (ownTurnFailed k jabber ref u) := by
  rw [ownTurnFailed_moveOn]
  refine moveOn_hears ref ?_ fun _ => ?_
  · show u.line.count ≠ none
    rw [same]
    exact talks.counted_of_flight sends
  · rw [same]
    exact talks.own.2

theorem LineStep.ends_failed (talks : s.Calm) (sends : s.line.inFlight ≠ none) (k jabber : Nat) (ref : RefPoint)
    (same : u = { s with line := { s.line with carrier := u.line.carrier, untaken := u.line.untaken, de := u.line.de } })
    (carrier : u.line.carrier = none ∨ (u.line.carrier = s.line.carrier ∧ u.line.untaken = s.line.untaken))
    (limit : jabber ≤ s.line.jabber) : Ends i s (ownTurnFailed k jabber ref u) :=
  LineStep.ends (.failed k jabber ref sends same carrier (by omega))
    (.inr ((ownTurnFailed_hears talks sends k jabber ref same).jabber.trans_le limit))

/-- A part in a running state with a frame in flight is ON LINE after its echo (R143, R150). -/
theorem State.Calm.joins (calm : s.Calm) (sends : s.line.inFlight ≠ none) : s.line.state = .joining ∨ s.line.state = .onLine :=
  (LineState.running_of _ calm.running).resolve_left fun listening => sends (calm.listening listening).2

theorem State.afterEcho_onLine (calm : s.Calm) (sends : s.line.inFlight ≠ none) : s.afterEcho.line.state = .onLine := by
  unfold State.afterEcho
  split
  · rfl
  next on => exact (calm.joins sends).resolve_left on

/-- Own turn end with a good echo, in stages: the own header heard, the feeder table, the items and the move (R141). -/
theorem ownTurnGood_hears {f : Frame} (calm : s.Calm) (sends : s.line.inFlight ≠ none) (sound : f.WellFormed) (k : Nat) :
    s.afterEcho.Hears (applyHeader f s.afterEcho)
      ∧ (feederGoodEcho (applyHeader f s.afterEcho)).Hears (ownTurnGood f k s) := by
  obtain ⟨header, count⟩ := applyHeader_hears (s := s.afterEcho) sound fun _ => State.afterEcho_onLine calm sends
  refine ⟨header, ?_⟩
  have own : (feederGoodEcho (applyHeader f s.afterEcho)).own = s.own := by
    rw [feederGoodEcho_eq]
    exact header.lasts.own.trans (congrArg BitVec.toNat State.afterEcho_kept.2.1)
  have held : (feederGoodEcho (applyHeader f s.afterEcho)).line.count ≠ none := by
    rw [feederGoodEcho_eq]
    exact count
  unfold ownTurnGood applyOwnFrame
  dsimp only
  rw [enterOnLine_ended]
  generalize feederGoodEcho (applyHeader f s.afterEcho) = x at own held ⊢
  have items := applyItems_hears f.sender.toNat f.exit sound.sender.1 sound.sender.2 f.items x
  generalize applyItems f.sender.toNat f.exit f.items x = y at items ⊢
  have carried : y.Hears { y with line := { y.line with
      outbox := y.line.outbox.drop k, record := { y.line.record with goodEcho := true } } } :=
    State.hears_line _ rfl (.inl rfl) .inl id id (.inl rfl) fun _ => id
  refine (items.trans carried).trans (moveOn_hears .frameEnd ((items.trans carried).count held) fun _ => ?_)
  rw [(items.trans carried).lasts.own, own]
  exact calm.own.2

theorem ownTurnGood_jabber {f : Frame} (calm : s.Calm) (sends : s.line.inFlight ≠ none) (sound : f.WellFormed) (k : Nat) :
    (ownTurnGood f k s).line.jabber = 0 := by
  obtain ⟨header, rest⟩ := ownTurnGood_hears calm sends sound k
  rw [rest.jabber, feederGoodEcho_eq]
  exact header.jabber

/-! ## Every command of the line -/

theorem execCarrierStart_ends : AllNext (LineStep.Ends i s) (execCarrierStart s) := by
  unfold execCarrierStart
  split
  next taken =>
    have absent := ((LineCtl.rxIdle_iff _).1 taken.2).2
    refine (allNext_next _ _).2 (LineStep.ends (.wired ⟨rfl, fun _ _ => absent, fun _ run => absurd rfl run, id, fun _ => rfl,
      Nat.le_succ _⟩) (.inr le_rfl))
  · exact (allNext_next _ _).2 .still

theorem execTransmissionEnd_ends : AllNext (LineStep.Ends i s) (execTransmissionEnd s) :=
  (allNext_next _ _).2 (LineStep.ends (.wired ⟨rfl, id, id, nofun, fun _ => rfl, Nat.le_succ _⟩) (.inr le_rfl))

theorem execCarrierTimeout_ends (talks : s.Talks) : AllNext (LineStep.Ends i s) (execCarrierTimeout s) := by
  unfold execCarrierTimeout
  split
  · exact (allNext_next _ _).2 .still
  next k held =>
    dsimp only
    split
    next quiet => exact (allNext_next _ _).2 (endHeard_ends (valid := none) (fun f valid => nomatch valid) k .present talks quiet)
    next own sends =>
      split
      · refine (allNext_next _ _).2 (LineStep.ends_failed talks.toCalm (by rw [sends]; nofun) _ _ _ rfl (.inl rfl) ?_)
        split
        · exact le_rfl
        · exact Nat.zero_le _
      · exact (allNext_next _ _).2 .still

theorem execCarrierEnd_ends (talks : s.Talks) (bytes : List Byte) (e : Bool) :
    AllNext (LineStep.Ends i s) (execCarrierEnd bytes e s) := by
  unfold execCarrierEnd
  split
  next none =>
    refine (allNext_next _ _).2 ?_
    by_cases quiet : s.line.inFlight = Option.none
    · exact endUntaken_ends talks quiet none
    · have still : endUntaken s = s := by
        unfold endUntaken
        rw [talks.flight quiet]
      rw [still]
      exact .still
  next k held =>
    dsimp only
    split
    next quiet => exact (allNext_next _ _).2 (endHeard_ends valid_wellFormed k s.line.untaken talks quiet)
    next own sends =>
      have flies : s.line.inFlight ≠ none := by rw [sends]; nofun
      have fails : LineStep.Ends i s (ownTurnFailed own.carried 0 .frameEnd { s with line := { s.line with carrier := none } }) :=
        LineStep.ends_failed talks.toCalm flies _ _ _ rfl (.inl rfl) (Nat.zero_le _)
      split
      · split
        next f valid =>
          split
          next echo =>
            refine (allNext_next _ _).2 (LineStep.ends (.good (own := own) sends (valid_wellFormed f valid) ?_) (.inl ?_))
            · rw [← echo]
              split at valid
              · cases valid
              · exact valid
            · have calm : State.Calm { s with line := { s.line with carrier := none } } := ⟨talks.running, talks.own,
                talks.listening, talks.uncounted, talks.counted, talks.flight, talks.fresh⟩
              exact (ownTurnGood_jabber calm flies (valid_wellFormed f valid) own.carried).trans_le (Nat.zero_le 2)
          · exact (allNext_next _ _).2 fails
        · exact (allNext_next _ _).2 fails
      · exact (allNext_next _ _).2 .still

theorem execNoEchoTimeout_ends (talks : s.Talks) : AllNext (LineStep.Ends i s) (execNoEchoTimeout s) := by
  unfold execNoEchoTimeout
  split
  · exact (allNext_next _ _).2 .still
  next own sends =>
    split
    · exact (allNext_next _ _).2
        (LineStep.ends_failed talks.toCalm (by rw [sends]; nofun) _ _ _ rfl (.inr ⟨rfl, rfl⟩) (Nat.zero_le _))
    · exact (allNext_next _ _).2 .still

/-- The third jabber cut takes the part OFF LINE (R142). -/
theorem LineStep.ends_atLimit (step : LineStep i s u) (quiet : u.line.inFlight = none) : Ends i s (offLineAtLimit u) := by
  unfold offLineAtLimit Config.jabberLimit
  split
  · exact ⟨u, step, .inr ⟨rfl, quiet⟩⟩
  next below => exact ⟨u, step, .inl ⟨rfl, .inl (Nat.le_of_lt_succ (not_le.1 below))⟩⟩

theorem execJabberCut_ends (talks : s.Talks) : AllNext (LineStep.Ends i s) (execJabberCut s) := by
  unfold execJabberCut
  split
  · exact (allNext_next _ _).2 .still
  · dsimp only
    split
    next own sends =>
      have flies : s.line.inFlight ≠ none := by rw [sends]; nofun
      refine (allNext_next _ _).2 (LineStep.ends_atLimit (.failed _ _ _ flies rfl (.inl rfl) le_rfl) ?_)
      exact (ownTurnFailed_hears talks.toCalm flies _ _ _ rfl).inFlight
    next quiet =>
      exact (allNext_next _ _).2 (LineStep.ends_atLimit (.wired ⟨rfl, id, id, nofun, fun _ => rfl, le_rfl⟩) quiet)

theorem forgoTurn_ends (quiet : s.line.inFlight = none) : LineStep.Ends i s (forgoTurn s) := by
  refine LineStep.ends_heard quiet (.refl s) s.unclean_hears
    ⟨rfl, fun law held => ?_, id, id, fun sends => absurd quiet sends, ?_⟩ rfl rfl
  · show (if s.unclean.line.untaken = .present then Untaken.forgone else s.unclean.line.untaken) = .absent
    rw [law held]
    rfl
  · exact Nat.le_succ _

theorem execOwnTurnStart_ends : AllNext (LineStep.Ends .ownTurnStart s) (execOwnTurnStart s) := by
  unfold execOwnTurnStart
  split
  · exact (allNext_next _ _).2 .still
  next n count =>
    split
    next turn =>
      split
      · exact (allNext_next _ _).2 (forgoTurn_ends turn.2.2)
      next idle =>
        split
        · exact (allNext_next _ _).2 .still
        · exact (allNext_next _ _).2
            (LineStep.ends (.turn count (Bool.eq_true_of_not_eq_false idle) turn.2.2 (.inl ⟨rfl, turn.1⟩))
              (.inr (ownTurnStart_jabber n s).le))
    · exact (allNext_next _ _).2 .still

theorem execJoinFrameStart_ends : AllNext (LineStep.Ends i s) (execJoinFrameStart s) := by
  unfold execJoinFrameStart
  split
  · exact (allNext_next _ _).2 .still
  next n count =>
    split
    next window =>
      obtain ⟨joining, -, quiet, -, idle⟩ := window
      exact (allNext_next _ _).2 (LineStep.ends (.turn count idle quiet (.inr joining)) (.inr (ownTurnStart_jabber n s).le))
    · exact (allNext_next _ _).2 .still

theorem execLapse_ends (talks : s.Talks) : AllNext (LineStep.Ends i s) (execLapse s) := by
  unfold execLapse
  split
  · exact (allNext_next _ _).2 .still
  next p held =>
    split
    next lapses =>
      obtain ⟨-, -, other, -, quiet⟩ := lapses
      have counted := talks.counted_of_position (by rw [held]; nofun)
      have missed := s.setMiss_hears.trans (State.unclean_hears _)
      have lapsed := missed.trans (countLapse_hears (s := s.setMiss.unclean) other)
      refine (allNext_next _ _).2 (LineStep.ends_hears quiet
        (lapsed.trans (moveOn_hears .lapsePoint (lapsed.count counted) fun placed => ?_)))
      have same : (countLapse p.address s.setMiss.unclean).line.position = s.line.position := countLapse_position _ _
      exact (placed p (same.trans held)).2
    · exact (allNext_next _ _).2 .still

theorem execVacancyWindowEnd_ends (talks : s.Talks) : AllNext (LineStep.Ends i s) (execVacancyWindowEnd s) := by
  unfold execVacancyWindowEnd
  split
  · exact (allNext_next _ _).2 .still
  next p held =>
    split
    next vacant =>
      exact (allNext_next _ _).2 (LineStep.ends_hears vacant.2.2.2
        (moveOn_hears .windowEnd (talks.counted_of_position (by rw [held]; nofun)) fun placed => (placed p held).2))
    · exact (allNext_next _ _).2 .still

theorem joinHoldEnd_ends (talks : s.Talks) : LineStep.Ends i s (joinHoldEnd s) := by
  unfold joinHoldEnd
  split
  next full =>
    obtain ⟨listening, counted, -⟩ := full
    refine LineStep.ends_hears (talks.listening listening).2 ?_
    exact State.hears_line { s.line with state := .joining } rfl (.inr ⟨listening, rfl, Option.isSome_iff_ne_none.1 counted⟩) .inl id
      (fun held => ⟨held.1, nofun⟩) (.inl rfl) fun _ => id
  · exact .still

theorem execFounding_ends : AllNext (LineStep.Ends .founding s) (execFounding s) := by
  unfold execFounding
  split
  next silent =>
    obtain ⟨listening, uncounted, -, idle⟩ := silent
    refine (allNext_next _ _).2 (LineStep.ends (.founds rfl listening uncounted idle) (.inr ?_))
    exact ((ownTurnStart_jabber 0 _).trans (LineCtl.setRoster_jabber ..)).le
  · exact (allNext_next _ _).2 .still

/-- Every command of the line controller, in a running state. -/
theorem exec_ends (talks : s.Talks) (i : Instr) (works : i.worksLine = true) : AllNext (LineStep.Ends i s) (exec i s) := by
  cases i with
  | carrierStart => exact execCarrierStart_ends
  | carrierTimeout => exact execCarrierTimeout_ends talks
  | carrierEnd bytes e => exact execCarrierEnd_ends talks bytes e
  | noEchoTimeout => exact execNoEchoTimeout_ends talks
  | jabberCut => exact execJabberCut_ends talks
  | ownTurnStart => exact execOwnTurnStart_ends
  | joinFrameStart => exact execJoinFrameStart_ends
  | lapse => exact execLapse_ends talks
  | vacancyWindowEnd => exact execVacancyWindowEnd_ends talks
  | claimExpiry =>
    refine (allNext_next _ _).2 ?_
    rw [talks.running]
    exact LineStep.ends .expired (.inr (expireClaims_hears s).jabber.le)
  | joinHoldEnd => exact (allNext_next _ _).2 (joinHoldEnd_ends talks)
  | founding => exact execFounding_ends
  | transmissionEnd => exact execTransmissionEnd_ends
  | _ => cases works

end Sys2Proof.Machine
end

