-- ==== Sys2Proof/Proofs/LineStatesStay.lean ====
section
/-!
SUPPORT. The start-up law over a step of the line controller, and the entry to OFF LINE.
-/

namespace Sys2Proof.Machine

variable {s t u v y : State} {i : Instr} {n : Word16}

/-! ## Hearing and the wire -/

theorem State.Calm.of_hears (calm : s.Calm) (h : s.Hears t) : t.Calm where
  running := by
    obtain same | ⟨-, joining, -⟩ := h.state
    · rw [State.isRunning, same]
      exact calm.running
    · rw [State.isRunning, joining]
      rfl
  own := by
    rw [h.lasts.own]
    exact calm.own
  listening state := by
    obtain same | ⟨-, joining, -⟩ := h.state
    · rw [h.de, h.inFlight]
      exact calm.listening (same ▸ state)
    · cases joining.symm.trans state
  uncounted empty := by
    have none : s.line.count = none := by
      by_contra held
      exact h.count held empty
    refine ⟨?_, by rw [h.inFlight]; exact (calm.uncounted none).2⟩
    by_contra held
    exact h.counted (fun position => absurd (calm.uncounted none).1 position) held empty
  counted state := by
    obtain same | ⟨-, -, counted⟩ := h.state
    · exact h.count (calm.counted (same ▸ state))
    · exact counted
  flight sends := by
    rw [h.untaken]
    exact calm.flight (by rw [← h.inFlight]; exact sends)
  fresh state := by
    have off : s.line.state ≠ .onLine := by
      rw [Ne, ← h.onLine_iff]
      rintro on
      rw [on] at state
      exact state.elim nofun nofun
    refine h.fresh off (calm.fresh ?_)
    obtain listening | joining | on := LineState.running_of _ calm.running
    · exact .inl listening
    · exact .inr joining
    · exact absurd on off

theorem State.Talks.of_hears (talks : s.Talks) (h : s.Hears t) : t.Talks where
  toCalm := talks.toCalm.of_hears h
  offers offered := by
    rw [h.inFlight]
    have a : t.view.offerA = s.view.offerA := h.offer .a
    have b : t.view.offerB = s.view.offerB := h.offer .b
    rw [a, b] at offered
    exact talks.offers offered

theorem State.Wired.kept (h : s.Wired t) : t.view = s.view ∧ t.line.inFlight = s.line.inFlight ∧ (∀ c, t.eng c = s.eng c)
    ∧ t.line.count = s.line.count ∧ t.line.state = s.line.state ∧ t.own = s.own ∧ t.store = s.store := by
  rw [h.same]
  exact ⟨rfl, rfl, fun c => by cases c <;> rfl, rfl, rfl, rfl, rfl⟩

theorem State.Talks.of_wired (talks : s.Talks) (h : s.Wired t) : t.Talks := by
  have de := h.de
  have flight := h.flight
  have same := h.same
  generalize t.line.carrier = k, t.line.untaken = x, t.line.foundingTimer = f, t.line.de = d, t.line.jabber = j at same de flight
  subst same
  refine ⟨⟨talks.running, talks.own, fun listening => ?_, talks.uncounted, talks.counted, fun sends => ?_, talks.fresh⟩,
    talks.offers⟩
  · have low := talks.listening listening
    refine ⟨?_, low.2⟩
    by_contra high
    have was : s.line.de = true := de (Bool.eq_true_of_not_eq_false high)
    rw [low.1] at was
    cases was
  · exact (flight sends).trans (talks.flight sends)

/-! ## The own turn -/

/-- A failed echo leaves no frame in flight and no offer. -/
theorem State.Talks.failed (talks : s.Talks) (sends : s.line.inFlight ≠ none) (k jabber : Nat) (ref : RefPoint)
    (same : u = { s with line := { s.line with carrier := u.line.carrier, untaken := u.line.untaken, de := u.line.de } }) :
    (ownTurnFailed k jabber ref u).Talks := by
  have hears := ownTurnFailed_hears talks.toCalm sends k jabber ref same
  refine State.Talks.of_hears ?_ hears
  rw [same]
  have quiet : s.line.state ≠ .listening := fun listening => sends (talks.listening listening).2
  exact {
    running := talks.running
    own := talks.own
    listening := fun listening => absurd listening quiet
    uncounted := fun none => ⟨(talks.uncounted none).1, rfl⟩
    counted := talks.counted
    flight := fun sends => absurd rfl sends
    fresh := fun state => ⟨(View.setRow_fresh ..).trans (talks.fresh state).1, (talks.fresh state).2⟩
    offers := fun offered => (offered.elim (absurd rfl) (absurd rfl) : False).elim }

/-- A good echo leaves no frame in flight and no offer, ON LINE. -/
theorem State.Calm.good {f : Frame} (calm : s.Calm) (sends : s.line.inFlight ≠ none) (sound : f.WellFormed) (k : Nat) :
    (ownTurnGood f k s).Talks := by
  obtain ⟨header, rest⟩ := ownTurnGood_hears calm sends sound k
  have onLine := State.afterEcho_onLine calm sends
  have entered : s.afterEcho.Calm := {
    running := by rw [State.isRunning, onLine]; rfl
    own := by
      rw [State.own, State.afterEcho_kept.2.1]
      exact calm.own
    listening := fun listening => nomatch onLine.symm.trans listening
    uncounted := fun none => absurd (State.afterEcho_kept.1.symm.trans none) (calm.counted_of_flight sends)
    counted := fun _ => by
      rw [State.afterEcho_kept.1]
      exact calm.counted_of_flight sends
    flight := fun sends => absurd rfl sends
    fresh := fun off => by
      rw [onLine] at off
      exact off.elim nofun nofun }
  have heard := entered.of_hears header
  have quiet : (applyHeader f s.afterEcho).line.inFlight = none := header.inFlight
  refine State.Talks.of_hears ?_ rest
  rw [feederGoodEcho_eq]
  exact {
    running := heard.running
    own := heard.own
    listening := heard.listening
    uncounted := heard.uncounted
    counted := heard.counted
    flight := heard.flight
    fresh := heard.fresh
    offers := fun offered => (offered.elim (absurd rfl) (absurd rfl) : False).elim }

/-- An own frame goes out on an idle line. -/
theorem State.Calm.sends (calm : s.Calm) (n : Word16) (state : s.line.state = .joining ∨ s.line.state = .onLine)
    (idle : s.line.rxIdle = true) : (ownTurnStart n s).Talks := by
  obtain ⟨v, w, begun, sight, -⟩ := ownTurnStart_judged n s
  rw [begun]
  exact {
    running := calm.running
    own := calm.own
    listening := fun listening => by
      have listening : s.line.state = .listening := listening
      rw [listening] at state
      exact state.elim nofun nofun
    uncounted := fun none => absurd none (calm.counted state)
    counted := calm.counted
    flight := fun _ => ((LineCtl.rxIdle_iff _).1 idle).2
    fresh := fun off => by
      rw [sight.fresh]
      exact calm.fresh off
    offers := fun _ => nofun }

theorem LineStep.talks (h : LineStep i s y) (talks : s.Talks) : y.Talks := by
  cases h with
  | wired wired => exact talks.of_wired wired
  | expired => exact talks.of_hears (expireClaims_hears s)
  | heard quiet first hears last jabber => exact ((talks.of_wired first).of_hears hears).of_wired last
  | failed k jabber ref sends same carrier limit => exact talks.failed sends k jabber ref same
  | @good own f sends sound read =>
    have calm : State.Calm { s with line := { s.line with carrier := none } } := ⟨talks.running, talks.own,
      talks.listening, talks.uncounted, talks.counted, talks.flight, talks.fresh⟩
    have flies : s.line.inFlight ≠ none := by rw [sends]; nofun
    exact calm.good flies sound own.carried
  | turn count idle quiet command => exact talks.toCalm.sends _ (command.elim (fun on => .inr on.2) .inl) idle
  | founds command listening uncounted idle =>
    refine State.Calm.sends ?_ 0 (.inr rfl) ?_
    · exact {
        running := rfl
        own := by
          rw [State.founded_own]
          exact talks.own
        listening := nofun
        uncounted := nofun
        counted := fun _ => nofun
        flight := fun sends => absurd ((LineCtl.setRoster_inFlight ..).trans (talks.listening listening).2) sends
        fresh := fun off => off.elim nofun nofun }
    · rw [LineCtl.rxIdle_iff] at idle ⊢
      exact ⟨(LineCtl.setRoster_carrier ..).trans idle.1, (LineCtl.setRoster_untaken ..).trans idle.2⟩

end Sys2Proof.Machine
end

