-- ==== Sys2Proof/Proofs/OwnTurnSlots.lean ====
section
/-!
SUPPORT. What own turn start makes of the own slots: each is set, and stays as set or is admitted within the budget (R117
to R122).
-/

namespace Sys2Proof.Machine

variable {s t : State} {c d : Chan} {v w : View} {n : Word16}

/-! ## The header of an own frame (R130, R184) -/

/-- Whatever is read from a frame's bytes shows its sender and its round. -/
theorem Frame.parse_header {f g : Frame} (read : Frame.parse f.encode = some g) : g.sender = f.sender ∧ g.round = f.round := by
  have shape : f.encode = 0xA6 :: (f.checked ++ bytes16 (crc16 f.checked)) := rfl
  unfold Frame.parse at read
  split at read
  case h_2 => exact nomatch read
  next rest bytes =>
  obtain rfl : rest = f.checked ++ bytes16 (crc16 f.checked) := (List.cons.inj (bytes.symm.trans shape)).2
  dsimp only at read
  split at read
  · split at read
    · cases read
      exact ⟨rfl, be16_bytes f.round⟩
    · exact nomatch read
  · exact nomatch read

/-! ## The committed load of a changed row (R98) -/

theorem View.committed_setRow (v : View) {a : Nat} (low : 1 ≤ a) (high : a ≤ 30) (x : AddrRow) (n : Word16) :
    (v.setRow a x).committed n + ((v.row a).slotA.counted n + (v.row a).slotB.counted n) =
      v.committed n + (x.slotA.counted n + x.slotB.counted n) := by
  have row : v.row a = v.rows[a - 1] := by
    unfold View.row
    rw [if_neg (by omega), Vector.getElem?_eq_getElem (by omega)]
    rfl
  have rows : (v.setRow a x).rows.toList = v.rows.toList.set (a - 1) x := by
    unfold View.setRow
    rw [if_neg (by omega)]
    exact Vector.toList_setIfInBounds ..
  have inside : a - 1 < (v.rows.toList.map fun w => w.slotA.counted n + w.slotB.counted n).length := by
    rw [List.length_map, Vector.length_toList]
    omega
  unfold View.committed
  rw [View.setRow_orphans, rows, List.map_set, List.sum_set, if_pos inside]
  have split := List.sum_take_add_sum_drop (v.rows.toList.map fun w => w.slotA.counted n + w.slotB.counted n) (a - 1)
  rw [List.drop_eq_getElem_cons inside, List.sum_cons, List.getElem_map, Vector.getElem_toList, ← row] at split
  omega

/-- An admission raises the committed load by its own load at most (R121). -/
theorem View.committed_admit {a l h : Nat} {r : Word16} (low : 1 ≤ a) (high : a ≤ 30) (waits : (v.row a).slot c = .waiting l r)
    (o : Option Offer) :
    ((v.setRow a ((v.row a).setSlot c (.active l n h))).setOffer c o).committed n ≤ v.committed n + l := by
  have same : ((v.setRow a ((v.row a).setSlot c (.active l n h))).setOffer c o).committed n =
      (v.setRow a ((v.row a).setSlot c (.active l n h))).committed n := by cases c <;> rfl
  have sum := View.committed_setRow v low high ((v.row a).setSlot c (.active l n h)) n
  have own : (Slot.active l n h).counted n ≤ l := by
    show (if _ then l else 0) ≤ l
    split
    · exact le_rfl
    · exact Nat.zero_le l
  rw [same]
  cases c with
  | a =>
    have none : (v.row a).slotA.counted n = 0 := congrArg (Slot.counted n) waits
    have after : ((v.row a).setSlot .a (.active l n h)).slotA.counted n + ((v.row a).setSlot .a (.active l n h)).slotB.counted n =
      (Slot.active l n h).counted n + (v.row a).slotB.counted n := rfl
    omega
  | b =>
    have none : (v.row a).slotB.counted n = 0 := congrArg (Slot.counted n) waits
    have after : ((v.row a).setSlot .b (.active l n h)).slotA.counted n + ((v.row a).setSlot .b (.active l n h)).slotB.counted n =
      (v.row a).slotA.counted n + (Slot.active l n h).counted n := rfl
    omega

/-! ## One slot judged (R118, R121) -/

theorem View.row_setOffer (v : View) (c : Chan) (o : Option Offer) (a : Nat) : (v.setOffer c o).row a = v.row a := by cases c <;> rfl

theorem View.offer_setOffer (v : View) (c : Chan) (o : Option Offer) : (v.setOffer c o).offer c = o := by cases c <;> rfl

theorem View.offer_setOffer_other (v : View) (o : Option Offer) (other : d ≠ c) : (v.setOffer c o).offer d = v.offer d := by
  cases c <;> cases d
  · exact absurd rfl other
  · rfl
  · rfl
  · exact absurd rfl other

theorem View.offer_setRow (v : View) (a : Nat) (x : AddrRow) : (v.setRow a x).offer c = v.offer c := by
  cases c
  · exact View.setRow_offerA ..
  · exact View.setRow_offerB ..

/-- The channel's waiting slot is admitted in the view `v`, which becomes `w`. -/
def State.Admits (s : State) (n : Word16) (c : Chan) (v w : View) : Prop :=
  ∃ l r q, (v.row s.own).slot c = .waiting l r ∧ (s.eng c).request = some q ∧ v.committed n + l ≤ s.lc.budget
    ∧ w = (v.setRow s.own ((v.row s.own).setSlot c (.active l n q.hold))).setOffer c (some { number := q.number, round := r })

theorem slotJudged_cases (judged : slotJudged s n c v w) : w = v ∨ s.Admits n c v w := by
  unfold slotJudged at judged
  split at judged
  next l r q waits request =>
    dsimp only at judged
    by_cases refused : s.blind = true ∨ s.lc.budget < v.committed n + l
        ∨ policyRefuses s.lc v n { address := s.own, channel := c, round := r } = true
    · exact .inl (judged.1 refused)
    · exact .inr ⟨l, r, q, waits, request, not_lt.1 fun exceeds => refused (.inr (.inl exceeds)), judged.2 refused⟩
  · exact .inl judged

theorem State.Admits.within (h : s.Admits n c v w) (own : 1 ≤ s.own ∧ s.own ≤ 30) : w.committed n ≤ s.lc.budget := by
  obtain ⟨l, r, q, waits, -, fits, rfl⟩ := h
  exact (View.committed_admit own.1 own.2 waits _).trans fits

/-- The channel's slot `x` of the own row, set with offer `o`, was admitted by judging. -/
def State.AdmittedFrom (s : State) (n : Word16) (c : Chan) (x : Slot) (w : View) : Prop :=
  ∃ l r q, x = .waiting l r ∧ (s.eng c).request = some q ∧ (w.row s.own).slot c = .active l n q.hold
    ∧ w.offer c = some { number := q.number, round := r }

/-- Judging leaves a channel's slot and offer as they were, or admits it. -/
def State.Judges (s : State) (n : Word16) (c : Chan) (v w : View) : Prop :=
  ((w.row s.own).slot c = (v.row s.own).slot c ∧ w.offer c = v.offer c) ∨ s.AdmittedFrom n c ((v.row s.own).slot c) w

theorem State.Admits.slots (h : s.Admits n c v w) (own : 1 ≤ s.own ∧ s.own ≤ 30) :
    s.AdmittedFrom n c ((v.row s.own).slot c) w
      ∧ ∀ d, d ≠ c → (w.row s.own).slot d = (v.row s.own).slot d ∧ w.offer d = v.offer d := by
  obtain ⟨l, r, q, waits, request, -, rfl⟩ := h
  refine ⟨⟨l, r, q, waits, request, ?_, View.offer_setOffer ..⟩, fun d other => ⟨?_, ?_⟩⟩
  · rw [View.row_setOffer, View.row_setRow _ _ _ own.1 own.2, AddrRow.slot_setSlot]
  · rw [View.row_setOffer, View.row_setRow _ _ _ own.1 own.2]
    cases c <;> cases d
    · exact absurd rfl other
    · rfl
    · rfl
    · exact absurd rfl other
  · rw [View.offer_setOffer_other _ _ other, View.offer_setRow]

/-- Both slots judged, each channel once. -/
theorem slotJudged_both (own : 1 ≤ s.own ∧ s.own ≤ 30) (other : d ≠ c) {x : View} (first : slotJudged s n c v w)
    (second : slotJudged s n d w x) : (x = v ∨ x.committed n ≤ s.lc.budget) ∧ s.Judges n c v x ∧ s.Judges n d v x := by
  have within : x = v ∨ x.committed n ≤ s.lc.budget := by
    obtain rfl | admits := slotJudged_cases second
    · exact (slotJudged_cases first).imp_right (·.within own)
    · exact .inr (admits.within own)
  have after : ((x.row s.own).slot c = (w.row s.own).slot c ∧ x.offer c = w.offer c) ∧ s.Judges n d w x := by
    obtain rfl | admits := slotJudged_cases second
    · exact ⟨⟨rfl, rfl⟩, .inl ⟨rfl, rfl⟩⟩
    · exact ⟨(admits.slots own).2 c other.symm, .inr (admits.slots own).1⟩
  have before : ((w.row s.own).slot d = (v.row s.own).slot d ∧ w.offer d = v.offer d) ∧ s.Judges n c v w := by
    obtain rfl | admits := slotJudged_cases first
    · exact ⟨⟨rfl, rfl⟩, .inl ⟨rfl, rfl⟩⟩
    · exact ⟨(admits.slots own).2 d other, .inr (admits.slots own).1⟩
  obtain ⟨⟨slotC, offerC⟩, judgesD⟩ := after
  obtain ⟨⟨slotD, offerD⟩, judgesC⟩ := before
  refine ⟨within, ?_, ?_⟩
  · unfold State.Judges State.AdmittedFrom at judgesC ⊢
    rwa [slotC, offerC]
  · unfold State.Judges at judgesD ⊢
    rwa [← slotD, ← offerD]

/-! ## Ranges -/

theorem View.InRange.setOffer {own ceiling : Nat} (h : v.InRange own ceiling) (c : Chan) (o : Option Offer) :
    (v.setOffer c o).InRange own ceiling := by
  cases c
  · exact h.of_same rfl rfl h.pointer
  · exact h.of_same rfl rfl h.pointer

/-- An own row with slots in range and no retained mark. -/
theorem View.InRange.own_unmarked {own ceiling : Nat} (h : v.InRange own ceiling) (c : Chan) : (v.row own).retained c = false := by
  by_contra marked
  exact ((h.rows own).retained c (Bool.eq_true_of_not_eq_false marked)).1 rfl

theorem slotJudged_inRange (judged : slotJudged s n c v w) (requests : ∀ q, (s.eng c).request = some q → s.lc.admits q.load q.hold)
    (law : v.InRange s.own s.lc.holdCeiling) : w.InRange s.own s.lc.holdCeiling := by
  obtain rfl | ⟨l, r, q, waits, request, -, rfl⟩ := slotJudged_cases judged
  · exact law
  · obtain ⟨-, -, -, low, high⟩ := requests q request
    have slot : (Slot.waiting l r).inRange s.lc.holdCeiling := waits ▸ (law.rows s.own).slot c
    have row := ((law.rows s.own).setSlot c (x := .active l n q.hold) ⟨slot.1, slot.2, low, high⟩ (law.own_unmarked c))
    exact (law.setRow s.own row).setOffer c _

theorem ownSlot_inRange {e : Engine} {x : Slot} {k : LineConsts} (requests : ∀ q, e.request = some q → k.admits q.load q.hold)
    (old : x.inRange k.holdCeiling) : (ownSlot n e x).inRange k.holdCeiling := by
  unfold ownSlot
  split
  · split
    next q request => exact ⟨(requests q request).1, (requests q request).2.1⟩
    · trivial
  · exact old
  all_goals trivial

theorem State.slotsSet_inRange (requests : ∀ c q, (s.eng c).request = some q → s.lc.admits q.load q.hold)
    (law : s.view.InRange s.own s.lc.holdCeiling) :
    (s.slotsSet (ownSlot n s.engA ((s.view.row s.own).slot .a)) (ownSlot n s.engB ((s.view.row s.own).slot .b))).InRange s.own
      s.lc.holdCeiling := by
  refine law.setRow s.own ⟨fun c => ?_, fun c marked => ?_⟩
  · cases c
    · exact ownSlot_inRange (requests .a) ((law.rows s.own).slot .a)
    · exact ownSlot_inRange (requests .b) ((law.rows s.own).slot .b)
  · have unmarked := law.own_unmarked c
    cases c <;> exact absurd (marked.symm.trans unmarked) nofun

/-! ## The turn -/

/-- The channel's own slot as own turn start sets it. -/
def State.slotToSet (s : State) (n : Word16) (c : Chan) : Slot := ownSlot n (s.eng c) ((s.view.row s.own).slot c)

/-- Own turn start: each own slot set, then left or admitted within the budget; a BLIND station admits none. -/
theorem ownTurnStart_slots (n : Word16) (own : 1 ≤ s.own ∧ s.own ≤ 30) :
    ∃ w, ownTurnStart n s = { s with
        view := w
        line := { s.line with
          de := true
          inFlight := some ⟨(buildFrame { s with view := w }).encode, (buildFrame { s with view := w }).items.length⟩ } }
      ∧ (∀ c, ((w.row s.own).slot c = s.slotToSet n c ∧ w.offer c = s.view.offer c) ∨ s.AdmittedFrom n c (s.slotToSet n c) w)
      ∧ (∀ c, s.AdmittedFrom n c (s.slotToSet n c) w → s.blind = false ∧ w.committed n ≤ s.lc.budget)
      ∧ ((∀ c q, (s.eng c).request = some q → s.lc.admits q.load q.hold) → s.view.InRange s.own s.lc.holdCeiling →
          w.InRange s.own s.lc.holdCeiling) := by
  obtain ⟨v, w, begun, -, order⟩ := ownTurnStart_judged n s
  dsimp only at order
  have set (c : Chan) : ((s.slotsSet (ownSlot n s.engA ((s.view.row s.own).slot .a)) (ownSlot n s.engB ((s.view.row s.own).slot .b))).row
      s.own).slot c = s.slotToSet n c := by
    rw [State.slotsSet, View.row_setRow _ _ _ own.1 own.2]
    cases c <;> rfl
  have offers (c : Chan) : (s.slotsSet (ownSlot n s.engA ((s.view.row s.own).slot .a))
      (ownSlot n s.engB ((s.view.row s.own).slot .b))).offer c = s.view.offer c := View.offer_setRow ..
  have sound := State.slotsSet_inRange (s := s) (n := n)
  generalize s.slotsSet (ownSlot n s.engA ((s.view.row s.own).slot .a)) (ownSlot n s.engB ((s.view.row s.own).slot .b)) = z
    at order set offers sound
  obtain ⟨blind, second, first⟩ := order
  have judged : (w = z ∨ w.committed n ≤ s.lc.budget) ∧ (∀ c, s.Judges n c z w)
      ∧ ((∀ c q, (s.eng c).request = some q → s.lc.admits q.load q.hold) → z.InRange s.own s.lc.holdCeiling →
          w.InRange s.own s.lc.holdCeiling) := by
    by_cases bFirst : ∃ l r m q, ownSlot n s.engA ((s.view.row s.own).slot .a) = .waiting l r
        ∧ ownSlot n s.engB ((s.view.row s.own).slot .b) = .waiting m q ∧ roundAge n r < roundAge n q
    · obtain ⟨judgedB, judgedA⟩ := second bFirst
      obtain ⟨within, b, a⟩ := slotJudged_both (c := .b) (d := .a) own nofun judgedB judgedA
      exact ⟨within, fun c => by cases c; exacts [a, b], fun requests law =>
        slotJudged_inRange judgedA (requests .a) (slotJudged_inRange judgedB (requests .b) law)⟩
    · obtain ⟨judgedA, judgedB⟩ := first bFirst
      obtain ⟨within, a, b⟩ := slotJudged_both (c := .a) (d := .b) own nofun judgedA judgedB
      exact ⟨within, fun c => by cases c; exacts [a, b], fun requests law =>
        slotJudged_inRange judgedB (requests .b) (slotJudged_inRange judgedA (requests .a) law)⟩
  obtain ⟨within, judges, ranges⟩ := judged
  refine ⟨w, begun, fun c => ?_, fun c admitted => ?_, fun requests law => ranges requests (sound requests law)⟩
  · have judges := judges c
    unfold State.Judges at judges
    rwa [set, offers] at judges
  · obtain ⟨l, r, q, waits, -, active, -⟩ := admitted
    have moved : w ≠ z := by
      rintro rfl
      cases (set c).symm.trans active |>.symm.trans waits
    refine ⟨?_, within.resolve_left moved⟩
    by_contra isBlind
    exact moved (blind (Bool.eq_true_of_not_eq_false isBlind))

end Sys2Proof.Machine
end

