-- ==== Sys2Proof/Proofs/LineLaws.lean ====
section
/-!
SUPPORT. The laws of the feeder and the line controller over a step of the line controller.
-/

namespace Sys2Proof.Machine

variable {s t u v y : State} {i : Instr} {c : Chan} {n : Word16}

/-- Standing requests are within R14's checks (R77). -/
def State.RequestsAdmitted (s : State) : Prop := ∀ c q, (s.eng c).request = some q → s.lc.admits q.load q.hold

theorem fillRequest_admitted {e : Engine} {k : LineConsts} (law : ∀ q, e.request = some q → k.admits q.load q.hold) (q : Request)
    (request : (fillRequest n e).request = some q) : k.admits q.load q.hold := by
  obtain ⟨r, held, rfl⟩ := Option.map_eq_some_iff.1 request
  exact law r held

/-- A part with the line unheard of its frame is calm still. -/
theorem State.Calm.gone (calm : s.Calm) : State.Calm { s with line := { s.line with carrier := none } } :=
  ⟨calm.running, calm.own, calm.listening, calm.uncounted, calm.counted, calm.flight, calm.fresh⟩

/-- The own row written as an own slot of the channels. -/
theorem View.slot_setRow_own {v : View} {a : Nat} (own : 1 ≤ a ∧ a ≤ 30) (x : AddrRow) :
    ((v.setRow a x).row a).slot c = x.slot c := by
  rw [View.row_setRow _ _ _ own.1 own.2]

/-! ## Firing and offers (R67, R114) -/

/-- With no frame in flight only the engines count. -/
theorem State.Backed.firingBacked (backed : t.Backed) (talks : t.Talks) (quiet : t.line.inFlight = none) : t.FiringBacked where
  firing := backed
  offer c offered := absurd (talks.no_offer quiet c) offered
  flight _ _ sends := nomatch quiet.symm.trans sends

/-- An own slot that is ACTIVE from round `n` on and held at least one round is live. -/
theorem State.ownSlotLive_of_active {l h : Nat} (count : s.line.count = some n) (slot : (s.view.row s.own).slot c = .active l n h)
    (holds : 1 ≤ h) : s.ownSlotLive c = true := by
  unfold State.ownSlotLive
  rw [count, slot]
  show liveAt n n h = true
  unfold liveAt roundAge
  simp
  omega

theorem State.slotToSet_of_firing (firing : (s.eng c).state = .firing) : s.slotToSet n c = (s.view.row s.own).slot c := by
  unfold State.slotToSet ownSlot
  rw [firing]

theorem State.firing_of_slotToSet {l h : Nat} {r : Word16} (set : s.slotToSet n c = .active l r h) : (s.eng c).state = .firing := by
  cases state : (s.eng c).state with
  | firing => rfl
  | requesting =>
    unfold State.slotToSet ownSlot at set
    rw [state] at set
    dsimp only at set
    split at set <;> cases set
  | _ =>
    unfold State.slotToSet ownSlot at set
    rw [state] at set
    cases set

/-- A live own slot is ACTIVE. -/
theorem State.ownSlotLive_active (live : s.ownSlotLive c = true) : ∃ l r h, (s.view.row s.own).slot c = .active l r h := by
  obtain ⟨m, -, live⟩ := (Option.any_eq_true _ _).1 live
  cases slot : (s.view.row s.own).slot c with
  | active l r h => exact ⟨l, r, h, rfl⟩
  | empty => rw [slot] at live; cases live
  | waiting l r => rw [slot] at live; cases live

/-- What is admitted was requested, and the channel is not firing. -/
theorem State.AdmittedFrom.requesting {w : View} (h : s.AdmittedFrom n c (s.slotToSet n c) w) (backed : s.Backed) :
    (s.eng c).state = .requesting := by
  obtain ⟨l, r, q, waits, -⟩ := h
  cases state : (s.eng c).state with
  | requesting => rfl
  | firing =>
    obtain ⟨l, r, h, active⟩ := State.ownSlotLive_active (backed c state)
    rw [State.slotToSet_of_firing state, active] at waits
    cases waits
  | _ =>
    unfold State.slotToSet ownSlot at waits
    rw [state] at waits
    cases waits

theorem ownTurnStart_firingBacked (own : 1 ≤ s.own ∧ s.own ≤ 30) (count : s.line.count = some n) (backed : s.Backed)
    (offers : ∀ c, s.view.offer c = none) (requests : s.RequestsAdmitted) : (ownTurnStart n s).FiringBacked := by
  obtain ⟨w, begun, slots, -⟩ := ownTurnStart_slots (s := s) n own
  rw [begun]
  refine ⟨fun c firing => ?_, fun c offered => ?_, fun k f sends read => ?_⟩
  · have firing : (s.eng c).state = .firing := by cases c <;> exact firing
    have live := backed c firing
    obtain ⟨same, -⟩ | admitted := slots c
    · rw [State.slotToSet_of_firing firing] at same
      unfold State.ownSlotLive at live ⊢
      exact (congrArg (fun x : Slot => s.line.count.any fun n => x.live n) same).trans live
    · exact nomatch firing.symm.trans (admitted.requesting backed)
  · obtain ⟨-, same⟩ | admitted := slots c
    · have offered : w.offer c ≠ none := offered
      rw [same] at offered
      exact absurd (offers c) offered
    · have requesting := admitted.requesting backed
      obtain ⟨l, r, q, -, request, active, -⟩ := admitted
      refine ⟨State.ownSlotLive_of_active count active (requests c q request).2.2.2.1, fun firing => ?_⟩
      have firing : (s.eng c).state = .firing := by cases c <;> exact firing
      cases requesting.symm.trans firing
  · obtain rfl := Option.some.inj sends
    obtain ⟨sender, round⟩ := Frame.parse_header read
    rw [sender, round]
    refine ⟨?_, ?_⟩
    · show (BitVec.ofNat 8 s.own).toNat = s.own
      rw [BitVec.toNat_ofNat, Nat.mod_eq_of_lt (by omega)]
    · show s.line.count = some (s.line.count.getD 0)
      rw [count]
      rfl

/-- A failed echo takes back only what was offered, and no offered channel is firing (R124). -/
theorem State.echoFailed_backed (own : 1 ≤ s.own ∧ s.own ≤ 30) (backed : s.FiringBacked) (k jabber : Nat) :
    (s.echoFailed k jabber).Backed := by
  intro c firing
  have firing : (s.eng c).state = .firing := by cases c <;> exact firing
  have alone : s.view.offer c = none := by
    by_contra offered
    exact (backed.offer c offered).2 firing
  have same : (((s.echoFailed k jabber).view.row s.own).slot c) = (s.view.row s.own).slot c := by
    refine (View.slot_setRow_own own _).trans ?_
    cases c
    · show Slot.unoffered _ (s.view.offer .a) = _
      rw [alone]
      unfold Slot.unoffered
      split <;> trivial
    · show Slot.unoffered _ (s.view.offer .b) = _
      rw [alone]
      unfold Slot.unoffered
      split <;> trivial
  have live := backed.firing c firing
  unfold State.ownSlotLive at live ⊢
  exact (congrArg (fun x : Slot => s.line.count.any fun n => x.live n) same).trans live

/-- The header of a frame that bears the round count leaves the engines, the count and the slots. -/
theorem applyHeader_ownSlotLive {f : Frame} (count : s.line.count = some f.round) (c : Chan) :
    (applyHeader f s).ownSlotLive c = s.ownSlotLive c ∧ (applyHeader f s).eng c = s.eng c
      ∧ (applyHeader f s).view.offer c = s.view.offer c := by
  unfold applyHeader
  dsimp only
  have missed : (if s.line.onRoster f.sender.toNat = true then s else s.setMiss).line = s.line
      ∧ (∀ a, (if s.line.onRoster f.sender.toNat = true then s else s.setMiss).view.row a = s.view.row a)
      ∧ (if s.line.onRoster f.sender.toNat = true then s else s.setMiss).eng c = s.eng c
      ∧ (if s.line.onRoster f.sender.toNat = true then s else s.setMiss).view.offer c = s.view.offer c := by
    split
    · exact ⟨rfl, fun _ => rfl, rfl, rfl⟩
    · exact ⟨rfl, fun _ => rfl, by cases c <;> rfl, by cases c <;> rfl⟩
  generalize (if s.line.onRoster f.sender.toNat = true then s else s.setMiss) = x at missed ⊢
  obtain ⟨line, rows, engine, offer⟩ := missed
  have counted : ({ x with line := x.line.setRoster f.sender.toNat (some 0) } : State).line.count = some f.round := by
    rw [← count, ← line]
    exact LineCtl.setRoster_count ..
  have round : takeRound f.sender.toNat f.round { x with line := x.line.setRoster f.sender.toNat (some 0) } =
      { x with line := x.line.setRoster f.sender.toNat (some 0) } := by
    unfold takeRound
    rw [counted]
    exact if_pos rfl
  rw [round]
  refine ⟨?_, by cases c <;> exact engine, ?_⟩
  · have straps : (x.line.setRoster f.sender.toNat (some 0)).straps = s.line.straps := by rw [LineCtl.setRoster_straps, line]
    have slot (z : View) (same : z.rows = (x.view.setRow f.sender.toNat { x.view.row f.sender.toNat with
        digestMark := f.digest != s.lc.digest }).rows) : (z.row s.own).slot c = (s.view.row s.own).slot c := by
      rw [View.row_of_rows same, ← rows]
      by_cases inside : 1 ≤ f.sender.toNat ∧ f.sender.toNat ≤ 30
      · by_cases same : s.own = f.sender.toNat
        · rw [same, View.row_setRow _ _ _ inside.1 inside.2]
          cases c <;> rfl
        · rw [View.row_setRow_other _ _ _ _ same]
      · rw [View.setRow_out _ _ inside]
    unfold State.ownSlotLive State.own
    dsimp only
    rw [straps]
    refine Eq.trans (congrArg₂ (fun (m : Option Word16) (x : Slot) => m.any fun n => x.live n) (counted.trans count.symm) (slot _ ?_)) rfl
    split <;> rfl
  · rw [← offer]
    split <;> exact View.offer_setRow ..

/-- After a good echo a firing channel fired before, or was offered: its own slot is live in both cases (R123). -/
theorem ownTurnGood_backed {f : Frame} (calm : s.Calm) (sends : s.line.inFlight ≠ none) (sound : f.WellFormed)
    (backed : s.FiringBacked) (count : s.line.count = some f.round) (k : Nat) : (ownTurnGood f k s).Backed := by
  obtain ⟨-, rest⟩ := ownTurnGood_hears calm sends sound k
  refine rest.backed fun c firing => ?_
  obtain ⟨live, engine, offer⟩ := applyHeader_ownSlotLive (s := s.afterEcho) (State.afterEcho_kept.1.trans count) c
  have before : s.afterEcho.ownSlotLive c = s.ownSlotLive c := by
    unfold State.ownSlotLive State.own
    rw [State.afterEcho_kept.1, State.afterEcho_kept.2.1]
    rfl
  have slot : (feederGoodEcho (applyHeader f s.afterEcho)).ownSlotLive c = (applyHeader f s.afterEcho).ownSlotLive c := by
    rw [feederGoodEcho_eq]
    rfl
  have engine : (applyHeader f s.afterEcho).eng c = s.eng c := engine.trans (by cases c <;> rfl)
  rw [slot, live, before]
  by_cases offered : s.view.offer c = none
  · refine backed.firing c ?_
    rw [feederGoodEcho_eq, ← engine] at *
    have unoffered : (applyHeader f s.afterEcho).view.offer c = none := offer.trans offered
    cases c
    · have unoffered : (applyHeader f s.afterEcho).view.offerA = none := unoffered
      rw [State.eng_a, unoffered] at firing
      exact firing
    · have unoffered : (applyHeader f s.afterEcho).view.offerB = none := unoffered
      rw [State.eng_b, unoffered] at firing
      exact firing
  · exact (backed.offer c offered).1

theorem State.FiringBacked.of_wired (backed : s.FiringBacked) (h : s.Wired t) : t.FiringBacked := by
  obtain ⟨view, inFlight, engines, count, -, own, -⟩ := h.kept
  have live (c : Chan) : t.ownSlotLive c = s.ownSlotLive c := by
    unfold State.ownSlotLive
    rw [view, count, own]
  refine ⟨fun c firing => ?_, fun c offered => ?_, fun k f sends read => ?_⟩
  · rw [live]
    exact backed.firing c (engines c ▸ firing)
  · rw [live, engines]
    exact backed.offer c (view ▸ offered)
  · rw [own, count]
    exact backed.flight k f (inFlight ▸ sends) read

/-- What the count has reached expires: no live own slot is among it. -/
theorem expireClaims_firingBacked (backed : s.FiringBacked) : (expireClaims s).FiringBacked := by
  cases count : s.line.count with
  | none =>
    have still : expireClaims s = s := by
      unfold expireClaims
      rw [count]
    rw [still]
    exact backed
  | some n =>
    have hears := expireClaims_hears s
    obtain ⟨view, line, lasts, -⟩ := expireClaims_of_count count
    refine ⟨hears.backed backed.firing, fun c offered => ?_, fun k f sends read => ?_⟩
    · rw [hears.offer] at offered
      obtain ⟨live, calm⟩ := backed.offer c offered
      refine ⟨?_, fun firing => calm (hears.firing c firing)⟩
      have stands : ((s.view.row s.own).slot c).expired n = false := by
        unfold State.ownSlotLive at live
        rw [count] at live
        cases slot : (s.view.row s.own).slot c with
        | active l r h => rw [slot] at live; simpa [Slot.live, Slot.expired] using live
        | empty => rfl
        | waiting l r => rfl
      unfold State.ownSlotLive at live ⊢
      rw [line, lasts.own, view, View.expire_row, AddrRow.expire_slot, stands]
      exact live
    · rw [line] at sends ⊢
      rw [lasts.own]
      exact backed.flight k f sends read

/-- R67's law over a step of the line controller. -/
theorem LineStep.firingBacked (h : LineStep i s y) (talks : s.Talks) (requests : s.RequestsAdmitted) (backed : s.FiringBacked) :
    y.FiringBacked := by
  have after := h.talks talks
  cases h with
  | wired wired => exact backed.of_wired wired
  | expired => exact expireClaims_firingBacked backed
  | heard quiet first hears last jabber =>
    have silent : _ = none := hears.inFlight.trans (first.kept.2.1.trans quiet)
    have heard := State.Backed.firingBacked (hears.backed (backed.of_wired first).firing)
      ((talks.of_wired first).of_hears hears) silent
    exact heard.of_wired last
  | @failed u k jabber ref sends same carrier limit =>
    have hears := ownTurnFailed_hears talks.toCalm sends k jabber ref same
    have waits : u.FiringBacked := by
      rw [same]
      exact ⟨fun c firing => backed.firing c (by cases c <;> exact firing), fun c offered =>
        ⟨(backed.offer c offered).1, by cases c; exacts [(backed.offer .a offered).2, (backed.offer .b offered).2]⟩, backed.flight⟩
    have own : 1 ≤ u.own ∧ u.own ≤ 30 := by
      rw [same]
      exact talks.own
    exact (hears.backed (State.echoFailed_backed own waits k jabber)).firingBacked after hears.inFlight
  | @good own f sends sound read =>
    have flies : s.line.inFlight ≠ none := by rw [sends]; nofun
    have gone : State.FiringBacked { s with line := { s.line with carrier := none } } :=
      ⟨fun c firing => backed.firing c (by cases c <;> exact firing), fun c offered =>
        ⟨(backed.offer c offered).1, by cases c; exacts [(backed.offer .a offered).2, (backed.offer .b offered).2]⟩, backed.flight⟩
    have result := ownTurnGood_backed talks.toCalm.gone flies sound gone (backed.flight own f sends read).2 own.carried
    refine result.firingBacked after ?_
    obtain ⟨header, rest⟩ := ownTurnGood_hears talks.toCalm.gone flies sound own.carried
    rw [rest.inFlight, feederGoodEcho_eq]
    exact header.inFlight
  | turn count idle quiet command => exact ownTurnStart_firingBacked talks.own count backed.firing (talks.no_offer quiet) requests
  | founds command listening uncounted idle =>
    have quiet := (talks.listening listening).2
    refine ownTurnStart_firingBacked ?_ rfl (fun c firing => ?_) (fun c => (?_ : s.view.offer c = none)) (fun c q request => ?_)
    · rw [State.founded_own]
      exact talks.own
    · have live := backed.firing c (by cases c <;> exact firing)
      unfold State.ownSlotLive at live
      rw [uncounted] at live
      cases live
    · exact talks.no_offer quiet c
    · cases c
      · exact fillRequest_admitted (requests .a) q request
      · exact fillRequest_admitted (requests .b) q request

/-! ## The view's ranges (Tables 25 to 27) -/

theorem State.ViewInRange.of_hears (law : s.ViewInRange) (h : s.Hears t) : t.ViewInRange := by
  rw [State.viewInRange_iff] at law ⊢
  rw [h.lasts.own, h.lasts.lc]
  exact h.view law

theorem State.ViewInRange.of_wired (law : s.ViewInRange) (h : s.Wired t) : t.ViewInRange := by
  obtain ⟨view, -, -, -, -, own, store⟩ := h.kept
  rw [State.viewInRange_iff] at law ⊢
  rw [view, own, State.lc, store]
  exact law

theorem Slot.unoffered_inRange {x : Slot} {ceiling : Nat} (law : x.inRange ceiling) (o : Option Offer) :
    (x.unoffered o).inRange ceiling := by
  unfold Slot.unoffered
  split
  · exact ⟨law.1, law.2.1⟩
  · exact law

theorem State.ViewInRange.echoFailed (law : s.ViewInRange) (k jabber : Nat) : (s.echoFailed k jabber).ViewInRange := by
  rw [State.viewInRange_iff] at law ⊢
  refine View.InRange.of_same (v := s.view.setRow s.own _) (law.setRow s.own ⟨fun c => ?_, fun c marked => ?_⟩) rfl rfl ?_
  · cases c
    · exact Slot.unoffered_inRange ((law.rows s.own).slot .a) _
    · exact Slot.unoffered_inRange ((law.rows s.own).slot .b) _
  · have unmarked := law.own_unmarked c
    cases c <;> exact absurd (marked.symm.trans unmarked) nofun
  · exact (View.setRow_pointer ..).trans_le law.pointer

theorem ownTurnStart_viewInRange (own : 1 ≤ s.own ∧ s.own ≤ 30) (requests : s.RequestsAdmitted) (law : s.ViewInRange) :
    (ownTurnStart n s).ViewInRange := by
  obtain ⟨w, begun, -, -, ranges⟩ := ownTurnStart_slots (s := s) n own
  rw [begun]
  rw [State.viewInRange_iff] at law ⊢
  exact ranges requests law

/-- The view's ranges over a step of the line controller. -/
theorem LineStep.viewInRange (h : LineStep i s y) (talks : s.Talks) (requests : s.RequestsAdmitted) (law : s.ViewInRange) :
    y.ViewInRange := by
  cases h with
  | wired wired => exact law.of_wired wired
  | expired => exact law.of_hears (expireClaims_hears s)
  | heard quiet first hears last jabber => exact ((law.of_wired first).of_hears hears).of_wired last
  | failed k jabber ref sends same carrier limit =>
    refine State.ViewInRange.of_hears (State.ViewInRange.echoFailed ?_ k jabber)
      (ownTurnFailed_hears talks.toCalm sends k jabber ref same)
    rw [State.viewInRange_iff] at law ⊢
    rw [same]
    exact law
  | @good own f sends sound read =>
    obtain ⟨header, rest⟩ := ownTurnGood_hears talks.toCalm.gone (by rw [sends]; nofun) sound own.carried
    refine State.ViewInRange.of_hears ?_ rest
    have entered : (State.afterEcho { s with line := { s.line with carrier := none } }).ViewInRange := by
      rw [State.viewInRange_iff] at law ⊢
      rw [State.own, State.afterEcho_kept.2.1]
      exact law
    have heard := entered.of_hears header
    rw [State.viewInRange_iff] at heard ⊢
    rw [feederGoodEcho_eq]
    refine heard.of_same rfl rfl ?_
    show (if _ then _ else _) ≤ 30
    split
    · rw [header.lasts.own, State.own, State.afterEcho_kept.2.1]
      exact talks.own.2
    · exact heard.pointer
  | turn count idle quiet command => exact ownTurnStart_viewInRange talks.own requests law
  | founds command listening uncounted idle =>
    refine ownTurnStart_viewInRange ?_ (fun c q request => ?_) ?_
    · rw [State.founded_own]
      exact talks.own
    · cases c
      · exact fillRequest_admitted (requests .a) q request
      · exact fillRequest_admitted (requests .b) q request
    · rw [State.viewInRange_iff] at law ⊢
      rw [State.founded_own]
      exact law

/-! ## The line controller's ranges (Table 31) -/

/-- The law of the line controller's ranges, the jabber count apart. -/
structure State.LineSound (s : State) : Prop where
  placed : s.line.Placed
  joinHeld : s.JoinHeld
  roster : s.line.onRoster s.own = true ↔ s.line.state = .onLine
  untaken : s.line.carrier ≠ none → s.line.untaken = .absent
  silence : s.line.foundingTimer ≠ .stopped → s.line.carrier = none

theorem State.LineInRange.sound (h : s.LineInRange) : s.LineSound :=
  ⟨h.position, h.joinHold, h.roster, h.untaken, h.silence⟩

theorem State.LineSound.of_hears (law : s.LineSound) (h : s.Hears t) : t.LineSound where
  placed := h.placed law.placed
  joinHeld := h.joinHeld law.joinHeld
  roster := by
    rw [h.lasts.own, h.onLine_iff]
    obtain same | ⟨onLine, listed⟩ := h.roster
    · rw [same]
      exact law.roster
    · exact ⟨fun _ => onLine, fun _ => listed⟩
  untaken := by
    rw [h.carrier, h.untaken]
    exact law.untaken
  silence := by
    rw [h.carrier, h.silence]
    exact law.silence

theorem State.LineSound.of_wired (law : s.LineSound) (h : s.Wired t) : t.LineSound := by
  have untaken := h.busy law.untaken
  have silence := h.silence law.silence
  have same := h.same
  generalize t.line.carrier = k, t.line.untaken = x, t.line.foundingTimer = f, t.line.de = d, t.line.jabber = j at same untaken silence
  subst same
  exact ⟨law.placed, law.joinHeld, law.roster, untaken, silence⟩

theorem ownTurnStart_lineSound (own : 1 ≤ s.own ∧ s.own ≤ 30) (law : s.LineSound) : (ownTurnStart n s).LineSound := by
  obtain ⟨w, begun, -⟩ := ownTurnStart_slots (s := s) n own
  rw [begun]
  exact ⟨law.placed, law.joinHeld, law.roster, law.untaken, law.silence⟩

/-- The part after its echo: ON LINE, and on its own roster. -/
theorem State.LineSound.afterEcho (law : s.LineSound) (calm : s.Calm) (sends : s.line.inFlight ≠ none) : s.afterEcho.LineSound := by
  have onLine := State.afterEcho_onLine calm sends
  have kept : s.afterEcho.line.position = s.line.position ∧ s.afterEcho.line.joinHold = s.line.joinHold
      ∧ s.afterEcho.line.carrier = s.line.carrier ∧ s.afterEcho.line.untaken = s.line.untaken
      ∧ s.afterEcho.line.foundingTimer = s.line.foundingTimer := by
    unfold State.afterEcho
    split <;> simp
  obtain ⟨position, joinHold, carrier, untaken, silence⟩ := kept
  refine ⟨?_, ⟨?_, fun listening => nomatch onLine.symm.trans listening⟩, ⟨fun _ => onLine, fun _ => ?_⟩, ?_, ?_⟩
  · unfold LineCtl.Placed
    rw [position]
    exact law.placed
  · rw [joinHold]
    exact law.joinHeld.1
  · have same : s.afterEcho.own = s.own := congrArg BitVec.toNat State.afterEcho_kept.2.1
    rw [same]
    unfold State.afterEcho
    split
    · show LineCtl.onRoster (s.line.setRoster s.own (some 0)) s.own = true
      rw [LineCtl.onRoster, LineCtl.lapses_setRoster _ _ _ calm.own.1 calm.own.2]
      rfl
    next on => exact law.roster.2 ((calm.joins sends).resolve_left on)
  · rw [carrier, untaken]
    exact law.untaken
  · rw [carrier, silence]
    exact law.silence

/-- The line controller's ranges over one of its steps. -/
theorem LineStep.lineSound (h : LineStep i s y) (talks : s.Talks) (law : s.LineSound) : y.LineSound := by
  cases h with
  | wired wired => exact law.of_wired wired
  | expired => exact law.of_hears (expireClaims_hears s)
  | heard quiet first hears last jabber => exact ((law.of_wired first).of_hears hears).of_wired last
  | @failed u k jabber ref sends same carrier limit =>
    refine State.LineSound.of_hears ?_ (ownTurnFailed_hears talks.toCalm sends k jabber ref same)
    generalize u.line.carrier = h, u.line.untaken = x, u.line.de = d at same carrier
    subst same
    refine ⟨law.placed, law.joinHeld, law.roster, fun held => ?_, fun run => ?_⟩
    · obtain none | ⟨rfl, rfl⟩ := carrier
      · exact absurd none held
      · exact law.untaken held
    · obtain none | ⟨rfl, rfl⟩ := carrier
      · exact none
      · exact law.silence run
  | @good own f sends sound read =>
    have flies : s.line.inFlight ≠ none := by rw [sends]; nofun
    obtain ⟨header, rest⟩ := ownTurnGood_hears talks.toCalm.gone flies sound own.carried
    have gone : State.LineSound { s with line := { s.line with carrier := none } } :=
      ⟨law.placed, law.joinHeld, law.roster, fun held => absurd rfl held, fun _ => rfl⟩
    have heard := (gone.afterEcho talks.toCalm.gone flies).of_hears header
    refine State.LineSound.of_hears ?_ rest
    rw [feederGoodEcho_eq]
    exact ⟨heard.placed, heard.joinHeld, heard.roster, heard.untaken, heard.silence⟩
  | turn count idle quiet command => exact ownTurnStart_lineSound talks.own law
  | founds command listening uncounted idle =>
    refine ownTurnStart_lineSound ?_ ⟨fun p held => ?_, ⟨?_, nofun⟩, ⟨fun _ => rfl, fun _ => ?_⟩, fun held => ?_,
      fun run => absurd rfl run⟩
    · rw [State.founded_own]
      exact talks.own
    · exact nomatch (talks.uncounted uncounted).1.symm.trans ((LineCtl.setRoster_position ..).symm.trans held)
    · exact (LineCtl.setRoster_joinHold ..).trans_le law.joinHeld.1
    · rw [State.founded_own]
      show LineCtl.onRoster (s.line.setRoster s.own (some 0)) s.own = true
      rw [LineCtl.onRoster, LineCtl.lapses_setRoster _ _ _ talks.own.1 talks.own.2]
      rfl
    · exact (LineCtl.setRoster_untaken ..).trans (law.untaken fun none => held ((LineCtl.setRoster_carrier ..).trans none))

/-- A step raises the jabber count by one at most (R142). -/
theorem LineStep.jabber (h : LineStep i s y) (talks : s.Talks) : y.line.jabber ≤ s.line.jabber + 1 := by
  cases h with
  | wired wired => exact wired.jabber
  | expired => exact (expireClaims_hears s).jabber.trans_le (Nat.le_succ _)
  | heard quiet first hears last jabber => exact jabber.trans_le (Nat.le_succ _)
  | failed k jabber ref sends same carrier limit =>
    exact (ownTurnFailed_hears talks.toCalm sends k jabber ref same).jabber.trans_le limit
  | @good own f sends sound read =>
    exact (ownTurnGood_jabber talks.toCalm.gone (by rw [sends]; nofun) sound own.carried).trans_le (Nat.zero_le _)
  | turn count idle quiet command => exact (ownTurnStart_jabber ..).trans_le (Nat.le_succ _)
  | founds command listening uncounted idle =>
    exact ((ownTurnStart_jabber 0 _).trans (LineCtl.setRoster_jabber ..)).trans_le (Nat.le_succ _)

/-! ## Line states and admissions (R121, R128) -/

/-- How a step changes the line state. -/
theorem LineStep.states (h : LineStep i s y) (talks : s.Talks) :
    y.line.state = s.line.state ∨ (s.line.state = .listening ∧ (y.line.state = .joining ∨ (y.line.state = .onLine ∧ i = .founding)))
      ∨ (s.line.state = .joining ∧ y.line.state = .onLine) := by
  have hears {x z : State} (same : x.line.state = s.line.state) (h : x.Hears z) : z.line.state = s.line.state
      ∨ (s.line.state = .listening ∧ (z.line.state = .joining ∨ (z.line.state = .onLine ∧ i = .founding)))
      ∨ (s.line.state = .joining ∧ z.line.state = .onLine) := by
    obtain still | ⟨listening, joining, -⟩ := h.state
    · exact .inl (still.trans same)
    · exact .inr (.inl ⟨same.symm.trans listening, .inl joining⟩)
  cases h with
  | wired wired => exact .inl wired.kept.2.2.2.2.1
  | expired => exact hears rfl (expireClaims_hears s)
  | heard quiet first heard last jabber =>
    rw [last.kept.2.2.2.2.1]
    exact hears first.kept.2.2.2.2.1 heard
  | failed k jabber ref sends same carrier limit =>
    refine hears ?_ (ownTurnFailed_hears talks.toCalm sends k jabber ref same)
    rw [same]
    rfl
  | @good own f sends sound read =>
    have flies : s.line.inFlight ≠ none := by rw [sends]; nofun
    obtain ⟨header, rest⟩ := ownTurnGood_hears talks.toCalm.gone flies sound own.carried
    have onLine : (ownTurnGood f own.carried { s with line := { s.line with carrier := none } }).line.state = .onLine := by
      rw [rest.onLine_iff, feederGoodEcho_eq]
      exact header.onLine_iff.2 (State.afterEcho_onLine talks.toCalm.gone flies)
    obtain joining | on := talks.toCalm.joins flies
    · exact .inr (.inr ⟨joining, onLine⟩)
    · exact .inl (onLine.trans on.symm)
  | turn count idle quiet command =>
    obtain ⟨w, begun, -⟩ := ownTurnStart_slots (s := s) _ talks.own
    rw [begun]
    exact .inl rfl
  | founds command listening uncounted idle =>
    obtain ⟨v, w, begun, -⟩ := ownTurnStart_judged 0 s.founded
    rw [begun]
    exact .inr (.inl ⟨listening, .inr ⟨rfl, command⟩⟩)

/-- A step leaves an own slot ACTIVE since another round only by its admission in the own turn ON LINE (R121). -/
theorem LineStep.admits {l h : Nat} {r : Word16} (step : LineStep i s y) (talks : s.Talks) (backed : s.Backed)
    (active : (y.view.row y.own).slot c = .active l r h) (new : ∀ l' h', (s.view.row s.own).slot c ≠ .active l' r h') :
    (i = .ownTurnStart ∧ s.line.state = .onLine) ∧ s.blind = false ∧ y.line.count = some r
      ∧ y.view.committed r ≤ y.lc.budget ∧ y.view.offer c ≠ none ∧ (s.eng c).state = .requesting := by
  have other : ¬((y.view.row y.own).slot c = .active l r h → (s.view.row s.own).slot c = .active l r h) :=
    fun back => new l h (back active)
  have hears {x z : State} (heard : x.Hears z) (before : (x.view.row x.own).slot c = .active l r h →
      (s.view.row s.own).slot c = .active l r h) (now : (z.view.row z.own).slot c = .active l r h) : False := by
    rw [heard.lasts.own] at now
    exact new l h (before (heard.claims c l r h now))
  cases step with
  | wired wired =>
    rw [wired.kept.1, wired.kept.2.2.2.2.2.1] at other
    exact absurd id other
  | expired => exact (hears (expireClaims_hears s) id active).elim
  | heard quiet first heard last jabber =>
    rw [last.kept.1, last.kept.2.2.2.2.2.1] at active
    refine (hears heard ?_ active).elim
    rw [first.kept.1, first.kept.2.2.2.2.2.1]
    exact id
  | @failed u k jabber ref sends same carrier limit =>
    refine (hears (ownTurnFailed_hears talks.toCalm sends k jabber ref same) (fun now => ?_) active).elim
    have view : u.view = s.view := by rw [same]
    have own : u.own = s.own := by rw [same]; rfl
    have slot : ((u.view.row u.own).slot c).unoffered (u.view.offer c) = .active l r h := by
      refine Eq.trans ?_ ((View.slot_setRow_own (a := u.own) (by rw [own]; exact talks.own) _).symm.trans now)
      cases c <;> rfl
    rw [view, own] at slot
    unfold Slot.unoffered at slot
    split at slot
    · cases slot
    · exact slot
  | @good own f sends sound read =>
    obtain ⟨header, rest⟩ := ownTurnGood_hears talks.toCalm.gone (by rw [sends]; nofun) sound own.carried
    refine (hears rest (fun now => ?_) active).elim
    rw [feederGoodEcho_eq] at now
    have now : ((applyHeader f _).view.row (applyHeader f _).own).slot c = .active l r h := now
    rw [header.lasts.own] at now
    have before := header.claims c l r h now
    rw [State.own, State.afterEcho_kept.2.1] at before
    exact before
  | @turn n count idle quiet command =>
    obtain ⟨w, begun, slots, admitted, -⟩ := ownTurnStart_slots (s := s) n talks.own
    rw [begun] at active ⊢
    obtain ⟨same, -⟩ | admits := slots c
    · have set : s.slotToSet n c = .active l r h := same.symm.trans active
      have firing : (s.eng c).state = .firing := State.firing_of_slotToSet set
      rw [State.slotToSet_of_firing firing] at set
      exact absurd set (new l h)
    · obtain ⟨sighted, within⟩ := admitted c admits
      have requesting := admits.requesting backed
      obtain ⟨l', r', q, -, -, now, offer⟩ := admits
      cases now.symm.trans active
      refine ⟨?_, sighted, count, within, ?_, requesting⟩
      · refine command.resolve_right fun joining => ?_
        simp [State.blind, (talks.fresh (.inr joining)).1] at sighted
      · intro none
        cases offer.symm.trans none
  | founds command listening uncounted idle =>
    obtain ⟨w, begun, slots, admitted, -⟩ := ownTurnStart_slots (s := s.founded) 0 (by rw [State.founded_own]; exact talks.own)
    rw [begun] at active
    obtain ⟨same, -⟩ | admits := slots c
    · have set : s.founded.slotToSet 0 c = .active l r h := same.symm.trans active
      have firing : (s.founded.eng c).state = .firing := State.firing_of_slotToSet set
      rw [State.slotToSet_of_firing firing, State.founded_own] at set
      exact absurd set (new l h)
    · have sighted := (admitted c admits).1
      have fresh : s.founded.view.fresh = true := (talks.fresh (.inl listening)).1
      simp [State.blind, fresh] at sighted

end Sys2Proof.Machine
end

