-- ==== Sys2Proof/Proofs/LineStatesSound.lean ====
section
/-!
The line states (06, 09): what every command leaves of the start-up law, and how it changes the line state. O47, O53.
-/

namespace Sys2Proof.Machine

variable {s t u y : State} {i : Instr} {c : Chan} {W B : Prop}

/-! ## Commands beside the line -/

/-- A command that does not work on the line: the view and the line stand, the outbox apart, and no engine fires by it. -/
structure State.Spares (s t : State) : Prop where
  lasts : s.Lasts t
  view : t.view = s.view
  line : t.line = { s.line with outbox := t.line.outbox }
  firing : ∀ c, (t.eng c).state = .firing → (s.eng c).state = .firing

theorem State.Spares.refl (s : State) : s.Spares s := ⟨.refl s, rfl, rfl, fun _ => id⟩

theorem State.Spares.trans (h : s.Spares t) (g : t.Spares u) : s.Spares u :=
  ⟨h.lasts.trans g.lasts, g.view.trans h.view, by rw [g.line, h.line], fun c => h.firing c ∘ g.firing c⟩

/-- Only an admission fires an engine (R79). -/
theorem Move.firing (move : Move False c s t) (d : Chan) (firing : (t.eng d).state = .firing) : (s.eng d).state = .firing := by
  by_cases other : d ≠ c
  · rwa [move.apart.engine d other] at firing
  obtain rfl : d = c := not_not.1 other
  cases move with
  | pulseEnded none => rwa [State.eng_modEng] at firing
  | strobeGiven pending => rwa [giveStrobe_eng] at firing
  | gated positioning given =>
    rw [State.eng_modEng] at firing
    cases firing
  | asked gated =>
    unfold enterRequesting at firing
    rw [State.eng_modEng] at firing
    cases firing
  | unasked requesting =>
    rw [State.eng_modEng] at firing
    cases firing
  | fired allowed requesting => exact allowed.elim
  | counted n => rwa [State.eng_modEng] at firing
  | eventTaken w window => rwa [State.eng_setWindow] at firing
  | held o e point spent =>
    rw [holdPoint_eng] at firing
    cases firing
  | advanced o e point spent =>
    obtain ⟨j, -, -, sent⟩ | ⟨finished, -⟩ := endPoint_eng d o (s.setEng d e)
    · rw [sent, Engine.sentTo_state] at firing
      cases firing
    · rw [finished] at firing
      cases firing
  | closed =>
    rw [closeOut_eng] at firing
    cases firing

theorem Deed.spares (h : Deed False s t) : s.Spares t := by
  have lasts := h.lasts
  cases h with
  | move move => exact ⟨lasts, move.apart.view, by rw [move.apart.line], move.firing⟩
  | line allowed => exact allowed.elim
  | pushed i _ =>
    refine ⟨lasts, State.pushItem_view .., ?_, fun c firing => ?_⟩
    · unfold State.pushItem
      split <;> rfl
    · cases c
      · rwa [State.eng_a, State.pushItem_engA] at firing
      · rwa [State.eng_b, State.pushItem_engB] at firing
  | body _ _ _ _ _ _ _ _ => exact ⟨lasts, rfl, rfl, fun c => by cases c <;> exact id⟩
  | aux _ => exact ⟨lasts, rfl, rfl, fun c => by cases c <;> exact id⟩

theorem Binds.spares (h : Binds W u t) : u.Spares t := by
  have lasts := h.lasts
  cases h with
  | mk datum serial style options disputed listed _ _ =>
    refine ⟨lasts, ?_, ?_, bindZone_of_starts (P := fun c s => (s.eng c).state = .firing → (u.eng c).state = .firing)
      (Q := fun c s => (s.eng c).state = .firing → (u.eng c).state = .firing) datum serial style options disputed listed u ?_ ?_ ?_ ?_⟩
    · unfold bindZone
      exact (startEngine_apart .b _ _).view.trans (startEngine_apart .a _ _).view
    · unfold bindZone
      dsimp only
      rw [(startEngine_apart .b _ _).line, (startEngine_apart .a _ _).line]
      rfl
    · intro b _ _ c
      cases c <;> exact id
    · intro c d s t other apart before firing
      rw [apart.engine c other] at firing
      exact before firing
    · intro c d s t other apart before firing
      rw [apart.engine c other] at firing
      exact before firing
    · intro c b s _ _ before firing
      obtain ⟨same, -⟩ | ⟨p, n, -, ⟨j, -, -, sent⟩ | ⟨finished, -⟩⟩ := startEngine_eng c b s
      · rw [same] at firing
        exact before firing
      · rw [sent, Engine.sentTo_state] at firing
        cases firing
      · rw [finished] at firing
        cases firing

/-- Every command that neither starts up nor works on the line spares it. -/
theorem exec_spares (i : Instr) (s : State) (other : i.startsUp = false) (works : i.worksLine = false) :
    AllNext s.Spares (exec i s) := by
  refine (exec_passes i s other).mono fun passes => ?_
  rw [works] at passes
  obtain ⟨u, deeds, last⟩ := passes
  have walk : s.Spares u := Deeds.keeps (P := s.Spares) (fun deed h => h.trans (Deed.spares (by simpa using deed))) deeds (.refl s)
  obtain rfl | ⟨-, binds⟩ := last
  · exact walk
  · exact walk.trans binds.spares

theorem State.Talks.of_spares (talks : s.Talks) (h : s.Spares t) : t.Talks := by
  obtain ⟨lasts, view, line, -⟩ := h
  have own := lasts.own
  exact {
    running := by
      rw [State.isRunning, line]
      exact talks.running
    own := by
      rw [own]
      exact talks.own
    listening := by
      rw [line]
      exact talks.listening
    uncounted := by
      rw [line]
      exact talks.uncounted
    counted := by
      rw [line]
      exact talks.counted
    flight := by
      rw [line]
      exact talks.flight
    offers := by
      rw [view, line]
      exact talks.offers
    fresh := by
      rw [view, line]
      exact talks.fresh }

/-! ## OFF LINE (R64, R93, R126, R152, R160) -/

/-- What the entry to OFF LINE leaves of the view and the line. -/
theorem enterOffLine_kept (s : State) : (enterOffLine s).view = { s.view with offerA := none, offerB := none }
    ∧ (enterOffLine s).line = { s.line.setRoster s.own none with
        state := .offLine, position := none, foundingTimer := .stopped, inFlight := none, de := false, carrier := none
        untaken := .absent }
    ∧ (enterOffLine s).store = s.store := by
  have apart := closeOut_apart .b (closeOut .a s)
  have first := closeOut_apart .a s
  unfold enterOffLine
  refine ⟨?_, ?_, apart.store.trans first.store⟩
  · dsimp only
    rw [apart.view, first.view]
  · dsimp only
    rw [State.own, apart.line, first.line]
    rfl

/-- Both engines are closed out in OFF LINE (R91, R93). -/
theorem enterOffLine_eng (s : State) (c : Chan) : ((enterOffLine s).eng c).state = .idle ∧ ((enterOffLine s).eng c).Home := by
  have same : (enterOffLine s).eng c = (closeOut .b (closeOut .a s)).eng c := by cases c <;> rfl
  rw [same]
  cases c with
  | a =>
    rw [(closeOut_apart .b (closeOut .a s)).engine .a nofun, closeOut_eng]
    exact ⟨rfl, ⟨rfl, rfl, rfl, rfl, rfl⟩⟩
  | b =>
    rw [closeOut_eng]
    exact ⟨rfl, ⟨rfl, rfl, rfl, rfl, rfl⟩⟩

theorem enterOffLine_atRest (s : State) : (enterOffLine s).AtRest where
  engines c := ⟨(enterOffLine_eng s c).1, (enterOffLine_eng s c).2, by cases c <;> rfl⟩
  watches := ⟨rfl, rfl, rfl⟩
  tags := ⟨rfl, rfl⟩
  offers := ⟨rfl, rfl⟩
  line := ⟨rfl, rfl, rfl, rfl, rfl, rfl⟩
  filters x mem := by
    have stopped : x ∈ (stopConditioning (closeOut .b (closeOut .a s)).aux.inputs).toList := mem
    rw [stopConditioning_eq] at stopped
    rw [Vector.toList_map, List.mem_map] at stopped
    obtain ⟨y, -, rfl⟩ := stopped
    rfl

/-- In OFF LINE only the counter's positions, motion state and halt timer move (R21). -/
def State.OnlyConveyed (s t : State) : Prop :=
  t = { s with counter := { s.counter with
    quad := t.counter.quad, raw := t.counter.raw, tracked := t.counter.tracked, motion := t.counter.motion
    haltTimer := t.counter.haltTimer } }

theorem State.setTracked_of_rest (rest : s.AtRest) (x : Word32) :
    s.setTracked x = { s with counter := { s.counter with tracked := x } } := by
  obtain ⟨held, pair, zone⟩ := rest.watches
  have windowA : s.counter.windowA = none := (rest.engines .a).2.2
  have windowB : s.counter.windowB = none := (rest.engines .b).2.2
  unfold State.setTracked
  split
  next same => rw [same]
  · unfold State.updateWindows State.windowAfter Counter.updateWatches
    dsimp only [Counter.window]
    rw [held, pair, zone, windowA, windowB]
    rfl

theorem State.AtRest.of_conveyed (rest : s.AtRest) (h : s.OnlyConveyed t) : t.AtRest := by
  rw [h]
  exact rest.of_same (fun c => by cases c <;> rfl) (fun c => by cases c <;> rfl) ⟨rfl, rfl, rfl⟩ rfl rfl rfl rfl

theorem exec_of_offLine (i : Instr) (rest : s.AtRest) (off : s.line.state = .offLine) (other : i.startsUp = false) :
    AllNext s.OnlyConveyed (exec i s) := by
  have still : s.isRunning = false := by rw [State.isRunning, off]; rfl
  cases conveys : i.movesConveyor with
  | false =>
    rw [exec_of_rest i rest still other conveys]
    exact (allNext_next _ _).2 rfl
  | true =>
    cases i with
    | countChange line =>
      show AllNext _ (execCountChange line s)
      unfold execCountChange
      split
      · exact (allNext_next _ _).2 rfl
      · have reverse : s.setReverse = s := if_pos off
        dsimp only
        rw [reverse, ite_self, State.setTracked_of_rest]
        · exact (allNext_next _ _).2 rfl
        · exact rest.of_conveyed rfl
    | illegalTransition =>
      show AllNext _ (execIllegalTransition s)
      unfold execIllegalTransition
      split
      · exact (allNext_next _ _).2 rfl
      · dsimp only
        rw [if_pos off]
        exact (allNext_next _ _).2 rfl
    | haltTimerExpiry =>
      show AllNext _ (execHaltTimerExpiry s)
      unfold execHaltTimerExpiry
      split
      · exact (allNext_next _ _).2 rfl
      · dsimp only
        rw [State.setTracked_of_rest]
        · exact (allNext_next _ _).2 rfl
        · exact rest.of_conveyed rfl
    | _ => cases conveys

/-! ## The start-up law, put together -/

theorem State.Talks.startUp (h : s.Talks) (ended : s.store.phase = .ended) : s.StartUp := by
  have running (l : LineState) (still : l.running = false) : s.line.state ≠ l := fun is => by
    have running := h.running
    rw [State.isRunning, is, still] at running
    cases running
  exact {
    loading := ⟨fun loading => absurd loading (running .loading rfl), fun loads => absurd ended loads⟩
    straps := fun straps => nomatch ended.symm.trans straps
    heldBack := fun loading => absurd loading (running .loading rfl)
    own := fun _ _ => h.own
    offLine := fun off => absurd off (running .offLine rfl)
    listening := h.listening
    uncounted := h.uncounted
    counted := h.counted
    flight := h.flight
    offers := h.offers
    fresh := h.fresh }

theorem State.AtRest.startUp (h : s.AtRest) (off : s.line.state = .offLine) (ended : s.store.phase = .ended) : s.StartUp := by
  obtain ⟨de, flight, -, position, -, absent⟩ := h.line
  exact {
    loading := ⟨fun loading => (nomatch off.symm.trans loading), fun loads => absurd ended loads⟩
    straps := fun straps => nomatch ended.symm.trans straps
    heldBack := fun loading => nomatch off.symm.trans loading
    own := fun _ on => absurd off on
    offLine := fun _ => h
    listening := fun _ => ⟨de, flight⟩
    uncounted := fun _ => ⟨position, flight⟩
    counted := fun on => by rw [off] at on; exact on.elim nofun nofun
    flight := fun sends => absurd flight sends
    offers := fun offered => (offered.elim (absurd h.offers.1) (absurd h.offers.2) : False).elim
    fresh := fun on => by rw [off] at on; exact on.elim nofun nofun }

/-- LOADING under way, with everything held back. -/
theorem State.HeldBack.startUp (h : s.HeldBack) (loading : s.line.state = .loading) (phase : s.store.phase ≠ .ended)
    (straps : s.store.phase = .straps → { s with pending := [] } = State.reset)
    (own : s.store.phase ≠ .straps → 1 ≤ s.own ∧ s.own ≤ 30) : s.StartUp := by
  obtain ⟨de, flight, -, position, -, absent⟩ := h.atRest.line
  exact {
    loading := ⟨fun _ => phase, fun _ => loading⟩
    straps := straps
    heldBack := fun _ => h
    own := fun begun _ => own begun
    offLine := fun _ => h.atRest
    listening := fun _ => ⟨de, flight⟩
    uncounted := fun _ => ⟨position, flight⟩
    counted := fun on => by rw [loading] at on; exact on.elim nofun nofun
    flight := fun sends => absurd flight sends
    offers := fun offered => (offered.elim (absurd h.atRest.offers.1) (absurd h.atRest.offers.2) : False).elim
    fresh := fun on => by rw [loading] at on; exact on.elim nofun nofun }

theorem reset_heldBack (rest : List Instr) : State.HeldBack { State.reset with pending := rest } :=
  ⟨rfl, rfl, ⟨rfl, rfl⟩, rfl, rfl, rfl, rfl⟩

theorem reset_startUp (rest : List Instr) : State.StartUp { State.reset with pending := rest } :=
  (reset_heldBack rest).startUp rfl nofun (fun _ => rfl) fun begun => absurd rfl begun

/-- The passes of LOADING go on, end it, or end OFF LINE. -/
theorem Loads.startUp (h : Loads s t) (startUp : s.StartUp) (under : s.store.phase ≠ .ended) : t.StartUp := by
  have loading := startUp.loading.2 under
  have held := startUp.heldBack loading
  have rest := held.atRest
  have own (begun : s.store.phase ≠ .straps) : 1 ≤ s.own ∧ s.own ≤ 30 :=
    startUp.own begun fun off => nomatch loading.symm.trans off
  cases h with
  | offLine st straps later ended =>
    refine State.AtRest.startUp ?_ rfl ended
    exact ⟨fun c => by cases c; exacts [rest.engines .a, rest.engines .b], rest.watches, rest.tags, rest.offers, rest.line,
      rest.filters⟩
  | goesOn st straps l outputs later phase state address =>
    have same : l = .loading := state.elim id fun is => is.trans loading
    refine State.HeldBack.startUp ?_ same phase.1 (fun straps => absurd straps phase.2) fun _ => ?_
    · refine ⟨held.counter, held.tracker, held.engines, held.view, ?_, held.inputs, held.sticky⟩
      have line := held.line
      dsimp only
      rw [line, same]
      rfl
    · obtain range | ⟨begun, kept⟩ := address
      · exact range
      · subst kept
        exact own begun
  | listens st pins later begun =>
    refine State.Talks.startUp ?_ rfl
    obtain ⟨de, flight, -, position, -, -⟩ := rest.line
    have fresh : s.view.fresh = true ∧ s.line.record.openedOnLine = false := by
      rw [held.view, held.line]
      exact ⟨rfl, rfl⟩
    exact {
      running := rfl
      own := own begun
      listening := fun _ => ⟨de, flight⟩
      uncounted := fun _ => ⟨position, flight⟩
      counted := fun on => on.elim nofun nofun
      flight := fun sends => absurd flight sends
      offers := fun offered => (offered.elim (absurd rest.offers.1) (absurd rest.offers.2) : False).elim
      fresh := fun _ => fresh }

/-- A part is in LOADING, OFF LINE, or in a running line state (R128). -/
theorem State.loading_or_offLine_or_running (s : State) : s.line.state = .loading ∨ s.line.state = .offLine ∨ s.isRunning = true := by
  cases state : s.line.state with
  | loading => exact .inl rfl
  | offLine => exact .inr (.inl rfl)
  | _ => exact .inr (.inr (by rw [State.isRunning, state]; rfl))

/-- Every command keeps the start-up law. -/
theorem exec_startUp (i : Instr) (startUp : s.StartUp) : AllNext State.StartUp (exec i s) := by
  refine exec_of_cases i (fun other => ?_) (reset_startUp _) startUp fun under _ loads => loads.startUp startUp under
  obtain loading | off | running := s.loading_or_offLine_or_running
  · rw [startUp.exec_of_loading loading i other]
    exact (allNext_next _ _).2 startUp
  · have rest := startUp.offLine off
    have ended : s.store.phase = .ended := by
      by_contra loads
      cases off.symm.trans (startUp.loading.2 loads)
    refine (exec_of_offLine i rest off other).mono fun {t} moved => State.AtRest.startUp (rest.of_conveyed moved) ?_ ?_
    · rw [moved]
      exact off
    · rw [moved]
      exact ended
  · intro t next
    have talks := startUp.talks running
    have ended : t.store.phase = .ended := by
      rw [(exec_lasts i s other t next).store]
      exact startUp.ended running
    cases works : i.worksLine with
    | false => exact (talks.of_spares (exec_spares i s other works t next)).startUp ended
    | true =>
      obtain ⟨y, step, ⟨rfl, -⟩ | ⟨rfl, -⟩⟩ := exec_ends talks i works t next
      · exact (step.talks talks).startUp ended
      · exact (enterOffLine_atRest y).startUp rfl ended

/-- Settles O53: as a law of every command. -/
theorem lineStatesStaySound : Obligations.LineStatesStaySound := by
  unfold Obligations.LineStatesStaySound
  intro s t startUp
  exact step_of_exec (P := State.StartUp) id (fun rest h => h.queued rest) (fun i h => exec_startUp i h) startUp

/-! ## How the line state changes -/

theorem Loads.states (h : Loads s t) : t.line.state = .listening ∨ t.line.state = .offLine ∨ t.line.state = .loading
    ∨ t.line.state = s.line.state := by
  cases h with
  | offLine st straps later ended => exact .inr (.inl rfl)
  | goesOn st straps l outputs later phase state address => exact .inr (.inr state)
  | listens st pins later begun => exact .inl rfl

/-- Settles O47: by the passes of LOADING, the conveyor alone in OFF LINE, and the steps of the line. -/
theorem lineStatesChangeAsGiven : Obligations.LineStatesChangeAsGiven := by
  unfold Obligations.LineStatesChangeAsGiven
  intro i s t startUp next
  by_cases reset : i = .reset
  · subst reset
    cases next
    exact ⟨fun _ => .inl ⟨rfl, rfl⟩, fun _ not => absurd rfl not⟩
  cases starts : i.startsUp with
  | true =>
    obtain rfl | ⟨under, loads⟩ := exec_loads i s starts reset t next
    · exact ⟨fun changed => absurd rfl changed, fun _ _ => rfl⟩
    · have loading := startUp.loading.2 under
      refine ⟨fun changed => ?_, fun off => nomatch loading.symm.trans off⟩
      rw [loading] at changed ⊢
      obtain listening | off | same | same := loads.states
      · exact .inr (.inl ⟨rfl, .inl listening⟩)
      · exact .inr (.inl ⟨rfl, .inr off⟩)
      · exact absurd same.symm changed
      · exact absurd (same.trans loading).symm changed
  | false =>
    obtain loading | off | running := s.loading_or_offLine_or_running
    · rw [startUp.exec_of_loading loading i starts] at next
      cases next
      exact ⟨fun changed => absurd rfl changed, fun _ _ => rfl⟩
    · have moved := exec_of_offLine i (startUp.offLine off) off starts t next
      refine ⟨fun changed => ?_, fun _ _ => moved⟩
      rw [moved] at changed
      exact absurd rfl changed
    · refine ⟨fun changed => ?_, fun off => by rw [State.isRunning, off] at running; cases running⟩
      have talks := startUp.talks running
      cases works : i.worksLine with
      | false =>
        rw [(exec_spares i s starts works t next).line] at changed
        exact absurd rfl changed
      | true =>
        obtain ⟨y, step, ⟨rfl, -⟩ | ⟨rfl, -⟩⟩ := exec_ends talks i works t next
        · obtain same | listening | joining := step.states talks
          · exact absurd same.symm changed
          · exact .inr (.inr (.inl listening))
          · exact .inr (.inr (.inr (.inl joining)))
        · exact .inr (.inr (.inr (.inr ⟨running, rfl⟩)))

end Sys2Proof.Machine
end

