-- ==== Sys2Proof/Proofs/FeederAndLineSound.lean ====
section
/-!
The laws of the feeder and the line over every command, and the state after reset. O46, O52, O59, O60.
-/

namespace Sys2Proof.Machine

variable {s t u y : State} {i : Instr} {c : Chan}

/-! ## Firing and offers (R67) -/

/-- Nothing fires, nothing is offered, and no frame is in flight. -/
theorem State.FiringBacked.of_still (calm : ∀ c, (s.eng c).state ≠ .firing) (offers : s.view.offerA = none ∧ s.view.offerB = none)
    (flight : s.line.inFlight = none) : s.FiringBacked where
  firing c firing := absurd firing (calm c)
  offer c offered := by
    cases c
    · exact absurd offers.1 offered
    · exact absurd offers.2 offered
  flight _ _ sends := nomatch flight.symm.trans sends

theorem State.AtRest.firingBacked (h : s.AtRest) : s.FiringBacked :=
  .of_still (fun c firing => nomatch (h.engines c).1.symm.trans firing) h.offers h.line.2.1

/-- The law reads the engines, the slots, the offers and the line. -/
theorem State.FiringBacked.of_spares (law : s.FiringBacked) (h : s.Spares t) : t.FiringBacked := by
  have own := h.lasts.own
  have live (c : Chan) : t.ownSlotLive c = s.ownSlotLive c := by
    unfold State.ownSlotLive
    rw [h.view, own, h.line]
  refine ⟨fun c firing => ?_, fun c offered => ?_, fun k f sends read => ?_⟩
  · rw [live]
    exact law.firing c (h.firing c firing)
  · rw [live]
    rw [h.view] at offered
    exact (law.offer c offered).imp_right fun calm firing => calm (h.firing c firing)
  · rw [own, h.line]
    rw [h.line] at sends
    exact law.flight k f sends read

theorem exec_firingBacked (i : Instr) (startUp : s.StartUp) (requests : s.RequestsAdmitted) (law : s.FiringBacked) :
    AllNext State.FiringBacked (exec i s) := by
  refine exec_of_cases i (fun other => ?_) (reset_heldBack _).atRest.firingBacked law fun under t loads => ?_
  · obtain loading | off | running := s.loading_or_offLine_or_running
    · rw [startUp.exec_of_loading loading i other]
      exact (allNext_next _ _).2 law
    · have rest := startUp.offLine off
      exact (exec_of_offLine i rest off other).mono fun moved => (rest.of_conveyed moved).firingBacked
    · cases works : i.worksLine with
      | false => exact (exec_spares i s other works).mono law.of_spares
      | true =>
        have talks := startUp.talks running
        rintro t next
        obtain ⟨y, step, ⟨rfl, -⟩ | ⟨rfl, -⟩⟩ := exec_ends talks i works t next
        · exact step.firingBacked talks requests law
        · exact (enterOffLine_atRest y).firingBacked
  · have held := startUp.heldBack (startUp.loading.2 under)
    have same : t.view = s.view ∧ t.line.inFlight = s.line.inFlight := by cases loads <;> exact ⟨rfl, rfl⟩
    refine .of_still (fun c firing => ?_) (by rw [same.1]; exact held.atRest.offers) (same.2.trans held.atRest.line.2.1)
    rw [loads.fresh held c] at firing
    cases firing

/-- Settles O59: a law of every step, and the channel lines' law for the FIRE line. -/
theorem fireOnlyOnAnAdmittedClaim : Obligations.FireOnlyOnAnAdmittedClaim := by
  unfold Obligations.FireOnlyOnAnAdmittedClaim
  refine ⟨fun s t startUp _ programs _ law => ?_, fun c s lines law fire => ?_⟩
  · refine step_of_exec (P := fun s => s.StartUp ∧ s.RequestsAdmitted ∧ s.FiringBacked) (fun h => h.2.2) (fun rest h => ?_)
      (fun i h => exec_firingBacked i h.1 h.2.1 h.2.2) ⟨startUp, programs.request, law⟩
    obtain ⟨startUp, requests, law⟩ := h
    refine ⟨startUp.queued rest, fun c => by cases c; exacts [requests .a, requests .b], fun c firing => ?_,
      fun c offered => ?_, law.flight⟩
    · exact law.firing c (by cases c <;> exact firing)
    · exact ⟨(law.offer c offered).1, by cases c; exacts [(law.offer .a offered).2, (law.offer .b offered).2]⟩
  · refine law.firing c ?_
    by_contra calm
    rw [(lines.low c calm).2] at fire
    cases fire

/-! ## The ranges of the view and the line (Tables 25 to 27, 31) -/

theorem View.afterReset_inRange (own ceiling : Nat) : View.afterReset.InRange own ceiling :=
  ⟨fun a => by rw [View.row_afterReset]; exact AddrRow.blank_inRange .., nofun, Nat.zero_le 30⟩

theorem State.ViewInRange.of_same (law : s.ViewInRange) (rows : t.view.rows = s.view.rows) (orphans : t.view.orphans = s.view.orphans)
    (pointer : t.view.pointer = s.view.pointer) (own : t.own = s.own) (lc : t.lc = s.lc) : t.ViewInRange := by
  rw [State.viewInRange_iff] at law ⊢
  rw [own, lc]
  exact law.of_same rows orphans (pointer.trans_le law.pointer)

theorem enterOffLine_viewInRange (law : s.ViewInRange) : (enterOffLine s).ViewInRange := by
  obtain ⟨view, line, store⟩ := enterOffLine_kept s
  refine law.of_same (by rw [view]) (by rw [view]) (by rw [view]) ?_ (by rw [State.lc, State.lc, store])
  rw [State.own, line]
  exact congrArg BitVec.toNat (LineCtl.setRoster_straps ..)

/-- What LOADING leaves of the view and the line: the reset values, but the straps, the line state and the start of LISTENING. -/
theorem Loads.kept (h : Loads s t) : t.view = s.view ∧ t.line = { s.line with
    straps := t.line.straps, state := t.line.state, untaken := t.line.untaken, foundingTimer := t.line.foundingTimer } := by
  cases h <;> exact ⟨rfl, rfl⟩

theorem exec_viewInRange (i : Instr) (startUp : s.StartUp) (requests : s.RequestsAdmitted) (law : s.ViewInRange) :
    AllNext State.ViewInRange (exec i s) := by
  refine exec_of_cases i (fun other => ?_) (State.viewInRange_iff.2 (View.afterReset_inRange ..)) law fun under t loads => ?_
  · obtain loading | off | running := s.loading_or_offLine_or_running
    · rw [startUp.exec_of_loading loading i other]
      exact (allNext_next _ _).2 law
    · refine (exec_of_offLine i (startUp.offLine off) off other).mono fun moved => ?_
      rw [moved]
      exact law.of_same rfl rfl rfl rfl rfl
    · cases works : i.worksLine with
      | false =>
        refine (exec_spares i s other works).mono fun h => ?_
        exact law.of_same (by rw [h.view]) (by rw [h.view]) (by rw [h.view]) h.lasts.own h.lasts.lc
      | true =>
        have talks := startUp.talks running
        rintro t next
        obtain ⟨y, step, ⟨rfl, -⟩ | ⟨rfl, -⟩⟩ := exec_ends talks i works t next
        · exact step.viewInRange talks requests law
        · exact enterOffLine_viewInRange (step.viewInRange talks requests law)
  · rw [State.viewInRange_iff, loads.kept.1, (startUp.heldBack (startUp.loading.2 under)).view]
    exact View.afterReset_inRange ..

/-- A line with the reset values but for its straps, its line state off the line, and the founding silence. -/
theorem State.LineInRange.of_reset {state : LineState} {straps : BitVec 5} {x : Untaken} {timer : Timer}
    (line : t.line = { LineCtl.afterReset with straps := straps, state := state, untaken := x, foundingTimer := timer })
    (off : state ≠ .onLine) : t.LineInRange := by
  have roster (a : Nat) : t.line.onRoster a = false := by
    rw [line]
    exact LineCtl.onRoster_afterReset a
  refine ⟨?_, ?_, ?_, ?_, ?_, ?_⟩
  · rw [line]
    exact nofun
  · rw [line]
    exact ⟨Nat.zero_le 3, fun _ => Nat.zero_le 2⟩
  · rw [line]
    exact ⟨Nat.zero_le _, fun _ => Nat.succ_pos _⟩
  · rw [roster, line]
    exact ⟨nofun, fun on => absurd on off⟩
  · rw [line]
    exact fun held => absurd rfl held
  · rw [line]
    exact fun _ => rfl

theorem State.LineSound.inRange (h : s.LineSound) (most : s.line.jabber ≤ 3) (on : s.line.state ≠ .offLine → s.line.jabber ≤ 2) :
    s.LineInRange :=
  ⟨h.placed, ⟨most, on⟩, h.joinHeld, h.roster, h.untaken, h.silence⟩

theorem State.LineInRange.of_spares (law : s.LineInRange) (h : s.Spares t) : t.LineInRange := by
  have own := h.lasts.own
  have lc := h.lasts.lc
  refine ⟨?_, ?_, ?_, ?_, ?_, ?_⟩
  · rw [h.line]
    exact law.position
  · rw [h.line]
    exact law.jabber
  · rw [lc, h.line]
    exact law.joinHold
  · rw [own, h.line]
    exact law.roster
  · rw [h.line]
    exact law.untaken
  · rw [h.line]
    exact law.silence

theorem enterOffLine_lineInRange (law : s.LineSound) (most : s.line.jabber ≤ 3) : (enterOffLine s).LineInRange := by
  obtain ⟨-, line, store⟩ := enterOffLine_kept s
  have own : (enterOffLine s).own = s.own := by
    rw [State.own, line]
    exact congrArg BitVec.toNat (LineCtl.setRoster_straps ..)
  refine ⟨?_, ?_, ?_, ?_, ?_, ?_⟩
  · rw [line]
    exact nofun
  · rw [line]
    exact ⟨(LineCtl.setRoster_jabber ..).trans_le most, fun on => absurd rfl on⟩
  · rw [State.lc, store, line]
    exact ⟨(LineCtl.setRoster_joinHold ..).trans_le law.joinHeld.1, nofun⟩
  · rw [own, line]
    refine ⟨fun listed => ?_, nofun⟩
    cases (LineCtl.onRoster_setRoster_none s.line s.own).symm.trans listed
  · rw [line]
    exact fun held => absurd rfl held
  · rw [line]
    exact fun _ => rfl

theorem exec_lineInRange (i : Instr) (startUp : s.StartUp) (law : s.LineInRange) : AllNext State.LineInRange (exec i s) := by
  refine exec_of_cases i (fun other => ?_) (.of_reset rfl nofun) law fun under t loads => ?_
  · obtain loading | off | running := s.loading_or_offLine_or_running
    · rw [startUp.exec_of_loading loading i other]
      exact (allNext_next _ _).2 law
    · refine (exec_of_offLine i (startUp.offLine off) off other).mono fun moved => ?_
      rw [moved]
      exact ⟨law.position, law.jabber, law.joinHold, law.roster, law.untaken, law.silence⟩
    · cases works : i.worksLine with
      | false => exact (exec_spares i s other works).mono law.of_spares
      | true =>
        have talks := startUp.talks running
        have low : s.line.jabber ≤ 2 := law.jabber.2 fun off => by rw [State.isRunning, off] at running; cases running
        rintro t next
        obtain ⟨y, step, ⟨rfl, few⟩ | ⟨rfl, -⟩⟩ := exec_ends talks i works t next
        · have few : t.line.jabber ≤ 2 := few.elim id fun h => h.trans low
          exact (step.lineSound talks law.sound).inRange (few.trans (by decide)) fun _ => few
        · exact enterOffLine_lineInRange (step.lineSound talks law.sound) ((step.jabber talks).trans (by omega))
  · have loading := startUp.loading.2 under
    have line := loads.kept.2
    rw [(startUp.heldBack loading).line] at line
    refine .of_reset line ?_
    obtain is | is | is | is := loads.states
    all_goals rw [is]
    · exact nofun
    · exact nofun
    · exact nofun
    · rw [loading]
      exact nofun

/-- Settles O60: the capacities deed by deed, the ranges step by step of the line. -/
theorem capacitiesAndRangesHold : Obligations.CapacitiesAndRangesHold := by
  unfold Obligations.CapacitiesAndRangesHold
  refine ⟨fun s t => step_bounded, fun s t startUp _ programs view line => ?_⟩
  refine step_of_exec (P := fun s => s.StartUp ∧ s.RequestsAdmitted ∧ s.ViewInRange ∧ s.LineInRange)
    (Q := fun s => s.ViewInRange ∧ s.LineInRange) (fun h => h.2.2) (fun rest h => ?_) (fun i h => ?_)
    ⟨startUp, programs.request, view, line⟩
  · obtain ⟨startUp, requests, view, line⟩ := h
    exact ⟨startUp.queued rest, fun c => by cases c; exacts [requests .a, requests .b], view.of_same rfl rfl rfl rfl rfl,
      ⟨line.position, line.jabber, line.joinHold, line.roster, line.untaken, line.silence⟩⟩
  · obtain ⟨startUp, requests, view, line⟩ := h
    exact fun t next => ⟨exec_viewInRange i startUp requests view t next, exec_lineInRange i startUp line t next⟩

/-! ## Admissions (R121) -/

theorem View.afterReset_slot (a : Nat) (c : Chan) : (View.afterReset.row a).slot c = .empty := by
  rw [View.row_afterReset]
  cases c <;> rfl

/-- Settles O46: of all commands only a step of the line begins a claim, and of the steps only the own turn. -/
theorem onlyOwnTurnAdmits : Obligations.OnlyOwnTurnAdmits := by
  unfold Obligations.OnlyOwnTurnAdmits
  intro i c s t l h r startUp _ _ backed next active new
  have kept {P : Prop} (rows : t.view.rows = s.view.rows) (own : t.own = s.own) : P := by
    rw [View.row_of_rows rows, own] at active
    exact absurd active (new l h)
  cases starts : i.startsUp with
  | true =>
    have blank {P : Prop} (view : t.view = View.afterReset) : P := by
      rw [view, View.afterReset_slot] at active
      cases active
    by_cases reset : i = .reset
    · subst reset
      cases next
      exact blank rfl
    · obtain rfl | ⟨under, loads⟩ := exec_loads i s starts reset t next
      · exact kept rfl rfl
      · exact blank (loads.kept.1.trans (startUp.heldBack (startUp.loading.2 under)).view)
  | false =>
    obtain loading | off | running := s.loading_or_offLine_or_running
    · rw [startUp.exec_of_loading loading i starts] at next
      cases next
      exact kept rfl rfl
    · have moved := exec_of_offLine i (startUp.offLine off) off starts t next
      exact kept (by rw [moved]) (by rw [moved]; rfl)
    · have talks := startUp.talks running
      cases works : i.worksLine with
      | false =>
        have spares := exec_spares i s starts works t next
        exact kept (by rw [spares.view]) spares.lasts.own
      | true =>
        obtain ⟨y, step, ⟨rfl, -⟩ | ⟨rfl, quiet⟩⟩ := exec_ends talks i works t next
        · exact step.admits talks backed.firing active new
        · obtain ⟨view, line, -⟩ := enterOffLine_kept y
          have own : (enterOffLine y).own = y.own := by
            rw [State.own, line]
            exact congrArg BitVec.toNat (LineCtl.setRoster_straps ..)
          rw [own, View.row_of_rows (show (enterOffLine y).view.rows = y.view.rows by rw [view])] at active
          obtain ⟨-, -, -, -, offered, -⟩ := step.admits talks backed.firing active new
          exact absurd ((step.talks talks).no_offer quiet c) offered

/-! ## The state after reset -/

/-- Settles O52: at rest, with the reset values of every block. -/
theorem resetIsSound : Obligations.ResetIsSound := by
  unfold Obligations.ResetIsSound
  have programs : State.reset.LibraryChecked := execReset_libraryChecked State.reset _ rfl
  have windows : State.reset.WindowsFollow := execReset_windowsFollow State.reset _ rfl
  exact ⟨reset_bounded [], reset_startUp [], .of_zero (Nat.zero_le 255) rfl rfl, windows, programs, (reset_fresh []).programsGood,
    (reset_fresh []).linesFollow, .of_free rfl, (reset_heldBack []).atRest.firingBacked,
    State.viewInRange_iff.2 (View.afterReset_inRange ..), .of_reset rfl nofun⟩

end Sys2Proof.Machine
end
